-- ==== Sys2Proof/Word.lean ====
section
/-!
DEFINITION. The machine's words and its plainest arithmetic: instruction words and registers
of 32 bits, pairs of 64, and virtual and physical addresses of 52 (R2, R26, R211).
-/
namespace Sys2Proof

/-- An instruction word or a register of one lane (R54, R98). -/
abbrev Word := BitVec 32
/-- A pair of registers (R55). -/
abbrev Dword := BitVec 64
/-- The smallest unit of memory (R2). -/
abbrev Byte := BitVec 8
/-- A virtual address (R211); program counters are virtual addresses. -/
abbrev VAddr := BitVec 52
/-- A register field of an instruction word (R99). -/
abbrev Reg := BitVec 8

/-- The four bytes of a word, least significant first (R2). -/
def wordBytes (w : Word) : List Byte :=
  [w.extractLsb' 0 8, w.extractLsb' 8 8, w.extractLsb' 16 8, w.extractLsb' 24 8]

end Sys2Proof
end

