-- ==== Sys2Proof/Syntax.lean ====
section
/-!
DEFINITION. Syntax of the instruction set: one constructor of `Instr` per row of
spec/opcode_table.json. Rows with an encoding carry their decoded fields; rows without bits are
the part's own events (95_what_each_step_holds.md) and carry what names the occurrence.
-/
namespace Sys2Proof

/-- Memory scopes, in the order of their codes (R105). -/
inductive Scope where
  | grp | team | clu | die | dev | sys
  deriving DecidableEq, Repr

/-- Memory orders, in the order of their codes (R105). -/
inductive Order where
  | relaxed | acquire | release | acqRel
  deriving DecidableEq, Repr

/-- Access widths, in the order of their codes (R105). -/
inductive Width where
  | b8 | b16 | b32 | b64 | b128
  deriving DecidableEq, Repr

/-- The ctl byte of LD, LDB, ST, LDS, STS, ATOM, ATOMN and CAS (R105). -/
structure Ctl where
  width : Width
  scope : Scope
  order : Order
  deriving DecidableEq, Repr

/-- Element types, in the order of their GM.ET and CVT codes; 14 and 15 are reserved (R62). -/
inductive ElemType where
  | i32 | n32 | i64 | n64 | i16x2 | n16x2 | i8x4 | n8x4
  | f32 | f64 | bf16x2 | f16x2 | rn16 | rn8
  deriving DecidableEq, Repr

/-- REDUCE and SCAN operations, in the order of their codes (R53). -/
inductive RedOp where
  | add | min | max | and | or | xor | fadd | fmin | fmax
  deriving DecidableEq, Repr

/-- TMAP functions, in the order of their codes (R114). -/
inductive TileFn where
  | identity | relu | negate | absolute | exp2 | log2 | tanh | reciprocal | squareRoot
  deriving DecidableEq, Repr

/-- TRED operations, in the order of their codes; 3 is reserved (R114). -/
inductive TileRed where
  | sum | max | min
  deriving DecidableEq, Repr

/-- The halves of MM0 to MM2 that MXMODE writes, in the order of their codes (R65, R111). -/
inductive MxHalf where
  | mm0Low | mm0High | mm1Low | mm1High | mm2Low | mm2High
  deriving DecidableEq, Repr

/-- A flag field of a clause header: f0 to f11, or none (code 15) (R72). -/
abbrev FlagSel := Option (Fin 12)

/-- A step that a home slice may take on the pending list of one word (R226, R227). -/
inductive MopStep where
  | swap (i : Nat)
  | fuse (i : Nat)
  | drop (i : Nat)
  | cancel (i : Nat)
  | head
  deriving DecidableEq, Repr

/-- A peer device's access to a local address (R230, R316). An atomic's code counts add, min, max, and,
or, xor, xchg and CAS; an operator carries the function, element type and rounding that its device
attached, and a MOPR returns the old value (R222, R230). -/
inductive PeerAccess where
  | read (bytes : Nat)
  | write (data : List Byte)
  | atomic (code : BitVec 3) (et : ElemType) (operand compare : Dword)
  | operator (fn : Nat) (et : ElemType) (rm : BitVec 3) (operand : Dword) (returns : Bool)
  deriving DecidableEq, Repr

/-- Where a memory or logic error is detected (R324). -/
inductive ErrorSite where
  | hbm (addr : Nat)
  | l2 (addr : Nat)
  | l1 (core : Nat) (addr : Nat)
  | scratch (core : Nat) (offset : Nat)
  | registers (slot : Nat)
  | link (port : Nat)
  deriving DecidableEq, Repr

/-- Power states of a core or a quadrant (R325). -/
inductive PowerState where
  | on | throt (n : Nat) | gate | off
  deriving DecidableEq, Repr

/-- The instructions: every row of spec/opcode_table.json. -/
inductive Instr where
  /-- `ADD` (R328): lane-wise integer add under GM.ET with optional saturation. -/
  | add (d a b : Reg)
  /-- `ADD.s` (R328): scalar twin of ADD: computes once from scalar reads and writes every lane of the gang. -/
  | addS (d a b : Reg)
  /-- `SUB` (R412): lane-wise integer subtract under GM.ET with optional saturation. -/
  | sub (d a b : Reg)
  /-- `SUB.s` (R412): scalar twin of SUB. -/
  | subS (d a b : Reg)
  /-- `MUL` (R382): lane-wise integer multiply, low bits, with Fit. -/
  | mul (d a b : Reg)
  /-- `MUL.s` (R382): scalar twin of MUL. -/
  | mulS (d a b : Reg)
  /-- `MULHI` (R382): lane-wise high half of the exact integer product. -/
  | mulhi (d a b : Reg)
  /-- `MULHI.s` (R382): scalar twin of MULHI. -/
  | mulhiS (d a b : Reg)
  /-- `MADLO` (R382): lane-wise multiply-add low bits into d, with Fit of the exact sum. -/
  | madlo (d a b : Reg)
  /-- `MADLO.s` (R382): scalar twin of MADLO. -/
  | madloS (d a b : Reg)
  /-- `MIN` (R382): lane-wise integer minimum in ET. -/
  | min (d a b : Reg)
  /-- `MIN.s` (R382): scalar twin of MIN. -/
  | minS (d a b : Reg)
  /-- `MAX` (R382): lane-wise integer maximum in ET. -/
  | max (d a b : Reg)
  /-- `MAX.s` (R382): scalar twin of MAX. -/
  | maxS (d a b : Reg)
  /-- `AND` (R331): lane-wise bitwise and over 32 or 64 bits. -/
  | and (d a b : Reg)
  /-- `AND.s` (R331): scalar twin of AND. -/
  | andS (d a b : Reg)
  /-- `OR` (R394): lane-wise bitwise or over 32 or 64 bits. -/
  | or (d a b : Reg)
  /-- `OR.s` (R394): scalar twin of OR. -/
  | orS (d a b : Reg)
  /-- `XOR` (R428): lane-wise bitwise exclusive or over 32 or 64 bits. -/
  | xor (d a b : Reg)
  /-- `XOR.s` (R428): scalar twin of XOR. -/
  | xorS (d a b : Reg)
  /-- `SHL` (R402): lane-wise shift left by a natural count. -/
  | shl (d a b : Reg)
  /-- `SHL.s` (R402): scalar twin of SHL. -/
  | shlS (d a b : Reg)
  /-- `SHR` (R402): lane-wise logical shift right. -/
  | shr (d a b : Reg)
  /-- `SHR.s` (R402): scalar twin of SHR. -/
  | shrS (d a b : Reg)
  /-- `SHA` (R402): lane-wise arithmetic shift right. -/
  | sha (d a b : Reg)
  /-- `SHA.s` (R402): scalar twin of SHA. -/
  | shaS (d a b : Reg)
  /-- `ROL` (R402): lane-wise rotate left by the count modulo the element width. -/
  | rol (d a b : Reg)
  /-- `ROL.s` (R402): scalar twin of ROL. -/
  | rolS (d a b : Reg)
  /-- `CMP.eq` (R350): lane-wise integer compare for equality, writing a predicate word. -/
  | cmpEq (d a b : Reg)
  /-- `CMP.eq.s` (R350): scalar twin of CMP.eq. -/
  | cmpEqS (d a b : Reg)
  /-- `CMP.ne` (R350): lane-wise integer compare for inequality. -/
  | cmpNe (d a b : Reg)
  /-- `CMP.ne.s` (R350): scalar twin of CMP.ne. -/
  | cmpNeS (d a b : Reg)
  /-- `CMP.lt` (R350): lane-wise integer less-than compare. -/
  | cmpLt (d a b : Reg)
  /-- `CMP.lt.s` (R350): scalar twin of CMP.lt. -/
  | cmpLtS (d a b : Reg)
  /-- `CMP.le` (R350): lane-wise integer less-or-equal compare. -/
  | cmpLe (d a b : Reg)
  /-- `CMP.le.s` (R350): scalar twin of CMP.le. -/
  | cmpLeS (d a b : Reg)
  /-- `SEL` (R404): lane-wise select of a or b by the predicate in d. -/
  | sel (d a b : Reg)
  /-- `SEL.s` (R404): scalar twin of SEL. -/
  | selS (d a b : Reg)
  /-- `BFX` (R339): lane-wise bit-field extract with sign or zero extension. -/
  | bfx (d a b : Reg)
  /-- `BFX.s` (R339): scalar twin of BFX. -/
  | bfxS (d a b : Reg)
  /-- `BFI` (R339): lane-wise bit-field insert into d. -/
  | bfi (d a b : Reg)
  /-- `BFI.s` (R339): scalar twin of BFI. -/
  | bfiS (d a b : Reg)
  /-- `FADD` (R358): lane-wise floating add rounded under GM.RM. -/
  | fadd (d a b : Reg)
  /-- `FADD.s` (R358): scalar twin of FADD. -/
  | faddS (d a b : Reg)
  /-- `FSUB` (R373): lane-wise floating subtract. -/
  | fsub (d a b : Reg)
  /-- `FSUB.s` (R373): scalar twin of FSUB. -/
  | fsubS (d a b : Reg)
  /-- `FMUL` (R368): lane-wise floating multiply. -/
  | fmul (d a b : Reg)
  /-- `FMUL.s` (R368): scalar twin of FMUL. -/
  | fmulS (d a b : Reg)
  /-- `FMA` (R366): lane-wise fused multiply-add with one rounding. -/
  | fma (d a b : Reg)
  /-- `FMA.s` (R366): scalar twin of FMA. -/
  | fmaS (d a b : Reg)
  /-- `FMIN` (R367): lane-wise floating minimum with -0 below +0. -/
  | fmin (d a b : Reg)
  /-- `FMAX` (R367): lane-wise floating maximum with -0 below +0. -/
  | fmax (d a b : Reg)
  /-- `FCMP.eq` (R360): lane-wise floating equality compare. -/
  | fcmpEq (d a b : Reg)
  /-- `FCMP.lt` (R360): lane-wise floating less-than compare. -/
  | fcmpLt (d a b : Reg)
  /-- `FCMP.le` (R360): lane-wise floating less-or-equal compare. -/
  | fcmpLe (d a b : Reg)
  /-- `FCMP.un` (R360): lane-wise floating unordered test. -/
  | fcmpUn (d a b : Reg)
  /-- `MOV` (R388): lane-wise copy of 32 or 64 bits. -/
  | mov (d a : Reg)
  /-- `MOV.s` (R388): scalar twin of MOV. -/
  | movS (d a : Reg)
  /-- `MOVP` (R388): lane-wise copy of a register pair. -/
  | movp (d a : Reg)
  /-- `MOVP.s` (R388): scalar twin of MOVP. -/
  | movpS (d a : Reg)
  /-- `MOVI` (R389): writes a sign-extended 16-bit immediate. -/
  | movi (d : Reg) (imm : BitVec 16)
  /-- `MOVI.s` (R389): scalar twin of MOVI. -/
  | moviS (d : Reg) (imm : BitVec 16)
  /-- `MOVHI` (R389): replaces bits 31:16 of d with the immediate. -/
  | movhi (d : Reg) (imm : BitVec 16)
  /-- `MOVHI.s` (R389): scalar twin of MOVHI. -/
  | movhiS (d : Reg) (imm : BitVec 16)
  /-- `ADDI` (R329): adds a signed immediate to every element of d. -/
  | addi (d : Reg) (imm : BitVec 16)
  /-- `ADDI.s` (R329): scalar twin of ADDI. -/
  | addiS (d : Reg) (imm : BitVec 16)
  /-- `BRA` (R340): moves every strand of the gang to a PC-relative target. -/
  | bra (off : BitVec 16)
  /-- `BRC` (R340): branches whole strands on a uniform predicate. -/
  | brc (c : Reg) (off : BitVec 16)
  /-- `BRV` (R39): vector branch that parts lanes and pushes PATH entries on the divergence stack. -/
  | brv (c : Reg) (off : BitVec 16)
  /-- `CALL` (R342): writes the return address into the link pair and branches. -/
  | call (c : Reg) (off : BitVec 16)
  /-- `RET` (R400): jumps through the uniform link pair. -/
  | ret (a : Reg)
  /-- `JMPR` (R378): jumps to the address in a uniform pair. -/
  | jmpr (a : Reg)
  /-- `MODE.T` (R63): writes ET, RM, SAT and FTZ of GM. -/
  | modeT (imm : BitVec 9)
  /-- `MODE.G` (R63): writes the guard fields GREG, GEN and GNEG of GM. -/
  | modeG (imm : BitVec 10)
  /-- `MXMODE` (R391): writes one 16-bit half of MM0, MM1 or MM2. -/
  | mxmode (half : MxHalf) (imm : BitVec 16)
  /-- `WAITF` (R425): stalls until the named completion flags are clear. -/
  | waitf (mask : BitVec 12)
  /-- `TRAP` (R418): software trap with cause SWTRAP. -/
  | trap (imm : BitVec 16)
  /-- `BRK` (R298): software breakpoint trapping with BREAK. -/
  | brk (imm : BitVec 16)
  /-- `LD` (R379): per-lane load served from L1 or the home slice. -/
  | ld (d : Reg) (a : Reg) (ctl : Ctl)
  /-- `LDB` (R380): per-lane load that reads the home slice, bypassing L1. -/
  | ldb (d : Reg) (a : Reg) (ctl : Ctl)
  /-- `ST` (R409): per-lane store written through to the home slice. -/
  | st (d : Reg) (a : Reg) (ctl : Ctl)
  /-- `LDS` (R381): per-lane load from the team's scratch. -/
  | lds (d : Reg) (a : Reg) (ctl : Ctl)
  /-- `STS` (R411): per-lane store to the team's scratch. -/
  | sts (d : Reg) (a : Reg) (ctl : Ctl)
  /-- `ATOM.add` (R333): atomic add with return at the home slice. -/
  | atomAdd (d : Reg) (a : Reg) (ctl : Ctl)
  /-- `ATOM.min` (R333): atomic minimum with return. -/
  | atomMin (d : Reg) (a : Reg) (ctl : Ctl)
  /-- `ATOM.max` (R333): atomic maximum with return. -/
  | atomMax (d : Reg) (a : Reg) (ctl : Ctl)
  /-- `ATOM.and` (R333): atomic and with return. -/
  | atomAnd (d : Reg) (a : Reg) (ctl : Ctl)
  /-- `ATOM.or` (R333): atomic or with return. -/
  | atomOr (d : Reg) (a : Reg) (ctl : Ctl)
  /-- `ATOM.xor` (R333): atomic xor with return. -/
  | atomXor (d : Reg) (a : Reg) (ctl : Ctl)
  /-- `ATOM.xchg` (R333): atomic exchange with return. -/
  | atomXchg (d : Reg) (a : Reg) (ctl : Ctl)
  /-- `ATOMN.add` (R335): atomic add without return, lanes combined per word in the core. -/
  | atomnAdd (d : Reg) (a : Reg) (ctl : Ctl)
  /-- `ATOMN.min` (R335): atomic minimum without return. -/
  | atomnMin (d : Reg) (a : Reg) (ctl : Ctl)
  /-- `ATOMN.max` (R335): atomic maximum without return. -/
  | atomnMax (d : Reg) (a : Reg) (ctl : Ctl)
  /-- `ATOMN.and` (R335): atomic and without return. -/
  | atomnAnd (d : Reg) (a : Reg) (ctl : Ctl)
  /-- `ATOMN.or` (R335): atomic or without return. -/
  | atomnOr (d : Reg) (a : Reg) (ctl : Ctl)
  /-- `ATOMN.xor` (R335): atomic xor without return. -/
  | atomnXor (d : Reg) (a : Reg) (ctl : Ctl)
  /-- `CAS` (R344): per-lane compare and swap at the home slice. -/
  | cas (d : Reg) (a : Reg) (ctl : Ctl)
  /-- `MOP` (R225): sends a memory operator of an assize class without return. -/
  | mop (d a : Reg) (cls : BitVec 4) (sc : Scope)
  /-- `MOPR` (R225): sends a memory operator that returns the old value. -/
  | mopr (d a : Reg) (cls : BitVec 4) (sc : Scope)
  /-- `FENCE` (R363): acquire, release or both at a scope. -/
  | fence (sc : Scope) (od : Order)
  /-- `CLEAN` (R348): writes dirty L2 sectors of a range to HBM. -/
  | clean (a b : Reg)
  /-- `INVAL` (R376): drops the core's L1 copies of CG-0 sectors in a range. -/
  | inval (a b : Reg)
  /-- `DISCARD` (R210): declares a range dead, dropping dirty L2 sectors and L1 copies. -/
  | discard (a b : Reg)
  /-- `PREF` (R395): prefetches a range into L2 and L1. -/
  | pref (a b : Reg)
  /-- `ASZLOAD` (R219): checks and installs an assize table into a slot at all slices. -/
  | aszload (a b : Reg)
  /-- `MONITOR` (R299): arms the group's monitor on a sector and clears TRIG. -/
  | monitor (a : Reg)
  /-- `MWAIT` (R299): parks the group until TRIG is set or the timeout passes. -/
  | mwait (a : Reg)
  /-- `SHFL.idx` (R406): reads a value from a lane given by index. -/
  | shflIdx (d a b : Reg)
  /-- `SHFL.xor` (R406): reads a value from the lane given by xor of the lane number. -/
  | shflXor (d a b : Reg)
  /-- `SHFL.up` (R406): reads a value from a lower lane. -/
  | shflUp (d a b : Reg)
  /-- `SHFL.dn` (R406): reads a value from a higher lane. -/
  | shflDn (d a b : Reg)
  /-- `BCAST` (R338): broadcasts one lane's value to every active lane. -/
  | bcast (d a b : Reg)
  /-- `VOTE` (R423): collects active lanes' predicates into a lane mask. -/
  | vote (d a : Reg)
  /-- `ELECT` (R355): marks the lowest active lane with 1. -/
  | elect (d : Reg)
  /-- `CVT` (R352): converts elements from the source type to GM.ET. -/
  | cvt (d a : Reg) (src : ElemType)
  /-- `RNENC` (R401): encodes packed integers into residue codes. -/
  | rnenc (d a : Reg)
  /-- `RNDEC` (R401): decodes residue codes into packed integers. -/
  | rndec (d a : Reg)
  /-- `GETX` (R375): writes the execution's exec masks as a lane mask. -/
  | getx (d : Reg)
  /-- `SETX` (R405): defers lanes outside a mask until the next REGANG. -/
  | setx (a : Reg)
  /-- `RDSR` (R397): reads a special register into every active lane. -/
  | rdsr (d : Reg) (num : BitVec 8)
  /-- `WRSR` (R426): writes a special register from a scalar read. -/
  | wrsr (a : Reg) (num : BitVec 8)
  /-- `MMA` (R149): matrix multiply-accumulate on register fragments. -/
  | mma (d a b : Reg)
  /-- `MMAR` (R151): matrix multiply-accumulate that keeps the A fragment latched. -/
  | mmar (d a b : Reg)
  /-- `TDESC` (R157): creates a leaf tile node from a descriptor. -/
  | tdesc (d a : Reg)
  /-- `TMUL` (R159): creates a matrix-product node capturing MM0 to MM2. -/
  | tmul (d a b : Reg)
  /-- `TADD` (R157): creates an element-wise sum node. -/
  | tadd (d a b : Reg)
  /-- `TMAP` (R157): creates an element-wise function node. -/
  | tmap (d a : Reg) (fn : TileFn)
  /-- `TSCL` (R415): creates a node scaling by a captured f32. -/
  | tscl (d a b : Reg)
  /-- `TTRN` (R160): creates a transpose view node. -/
  | ttrn (d a : Reg)
  /-- `TSLC` (R160): creates a slice view node. -/
  | tslc (d a b : Reg)
  /-- `TBCAST` (R160): creates a broadcast view node. -/
  | tbcast (d a b : Reg)
  /-- `TRED` (R157): creates a row or column reduction node. -/
  | tred (d a : Reg) (col : Bool) (op : TileRed)
  /-- `TSTORE` (R421): demands a node and stores it through a destination descriptor. -/
  | tstore (a b c : Reg)
  /-- `TFORCE` (R417): evaluates a whole node into the spill area and marks it forced. -/
  | tforce (a : Reg)
  /-- `TDROP` (R416): marks a node dropped and invalidates its handle. -/
  | tdrop (a : Reg)
  /-- `SPSEED` (R180): seeds a spore from a key and a position. -/
  | spseed (k : BitVec 3) (a b : Reg)
  /-- `SPNEXT` (R180): advances a spore to the next generator position. -/
  | spnext (k : BitVec 3)
  /-- `SPLT` (R182): exact test of a spore against an f32 threshold. -/
  | splt (d : Reg) (k : BitVec 3) (b : Reg)
  /-- `SPCMP` (R183): exact comparison of two spores. -/
  | spcmp (d : Reg) (k k' : BitVec 3)
  /-- `SPIDX` (R184): exact index floor of U times n. -/
  | spidx (d : Reg) (k : BitVec 3) (b : Reg)
  /-- `SPVAL` (R186): writes the truncated f32 value of the revealed prefix. -/
  | spval (d : Reg) (k : BitVec 3)
  /-- `SPLEN` (R186): writes the revealed length of a spore. -/
  | splen (d : Reg) (k : BitVec 3)
  /-- `CPY` (R206): starts an asynchronous copy joining the open batch. -/
  | cpy (d a b : Reg)
  /-- `CPCLOSE` (R207): closes the open copy batch and returns its number. -/
  | cpclose (d : Reg)
  /-- `WAITB` (R424): stalls until the named copy batches are complete. -/
  | waitb (a : Reg)
  /-- `BCINIT` (R208): initialises a byte-counting barrier. -/
  | bcinit (a b : Reg)
  /-- `BCEXP` (R208): adds expected bytes to a byte-counting barrier. -/
  | bcexp (a b : Reg)
  /-- `BCARR` (R208): adds arrived bytes to a byte-counting barrier. -/
  | bcarr (a b : Reg)
  /-- `BCWAIT` (R208): waits until a byte-counting barrier's phase changes. -/
  | bcwait (a b : Reg)
  /-- `AMSG` (R269): sends an active message to the target slice's tinker. -/
  | amsg (d a b : Reg)
  /-- `ABS` (R327): lane-wise absolute value. -/
  | abs (d a : Reg)
  /-- `ABS.s` (R327): scalar twin of ABS. -/
  | absS (d a : Reg)
  /-- `NEG` (R392): lane-wise integer negate. -/
  | neg (d a : Reg)
  /-- `NEG.s` (R392): scalar twin of NEG. -/
  | negS (d a : Reg)
  /-- `NOT` (R392): lane-wise bitwise not. -/
  | not (d a : Reg)
  /-- `NOT.s` (R392): scalar twin of NOT. -/
  | notS (d a : Reg)
  /-- `CLZ` (R349): lane-wise count of leading zeros. -/
  | clz (d a : Reg)
  /-- `CLZ.s` (R349): scalar twin of CLZ. -/
  | clzS (d a : Reg)
  /-- `POPC` (R392): lane-wise population count. -/
  | popc (d a : Reg)
  /-- `POPC.s` (R392): scalar twin of POPC. -/
  | popcS (d a : Reg)
  /-- `BREV` (R341): lane-wise bit reverse of each element. -/
  | brev (d a : Reg)
  /-- `BREV.s` (R341): scalar twin of BREV. -/
  | brevS (d a : Reg)
  /-- `FRCP` (R369): correctly rounded reciprocal. -/
  | frcp (d a : Reg)
  /-- `FRSQ` (R370): correctly rounded reciprocal square root. -/
  | frsq (d a : Reg)
  /-- `FSQRT` (R372): correctly rounded square root. -/
  | fsqrt (d a : Reg)
  /-- `FEX2` (R364): correctly rounded power of two. -/
  | fex2 (d a : Reg)
  /-- `FLG2` (R365): correctly rounded base-two logarithm. -/
  | flg2 (d a : Reg)
  /-- `FSIN` (R371): correctly rounded sine. -/
  | fsin (d a : Reg)
  /-- `FCOS` (R362): correctly rounded cosine. -/
  | fcos (d a : Reg)
  /-- `FTNH` (R374): correctly rounded hyperbolic tangent. -/
  | ftnh (d a : Reg)
  /-- `FCLASS` (R359): writes a one-hot class mask per element. -/
  | fclass (d a : Reg)
  /-- `REDUCE` (R398): reduces active lanes in ascending order and writes the result to each. -/
  | reduce (d a : Reg) (op : RedOp)
  /-- `SCAN` (R398): inclusive or exclusive prefix scan over active lanes. -/
  | scan (d a : Reg) (excl : Bool) (op : RedOp)
  /-- `CHSEND` (R266): sends a whole register into a channel slot. -/
  | chsend (a : Reg) (ch : BitVec 4)
  /-- `CHRECV` (R266): claims the next channel slot for receive. -/
  | chrecv (d : Reg) (ch : BitVec 4)
  /-- `CHPOLL` (R266): reads a channel's full and free counts. -/
  | chpoll (d : Reg) (ch : BitVec 4)
  /-- `BAR` (R301): team barrier arrival and wait. -/
  | bar (a : Reg) (id : BitVec 4)
  /-- `BARC` (R301): cluster barrier arrival and wait. -/
  | barc (a : Reg) (id : BitVec 4)
  /-- `TSPAWN` (R286): reads a task record and appends it to a queue. -/
  | tspawn (d a : Reg)
  /-- `TSTAT` (R420): writes task and cancellation status. -/
  | tstat (d : Reg)
  /-- `JCANCEL` (R377): records a job cancellation at every engine and port. -/
  | jcancel (a : Reg)
  /-- `CLAUSE` (R73): clause header that waits on flags and frames the clause body. -/
  | clause (wait : BitVec 12) (flagA flagB : FlagSel) (len : BitVec 4)
  /-- LOAD_LANDING (R70): A long-latency result lands through the landing buffer and clears its flag share. -/
  | loadLanding (op : Nat)
  /-- ATOM_RETURN (R333): Old values of an ATOM or CAS return and land, with any imprecise MEMERR. -/
  | atomReturn (op : Nat)
  /-- MOPR_RETURN (R225): A MOPR's old value returns and lands. -/
  | moprReturn (op : Nat)
  /-- SPORE_REVEAL_LANDING (R181): A comparison that revealed past digit 64 lands its results. -/
  | sporeRevealLanding (op : Nat)
  /-- STORE_ACK (R197): Acknowledgement of an applied write reaches the group and lowers its unacknowledged-write count. -/
  | storeAck (op : Nat)
  /-- SLICE_READ (R241): A read or fill request is served at the home slice. -/
  | sliceRead (req : Nat) (keeps : Nat)
  /-- SLICE_WRITE (R197): A write is performed at the home slice and forwarded to sharers. -/
  | sliceWrite (req : Nat)
  /-- SLICE_ATOMIC (R245): An ATOM, ATOMN or CAS is applied atomically at the home slice. -/
  | sliceAtomic (req : Nat)
  /-- SLICE_MOP_APPLY (R227): Memory operators are applied at the home slice along a chosen rewritten sequence. -/
  | sliceMopApply (addr : Nat) (step : MopStep)
  /-- UPDATE_APPLY (R197): A sharer core applies a write update and acknowledges it. -/
  | updateApply (upd core : Nat)
  /-- UPDATE_ACK (R263): A ferry station or home slice collects update acknowledgements. -/
  | updateAck (upd station : Nat)
  /-- DROP_NOTICE (R196): A drop notice clears a core's sharer bit at the home slice. -/
  | dropNotice (core unit : Nat)
  /-- L1_MISS_REPLAY (R200): A rejected access is replayed when an L1 miss entry frees. -/
  | l1MissReplay (core : Nat)
  /-- SLICE_INGRESS_ADMIT (R201): A waiting request leaves the slice ingress queue when an entry and slot free. -/
  | sliceIngressAdmit (slice : Nat)
  /-- MONITOR_REGISTERED (R299): The home slice registers a monitor and the strand leaves MONITOR. -/
  | monitorRegistered (slot : Nat)
  /-- MTIMEOUT (R299): The MWAIT timeout passes, disarming the monitor and trapping. -/
  | mtimeout (slot : Nat)
  /-- COPY_COMPLETE (R206): All bytes of a copy are written and its flag and batch may complete. -/
  | copyComplete (op : Nat)
  /-- DEMAND_COMPLETE (R166): A TSTORE or force completes all its writes and clears flag B. -/
  | demandComplete (op : Nat)
  /-- LATE_FAULT (R169): A fault during a demand or copy suspends it and traps the group with LATE. -/
  | lateFault (op : Nat)
  /-- CHANNEL_SLOT_FILL (R266): A CHSEND's slot write is performed and the full count rises. -/
  | channelSlotFill (op : Nat)
  /-- CHANNEL_RECEIVE_LAND (R266): A claimed channel slot lands into the receiver and a credit returns. -/
  | channelReceiveLand (op : Nat)
  /-- TINKER_HANDLER (R270): A tinker runs the handler for an arriving active message on its region. -/
  | tinkerHandler (req : Nat)
  /-- TINKER_HANDLER_END (R270): A handler ends by ECALL or abort, performing its writes and replying. -/
  | tinkerHandlerEnd (slice : Nat)
  /-- HANDLER_INSTRUCTION_LIMIT (R270): A handler exceeding 512 retired instructions is aborted. -/
  | handlerInstructionLimit (slice : Nat)
  /-- AMSG_REPLY (R269): An AMSG reply or acceptance arrives and clears flag B. -/
  | amsgReply (op : Nat)
  /-- GROUP_RETIRE (R42): An exited group's slot and registers are freed once its operations complete. -/
  | groupRetire (slot : Nat)
  /-- QUANTUM_EXPIRY (R292): A deterministic group retires Q instructions and ends its quantum. -/
  | quantumExpiry (slot : Nat)
  /-- DET_COMMIT (R292): Commits all group buffers in global group id order and begins the next round. -/
  | detCommit (launch : Nat)
  /-- STAIL (R271): A host write to STAIL makes the command processor take commands. -/
  | stail (stream : BitVec 6) (value : Word)
  /-- REGISTER_WRITE (R271): A write to a stream register with no row of its own, checked and possibly ignored. -/
  | registerWrite (stream : BitVec 6) (offset : BitVec 16) (value : Word)
  /-- LAUNCH (R278): Command that checks and places a launch. -/
  | launch (cmd : Nat)
  /-- QBIND (R281): Command that binds a queue to its header and expands its entries. -/
  | qbind (cmd : Nat)
  /-- TLBINV (R273): Command that invalidates TLB translations through a root. -/
  | tlbinv (cmd : Nat)
  /-- SETWAYS (R203): Command that changes SCRWAYS of a running launch. -/
  | setways (cmd : Nat)
  /-- SCRWAYS_CHANGE_APPLY (R203): After in-flight scratch work drains, a core moves ways and recounts slots. -/
  | scrwaysChangeApply (core : Nat)
  /-- WAIT (R273): Command that waits for earlier commands of its stream. -/
  | wait (cmd : Nat)
  /-- CANCEL (R288): Command that cancels a job as JCANCEL does. -/
  | cancel (cmd : Nat)
  /-- COMMAND_DEPENDENCY_RELEASE (R274): A waiting command proceeds when its handle dependencies have ended. -/
  | commandDependencyRelease (cmd : Nat)
  /-- LAUNCH_END (R278): A launch ends after its groups exit and its operations complete. -/
  | launchEnd (launch : Nat)
  /-- TINKER_IMAGE_INSTALL (R268): The steward copies a launch's handler image into every tinker. -/
  | tinkerImageInstall (launch : Nat)
  /-- TEAM_PLACEMENT (R46): The distributor places a team or cluster on cores with room. -/
  | teamPlacement (launch : Nat)
  /-- TASK_START (R284): A task port takes a queue entry and starts one group. -/
  | taskStart (core : Nat)
  /-- QUEUE_APPEND (R286): A queue engine appends a spawned record as an entry. -/
  | queueAppend (queue : Nat)
  /-- TASK_SUCCESSOR_STEP (R290): On task end the port decrements the join counter and may enqueue the successor. -/
  | taskSuccessorStep (task : Nat)
  /-- RERESIDENCE_TIMEOUT (R291): The re-residence timer expires and the distributor pre-empts a core for the saved team. -/
  | reresidenceTimeout (cluster : Nat)
  /-- PREEMPT_REQUEST (R304): The steward asks for cores, stopping the affected clusters. -/
  | preemptRequest (cores : List Nat)
  /-- PREEMPT_DRAIN_END (R304): In-flight operations have drained and the context is saved. -/
  | preemptDrainEnd (cluster : Nat)
  /-- PREEMPT_DRAIN_TIMEOUT (R304): The drain bound passes and unfinished work is saved as suspended. -/
  | preemptDrainTimeout (cluster : Nat)
  /-- PREEMPT_DEFER_EXPIRY (R306): PREEMPT_DEFER passes and a group in its handler is saved with TM set. -/
  | preemptDeferExpiry (slot : Nat)
  /-- HOST_HDM_ACCESS (R315): A host access through the HDM range is performed at the home slice. -/
  | hostHdmAccess (addr : Nat) (data : Option (List Byte))
  /-- PEER_ACCESS_ARRIVAL (R230): A peer access or operator from another device is applied at the owning home slice. -/
  | peerAccessArrival (addr : Nat) (access : PeerAccess)
  /-- ATTESTATION_REQUEST (R321): The host requests a signed attestation report with a nonce. -/
  | attestationRequest (nonce : BitVec 256)
  /-- WORLD_TABLE_WRITE (R318): A secure write to the world table. -/
  | worldTableWrite (block : Nat) (secure : Bool)
  /-- REGION_TABLE_WRITE (R318): A secure write to a physical region table entry. -/
  | regionTableWrite (index : BitVec 6) (entry : BitVec 128)
  /-- UNCORRECTABLE_ERROR (R324): An uncorrectable error poisons a sector or halts a team. -/
  | uncorrectableError (site : ErrorSite)
  /-- POWER_STATE_CHANGE (R325): The steward sets a core or quadrant power state. -/
  | powerStateChange (quadrant : Nat) (core : Option Nat) (state : PowerState)
  /-- UNASSIGNED_OPCODE (R108): A strand issues a word whose opcode or sub value no table assigns, and the group traps with ILLEGAL. -/
  | unassignedOpcode (w : Word)
  /-- PORT_DOWN (R317): A scale-up port goes down, so peer accesses sent on it can no longer be delivered. -/
  | portDown (port : Nat)
  /-- CORRECTED_ERROR (R324): An ECC- or CRC-correctable error occurs, changes no value, and is logged. -/
  | correctedError (site : ErrorSite)
  /-- CANCELLATION_RECORDED (R288): A queue engine or task port records a job cancellation message, and JCANCEL or CANCEL completes once every one has recorded it. -/
  | cancellationRecorded (agent job : Nat)
  /-- MAINTENANCE_COMPLETE (R209): The write-backs or invalidations of a CLEAN, INVAL or DISCARD finish, and the stalled strand proceeds. -/
  | maintenanceComplete (op : Nat)
  /-- TABLE_INSTALL (R219): An assize install serialised at slice 0 reaches a slice and places its mark, and ASZLOAD completes when all 192 slices have it. -/
  | tableInstall (slice : Nat)
  /-- `REGANG` (R40): reconverges strands through the divergence stack or enters WAIT. -/
  | regang
  /-- `EXIT` (R42): ends active lanes permanently and pops stack work. -/
  | exit
  /-- `NOP` (R393): does nothing but retire. -/
  | nop
  /-- `RTT` (R297): returns from a trap, restoring resume records and delivering held causes. -/
  | rtt
  /-- `YIELD` (R429): lowers the group's issue selection priority for a while. -/
  | yield
  /-- `QEND` (R396): ends the group's quantum in deterministic operation. -/
  | qend
  /-- INJECTION_STARVATION_TIMEOUT (R260): A stop that waited 64 clk to inject is guaranteed the next slot. -/
  | injectionStarvationTimeout
  /-- LINK_ERROR_RETRY (R260): A CRC error on a link causes retry of flits in order. -/
  | linkErrorRetry
  /-- LINK_TRAINING (R316): Scale-up link training assigns the device its domain number. -/
  | linkTraining
  /-- COLD_START (R322): Power-on begins start-up at FUSE. -/
  | coldStart
  /-- WARM_START (R322): A reset with power held begins start-up and checks retained parameters. -/
  | warmStart
  /-- BIST_DONE (R322): Self-test completes and start-up proceeds or retries. -/
  | bistDone
  /-- TRAIN_DONE (R322): HBM training completes and start-up proceeds or retries. -/
  | trainDone
  /-- FETCH_DONE (R322): The signed image fetch completes and verification begins. -/
  | fetchDone
  /-- VERIFY_DONE (R322): Image verification and measurement complete, entering RUN or retrying. -/
  | verifyDone
  /-- RECOVER_DONE (R322): The flash recovery image is verified, entering RUN or QUARANTINE. -/
  | recoverDone
  /-- STARTUP_STEP_TIMEOUT (R322): A start-up step exceeds its time limit and fails. -/
  | startupStepTimeout
  /-- THERMAL_SAMPLE (R325): Thermal sensors are sampled every millisecond into telemetry. -/
  | thermalSample
  /-- THERMAL_TRIP (R325): At 115 degrees the hardware throttles a quadrant to THROT 1. -/
  | thermalTrip
  deriving DecidableEq, Repr

end Sys2Proof
end

