-- ==== Sys2Proof/WellFormed.lean ====
section
/-!
DEFINITION. Well-formed instructions: the combinations of the ctl byte that R106 and R107 admit,
the special-register numbers R77 lists, and the words R108 and R116 leave unassigned.
-/
namespace Sys2Proof

/-- The rows of the table of R106. -/
inductive CtlKind where
  | load | store | scratchLoad | scratchStore | atomic | atomicNoReturn
  deriving DecidableEq, Repr

/-- The widths, orders and scopes that R106 admits for each row. -/
def CtlKind.admits (k : CtlKind) (c : Ctl) : Bool :=
  match k with
  | .load => c.order == .relaxed || c.order == .acquire
  | .store => c.order == .relaxed || c.order == .release
  | .scratchLoad => (c.order == .relaxed || c.order == .acquire) && (c.scope == .grp || c.scope == .team)
  | .scratchStore => (c.order == .relaxed || c.order == .release) && (c.scope == .grp || c.scope == .team)
  | .atomic => c.width == .b32 || c.width == .b64
  | .atomicNoReturn =>
    (c.width == .b32 || c.width == .b64) && (c.order == .relaxed || c.order == .release)

/-- How RDSR and WRSR may use a special-register number (R77). -/
inductive SrAccess where
  | rw | rwTm | ro | unlisted
  deriving DecidableEq, Repr

/-- The access column of R77. -/
def srAccess (n : BitVec 8) : SrAccess :=
  let k := n.toNat
  if k ≤ 0x05 then .rw
  else if k = 0x06 then .ro
  else if k ≤ 0x08 then .rwTm
  else if 0x10 ≤ k && k ≤ 0x13 then .rwTm
  else if 0x14 ≤ k && k ≤ 0x1B then .ro
  else if 0x20 ≤ k && k ≤ 0x26 then .ro
  else if 0x28 ≤ k && k ≤ 0x34 then .ro
  else if 0x40 ≤ k && k ≤ 0x48 then .rw
  else if 0x50 ≤ k && k ≤ 0x54 then .rw
  else if 0x60 ≤ k && k ≤ 0x6F then .rwTm
  else .unlisted

/-- Opcodes that no table of R108 to R116 assigns. -/
def unassignedOp (op : Nat) : Bool :=
  (0x15 ≤ op && op ≤ 0x17) || (0x24 ≤ op && op ≤ 0x2F) || (0x33 ≤ op && op ≤ 0x3F) ||
  (0x55 ≤ op && op ≤ 0x57) || (0x5C ≤ op && op ≤ 0x61) || (0x64 ≤ op && op ≤ 0x6F) ||
  (0x73 ≤ op && op ≤ 0x7F) || (0xAD ≤ op && op ≤ 0xAF) || op = 0xBE || op = 0xBF ||
  op = 0xCE || op = 0xCF || op = 0xDF || (0xE8 ≤ op && op ≤ 0xEF)

/-- Sub values of the X opcodes that the tables of R116 do not assign. -/
def unassignedSub (op sub : Nat) : Bool :=
  ((op = 0xE0 || op = 0xE1) && 6 ≤ sub) || (op = 0xE2 && 9 ≤ sub) || (op = 0xE3 && 9 ≤ sub) ||
  (op = 0xE4 && sub / 16 % 8 = 0 && 9 ≤ sub % 16) || (op = 0xE5 && sub / 64 = 3) ||
  (op = 0xE7 && 4 ≤ sub)

/-- Words that issue as UNASSIGNED_OPCODE (R108, step 2 of R118). -/
def unassignedWord (w : Word) : Bool :=
  unassignedOp (w.toNat / 2 ^ 24) || unassignedSub (w.toNat / 2 ^ 24) (w.toNat % 256)

/-- Whether an instruction is one that a word can encode and step 3 of R118 lets pass; an event
row is always well formed, and UNASSIGNED_OPCODE carries a word that no table assigns. -/
def Instr.wellFormed : Instr → Bool
  | .ld _ _ c | .ldb _ _ c => CtlKind.load.admits c
  | .st _ _ c => CtlKind.store.admits c
  | .lds _ _ c => CtlKind.scratchLoad.admits c
  | .sts _ _ c => CtlKind.scratchStore.admits c
  | .atomAdd _ _ c | .atomMin _ _ c | .atomMax _ _ c | .atomAnd _ _ c | .atomOr _ _ c
  | .atomXor _ _ c | .atomXchg _ _ c | .cas _ _ c => CtlKind.atomic.admits c
  | .atomnAdd _ _ c | .atomnMin _ _ c | .atomnMax _ _ c | .atomnAnd _ _ c | .atomnOr _ _ c
  | .atomnXor _ _ c => CtlKind.atomicNoReturn.admits c
  | .fence _ o => o != .relaxed
  | .unassignedOpcode w => unassignedWord w
  | _ => true

end Sys2Proof
end

