-- ==== Sys2Proof/Decode.lean ====
section
/-!
DEFINITION. The decoder and the encoder of instruction words, from the formats and the opcode map
of R99 to R117. Decoding is total: it answers an instruction or names why step 3 of R118 refuses
the word. Register fields are not checked here, since their checks depend on the launch (step 4).
-/
namespace Sys2Proof

/-- Why a word is ILLEGAL at step 3 of R118. -/
inductive DecodeError where
  /-- A field marked 0 holds another value (R3). -/
  | nonzeroField
  /-- A code field or a ctl field holds a reserved code (R105, R114). -/
  | reservedCode
  /-- The ctl byte combines fields outside R106 or R107. -/
  | badCombination
  /-- A spore field has one of bits [7:3] set (R109). -/
  | sporeField
  /-- A clause header has flag code 12 to 14 or non-zero low bits (R72). -/
  | badHeader
  deriving DecidableEq, Repr

/-- Code of a scope (R105). -/
def Scope.code : Scope → BitVec 3
  | .grp => 0 | .team => 1 | .clu => 2 | .die => 3 | .dev => 4 | .sys => 5

/-- Scope of a code; 6 and 7 are reserved (R105). -/
def Scope.ofCode (c : BitVec 3) : Option Scope :=
  match c.toNat with
  | 0 => some .grp | 1 => some .team | 2 => some .clu | 3 => some .die | 4 => some .dev
  | 5 => some .sys | _ => none

/-- Code of an order (R105). -/
def Order.code : Order → BitVec 2
  | .relaxed => 0 | .acquire => 1 | .release => 2 | .acqRel => 3

/-- Order of a code (R105). -/
def Order.ofCode (c : BitVec 2) : Order :=
  match c.toNat with
  | 0 => .relaxed | 1 => .acquire | 2 => .release | _ => .acqRel

/-- Code of a width (R105). -/
def Width.code : Width → BitVec 3
  | .b8 => 0 | .b16 => 1 | .b32 => 2 | .b64 => 3 | .b128 => 4

/-- Width of a code; 5 to 7 are reserved (R105). -/
def Width.ofCode (c : BitVec 3) : Option Width :=
  match c.toNat with
  | 0 => some .b8 | 1 => some .b16 | 2 => some .b32 | 3 => some .b64 | 4 => some .b128
  | _ => none

/-- The ctl byte (R105). -/
def Ctl.encode (c : Ctl) : Byte := c.width.code ++ c.scope.code ++ c.order.code

/-- Code of an element type, as GM.ET numbers it (R62). -/
def ElemType.code : ElemType → BitVec 8
  | .i32 => 0 | .n32 => 1 | .i64 => 2 | .n64 => 3 | .i16x2 => 4 | .n16x2 => 5 | .i8x4 => 6
  | .n8x4 => 7 | .f32 => 8 | .f64 => 9 | .bf16x2 => 10 | .f16x2 => 11 | .rn16 => 12 | .rn8 => 13

/-- Element type of a code; 14 and above are reserved (R62). -/
def ElemType.ofCodeNat (n : Nat) : Option ElemType :=
  match n with
  | 0 => some .i32 | 1 => some .n32 | 2 => some .i64 | 3 => some .n64 | 4 => some .i16x2
  | 5 => some .n16x2 | 6 => some .i8x4 | 7 => some .n8x4 | 8 => some .f32 | 9 => some .f64
  | 10 => some .bf16x2 | 11 => some .f16x2 | 12 => some .rn16 | 13 => some .rn8 | _ => none

/-- Element type of a CVT source code (R113). -/
def ElemType.ofCode (c : BitVec 8) : Option ElemType := ElemType.ofCodeNat c.toNat

/-- Code of a reduction (R53). -/
def RedOp.code : RedOp → BitVec 4
  | .add => 0 | .min => 1 | .max => 2 | .and => 3 | .or => 4 | .xor => 5 | .fadd => 6
  | .fmin => 7 | .fmax => 8

/-- Reduction of a code; 9 and above are not assigned (R116). -/
def RedOp.ofCode (c : BitVec 4) : Option RedOp :=
  match c.toNat with
  | 0 => some .add | 1 => some .min | 2 => some .max | 3 => some .and | 4 => some .or
  | 5 => some .xor | 6 => some .fadd | 7 => some .fmin | 8 => some .fmax | _ => none

/-- Code of a TMAP function (R114). -/
def TileFn.code : TileFn → BitVec 8
  | .identity => 0 | .relu => 1 | .negate => 2 | .absolute => 3 | .exp2 => 4 | .log2 => 5
  | .tanh => 6 | .reciprocal => 7 | .squareRoot => 8

/-- TMAP function of a code; 9 and above are reserved (R114). -/
def TileFn.ofCode (c : BitVec 8) : Option TileFn :=
  match c.toNat with
  | 0 => some .identity | 1 => some .relu | 2 => some .negate | 3 => some .absolute
  | 4 => some .exp2 | 5 => some .log2 | 6 => some .tanh | 7 => some .reciprocal
  | 8 => some .squareRoot | _ => none

/-- Code of a TRED operation (R114). -/
def TileRed.code : TileRed → BitVec 2
  | .sum => 0 | .max => 1 | .min => 2

/-- Code of an MXMODE half (R65). -/
def MxHalf.code : MxHalf → BitVec 8
  | .mm0Low => 0 | .mm0High => 1 | .mm1Low => 2 | .mm1High => 3 | .mm2Low => 4 | .mm2High => 5

/-- MXMODE half of a code; 6 and above are ILLEGAL (R111). -/
def MxHalf.ofCode (c : BitVec 8) : Option MxHalf :=
  match c.toNat with
  | 0 => some .mm0Low | 1 => some .mm0High | 2 => some .mm1Low | 3 => some .mm1High
  | 4 => some .mm2Low | 5 => some .mm2High | _ => none

/-- Code of a clause-header flag field (R72). -/
def flagCode : FlagSel → BitVec 4
  | none => 15
  | some f => BitVec.ofNat 4 f.val

/-- Flag of a clause-header code; 12 to 14 are refused (R72). -/
def flagOfCode (c : BitVec 4) : Except DecodeError FlagSel :=
  if c = 15 then .ok none
  else if h : c.toNat < 12 then .ok (some ⟨c.toNat, h⟩)
  else .error .badHeader

/-- A word from its opcode and its three byte fields (R99). -/
def pack (op d a b : Byte) : Word := op ++ d ++ a ++ b

/-- A word from its opcode, its d field and a 16-bit immediate (R101, R102). -/
def pack16 (op d : Byte) (imm : BitVec 16) : Word := op ++ d ++ imm

/-- The ctl byte of one of the rows of R106. -/
def decodeCtl (k : CtlKind) (b : Byte) : Except DecodeError Ctl :=
  match Width.ofCode (b.extractLsb' 5 3), Scope.ofCode (b.extractLsb' 2 3) with
  | some w, some s =>
    let c : Ctl := { width := w, scope := s, order := Order.ofCode (b.extractLsb' 0 2) }
    if k.admits c then .ok c else .error .badCombination
  | _, _ => .error .reservedCode

/-- The ctl byte of FENCE (R106). -/
def decodeFence (b : Byte) : Except DecodeError Instr :=
  if b.extractLsb' 5 3 ≠ 0 then .error .badCombination
  else match Scope.ofCode (b.extractLsb' 2 3), Order.ofCode (b.extractLsb' 0 2) with
    | some _, .relaxed => .error .badCombination
    | some s, o => .ok (.fence s o)
    | none, _ => .error .reservedCode

/-- The ctl byte of MOP and MOPR (R107). -/
def decodeMop (b : Byte) : Except DecodeError (BitVec 4 × Scope) :=
  if b.extractLsb' 0 1 ≠ 0 then .error .nonzeroField
  else match Scope.ofCode (b.extractLsb' 1 3) with
    | some s => .ok (b.extractLsb' 4 4, s)
    | none => .error .reservedCode

/-- MODE, by its d field (R63). -/
def decodeMode (d : Byte) (imm : BitVec 16) : Except DecodeError Instr :=
  match d.toNat with
  | 0 => if imm.extractLsb' 9 7 ≠ 0 then .error .nonzeroField else .ok (.modeT (imm.extractLsb' 0 9))
  | 1 => if imm.extractLsb' 10 6 ≠ 0 then .error .nonzeroField else .ok (.modeG (imm.extractLsb' 0 10))
  | _ => .error .reservedCode

/-- The b field of TRED (R114). -/
def decodeTred (d a b : Byte) : Except DecodeError Instr :=
  if b.extractLsb' 5 3 ≠ 0 ∨ b.extractLsb' 2 2 ≠ 0 then .error .nonzeroField
  else match (b.extractLsb' 0 2).toNat with
    | 0 => .ok (.tred d a (b.getLsbD 4) .sum)
    | 1 => .ok (.tred d a (b.getLsbD 4) .max)
    | 2 => .ok (.tred d a (b.getLsbD 4) .min)
    | _ => .error .reservedCode

/-- A word that no table assigns (R108, R116). -/
def unassigned (op d a b : Byte) : Except DecodeError Instr :=
  .ok (.unassignedOpcode (pack op d a b))

/-- The sub field of SCAN (R116). -/
def decodeScan (d a b : Byte) : Except DecodeError Instr :=
  if b.extractLsb' 4 3 ≠ 0 then .error .nonzeroField
  else match RedOp.ofCode (b.extractLsb' 0 4) with
    | some o => .ok (.scan d a (b.getLsbD 7) o)
    | none => unassigned 0xE4 d a b

/-- A clause header (R72). -/
def decodeHeader (w : Word) : Except DecodeError Instr :=
  if w.extractLsb' 0 4 ≠ 0 then .error .badHeader
  else match flagOfCode (w.extractLsb' 12 4), flagOfCode (w.extractLsb' 8 4) with
    | .ok fa, .ok fb => .ok (.clause (w.extractLsb' 16 12) fa fb (w.extractLsb' 4 4))
    | _, _ => .error .badHeader

/-- Opcodes 0x00 to 0x0F (R110 to R116). -/
def decode0 (lo : Nat) (d a b : Byte) : Except DecodeError Instr :=
  match lo with
  | 0 => .ok (.add d a b)
  | 1 => .ok (.sub d a b)
  | 2 => .ok (.mul d a b)
  | 3 => .ok (.mulhi d a b)
  | 4 => .ok (.madlo d a b)
  | 5 => .ok (.min d a b)
  | 6 => .ok (.max d a b)
  | 7 => .ok (.and d a b)
  | 8 => .ok (.or d a b)
  | 9 => .ok (.xor d a b)
  | 10 => .ok (.shl d a b)
  | 11 => .ok (.shr d a b)
  | 12 => .ok (.sha d a b)
  | 13 => .ok (.rol d a b)
  | 14 => .ok (.cmpEq d a b)
  | 15 => .ok (.cmpNe d a b)
  | lo => unassigned (BitVec.ofNat 8 (0x00 + lo)) d a b

/-- Opcodes 0x10 to 0x1F (R110 to R116). -/
def decode1 (lo : Nat) (d a b : Byte) : Except DecodeError Instr :=
  match lo with
  | 0 => .ok (.cmpLt d a b)
  | 1 => .ok (.cmpLe d a b)
  | 2 => .ok (.sel d a b)
  | 3 => .ok (.bfx d a b)
  | 4 => .ok (.bfi d a b)
  | 8 => .ok (.fadd d a b)
  | 9 => .ok (.fsub d a b)
  | 10 => .ok (.fmul d a b)
  | 11 => .ok (.fma d a b)
  | 12 => .ok (.fmin d a b)
  | 13 => .ok (.fmax d a b)
  | 14 => .ok (.fcmpEq d a b)
  | 15 => .ok (.fcmpLt d a b)
  | lo => unassigned (BitVec.ofNat 8 (0x10 + lo)) d a b

/-- Opcodes 0x20 to 0x2F (R110 to R116). -/
def decode2 (lo : Nat) (d a b : Byte) : Except DecodeError Instr :=
  match lo with
  | 0 => .ok (.fcmpLe d a b)
  | 1 => .ok (.fcmpUn d a b)
  | 2 => if b ≠ 0 then .error .nonzeroField else .ok (.mov d a)
  | 3 => if b ≠ 0 then .error .nonzeroField else .ok (.movp d a)
  | lo => unassigned (BitVec.ofNat 8 (0x20 + lo)) d a b

/-- Opcodes 0x30 to 0x3F (R110 to R116). -/
def decode3 (lo : Nat) (d a b : Byte) : Except DecodeError Instr :=
  match lo with
  | 0 => .ok (.movi d (a ++ b))
  | 1 => .ok (.movhi d (a ++ b))
  | 2 => .ok (.addi d (a ++ b))
  | lo => unassigned (BitVec.ofNat 8 (0x30 + lo)) d a b

/-- Opcodes 0x40 to 0x4F (R110 to R116). -/
def decode4 (lo : Nat) (d a b : Byte) : Except DecodeError Instr :=
  match lo with
  | 0 => .ok (.addS d a b)
  | 1 => .ok (.subS d a b)
  | 2 => .ok (.mulS d a b)
  | 3 => .ok (.mulhiS d a b)
  | 4 => .ok (.madloS d a b)
  | 5 => .ok (.minS d a b)
  | 6 => .ok (.maxS d a b)
  | 7 => .ok (.andS d a b)
  | 8 => .ok (.orS d a b)
  | 9 => .ok (.xorS d a b)
  | 10 => .ok (.shlS d a b)
  | 11 => .ok (.shrS d a b)
  | 12 => .ok (.shaS d a b)
  | 13 => .ok (.rolS d a b)
  | 14 => .ok (.cmpEqS d a b)
  | 15 => .ok (.cmpNeS d a b)
  | lo => unassigned (BitVec.ofNat 8 (0x40 + lo)) d a b

/-- Opcodes 0x50 to 0x5F (R110 to R116). -/
def decode5 (lo : Nat) (d a b : Byte) : Except DecodeError Instr :=
  match lo with
  | 0 => .ok (.cmpLtS d a b)
  | 1 => .ok (.cmpLeS d a b)
  | 2 => .ok (.selS d a b)
  | 3 => .ok (.bfxS d a b)
  | 4 => .ok (.bfiS d a b)
  | 8 => .ok (.faddS d a b)
  | 9 => .ok (.fsubS d a b)
  | 10 => .ok (.fmulS d a b)
  | 11 => .ok (.fmaS d a b)
  | lo => unassigned (BitVec.ofNat 8 (0x50 + lo)) d a b

/-- Opcodes 0x60 to 0x6F (R110 to R116). -/
def decode6 (lo : Nat) (d a b : Byte) : Except DecodeError Instr :=
  match lo with
  | 2 => if b ≠ 0 then .error .nonzeroField else .ok (.movS d a)
  | 3 => if b ≠ 0 then .error .nonzeroField else .ok (.movpS d a)
  | lo => unassigned (BitVec.ofNat 8 (0x60 + lo)) d a b

/-- Opcodes 0x70 to 0x7F (R110 to R116). -/
def decode7 (lo : Nat) (d a b : Byte) : Except DecodeError Instr :=
  match lo with
  | 0 => .ok (.moviS d (a ++ b))
  | 1 => .ok (.movhiS d (a ++ b))
  | 2 => .ok (.addiS d (a ++ b))
  | lo => unassigned (BitVec.ofNat 8 (0x70 + lo)) d a b

/-- Opcodes 0x80 to 0x8F (R110 to R116). -/
def decode8 (lo : Nat) (d a b : Byte) : Except DecodeError Instr :=
  match lo with
  | 0 => if d ≠ 0 then .error .nonzeroField else .ok (.bra (a ++ b))
  | 1 => .ok (.brc d (a ++ b))
  | 2 => .ok (.brv d (a ++ b))
  | 3 => .ok (.call d (a ++ b))
  | 4 => if d ≠ 0 ∨ b ≠ 0 then .error .nonzeroField else .ok (.ret a)
  | 5 => if d ≠ 0 ∨ b ≠ 0 then .error .nonzeroField else .ok (.jmpr a)
  | 6 => if d ≠ 0 ∨ a ≠ 0 ∨ b ≠ 0 then .error .nonzeroField else .ok .regang
  | 7 => if d ≠ 0 ∨ a ≠ 0 ∨ b ≠ 0 then .error .nonzeroField else .ok .exit
  | 8 => if d ≠ 0 ∨ a ≠ 0 ∨ b ≠ 0 then .error .nonzeroField else .ok .nop
  | 9 => decodeMode d (a ++ b)
  | 10 => match MxHalf.ofCode d with | some h => .ok (.mxmode h (a ++ b)) | none => .error .reservedCode
  | 11 => if d ≠ 0 ∨ a.extractLsb' 4 4 ≠ 0 then .error .nonzeroField else .ok (.waitf (a.extractLsb' 0 4 ++ b))
  | 12 => if d ≠ 0 then .error .nonzeroField else .ok (.trap (a ++ b))
  | 13 => if d ≠ 0 ∨ a ≠ 0 ∨ b ≠ 0 then .error .nonzeroField else .ok .rtt
  | 14 => if d ≠ 0 then .error .nonzeroField else .ok (.brk (a ++ b))
  | 15 => if d ≠ 0 ∨ a ≠ 0 ∨ b ≠ 0 then .error .nonzeroField else .ok .yield
  | lo => unassigned (BitVec.ofNat 8 (0x80 + lo)) d a b

/-- Opcodes 0x90 to 0x9F (R110 to R116). -/
def decode9 (lo : Nat) (d a b : Byte) : Except DecodeError Instr :=
  match lo with
  | 0 => (decodeCtl .load b).map (.ld d a)
  | 1 => (decodeCtl .load b).map (.ldb d a)
  | 2 => (decodeCtl .store b).map (.st d a)
  | 3 => (decodeCtl .scratchLoad b).map (.lds d a)
  | 4 => (decodeCtl .scratchStore b).map (.sts d a)
  | 5 => (decodeCtl .atomic b).map (.atomAdd d a)
  | 6 => (decodeCtl .atomic b).map (.atomMin d a)
  | 7 => (decodeCtl .atomic b).map (.atomMax d a)
  | 8 => (decodeCtl .atomic b).map (.atomAnd d a)
  | 9 => (decodeCtl .atomic b).map (.atomOr d a)
  | 10 => (decodeCtl .atomic b).map (.atomXor d a)
  | 11 => (decodeCtl .atomic b).map (.atomXchg d a)
  | 12 => (decodeCtl .atomicNoReturn b).map (.atomnAdd d a)
  | 13 => (decodeCtl .atomicNoReturn b).map (.atomnMin d a)
  | 14 => (decodeCtl .atomicNoReturn b).map (.atomnMax d a)
  | 15 => (decodeCtl .atomicNoReturn b).map (.atomnAnd d a)
  | lo => unassigned (BitVec.ofNat 8 (0x90 + lo)) d a b

/-- Opcodes 0xA0 to 0xAF (R110 to R116). -/
def decodeA (lo : Nat) (d a b : Byte) : Except DecodeError Instr :=
  match lo with
  | 0 => (decodeCtl .atomicNoReturn b).map (.atomnOr d a)
  | 1 => (decodeCtl .atomicNoReturn b).map (.atomnXor d a)
  | 2 => (decodeCtl .atomic b).map (.cas d a)
  | 3 => (decodeMop b).map fun (cls, sc) => .mop d a cls sc
  | 4 => (decodeMop b).map fun (cls, sc) => .mopr d a cls sc
  | 5 => if d ≠ 0 ∨ a ≠ 0 then .error .nonzeroField else decodeFence b
  | 6 => if d ≠ 0 then .error .nonzeroField else .ok (.clean a b)
  | 7 => if d ≠ 0 then .error .nonzeroField else .ok (.inval a b)
  | 8 => if d ≠ 0 then .error .nonzeroField else .ok (.discard a b)
  | 9 => if d ≠ 0 then .error .nonzeroField else .ok (.pref a b)
  | 10 => if d ≠ 0 then .error .nonzeroField else .ok (.aszload a b)
  | 11 => if d ≠ 0 ∨ b ≠ 0 then .error .nonzeroField else .ok (.monitor a)
  | 12 => if d ≠ 0 ∨ b ≠ 0 then .error .nonzeroField else .ok (.mwait a)
  | lo => unassigned (BitVec.ofNat 8 (0xA0 + lo)) d a b

/-- Opcodes 0xB0 to 0xBF (R110 to R116). -/
def decodeB (lo : Nat) (d a b : Byte) : Except DecodeError Instr :=
  match lo with
  | 0 => .ok (.shflIdx d a b)
  | 1 => .ok (.shflXor d a b)
  | 2 => .ok (.shflUp d a b)
  | 3 => .ok (.shflDn d a b)
  | 4 => .ok (.bcast d a b)
  | 5 => if b ≠ 0 then .error .nonzeroField else .ok (.vote d a)
  | 6 => if a ≠ 0 ∨ b ≠ 0 then .error .nonzeroField else .ok (.elect d)
  | 7 => match ElemType.ofCode b with | some t => .ok (.cvt d a t) | none => .error .reservedCode
  | 8 => if b ≠ 0 then .error .nonzeroField else .ok (.rnenc d a)
  | 9 => if b ≠ 0 then .error .nonzeroField else .ok (.rndec d a)
  | 10 => if a ≠ 0 ∨ b ≠ 0 then .error .nonzeroField else .ok (.getx d)
  | 11 => if d ≠ 0 ∨ b ≠ 0 then .error .nonzeroField else .ok (.setx a)
  | 12 => if a ≠ 0 then .error .nonzeroField else .ok (.rdsr d b)
  | 13 => if d ≠ 0 then .error .nonzeroField else .ok (.wrsr a b)
  | lo => unassigned (BitVec.ofNat 8 (0xB0 + lo)) d a b

/-- Opcodes 0xC0 to 0xCF (R110 to R116). -/
def decodeC (lo : Nat) (d a b : Byte) : Except DecodeError Instr :=
  match lo with
  | 0 => .ok (.mma d a b)
  | 1 => .ok (.mmar d a b)
  | 2 => if b ≠ 0 then .error .nonzeroField else .ok (.tdesc d a)
  | 3 => .ok (.tmul d a b)
  | 4 => .ok (.tadd d a b)
  | 5 => match TileFn.ofCode b with | some f => .ok (.tmap d a f) | none => .error .reservedCode
  | 6 => .ok (.tscl d a b)
  | 7 => if b ≠ 0 then .error .nonzeroField else .ok (.ttrn d a)
  | 8 => .ok (.tslc d a b)
  | 9 => .ok (.tbcast d a b)
  | 10 => decodeTred d a b
  | 11 => .ok (.tstore d a b)
  | 12 => if a ≠ 0 ∨ b ≠ 0 then .error .nonzeroField else .ok (.tforce d)
  | 13 => if a ≠ 0 ∨ b ≠ 0 then .error .nonzeroField else .ok (.tdrop d)
  | lo => unassigned (BitVec.ofNat 8 (0xC0 + lo)) d a b

/-- Opcodes 0xD0 to 0xDF (R110 to R116). -/
def decodeD (lo : Nat) (d a b : Byte) : Except DecodeError Instr :=
  match lo with
  | 0 => if d.extractLsb' 3 5 ≠ 0 then .error .sporeField else .ok (.spseed (d.extractLsb' 0 3) a b)
  | 1 => if a ≠ 0 ∨ b ≠ 0 then .error .nonzeroField else if d.extractLsb' 3 5 ≠ 0 then .error .sporeField else .ok (.spnext (d.extractLsb' 0 3))
  | 2 => if a.extractLsb' 3 5 ≠ 0 then .error .sporeField else .ok (.splt d (a.extractLsb' 0 3) b)
  | 3 => if a.extractLsb' 3 5 ≠ 0 ∨ b.extractLsb' 3 5 ≠ 0 then .error .sporeField else .ok (.spcmp d (a.extractLsb' 0 3) (b.extractLsb' 0 3))
  | 4 => if a.extractLsb' 3 5 ≠ 0 then .error .sporeField else .ok (.spidx d (a.extractLsb' 0 3) b)
  | 5 => if b ≠ 0 then .error .nonzeroField else if a.extractLsb' 3 5 ≠ 0 then .error .sporeField else .ok (.spval d (a.extractLsb' 0 3))
  | 6 => if b ≠ 0 then .error .nonzeroField else if a.extractLsb' 3 5 ≠ 0 then .error .sporeField else .ok (.splen d (a.extractLsb' 0 3))
  | 7 => .ok (.cpy d a b)
  | 8 => if a ≠ 0 ∨ b ≠ 0 then .error .nonzeroField else .ok (.cpclose d)
  | 9 => if d ≠ 0 ∨ b ≠ 0 then .error .nonzeroField else .ok (.waitb a)
  | 10 => if d ≠ 0 then .error .nonzeroField else .ok (.bcinit a b)
  | 11 => if d ≠ 0 then .error .nonzeroField else .ok (.bcexp a b)
  | 12 => if d ≠ 0 then .error .nonzeroField else .ok (.bcarr a b)
  | 13 => if d ≠ 0 then .error .nonzeroField else .ok (.bcwait a b)
  | 14 => .ok (.amsg d a b)
  | lo => unassigned (BitVec.ofNat 8 (0xD0 + lo)) d a b

/-- Opcodes 0xE0 to 0xEF (R110 to R116). -/
def decodeE (lo : Nat) (d a b : Byte) : Except DecodeError Instr :=
  match lo with
  | 0 => match b.toNat with
    | 0x00 => .ok (.abs d a)
    | 0x01 => .ok (.neg d a)
    | 0x02 => .ok (.not d a)
    | 0x03 => .ok (.clz d a)
    | 0x04 => .ok (.popc d a)
    | 0x05 => .ok (.brev d a)
    | _ => unassigned 0xE0 d a b
  | 1 => match b.toNat with
    | 0x00 => .ok (.absS d a)
    | 0x01 => .ok (.negS d a)
    | 0x02 => .ok (.notS d a)
    | 0x03 => .ok (.clzS d a)
    | 0x04 => .ok (.popcS d a)
    | 0x05 => .ok (.brevS d a)
    | _ => unassigned 0xE1 d a b
  | 2 => match b.toNat with
    | 0x00 => .ok (.frcp d a)
    | 0x01 => .ok (.frsq d a)
    | 0x02 => .ok (.fsqrt d a)
    | 0x03 => .ok (.fex2 d a)
    | 0x04 => .ok (.flg2 d a)
    | 0x05 => .ok (.fsin d a)
    | 0x06 => .ok (.fcos d a)
    | 0x07 => .ok (.ftnh d a)
    | 0x08 => .ok (.fclass d a)
    | _ => unassigned 0xE2 d a b
  | 3 => if b.extractLsb' 4 4 ≠ 0 then unassigned 0xE3 d a b else match RedOp.ofCode (b.extractLsb' 0 4) with | some o => .ok (.reduce d a o) | none => unassigned 0xE3 d a b
  | 4 => decodeScan d a b
  | 5 => match (b.extractLsb' 4 4).toNat with
    | 0 => if d ≠ 0 then .error .nonzeroField else .ok (.chsend a (b.extractLsb' 0 4))
    | 4 => if a ≠ 0 then .error .nonzeroField else .ok (.chrecv d (b.extractLsb' 0 4))
    | 8 => if a ≠ 0 then .error .nonzeroField else .ok (.chpoll d (b.extractLsb' 0 4))
    | n => if n / 4 = 3 then unassigned 0xE5 d a b else .error .nonzeroField
  | 6 => match (b.extractLsb' 4 4).toNat with
    | 0 => if d ≠ 0 then .error .nonzeroField else .ok (.bar a (b.extractLsb' 0 4))
    | 8 => if d ≠ 0 then .error .nonzeroField else .ok (.barc a (b.extractLsb' 0 4))
    | _ => .error .nonzeroField
  | 7 => match b.toNat with
    | 0x00 => .ok (.tspawn d a)
    | 0x01 => if a ≠ 0 then .error .nonzeroField else .ok (.tstat d)
    | 0x02 => if d ≠ 0 then .error .nonzeroField else .ok (.jcancel a)
    | 0x03 => if d ≠ 0 ∨ a ≠ 0 then .error .nonzeroField else .ok .qend
    | _ => unassigned 0xE7 d a b
  | lo => unassigned (BitVec.ofNat 8 (0xE0 + lo)) d a b

/-- A word by its four bytes: the opcode's high digit selects the range of R108. -/
def decodeFields (op d a b : Byte) : Except DecodeError Instr :=
  match op.toNat / 16 with
  | 0 => decode0 (op.toNat % 16) d a b
  | 1 => decode1 (op.toNat % 16) d a b
  | 2 => decode2 (op.toNat % 16) d a b
  | 3 => decode3 (op.toNat % 16) d a b
  | 4 => decode4 (op.toNat % 16) d a b
  | 5 => decode5 (op.toNat % 16) d a b
  | 6 => decode6 (op.toNat % 16) d a b
  | 7 => decode7 (op.toNat % 16) d a b
  | 8 => decode8 (op.toNat % 16) d a b
  | 9 => decode9 (op.toNat % 16) d a b
  | 10 => decodeA (op.toNat % 16) d a b
  | 11 => decodeB (op.toNat % 16) d a b
  | 12 => decodeC (op.toNat % 16) d a b
  | 13 => decodeD (op.toNat % 16) d a b
  | 14 => decodeE (op.toNat % 16) d a b
  | _ => decodeHeader (pack op d a b)

/-- The decoder: what a fetched word stands for, or why step 3 of R118 refuses it. -/
def decode (w : Word) : Except DecodeError Instr :=
  decodeFields (w.extractLsb' 24 8) (w.extractLsb' 16 8) (w.extractLsb' 8 8) (w.extractLsb' 0 8)

/-- The encoder: the word of an instruction, from the same tables; an event row has no word. -/
def encode : Instr → Option Word
  | .add d a b => some (pack 0x00 d a b)
  | .addS d a b => some (pack 0x40 d a b)
  | .sub d a b => some (pack 0x01 d a b)
  | .subS d a b => some (pack 0x41 d a b)
  | .mul d a b => some (pack 0x02 d a b)
  | .mulS d a b => some (pack 0x42 d a b)
  | .mulhi d a b => some (pack 0x03 d a b)
  | .mulhiS d a b => some (pack 0x43 d a b)
  | .madlo d a b => some (pack 0x04 d a b)
  | .madloS d a b => some (pack 0x44 d a b)
  | .min d a b => some (pack 0x05 d a b)
  | .minS d a b => some (pack 0x45 d a b)
  | .max d a b => some (pack 0x06 d a b)
  | .maxS d a b => some (pack 0x46 d a b)
  | .and d a b => some (pack 0x07 d a b)
  | .andS d a b => some (pack 0x47 d a b)
  | .or d a b => some (pack 0x08 d a b)
  | .orS d a b => some (pack 0x48 d a b)
  | .xor d a b => some (pack 0x09 d a b)
  | .xorS d a b => some (pack 0x49 d a b)
  | .shl d a b => some (pack 0x0A d a b)
  | .shlS d a b => some (pack 0x4A d a b)
  | .shr d a b => some (pack 0x0B d a b)
  | .shrS d a b => some (pack 0x4B d a b)
  | .sha d a b => some (pack 0x0C d a b)
  | .shaS d a b => some (pack 0x4C d a b)
  | .rol d a b => some (pack 0x0D d a b)
  | .rolS d a b => some (pack 0x4D d a b)
  | .cmpEq d a b => some (pack 0x0E d a b)
  | .cmpEqS d a b => some (pack 0x4E d a b)
  | .cmpNe d a b => some (pack 0x0F d a b)
  | .cmpNeS d a b => some (pack 0x4F d a b)
  | .cmpLt d a b => some (pack 0x10 d a b)
  | .cmpLtS d a b => some (pack 0x50 d a b)
  | .cmpLe d a b => some (pack 0x11 d a b)
  | .cmpLeS d a b => some (pack 0x51 d a b)
  | .sel d a b => some (pack 0x12 d a b)
  | .selS d a b => some (pack 0x52 d a b)
  | .bfx d a b => some (pack 0x13 d a b)
  | .bfxS d a b => some (pack 0x53 d a b)
  | .bfi d a b => some (pack 0x14 d a b)
  | .bfiS d a b => some (pack 0x54 d a b)
  | .fadd d a b => some (pack 0x18 d a b)
  | .faddS d a b => some (pack 0x58 d a b)
  | .fsub d a b => some (pack 0x19 d a b)
  | .fsubS d a b => some (pack 0x59 d a b)
  | .fmul d a b => some (pack 0x1A d a b)
  | .fmulS d a b => some (pack 0x5A d a b)
  | .fma d a b => some (pack 0x1B d a b)
  | .fmaS d a b => some (pack 0x5B d a b)
  | .fmin d a b => some (pack 0x1C d a b)
  | .fmax d a b => some (pack 0x1D d a b)
  | .fcmpEq d a b => some (pack 0x1E d a b)
  | .fcmpLt d a b => some (pack 0x1F d a b)
  | .fcmpLe d a b => some (pack 0x20 d a b)
  | .fcmpUn d a b => some (pack 0x21 d a b)
  | .mov d a => some (pack 0x22 d a 0)
  | .movS d a => some (pack 0x62 d a 0)
  | .movp d a => some (pack 0x23 d a 0)
  | .movpS d a => some (pack 0x63 d a 0)
  | .movi d imm => some (pack16 0x30 d imm)
  | .moviS d imm => some (pack16 0x70 d imm)
  | .movhi d imm => some (pack16 0x31 d imm)
  | .movhiS d imm => some (pack16 0x71 d imm)
  | .addi d imm => some (pack16 0x32 d imm)
  | .addiS d imm => some (pack16 0x72 d imm)
  | .bra off => some (pack16 0x80 0 off)
  | .brc c off => some (pack16 0x81 c off)
  | .brv c off => some (pack16 0x82 c off)
  | .call c off => some (pack16 0x83 c off)
  | .ret a => some (pack 0x84 0 a 0)
  | .jmpr a => some (pack 0x85 0 a 0)
  | .regang => some (pack 0x86 0 0 0)
  | .exit => some (pack 0x87 0 0 0)
  | .nop => some (pack 0x88 0 0 0)
  | .modeT imm => some (pack16 0x89 0 (0#7 ++ imm))
  | .modeG imm => some (pack16 0x89 1 (0#6 ++ imm))
  | .mxmode half imm => some (pack16 0x8A half.code imm)
  | .waitf mask => some (pack16 0x8B 0 (0#4 ++ mask))
  | .trap imm => some (pack16 0x8C 0 imm)
  | .rtt => some (pack 0x8D 0 0 0)
  | .brk imm => some (pack16 0x8E 0 imm)
  | .yield => some (pack 0x8F 0 0 0)
  | .ld d a ctl => some (pack 0x90 d a ctl.encode)
  | .ldb d a ctl => some (pack 0x91 d a ctl.encode)
  | .st d a ctl => some (pack 0x92 d a ctl.encode)
  | .lds d a ctl => some (pack 0x93 d a ctl.encode)
  | .sts d a ctl => some (pack 0x94 d a ctl.encode)
  | .atomAdd d a ctl => some (pack 0x95 d a ctl.encode)
  | .atomMin d a ctl => some (pack 0x96 d a ctl.encode)
  | .atomMax d a ctl => some (pack 0x97 d a ctl.encode)
  | .atomAnd d a ctl => some (pack 0x98 d a ctl.encode)
  | .atomOr d a ctl => some (pack 0x99 d a ctl.encode)
  | .atomXor d a ctl => some (pack 0x9A d a ctl.encode)
  | .atomXchg d a ctl => some (pack 0x9B d a ctl.encode)
  | .atomnAdd d a ctl => some (pack 0x9C d a ctl.encode)
  | .atomnMin d a ctl => some (pack 0x9D d a ctl.encode)
  | .atomnMax d a ctl => some (pack 0x9E d a ctl.encode)
  | .atomnAnd d a ctl => some (pack 0x9F d a ctl.encode)
  | .atomnOr d a ctl => some (pack 0xA0 d a ctl.encode)
  | .atomnXor d a ctl => some (pack 0xA1 d a ctl.encode)
  | .cas d a ctl => some (pack 0xA2 d a ctl.encode)
  | .mop d a cls sc => some (pack 0xA3 d a (cls ++ sc.code ++ 0#1))
  | .mopr d a cls sc => some (pack 0xA4 d a (cls ++ sc.code ++ 0#1))
  | .fence sc od => some (pack 0xA5 0 0 (0#3 ++ sc.code ++ od.code))
  | .clean a b => some (pack 0xA6 0 a b)
  | .inval a b => some (pack 0xA7 0 a b)
  | .discard a b => some (pack 0xA8 0 a b)
  | .pref a b => some (pack 0xA9 0 a b)
  | .aszload a b => some (pack 0xAA 0 a b)
  | .monitor a => some (pack 0xAB 0 a 0)
  | .mwait a => some (pack 0xAC 0 a 0)
  | .shflIdx d a b => some (pack 0xB0 d a b)
  | .shflXor d a b => some (pack 0xB1 d a b)
  | .shflUp d a b => some (pack 0xB2 d a b)
  | .shflDn d a b => some (pack 0xB3 d a b)
  | .bcast d a b => some (pack 0xB4 d a b)
  | .vote d a => some (pack 0xB5 d a 0)
  | .elect d => some (pack 0xB6 d 0 0)
  | .cvt d a src => some (pack 0xB7 d a src.code)
  | .rnenc d a => some (pack 0xB8 d a 0)
  | .rndec d a => some (pack 0xB9 d a 0)
  | .getx d => some (pack 0xBA d 0 0)
  | .setx a => some (pack 0xBB 0 a 0)
  | .rdsr d num => some (pack 0xBC d 0 num)
  | .wrsr a num => some (pack 0xBD 0 a num)
  | .mma d a b => some (pack 0xC0 d a b)
  | .mmar d a b => some (pack 0xC1 d a b)
  | .tdesc d a => some (pack 0xC2 d a 0)
  | .tmul d a b => some (pack 0xC3 d a b)
  | .tadd d a b => some (pack 0xC4 d a b)
  | .tmap d a fn => some (pack 0xC5 d a fn.code)
  | .tscl d a b => some (pack 0xC6 d a b)
  | .ttrn d a => some (pack 0xC7 d a 0)
  | .tslc d a b => some (pack 0xC8 d a b)
  | .tbcast d a b => some (pack 0xC9 d a b)
  | .tred d a col op => some (pack 0xCA d a (0#3 ++ BitVec.ofBool col ++ 0#2 ++ op.code))
  | .tstore a b c => some (pack 0xCB a b c)
  | .tforce a => some (pack 0xCC a 0 0)
  | .tdrop a => some (pack 0xCD a 0 0)
  | .spseed k a b => some (pack 0xD0 (0#5 ++ k) a b)
  | .spnext k => some (pack 0xD1 (0#5 ++ k) 0 0)
  | .splt d k b => some (pack 0xD2 d (0#5 ++ k) b)
  | .spcmp d k k' => some (pack 0xD3 d (0#5 ++ k) (0#5 ++ k'))
  | .spidx d k b => some (pack 0xD4 d (0#5 ++ k) b)
  | .spval d k => some (pack 0xD5 d (0#5 ++ k) 0)
  | .splen d k => some (pack 0xD6 d (0#5 ++ k) 0)
  | .cpy d a b => some (pack 0xD7 d a b)
  | .cpclose d => some (pack 0xD8 d 0 0)
  | .waitb a => some (pack 0xD9 0 a 0)
  | .bcinit a b => some (pack 0xDA 0 a b)
  | .bcexp a b => some (pack 0xDB 0 a b)
  | .bcarr a b => some (pack 0xDC 0 a b)
  | .bcwait a b => some (pack 0xDD 0 a b)
  | .amsg d a b => some (pack 0xDE d a b)
  | .abs d a => some (pack 0xE0 d a 0x00)
  | .absS d a => some (pack 0xE1 d a 0x00)
  | .neg d a => some (pack 0xE0 d a 0x01)
  | .negS d a => some (pack 0xE1 d a 0x01)
  | .not d a => some (pack 0xE0 d a 0x02)
  | .notS d a => some (pack 0xE1 d a 0x02)
  | .clz d a => some (pack 0xE0 d a 0x03)
  | .clzS d a => some (pack 0xE1 d a 0x03)
  | .popc d a => some (pack 0xE0 d a 0x04)
  | .popcS d a => some (pack 0xE1 d a 0x04)
  | .brev d a => some (pack 0xE0 d a 0x05)
  | .brevS d a => some (pack 0xE1 d a 0x05)
  | .frcp d a => some (pack 0xE2 d a 0x00)
  | .frsq d a => some (pack 0xE2 d a 0x01)
  | .fsqrt d a => some (pack 0xE2 d a 0x02)
  | .fex2 d a => some (pack 0xE2 d a 0x03)
  | .flg2 d a => some (pack 0xE2 d a 0x04)
  | .fsin d a => some (pack 0xE2 d a 0x05)
  | .fcos d a => some (pack 0xE2 d a 0x06)
  | .ftnh d a => some (pack 0xE2 d a 0x07)
  | .fclass d a => some (pack 0xE2 d a 0x08)
  | .reduce d a op => some (pack 0xE3 d a (0#4 ++ op.code))
  | .scan d a excl op => some (pack 0xE4 d a (BitVec.ofBool excl ++ 0#3 ++ op.code))
  | .chsend a ch => some (pack 0xE5 0 a (0x0#4 ++ ch))
  | .chrecv d ch => some (pack 0xE5 d 0 (0x4#4 ++ ch))
  | .chpoll d ch => some (pack 0xE5 d 0 (0x8#4 ++ ch))
  | .bar a id => some (pack 0xE6 0 a (0x0#4 ++ id))
  | .barc a id => some (pack 0xE6 0 a (0x8#4 ++ id))
  | .tspawn d a => some (pack 0xE7 d a 0x00)
  | .tstat d => some (pack 0xE7 d 0 0x01)
  | .jcancel a => some (pack 0xE7 0 a 0x02)
  | .qend => some (pack 0xE7 0 0 0x03)
  | .clause wait fa fb len => some (0xF#4 ++ wait ++ flagCode fa ++ flagCode fb ++ len ++ 0#4)
  | .unassignedOpcode w => some w
  | .loadLanding _ => none
  | .atomReturn _ => none
  | .moprReturn _ => none
  | .sporeRevealLanding _ => none
  | .storeAck _ => none
  | .sliceRead _ _ => none
  | .sliceWrite _ => none
  | .sliceAtomic _ => none
  | .sliceMopApply _ _ => none
  | .updateApply _ _ => none
  | .updateAck _ _ => none
  | .dropNotice _ _ => none
  | .l1MissReplay _ => none
  | .sliceIngressAdmit _ => none
  | .monitorRegistered _ => none
  | .mtimeout _ => none
  | .copyComplete _ => none
  | .demandComplete _ => none
  | .lateFault _ => none
  | .channelSlotFill _ => none
  | .channelReceiveLand _ => none
  | .tinkerHandler _ => none
  | .tinkerHandlerEnd _ => none
  | .handlerInstructionLimit _ => none
  | .amsgReply _ => none
  | .groupRetire _ => none
  | .quantumExpiry _ => none
  | .detCommit _ => none
  | .stail _ _ => none
  | .registerWrite _ _ _ => none
  | .launch _ => none
  | .qbind _ => none
  | .tlbinv _ => none
  | .setways _ => none
  | .scrwaysChangeApply _ => none
  | .wait _ => none
  | .cancel _ => none
  | .commandDependencyRelease _ => none
  | .launchEnd _ => none
  | .tinkerImageInstall _ => none
  | .teamPlacement _ => none
  | .taskStart _ => none
  | .queueAppend _ => none
  | .taskSuccessorStep _ => none
  | .reresidenceTimeout _ => none
  | .preemptRequest _ => none
  | .preemptDrainEnd _ => none
  | .preemptDrainTimeout _ => none
  | .preemptDeferExpiry _ => none
  | .injectionStarvationTimeout => none
  | .linkErrorRetry => none
  | .hostHdmAccess _ _ => none
  | .peerAccessArrival _ _ => none
  | .attestationRequest _ => none
  | .worldTableWrite _ _ => none
  | .regionTableWrite _ _ => none
  | .linkTraining => none
  | .coldStart => none
  | .warmStart => none
  | .bistDone => none
  | .trainDone => none
  | .fetchDone => none
  | .verifyDone => none
  | .recoverDone => none
  | .startupStepTimeout => none
  | .uncorrectableError _ => none
  | .powerStateChange _ _ _ => none
  | .thermalSample => none
  | .thermalTrip => none
  | .portDown _ => none
  | .correctedError _ => none
  | .cancellationRecorded _ _ => none
  | .maintenanceComplete _ => none
  | .tableInstall _ => none

/-- Whether a word encodes this instruction: everything but the event rows. -/
def Instr.isWord (i : Instr) : Bool := (encode i).isSome

/-- The word at the head of a little-endian byte string (R98). -/
def wordOfBytes : List Byte → Option Word
  | b0 :: b1 :: b2 :: b3 :: _ => some (b3 ++ b2 ++ b1 ++ b0)
  | _ => none

/-- The instruction the decoder reads from an instruction whose bits are `w`, as the opcode table
numbers them: the word's bytes are laid out little-endian and given to the decoder (R98). -/
def decodeTableWord (nbits w : Nat) : Option Instr :=
  if nbits = 32 then
    match wordOfBytes (wordBytes (BitVec.ofNat 32 w)) with
    | some v => (decode v).toOption
    | none => none
  else none

end Sys2Proof
end

