-- ==== Sys2Proof/Machine/Elements.lean ====
section
/-!
DEFINITION. Elements of registers: the widths and ranges of the element types (R122, R127, R134),
packing (R123), fitting (R124), and the integer operations on one lane's value (R125, R126, R326
to R402). A lane's operand is 64 bits: a pair, or one register with zeros above it (R55).
-/
namespace Sys2Proof

/-- Element width in bits (R122, R127, R134). -/
def ElemType.bits : ElemType → Nat
  | .i32 | .n32 | .f32 => 32
  | .i64 | .n64 | .f64 => 64
  | .i16x2 | .n16x2 | .bf16x2 | .f16x2 | .rn16 => 16
  | .i8x4 | .n8x4 | .rn8 => 8

/-- Elements in one operand (R122). -/
def ElemType.count : ElemType → Nat
  | .i16x2 | .n16x2 | .bf16x2 | .f16x2 | .rn16 => 2
  | .i8x4 | .n8x4 | .rn8 => 4
  | _ => 1

/-- Whether the type's operand is a pair (R109, R122). -/
def ElemType.wide : ElemType → Bool
  | .i64 | .n64 | .f64 => true
  | _ => false

/-- Whether elements are two's complement (R122). -/
def ElemType.signed : ElemType → Bool
  | .i32 | .i64 | .i16x2 | .i8x4 => true
  | _ => false

/-- ET 0 to 7 (R122). -/
def ElemType.isInt : ElemType → Bool
  | .i32 | .n32 | .i64 | .n64 | .i16x2 | .n16x2 | .i8x4 | .n8x4 => true
  | _ => false

/-- ET 8 to 11 (R127). -/
def ElemType.isFloat : ElemType → Bool
  | .f32 | .f64 | .bf16x2 | .f16x2 => true
  | _ => false

/-- ET 12 and 13 (R134). -/
def ElemType.isResidue : ElemType → Bool
  | .rn16 | .rn8 => true
  | _ => false

namespace Elem

/-- Element `k` of width `b`, as a natural number (R123). -/
def raw (b k : Nat) (x : Dword) : Nat := x.toNat / 2 ^ (b * k) % 2 ^ b

/-- A `b`-bit pattern read as two's complement or plain binary (R122). -/
def value (signed : Bool) (b n : Nat) : Int :=
  if signed && 2 ^ (b - 1) ≤ n then (n : Int) - 2 ^ b else n

/-- The low `b` bits of an exact integer (R124). -/
def wrap (b : Nat) (x : Int) : Nat := (x % (2 ^ b : Int)).toNat

/-- Bounds of an integer type of width `b` (R122). -/
def lowest (signed : Bool) (b : Nat) : Int := if signed then -(2 ^ (b - 1) : Int) else 0
def highest (signed : Bool) (b : Nat) : Int := if signed then 2 ^ (b - 1) - 1 else 2 ^ b - 1

/-- Sat: clamp an exact integer to a type's range (R12). -/
def clamp (lo hi x : Int) : Int := if x < lo then lo else if hi < x then hi else x

/-- Fit: modulo 2^b, or saturated when GM.SAT is set (R124). -/
def fit (sat signed : Bool) (b : Nat) (x : Int) : Nat :=
  if sat then wrap b (clamp (lowest signed b) (highest signed b) x) else wrap b x

/-- An operand from its elements, element 0 lowest (R123). -/
def join (b : Nat) : List Nat → Nat
  | [] => 0
  | e :: es => e % 2 ^ b + 2 ^ b * join b es

/-- Apply a function of the element number to every element (R123). -/
def build (et : ElemType) (f : Nat → Nat) : Dword :=
  BitVec.ofNat 64 (join et.bits ((List.range et.count).map f))

/-- An integer operation on each element of one operand, elements read in ET. -/
def map1 (et : ElemType) (f : Int → Nat) (a : Dword) : Dword :=
  build et fun k => f (value et.signed et.bits (raw et.bits k a))

/-- An integer operation on each element of two operands, elements read in ET. -/
def map2 (et : ElemType) (f : Int → Int → Nat) (a b : Dword) : Dword :=
  build et fun k =>
    f (value et.signed et.bits (raw et.bits k a)) (value et.signed et.bits (raw et.bits k b))

/-- An integer operation on each element of three operands, elements read in ET. -/
def map3 (et : ElemType) (f : Int → Int → Int → Nat) (d a b : Dword) : Dword :=
  build et fun k =>
    f (value et.signed et.bits (raw et.bits k d)) (value et.signed et.bits (raw et.bits k a))
      (value et.signed et.bits (raw et.bits k b))

/-- ADD (R328). -/
def add (et : ElemType) (sat : Bool) (a b : Dword) : Dword :=
  map2 et (fun x y => fit sat et.signed et.bits (x + y)) a b

/-- SUB (R412). -/
def sub (et : ElemType) (sat : Bool) (a b : Dword) : Dword :=
  map2 et (fun x y => fit sat et.signed et.bits (x - y)) a b

/-- ADDI: the immediate is signed whatever ET (R329). -/
def addi (et : ElemType) (sat : Bool) (imm : BitVec 16) (d : Dword) : Dword :=
  map1 et (fun x => fit sat et.signed et.bits (x + imm.toInt)) d

/-- MUL (R382). -/
def mul (et : ElemType) (sat : Bool) (a b : Dword) : Dword :=
  map2 et (fun x y => fit sat et.signed et.bits (x * y)) a b

/-- MULHI: bits [2b-1:b] of the exact product (R126). -/
def mulhi (et : ElemType) (a b : Dword) : Dword :=
  map2 et (fun x y => wrap et.bits (x * y / 2 ^ et.bits)) a b

/-- MADLO (R126, R382). -/
def madlo (et : ElemType) (sat : Bool) (d a b : Dword) : Dword :=
  map3 et (fun z x y => fit sat et.signed et.bits (z + x * y)) d a b

/-- MIN (R382). -/
def min (et : ElemType) (a b : Dword) : Dword :=
  map2 et (fun x y => wrap et.bits (if y < x then y else x)) a b

/-- MAX (R382). -/
def max (et : ElemType) (a b : Dword) : Dword :=
  map2 et (fun x y => wrap et.bits (if x < y then y else x)) a b

/-- ABS (R327). -/
def abs (et : ElemType) (sat : Bool) (a : Dword) : Dword :=
  map1 et (fun x => fit sat et.signed et.bits (if x < 0 then -x else x)) a

/-- NEG (R392). -/
def neg (et : ElemType) (sat : Bool) (a : Dword) : Dword :=
  map1 et (fun x => fit sat et.signed et.bits (-x)) a

/-- Bits of `x` up to the width of the operand: 64 for a wide type, else 32. -/
def clip (wide : Bool) (x : Dword) : Dword := if wide then x else x &&& 0xFFFFFFFF#64

/-- Bits of a `b`-bit number, lowest first. -/
def bitList (b n : Nat) : List Bool := (List.range b).map fun i => n.testBit i

/-- Number of set bits of a `b`-bit number. -/
def popCount (b n : Nat) : Nat := ((bitList b n).filter id).length

/-- Zero bits above the highest set bit, `b` for zero (R349). -/
def leadingZeros (b n : Nat) : Nat := if n = 0 then b else b - 1 - Nat.log2 n

/-- Bit `i` of the result is bit b-1-i (R341). -/
def reverseBits (b n : Nat) : Nat :=
  (bitList b n).foldl (fun acc x => 2 * acc + cond x 1 0) 0

/-- CLZ (R349). -/
def clz (et : ElemType) (a : Dword) : Dword := build et fun k => leadingZeros et.bits (raw et.bits k a)

/-- POPC (R392). -/
def popc (et : ElemType) (a : Dword) : Dword := build et fun k => popCount et.bits (raw et.bits k a)

/-- BREV (R341). -/
def brev (et : ElemType) (a : Dword) : Dword := build et fun k => reverseBits et.bits (raw et.bits k a)

/-- The count of a shift: element `k` of a packed type, else the whole single register (R125). -/
def shiftCount (et : ElemType) (k : Nat) (c : Dword) : Nat :=
  if et.count = 1 then c.toNat % 2 ^ 32 else raw et.bits k c

/-- SHL (R125). -/
def shl (et : ElemType) (a c : Dword) : Dword :=
  build et fun k =>
    let n := shiftCount et k c
    if et.bits ≤ n then 0 else raw et.bits k a * 2 ^ n

/-- SHR (R125). -/
def shr (et : ElemType) (a c : Dword) : Dword :=
  build et fun k =>
    let n := shiftCount et k c
    if et.bits ≤ n then 0 else raw et.bits k a / 2 ^ n

/-- SHA: fills with the sign bit, whatever the signedness of ET (R125). -/
def sha (et : ElemType) (a c : Dword) : Dword :=
  build et fun k =>
    let n := shiftCount et k c
    wrap et.bits (value true et.bits (raw et.bits k a) / 2 ^ (if et.bits ≤ n then et.bits else n))

/-- ROL (R125). -/
def rol (et : ElemType) (a c : Dword) : Dword :=
  build et fun k =>
    let n := shiftCount et k c % et.bits
    let x := raw et.bits k a
    x * 2 ^ n % 2 ^ et.bits + x / 2 ^ (et.bits - n)

/-- The conditions of CMP (R350). -/
inductive Cond where
  | eq | ne | lt | le
  deriving DecidableEq, Repr

/-- CMP: 1 when the relation holds, else 0, as a whole word (R350). -/
def cmp (et : ElemType) (c : Cond) (a b : Dword) : Dword :=
  let x := value et.signed et.bits (raw et.bits 0 a)
  let y := value et.signed et.bits (raw et.bits 0 b)
  let holds : Bool := match c with
    | .eq => decide (x = y)
    | .ne => decide (x ≠ y)
    | .lt => decide (x < y)
    | .le => decide (x ≤ y)
  if holds then 1 else 0

/-- BFX (R339): pos in [7:0] and len in [15:8] of the specifier. -/
def bfx (et : ElemType) (a spec : Dword) : Dword :=
  let w := et.bits
  let pos := raw 8 0 spec
  let len := raw 8 1 spec
  if len = 0 || w ≤ pos then 0
  else
    let n := Nat.min (pos + len) w - pos
    let f := raw w 0 a / 2 ^ pos % 2 ^ n
    BitVec.ofNat 64 (wrap w (value et.signed n f))

/-- BFI (R339). -/
def bfi (et : ElemType) (d a spec : Dword) : Dword :=
  let w := et.bits
  let pos := raw 8 0 spec
  let len := raw 8 1 spec
  if len = 0 || w ≤ pos then d
  else
    let n := Nat.min (pos + len) w - pos
    let old := raw w 0 d
    BitVec.ofNat 64
      (old % 2 ^ pos + 2 ^ pos * (raw w 0 a % 2 ^ n) + 2 ^ (pos + n) * (old / 2 ^ (pos + n)))

/-- SEL: the predicate is bit 0 of the old destination (R404). -/
def sel (d a b : Dword) : Dword := if d.getLsbD 0 then a else b

end Elem

end Sys2Proof
end

