-- ==== Sys2Proof/Machine/Flags.lean ====
section
/-!
DEFINITION. Arithmetic conditions of one lane, and the trap causes they raise. A `Flags` value has
the bits of GS[8:0] in their order (R66) and, in bit 9, the residue poison that XEN.RPF traps on.
-/
namespace Sys2Proof

/-- Trap causes (R296). -/
inductive Cause where
  | illegal | illopnd | illconv | page | perm | align | format | barmask | mtimeout | swtrap
  | break | watch | step | thkfull | late | splim | nuread | fpx | rnovf | chan | divstk | memerr
  deriving DecidableEq, Repr

/-- XCAUSE codes (R296). -/
def Cause.code : Cause → Nat
  | .illegal => 0x01 | .illopnd => 0x02 | .illconv => 0x03 | .page => 0x04 | .perm => 0x05
  | .align => 0x06 | .format => 0x07 | .barmask => 0x08 | .mtimeout => 0x09 | .swtrap => 0x0A
  | .break => 0x0B | .watch => 0x0C | .step => 0x0D | .thkfull => 0x0E | .late => 0x0F
  | .splim => 0x10 | .nuread => 0x11 | .fpx => 0x12 | .rnovf => 0x13 | .chan => 0x14
  | .divstk => 0x15 | .memerr => 0x16

/-- Conditions raised: bits 0 to 8 as GS orders them, bit 9 residue poison (R66, R67). -/
abbrev Flags := BitVec 10

namespace Flags
def none : Flags := 0
def iv : Flags := 1
def dz : Flags := 2
def of : Flags := 4
def uf : Flags := 8
def nx : Flags := 16
def nur : Flags := 32
def emp : Flags := 64
def rno : Flags := 128
def spl : Flags := 256
def poison : Flags := 512

/-- A condition raised only when `c` holds. -/
def when (c : Bool) (f : Flags) : Flags := if c then f else 0

/-- The sticky GS bits that the conditions set (R9); every use of poison sets RNO (R135). -/
def sticky (f : Flags) : Word :=
  (f &&& 0x1FF).setWidth 32 ||| (if f.getLsbD 9 then 128 else 0)

/-- The trap causes that conditions raise under XEN (R67). Poison traps through RPF alone: the
RNO enable is that of an overflow of ResEnc or of the array's check (R135, R136; log 15). -/
def causes (f : Flags) (xen : Word) : List Cause :=
  (if xen.getLsbD 9 && f.getLsbD 9 then [.format] else []) ++
  (if xen.getLsbD 8 && f.getLsbD 8 then [.splim] else []) ++
  (if xen.getLsbD 5 && f.getLsbD 5 then [.nuread] else []) ++
  (if (List.range 5).any (fun i => xen.getLsbD i && f.getLsbD i) then [.fpx] else []) ++
  (if xen.getLsbD 7 && f.getLsbD 7 then [.rnovf] else [])
end Flags

end Sys2Proof
end

