-- ==== Sys2Proof/Machine/Float.lean ====
section
/-!
DEFINITION. Floating-point numbers: layouts (R127), Round (R8), NaN and flag rules (R130, R131),
and the arithmetic of FADD to FCMP and of CVT on one element (R133, R352 to R373).
A finite value is exact: a sign and `m * 2^e`.
-/
namespace Sys2Proof

/-- Rounding modes, in the order of their GM.RM codes (R62). -/
inductive RMode where
  | rne | rtz | rup | rdn | rna
  deriving DecidableEq, Repr

/-- Rounding mode of a GM.RM code; 5 to 7 are reserved (R62). -/
def RMode.ofCodeNat : Nat → Option RMode
  | 0 => some .rne | 1 => some .rtz | 2 => some .rup | 3 => some .rdn | 4 => some .rna
  | _ => none

/-- A binary format: total width, significand precision and exponent range (R127). -/
structure FFmt where
  width : Nat
  prec  : Nat
  emin  : Int
  emax  : Int
  deriving DecidableEq, Repr

namespace FFmt
def f64 : FFmt := ⟨64, 53, -1022, 1023⟩
def f32 : FFmt := ⟨32, 24, -126, 127⟩
def f16 : FFmt := ⟨16, 11, -14, 15⟩
def bf16 : FFmt := ⟨16, 8, -126, 127⟩

/-- Exponent of the unit in the last place of subnormals (R127). -/
def qmin (f : FFmt) : Int := f.emin - f.prec + 1
/-- Bits of the infinity, without sign. -/
def infBits (f : FFmt) : Nat := 2 ^ (f.width - 1) - 2 ^ (f.prec - 1)
/-- The canonical quiet NaN (R130). -/
def nanBits (f : FFmt) : Nat := f.infBits + 2 ^ (f.prec - 2)
/-- The sign bit. -/
def signBit (f : FFmt) (neg : Bool) : Nat := if neg then 2 ^ (f.width - 1) else 0
end FFmt

/-- The floating format of an element type, f32 for the types that have none. -/
def ElemType.ffmt : ElemType → FFmt
  | .f64 => .f64
  | .bf16x2 => .bf16
  | .f16x2 => .f16
  | _ => .f32

/-- The value of a floating bit pattern: a NaN, an infinity, or exactly `±m * 2^e`. -/
inductive FVal where
  | nan (signalling : Bool)
  | inf (neg : Bool)
  | fin (neg : Bool) (m : Nat) (e : Int)
  deriving DecidableEq, Repr

/-- Number of bits of a natural number. -/
def bitLen (n : Nat) : Nat := if n = 0 then 0 else Nat.log2 n + 1

namespace FVal

/-- The value of a bit pattern; under FTZ a subnormal reads as a zero of its sign (R129). -/
def ofBits (f : FFmt) (ftz : Bool) (n : Nat) : FVal :=
  let neg := n.testBit (f.width - 1)
  let frac := n % 2 ^ (f.prec - 1)
  let expo := n / 2 ^ (f.prec - 1) % 2 ^ (f.width - f.prec)
  if expo = 2 ^ (f.width - f.prec) - 1 then
    if frac = 0 then .inf neg else .nan (!(frac.testBit (f.prec - 2)))
  else if expo = 0 then .fin neg (if ftz then 0 else frac) f.qmin
  else .fin neg (frac + 2 ^ (f.prec - 1)) (f.qmin + (expo - 1 : Nat))

/-- The value with its sign reversed; a NaN stays NaN (R373). -/
def negate : FVal → FVal
  | .nan s => .nan s
  | .inf n => .inf (!n)
  | .fin n m e => .fin (!n) m e

def isNan : FVal → Bool
  | .nan _ => true
  | _ => false

def isSignalling : FVal → Bool
  | .nan s => s
  | _ => false

end FVal

/-- How the integer part `q` is adjusted by the discarded part, which is compared with one half:
`above` half, `tie`, or neither; `inexact` says that something was discarded (R8). -/
def roundUp (rm : RMode) (neg odd above tie inexact : Bool) : Bool :=
  match rm with
  | .rne => above || (tie && odd)
  | .rna => above || tie
  | .rtz => false
  | .rup => inexact && !neg
  | .rdn => inexact && neg

/-- `m * 2^e`, plus a discarded part below 2^e when `sticky`, rounded to a multiple of `2^q`:
the multiple and whether it differs from the value. -/
def roundAt (rm : RMode) (neg : Bool) (m : Nat) (e : Int) (sticky : Bool) (q : Int) : Nat × Bool :=
  if q ≤ e then (m * 2 ^ (e - q).toNat, sticky)
  else
    let k := (q - e).toNat
    let n := m / 2 ^ k
    let r := m % 2 ^ k
    let half := 2 ^ (k - 1)
    let inexact := r != 0 || sticky
    let above := decide (half < r) || (r == half && sticky)
    let tie := r == half && !sticky
    (if roundUp rm neg (n % 2 == 1) above tie inexact then n + 1 else n, inexact)

/-- Round (R8) of `±m * 2^e` (or slightly above it when `sticky`, for which `m` has at least
`prec + 2` bits): the bit pattern and the flags. `ftz` says that flushing applies. -/
def roundBits (f : FFmt) (rm : RMode) (ftz neg : Bool) (m : Nat) (e : Int) (sticky : Bool) :
    Nat × Flags :=
  if m = 0 then (f.signBit neg, 0)
  else
    let qu : Int := e + bitLen m - f.prec
    let ru := roundAt rm neg m e sticky qu
    let tiny : Bool := decide (qu + bitLen ru.1 - 1 < f.emin)
    if tiny && ftz && f != .f64 then (f.signBit neg, Flags.uf ||| Flags.nx)
    else if f.emax < qu + bitLen ru.1 - 1 then
      let toInf := match rm with
        | .rne | .rna => true
        | .rtz => false
        | .rup => !neg
        | .rdn => neg
      (f.signBit neg + (if toInf then f.infBits else f.infBits - 1), Flags.of ||| Flags.nx)
    else
      let q := if qu < f.qmin then f.qmin else qu
      let r := roundAt rm neg m e sticky q
      (f.signBit neg + (q - f.qmin).toNat * 2 ^ (f.prec - 1) + r.1,
        Flags.when r.2 Flags.nx ||| Flags.when (tiny && r.2) Flags.uf)

namespace FVal

/-- Round of a value: NaN results are canonical, infinities are exact (R8, R130). -/
def round (f : FFmt) (rm : RMode) (ftz : Bool) : FVal → Nat × Flags
  | .nan _ => (f.nanBits, 0)
  | .inf n => (f.signBit n + f.infBits, 0)
  | .fin n m e => roundBits f rm ftz n m e false

/-- The exact product, with IV for 0 × ∞ and for a signalling NaN (R131, R368). -/
def mul (a b : FVal) : FVal × Flags :=
  match a, b with
  | .nan s, y => (.nan false, Flags.when (s || y.isSignalling) Flags.iv)
  | .fin _ _ _, .nan s => (.nan false, Flags.when s Flags.iv)
  | .inf _, .nan s => (.nan false, Flags.when s Flags.iv)
  | .inf n, .inf n' => (.inf (n != n'), 0)
  | .inf n, .fin n' m _ => if m = 0 then (.nan false, Flags.iv) else (.inf (n != n'), 0)
  | .fin n m _, .inf n' => if m = 0 then (.nan false, Flags.iv) else (.inf (n != n'), 0)
  | .fin n m e, .fin n' m' e' => (.fin (n != n') (m * m') (e + e'), 0)

/-- Whether a list of terms holds an infinity of the given sign. -/
def hasInf (neg : Bool) (l : List FVal) : Bool := l.any fun v => v == .inf neg

/-- The least exponent of the finite terms, 0 when there is none. -/
def minExp (l : List FVal) : Int :=
  (l.foldl (fun (acc : Option Int) v => match v with
    | .fin _ _ e => match acc with
      | none => some e
      | some a => some (if e < a then e else a)
    | _ => acc) none).getD 0

/-- The sum of the finite terms as a multiple of `2^e`, for an `e` below their exponents. -/
def sumAt (e : Int) (l : List FVal) : Int :=
  l.foldl (fun acc v => match v with
    | .fin n m e' => if n then acc - (m : Int) * 2 ^ (e' - e).toNat else acc + (m : Int) * 2 ^ (e' - e).toNat
    | _ => acc) 0

/-- Whether every finite term has a negative sign, so that a zero sum keeps it (R8, R358). -/
def allNeg (l : List FVal) : Bool := l.all fun v => match v with
  | .fin n _ _ => n
  | _ => true

def allPos (l : List FVal) : Bool := l.all fun v => match v with
  | .fin n _ _ => !n
  | _ => true

/-- The exact sum of a list of terms (R142): NaN with IV when a term is a signalling NaN or both
infinities occur, else the infinity present, else the exact value. An exact zero of terms of both
signs is +0, or −0 under RDN (R8). -/
def sum (rm : RMode) (l : List FVal) : FVal × Flags :=
  let sig := l.any FVal.isSignalling
  let both := hasInf true l && hasInf false l
  if l.any FVal.isNan then (.nan false, Flags.when (sig || both) Flags.iv)
  else if both then (.nan false, Flags.iv)
  else if hasInf false l then (.inf false, 0)
  else if hasInf true l then (.inf true, 0)
  else
    let e := minExp l
    let s := sumAt e l
    if s = 0 then
      (.fin (if allNeg l then true else if allPos l then false else rm == .rdn) 0 0, 0)
    else (.fin (decide (s < 0)) s.natAbs e, 0)

/-- Comparison of values that are not NaN; −0 and +0 are equal (R360). -/
def lt (a b : FVal) : Bool :=
  match a, b with
  | .nan _, _ | _, .nan _ => false
  | .inf n, .inf n' => n && !n'
  | .inf n, .fin _ _ _ => n
  | .fin _ _ _, .inf n => !n
  | .fin n m e, .fin n' m' e' =>
    let q := if e < e' then e else e'
    decide (sumAt q [.fin n m e] < sumAt q [.fin n' m' e'])

def eqv (a b : FVal) : Bool := !a.isNan && !b.isNan && !lt a b && !lt b a

/-- Whether a value is a zero with a negative sign. -/
def isNegZero : FVal → Bool
  | .fin n m _ => n && m == 0
  | _ => false

end FVal

namespace Fp

/-- What a floating operation of the core reads from GM: RM and FTZ (R128, R129). -/
structure Ctx where
  rm  : RMode
  ftz : Bool
  deriving DecidableEq, Repr

/-- The matrix array, tile engine and slices: RNE unless a class says otherwise, no flushing. -/
def Ctx.exact : Ctx := ⟨.rne, false⟩

/-- One element read in a format. -/
def read (c : Ctx) (f : FFmt) (n : Nat) : FVal := FVal.ofBits f (c.ftz && f != .f64) n

/-- Round under a context. -/
def finish (c : Ctx) (f : FFmt) (v : FVal × Flags) : Nat × Flags :=
  let r := v.1.round f c.rm c.ftz
  (r.1, r.2 ||| v.2)

/-- FADD (R358). -/
def add (c : Ctx) (f : FFmt) (a b : Nat) : Nat × Flags :=
  finish c f (FVal.sum c.rm [read c f a, read c f b])

/-- FSUB (R373). -/
def sub (c : Ctx) (f : FFmt) (a b : Nat) : Nat × Flags :=
  finish c f (FVal.sum c.rm [read c f a, (read c f b).negate])

/-- FMUL (R368). -/
def mul (c : Ctx) (f : FFmt) (a b : Nat) : Nat × Flags :=
  finish c f (FVal.mul (read c f a) (read c f b))

/-- FMA (R366). -/
def fma (c : Ctx) (f : FFmt) (d a b : Nat) : Nat × Flags :=
  let p := FVal.mul (read c f a) (read c f b)
  let s := FVal.sum c.rm [p.1, read c f d]
  finish c f (s.1, s.2 ||| p.2)

/-- FMIN and FMAX (R367): an input as its bits after flushing, or the canonical NaN. -/
def minmax (isMax : Bool) (c : Ctx) (f : FFmt) (a b : Nat) : Nat × Flags :=
  let x := read c f a
  let y := read c f b
  let iv := Flags.when (x.isSignalling || y.isSignalling) Flags.iv
  if x.isNan || y.isNan then (f.nanBits, iv)
  else
    let below := FVal.lt x y || (FVal.eqv x y && x.isNegZero)
    let v := if below != isMax then x else y
    ((v.round f .rne false).1, 0)

/-- The conditions of FCMP (R360). -/
inductive Rel where
  | eq | lt | le | un
  deriving DecidableEq, Repr

/-- FCMP: the relation and IV (R360). -/
def compare (r : Rel) (c : Ctx) (f : FFmt) (a b : Nat) : Bool × Flags :=
  let x := read c f a
  let y := read c f b
  let sig := Flags.when (x.isSignalling || y.isSignalling) Flags.iv
  let any := Flags.when (x.isNan || y.isNan) Flags.iv
  match r with
  | .eq => (FVal.eqv x y, sig)
  | .lt => (FVal.lt x y, any)
  | .le => (FVal.lt x y || FVal.eqv x y, any)
  | .un => (x.isNan || y.isNan, sig)

/-- FCLASS: a one-hot mask; it reads neither RM nor FTZ (R359). -/
def classMask (f : FFmt) (n : Nat) : Nat :=
  match FVal.ofBits f false n with
  | .nan s => if s then 2 ^ 8 else 2 ^ 9
  | .inf neg => if neg then 2 ^ 0 else 2 ^ 7
  | .fin neg m _ =>
    if m = 0 then (if neg then 2 ^ 3 else 2 ^ 4)
    else if m < 2 ^ (f.prec - 1) then (if neg then 2 ^ 2 else 2 ^ 5)
    else (if neg then 2 ^ 1 else 2 ^ 6)

/-- A value rounded to an integer, with whether it was inexact (R133). -/
def toInteger (rm : RMode) (neg : Bool) (m : Nat) (e : Int) : Int × Bool :=
  let r := roundAt rm neg m e false 0
  (if neg then -(r.1 : Int) else r.1, r.2)

/-- Float to integer: the elements of the integer type (R133, R353). -/
def toIntType (rm : RMode) (signed : Bool) (b : Nat) (v : FVal) : Nat × Flags :=
  match v with
  | .nan _ => (0, Flags.iv)
  | .inf neg => (Elem.wrap b (if neg then Elem.lowest signed b else Elem.highest signed b), Flags.iv)
  | .fin neg m e =>
    let r := toInteger rm neg m e
    if r.1 < Elem.lowest signed b || Elem.highest signed b < r.1 then
      (Elem.wrap b (Elem.clamp (Elem.lowest signed b) (Elem.highest signed b) r.1), Flags.iv)
    else (Elem.wrap b r.1, Flags.when r.2 Flags.nx)

/-- Integer to float (R133). -/
def ofInt (x : Int) : FVal := .fin (decide (x < 0)) x.natAbs 0

/-- A floating operation on each element of an operand: the packed result and its flags. -/
def build (et : ElemType) (f : Nat → Nat × Flags) : Dword × Flags :=
  (Elem.build et fun k => (f k).1, (List.range et.count).foldl (fun acc k => acc ||| (f k).2) 0)

def map1 (et : ElemType) (f : Nat → Nat × Flags) (a : Dword) : Dword × Flags :=
  build et fun k => f (Elem.raw et.bits k a)

def map2 (et : ElemType) (f : Nat → Nat → Nat × Flags) (a b : Dword) : Dword × Flags :=
  build et fun k => f (Elem.raw et.bits k a) (Elem.raw et.bits k b)

def map3 (et : ElemType) (f : Nat → Nat → Nat → Nat × Flags) (d a b : Dword) : Dword × Flags :=
  build et fun k => f (Elem.raw et.bits k d) (Elem.raw et.bits k a) (Elem.raw et.bits k b)

end Fp

end Sys2Proof
end

