-- ==== Sys2Proof/Machine/FloatFn.lean ====
section
/-!
DEFINITION. The special functions (R361 to R374): correctly rounded results of exact mathematical
functions. FRCP, FRSQ and FSQRT come from integer quotients and roots with a sticky remainder.
FEX2, FLG2, FSIN, FCOS and FTNH come from enclosing intervals in fixed point: the working
precision grows until both ends of the interval share their leading 64 bits. Their results on
floating inputs other than the exact cases are irrational, so they are never representable.
-/
namespace Sys2Proof

namespace Special

/-- Integer square root, bit by bit from the highest. -/
def isqrtFrom (x : Nat) : Nat → Nat → Nat
  | 0, r => r
  | i + 1, r => isqrtFrom x i (if (r + 2 ^ i) * (r + 2 ^ i) ≤ x then r + 2 ^ i else r)

def isqrt (x : Nat) : Nat := isqrtFrom x (bitLen x / 2 + 1) 0

/-- An exact or enclosed result: the sign, a significand, its exponent, and whether the value lies
strictly between the significand and the next one. -/
structure Approx where
  neg    : Bool
  m      : Nat
  e      : Int
  sticky : Bool
  deriving DecidableEq, Repr

/-- 1 / (m * 2^e), for m ≠ 0 (R369). -/
def recip (neg : Bool) (m : Nat) (e : Int) : Approx :=
  let k := bitLen m + 130
  ⟨neg, 2 ^ k / m, -e - k, 2 ^ k % m != 0⟩

/-- The square root of m * 2^e (R372). -/
def sqrt (m : Nat) (e : Int) : Approx :=
  let odd := e % 2
  let x := m * 2 ^ (odd.toNat + 2 * 130)
  let s := isqrt x
  ⟨false, s, (e - odd) / 2 - 130, s * s != x⟩

/-- The reciprocal square root of m * 2^e, for m ≠ 0 (R370). -/
def recipSqrt (m : Nat) (e : Int) : Approx :=
  let odd := e % 2
  let m' := m * 2 ^ odd.toNat
  let k := bitLen m' + 130
  let s := isqrt (2 ^ (2 * k) / m')
  ⟨false, s, -((e - odd) / 2) - k, s * s * m' != 2 ^ (2 * k)⟩

/-- Slack, in units of the last fixed-point place, that covers the truncations of a series. -/
def slack : Int := 2 ^ 16

/-- Terms of a power series `Σ t_k` in fixed point, each from the one before. -/
def series (next : Nat → Int → Int) : Nat → Nat → Int → Int
  | 0, _, _ => 0
  | n + 1, k, t => if t = 0 then 0 else t + series next n (k + 1) (next k t)

/-- atanh(1/q) or atan(1/q) scaled by 2^n: powers of 1/q over odd numbers. -/
def oddSeries (alt : Bool) (q : Nat) : Nat → Nat → Nat → Int
  | 0, _, _ => 0
  | fuel + 1, k, pw =>
    if pw = 0 then 0
    else
      let term : Int := (pw / (2 * k + 1) : Nat)
      (if alt && k % 2 == 1 then -term else term) + oddSeries alt q fuel (k + 1) (pw / (q * q))

/-- ln 2 scaled by 2^n. -/
def ln2 (n : Nat) : Int := 2 * oddSeries false 3 n 0 (2 ^ n / 3)

/-- π scaled by 2^n. -/
def pi (n : Nat) : Int :=
  16 * oddSeries true 5 n 0 (2 ^ n / 5) - 4 * oddSeries true 239 n 0 (2 ^ n / 239)

/-- exp of `t / 2^n`, for t / 2^n at most 1 in magnitude, scaled by 2^n. -/
def expFix (n : Nat) (t : Int) : Int :=
  series (fun k x => x * t / ((k + 1 : Nat) * 2 ^ n : Int)) n 0 (2 ^ n)

/-- sin and cos of `t / 2^n`, for t / 2^n below 2 in magnitude, scaled by 2^n. -/
def sinFix (n : Nat) (t : Int) : Int :=
  series (fun k x => -(x * t / 2 ^ n * t / (((2 * k + 2) * (2 * k + 3) : Nat) * 2 ^ n : Int))) n 0 t

def cosFix (n : Nat) (t : Int) : Int :=
  series (fun k x => -(x * t / 2 ^ n * t / (((2 * k + 1) * (2 * k + 2) : Nat) * 2 ^ n : Int))) n 0 (2 ^ n)

/-- `x * 2^n` truncated, for x = m * 2^e. -/
def scaled (n : Nat) (m : Nat) (e : Int) : Int :=
  let s : Int := e + n
  if 0 ≤ s then (m : Int) * 2 ^ s.toNat else (m / 2 ^ (-s).toNat : Nat)

/-- An enclosure at 2^-n of a positive value: its leading 64 bits once both ends agree on them. -/
def agree (neg : Bool) (n : Nat) (v : Int) (shift : Int) : Option Approx :=
  let lo := (v - slack).toNat
  let hi := (v + slack).toNat
  let len := bitLen lo
  if len ≤ 64 || bitLen hi ≠ len then none
  else
    let a := lo / 2 ^ (len - 64)
    if a = hi / 2 ^ (len - 64) then some ⟨neg, a, (len - 64 : Nat) - (n : Int) + shift, true⟩ else none

/-- The working precisions, in bits after the point. (log 14) -/
def precisions : List Nat := [160, 320, 640, 1280, 2560]

/-- The first precision whose enclosure settles the leading bits. -/
def settle (f : Nat → Option Approx) : Approx :=
  (precisions.findSome? f).getD ⟨false, 2 ^ 64, 0, true⟩

/-- A value just below or just above `m * 2^e` by less than 2^-64 of it. -/
def justBelow (neg : Bool) (m : Nat) (e : Int) : Approx := ⟨neg, m * 2 ^ 70 - 1, e - 70, true⟩
def justAbove (neg : Bool) (m : Nat) (e : Int) : Approx := ⟨neg, m * 2 ^ 70, e - 70, true⟩

/-- Whether m * 2^e < 2^k. -/
def below (m : Nat) (e k : Int) : Bool := decide (e + bitLen m ≤ k)

/-- 2^x for finite x (R364). A magnitude of 2^16 or more lies outside every format's range. -/
def exp2 (neg : Bool) (m : Nat) (e : Int) : Approx :=
  if m = 0 then ⟨false, 1, 0, false⟩
  else if !below m e 16 then ⟨false, 2 ^ 70, if neg then -65536 else 65536, true⟩
  else if below m e (-80) then (if neg then justBelow false 1 0 else justAbove false 1 0)
  else
    let whole := m / 2 ^ (-e).toNat * 2 ^ e.toNat
    if 0 ≤ e || m % 2 ^ (-e).toNat = 0 then ⟨false, 1, if neg then -(whole : Int) else whole, false⟩
    else
      -- x = i + f with 0 < f < 1
      let i : Int := if neg then -(whole : Int) - 1 else whole
      settle fun n =>
        let fr := scaled n m e - (whole : Int) * 2 ^ n
        let f := if neg then 2 ^ n - fr else fr
        agree false n (expFix n (f * ln2 n / 2 ^ n)) i

/-- log2 of a finite positive value (R365). -/
def log2 (m : Nat) (e : Int) : Approx :=
  let len := bitLen m
  let i : Int := e + len - 1
  if m = 2 ^ (len - 1) then ⟨decide (i < 0), i.natAbs, 0, false⟩
  else
    settle fun n =>
      -- the fraction g = m / 2^(len-1) in (1, 2): ln g = 2 atanh ((g-1)/(g+1))
      let num : Int := (m : Int) - 2 ^ (len - 1)
      let den : Int := (m : Int) + 2 ^ (len - 1)
      let z := num * 2 ^ n / den
      let z2 := z * z / 2 ^ n
      let at' := oddPowers n z2 n 0 z
      let v := i * 2 ^ n + 2 * at' * 2 ^ n / ln2 n
      if v < 0 then agree true n (-v) 0 else agree false n v 0
where
  /-- Σ p/(2k+1), with p multiplied by z² at each step. -/
  oddPowers (n : Nat) (z2 : Int) : Nat → Nat → Int → Int
    | 0, _, _ => 0
    | fuel + 1, k, p =>
      if p = 0 then 0 else p / (2 * k + 1 : Nat) + oddPowers n z2 fuel (k + 1) (p * z2 / 2 ^ n)

/-- Reduction of |x| against π/2 in `n + 160` bits: the quadrant and the remainder at 2^-n. -/
def reduce (n : Nat) (m : Nat) (e : Int) : Nat × Int :=
  let p := n + 160
  let half := pi p / 2
  let x := scaled p m e
  let k := x / half
  ((k % 4).toNat, (x - k * half) / 2 ^ 160)

/-- sin for finite non-zero x (R371). -/
def sin (neg : Bool) (m : Nat) (e : Int) : Approx :=
  if below m e (-40) then justBelow neg m e
  else
    settle fun n =>
      let r := reduce n m e
      let v := match r.1 with
        | 0 => sinFix n r.2
        | 1 => cosFix n r.2
        | 2 => -sinFix n r.2
        | _ => -cosFix n r.2
      if v < 0 then agree (!neg) n (-v) 0 else agree neg n v 0

/-- cos for finite non-zero x (R362). -/
def cos (m : Nat) (e : Int) : Approx :=
  if below m e (-40) then justBelow false 1 0
  else
    settle fun n =>
      let r := reduce n m e
      let v := match r.1 with
        | 0 => cosFix n r.2
        | 1 => -sinFix n r.2
        | 2 => -cosFix n r.2
        | _ => sinFix n r.2
      if v < 0 then agree true n (-v) 0 else agree false n v 0

/-- tanh for finite non-zero x: (1 - u) / (1 + u) with u = exp(-2|x|) (R374). -/
def tanh (neg : Bool) (m : Nat) (e : Int) : Approx :=
  if below m e (-40) then justBelow neg m e
  else if !below m e 6 then justBelow neg 1 0
  else
    settle fun n =>
      let l := ln2 n
      let t := 2 * scaled n m e
      let i := t / l
      let u := expFix n (-(t - i * l)) / 2 ^ i.toNat
      agree neg n ((2 ^ n - u) * 2 ^ n / (2 ^ n + u)) 0

/-- The functions of opcode 0xE2 with sub 0 to 7 (R361). -/
inductive Fn where
  | rcp | rsq | sqrt | ex2 | lg2 | sin | cos | tnh
  deriving DecidableEq, Repr

/-- A special function of one element: the table of R361, else Round of the exact value. -/
def eval (fn : Fn) (c : Fp.Ctx) (f : FFmt) (bits : Nat) : Nat × Flags :=
  let bad : Nat × Flags := (f.nanBits, Flags.iv)
  let fin (a : Approx) : Nat × Flags := roundBits f c.rm c.ftz a.neg a.m a.e a.sticky
  let zero (neg : Bool) : Nat × Flags := (f.signBit neg, 0)
  let inf (neg : Bool) (fl : Flags) : Nat × Flags := (f.signBit neg + f.infBits, fl)
  let one (neg : Bool) : Nat × Flags := fin ⟨neg, 1, 0, false⟩
  match Fp.read c f bits with
  | .nan s => (f.nanBits, Flags.when s Flags.iv)
  | .inf neg =>
    match fn with
    | .rcp => zero neg
    | .rsq => if neg then bad else zero false
    | .sqrt | .lg2 => if neg then bad else inf false 0
    | .ex2 => if neg then zero false else inf false 0
    | .sin | .cos => bad
    | .tnh => one neg
  | .fin neg m e =>
    if m = 0 then
      match fn with
      | .rcp | .rsq => inf neg Flags.dz
      | .sqrt | .sin | .tnh => zero neg
      | .ex2 | .cos => one false
      | .lg2 => inf true Flags.dz
    else
      match fn with
      | .rcp => fin (recip neg m e)
      | .rsq => if neg then bad else
          -- R361: FRSQ of a negative finite value is NaN with IV
          fin (recipSqrt m e)
      | .sqrt => if neg then bad else fin (sqrt m e)
      | .ex2 => fin (exp2 neg m e)
      | .lg2 => if neg then bad else fin (log2 m e)
      | .sin => fin (sin neg m e)
      | .cos => fin (cos m e)
      | .tnh => fin (tanh neg m e)

end Special

end Sys2Proof
end

