-- ==== Sys2Proof/Machine/Residue.lean ====
section
/-!
DEFINITION. Residue numbers (R134 to R136), RNENC and RNDEC (R401) and the element conversions of
CVT (R133, R352, R353).
-/
namespace Sys2Proof

namespace Residue

/-- The moduli of a residue format from its lowest field up, with the field's offset and width
(R134). -/
def fields (rn16 : Bool) : List (Nat × Nat × Nat) :=
  if rn16 then [(31, 0, 5), (32, 5, 5), (33, 10, 6)] else [(4, 0, 2), (5, 2, 3), (7, 5, 3)]

/-- The product of the moduli (R134). -/
def modulus (rn16 : Bool) : Nat := if rn16 then 32736 else 140

/-- The value range (R134). -/
def lowest (rn16 : Bool) : Int := if rn16 then -16368 else -70
def highest (rn16 : Bool) : Int := if rn16 then 16367 else 69

/-- The remainder that a field of a code holds. -/
def field (code : Nat) (f : Nat × Nat × Nat) : Nat := code / 2 ^ f.2.1 % 2 ^ f.2.2

/-- Every field is below its modulus (R135). -/
def canonical (rn16 : Bool) (code : Nat) : Bool := (fields rn16).all fun f => field code f < f.1

/-- ResDec: the value of a code, none for poison (R135). The weights are the numbers that are 1
modulo one modulus and 0 modulo the others. -/
def dec (rn16 : Bool) (code : Nat) : Option Int :=
  if canonical rn16 code then
    let m := modulus rn16
    let x := (if rn16 then
                field code (31, 0, 5) * 16896 + field code (32, 5, 5) * 31713 +
                  field code (33, 10, 6) * 16864
              else field code (4, 0, 2) * 105 + field code (5, 2, 3) * 56 + field code (7, 5, 3) * 120) % m
    some (if (x : Int) ≤ highest rn16 then x else x - m)
  else none

/-- The code of `x` modulo each modulus. -/
def code (rn16 : Bool) (x : Int) : Nat :=
  (fields rn16).foldl (fun acc f => acc + (x % (f.1 : Int)).toNat * 2 ^ f.2.1) 0

/-- ResEnc (R136). -/
def enc (sat rn16 : Bool) (x : Int) : Nat × Flags :=
  if lowest rn16 ≤ x && x ≤ highest rn16 then (code rn16 x, 0)
  else (code rn16 (if sat then Elem.clamp (lowest rn16) (highest rn16) x else x), Flags.rno)

/-- RNENC of one element of width b (R401). -/
def rnenc (sat : Bool) (et : ElemType) (a : Dword) : Dword × Flags :=
  Fp.map1 et (fun n => enc sat (et == .rn16) (Elem.value true et.bits n)) a

/-- RNDEC of one operand: poison gives the most negative element (R401). -/
def rndec (et : ElemType) (a : Dword) : Dword × Flags :=
  Fp.map1 et (fun n => match dec (et == .rn16) n with
    | some v => (Elem.wrap et.bits v, 0)
    | none => (2 ^ (et.bits - 1), Flags.poison)) a

end Residue

namespace Convert

/-- An exact integer converted to a destination type (R353). -/
def ofInteger (c : Fp.Ctx) (sat : Bool) (dst : ElemType) (x : Int) : Nat × Flags :=
  if dst.isFloat then Fp.finish c dst.ffmt (Fp.ofInt x, 0)
  else if dst.isResidue then Residue.enc sat (dst == .rn16) x
  else (Elem.wrap dst.bits x, 0)

/-- A floating value converted to a destination type (R353). -/
def ofFloat (c : Fp.Ctx) (sat : Bool) (dst : ElemType) (v : FVal) : Nat × Flags :=
  if dst.isFloat then Fp.finish c dst.ffmt (v, Flags.when v.isSignalling Flags.iv)
  else if dst.isResidue then
    let r := dst == .rn16
    match v with
    | .nan _ => (Residue.code r 0, Flags.iv)
    | .inf neg => (Residue.code r (if neg then Residue.lowest r else Residue.highest r), Flags.rno)
    | .fin neg m e =>
      let i := Fp.toInteger c.rm neg m e
      let q := Residue.enc sat r i.1
      (q.1, q.2 ||| Flags.when i.2 Flags.nx)
  else Fp.toIntType c.rm dst.signed dst.bits v

/-- What poison becomes in each destination type (R353). -/
def ofPoison (dst : ElemType) : Nat × Flags :=
  (if dst.isFloat then dst.ffmt.nanBits
    else if dst.isResidue then Residue.code (dst == .rn16) 0
    else if dst.signed then 2 ^ (dst.bits - 1) else 0, Flags.poison)

/-- One element converted (R353). -/
def element (c : Fp.Ctx) (sat : Bool) (src dst : ElemType) (n : Nat) : Nat × Flags :=
  if src.isFloat then ofFloat c sat dst (Fp.read c src.ffmt n)
  else if src.isResidue then
    match Residue.dec (src == .rn16) n with
    | some v => ofInteger c sat dst v
    | none => ofPoison dst
  else ofInteger c sat dst (Elem.value src.signed src.bits n)

/-- CVT of one operand: destination elements past the source's count receive zero bits (R352). -/
def cvt (c : Fp.Ctx) (sat : Bool) (src dst : ElemType) (a : Dword) : Dword × Flags :=
  Fp.build dst fun k =>
    if k < src.count then element c sat src dst (Elem.raw src.bits k a) else (0, 0)

end Convert

end Sys2Proof
end

