-- ==== Sys2Proof/Machine/Sparse.lean ====
section
/-!
DEFINITION. Finite maps from natural numbers, as lists of pairs with strictly rising keys: the one
canonical form of memory, of registers and of the tables of the machine.
-/
namespace Sys2Proof

/-- A finite map: pairs with strictly rising keys. -/
abbrev Sparse (α : Type) := List (Nat × α)

namespace Sparse
variable {α : Type}

/-- The entry at a key. -/
def find (m : Sparse α) (k : Nat) : Option α :=
  match m with
  | [] => none
  | (k', v) :: r => if k' = k then some v else find r k

/-- Take the entry at a key out. -/
def erase (m : Sparse α) (k : Nat) : Sparse α :=
  match m with
  | [] => []
  | (k', v) :: r => if k' = k then erase r k else (k', v) :: erase r k

/-- Put an entry before the first one with a higher key. -/
def insert (m : Sparse α) (k : Nat) (x : α) : Sparse α :=
  match m with
  | [] => [(k, x)]
  | (k', v) :: r => if k < k' then (k, x) :: (k', v) :: r else (k', v) :: insert r k x

/-- Put an entry at a key, or remove the entry there. -/
def put (m : Sparse α) (k : Nat) (v : Option α) : Sparse α :=
  match v with
  | none => erase m k
  | some x => insert (erase m k) k x

/-- Apply a function to the entry at a key, if there is one. -/
def update (m : Sparse α) (k : Nat) (f : α → α) : Sparse α :=
  match m with
  | [] => []
  | (k', v) :: r => (k', if k' = k then f v else v) :: update r k f

/-- The entry at a key, or a default. -/
def get (m : Sparse α) (k : Nat) (d : α) : α := (find m k).getD d

/-- Set the value at a key, listing nothing that equals the default. -/
def set [DecidableEq α] (m : Sparse α) (k : Nat) (d v : α) : Sparse α :=
  put m k (if v = d then none else some v)

/-- The keys rise strictly, and every key is at least `lo`. -/
def sortedFrom (lo : Nat) : Sparse α → Bool
  | [] => true
  | (k, _) :: r => decide (lo ≤ k) && sortedFrom (k + 1) r

def keys (m : Sparse α) : List Nat := m.map (·.1)
def values (m : Sparse α) : List α := m.map (·.2)

end Sparse

/-- Membership of a number in a list kept without repeats. -/
def addOnce (l : List Nat) (n : Nat) : List Nat := if n ∈ l then l else l ++ [n]

end Sys2Proof
end

