-- ==== Sys2Proof/Machine/State.lean ====
section
/-!
DEFINITION. The state of the machine: everything the spec gives it, as plain data, and the state
right after reset. The order of the parts is that of INVENTORY.md.
-/
namespace Sys2Proof.Machine

open Sys2Proof

/-! ## Strands and groups -/

/-- A strand's place in its clause: the header's address, the number of body words and the flags
that the header assigns (R72 to R74). -/
structure Clause where
  hdr   : VAddr
  len   : Nat
  flagA : FlagSel
  flagB : FlagSel
  deriving DecidableEq, Repr

/-- An entry of a divergence stack (R35). -/
inductive StackEntry where
  | path (target : VAddr) (mask : BitVec 4)
  | park (at' : VAddr) (mask : BitVec 4)
  deriving DecidableEq, Repr

/-- The run state of a strand (R35). -/
inductive RunState where
  | run
  | wait (at' : VAddr)
  | exited
  deriving DecidableEq, Repr

/-- What a strand waits for after its instruction has issued: a barrier (R301), the monitor (R299),
the completion of an operation that stalls its issuer (R209, R219, R286, R288, R299), or a
byte-counting barrier to leave a phase (R208, R337). -/
inductive Block where
  | bar (id : BitVec 4)
  | barc (id : BitVec 4)
  | mwait (deadline : Option Nat)
  | op (id : Nat)
  | bcwait (off : Nat) (phase : Word)
  deriving DecidableEq, Repr

/-- A strand's resume record (R293). `exec` is what EXEC0 and EXEC1 address; `kept` is the mask at
the trap, so that lanes a handler clears from `exec` are known at RTT (R427). -/
structure Resume where
  pc     : VAddr
  clause : Option Clause
  exec   : BitVec 4
  kept   : BitVec 4
  depth  : Nat
  run    : RunState
  block  : Option Block
  deriving DecidableEq, Repr

/-- One strand (R35). `stalled` is the model's own mark: the count of changes at which the strand
last found that its next word cannot issue (R47). `aliasing` is the set of R167 for the store at
its PC, once the check has been made: entries of the thunk table, with their generations. -/
structure Strand where
  pc      : VAddr
  exec    : BitVec 4
  stack   : List StackEntry
  run     : RunState
  clause  : Option Clause
  block   : Option Block
  record  : Option Resume
  stalled : Option Nat
  aliasing : Option (List (Nat × Nat))
  deriving DecidableEq, Repr

/-- Mode, status and enable registers (R61 to R67). -/
structure Modes where
  gm  : Word
  mm0 : Word
  mm1 : Word
  mm2 : Word
  gs  : Word
  xen : Word
  deriving DecidableEq, Repr

/-- The trap registers (R77, R293, R294). -/
structure TrapRegs where
  xpcl   : Word
  xpch   : Word
  xlm0   : Word
  xlm1   : Word
  xcause : Word
  xsub   : Word
  xaddrl : Word
  xaddrh : Word
  xnpcl  : Word
  xnpch  : Word
  xnode  : Word
  xstr   : Word
  deriving DecidableEq, Repr

/-- What a trap reports (R293): the cause and the fields it uses, with the strands of the faulting
gang, none for an imprecise trap (R294), and for LATE the operation that is suspended (R169). -/
structure TrapInfo where
  cause : Cause
  sub   : Word
  addr  : Nat
  pc    : VAddr
  npc   : VAddr
  node  : Word
  lanes : BitVec 64
  gang  : List Nat
  op    : Option Nat
  deriving DecidableEq, Repr

/-- Breakpoint and watchpoint registers (R307, R308). -/
structure Debug where
  bka0 : Word
  bka1 : Word
  bka2 : Word
  bka3 : Word
  bkh0 : Word
  bkh1 : Word
  bkh2 : Word
  bkh3 : Word
  bkm  : Word
  wpa0 : Word
  wph0 : Word
  wpa1 : Word
  wph1 : Word
  wpc  : Word
  deriving DecidableEq, Repr

/-- Who a group is (R34, R279, R283). `queue` is the queue of a task, and `successor` its
successor-counter address, 0 where it has none or the step of R290 has begun. -/
structure Ident where
  grpid : Nat
  team  : Nat
  cluster : Nat
  rank  : Nat
  job   : Word
  words : List Word
  queue : Option Nat
  successor : Nat
  deriving DecidableEq, Repr

/-- The retired-instruction counter and the latches of GTSH and RETH (R77, R78). -/
structure Counters where
  retired  : Dword
  gtsLatch : Option Word
  retLatch : Option Word
  deriving DecidableEq, Repr

/-- Formats of tile elements, in the order of their FMT codes (R152). -/
inductive TileFmt where
  | bf16 | f16 | f32 | rn16 | rn8 | i32
  deriving DecidableEq, Repr

/-- A tile descriptor (R152). -/
structure TileDesc where
  base   : Nat
  scr    : Bool
  stride : Nat
  rows   : Nat
  cols   : Nat
  fmt    : TileFmt
  deriving DecidableEq, Repr

/-- The affine map of a view into its root (R160). -/
structure IndexMap where
  m00 : Nat
  m01 : Nat
  o0  : Nat
  m10 : Nat
  m11 : Nat
  o1  : Nat
  deriving DecidableEq, Repr

/-- The operation of a node with its captured values and its input entries (R156, R157). A view
names its root (R160). -/
inductive NodeOp where
  | desc (d : TileDesc)
  | mul (a b : Nat) (mm0 mm1 mm2 : Word)
  | add (a b : Nat)
  | map (a : Nat) (fn : TileFn)
  | scl (a : Nat) (scale : Word)
  | red (a : Nat) (col : Bool) (op : TileRed)
  | view (root : Nat) (m : IndexMap)
  deriving DecidableEq, Repr

/-- A node of the thunk table (R154 to R165). `forced` is its offset in the spill area. -/
structure Node where
  op      : NodeOp
  rows    : Nat
  cols    : Nat
  fmt     : TileFmt
  pc      : VAddr
  dropped : Bool
  forced  : Option Nat
  deriving DecidableEq, Repr

/-- The thunk table: 32 entries, each with its generation (R154). -/
structure ThunkTable where
  nodes : Sparse Node
  gens  : Sparse Nat
  deriving DecidableEq, Repr

/-- The group's monitor (R299). -/
structure Monitor where
  sector : Option Nat
  trig   : Bool
  deriving DecidableEq, Repr

/-- What sends requests to the slices (R259, R261). -/
inductive Agent where
  | core (c : Nat)
  | engine (c : Nat)
  | command (k : Nat)
  | peer
  deriving DecidableEq, Repr

/-- Atomic functions at a slice (R332). -/
inductive AtomFn where
  | add | min | max | and | or | xor | xchg | cas
  deriving DecidableEq, Repr

/-- A class of an assize table (R221). -/
structure ClassDesc where
  valid : Bool
  inv   : Nat
  rm    : RMode
  et    : ElemType
  fn    : Nat
  deriving DecidableEq, Repr

/-- What a request asks of the home slice. -/
inductive ReqKind where
  /-- A read; `fill` asks for whole sectors for L1 (R194). -/
  | read (fill : Bool)
  | write (bytes : List Byte)
  /-- An atomic on 4 or 8 bytes, or on one half of a bf16x2 word (R231). -/
  | atomic (fn : AtomFn) (et : ElemType) (half : Bool) (operand compare : Nat) (ret : Bool)
  /-- A MOP or MOPR with the descriptor it was checked against (R219, R224); `via` is the slice that
  forwards one whose address is a peer address (R195, R230). -/
  | mop (slot cls : Nat) (checked : ClassDesc) (operand : Nat) (ret : Bool) (via : Option Nat)
  | monitor
  | message (target hix p0 p1 gid : Nat) (image : Bool)
  deriving DecidableEq, Repr

/-- A request travelling to, or waiting at, its home slice (R201, R261). -/
structure Req where
  src      : Agent
  slice    : Nat
  addr     : Nat
  size     : Nat
  grain    : Nat
  kind     : ReqKind
  op       : Nat
  piece    : Nat
  admitted : Bool
  deriving DecidableEq, Repr

/-- Updates of a byte-counting barrier (R208). -/
inductive BarrierFn where
  | init | expect | arrive
  deriving DecidableEq, Repr

/-- A buffered operation of a deterministic group, in program order (R250, R292): bytes written to
memory or to scratch, poison that a copy has moved to a sector (R324), an update of a
byte-counting barrier, a request to a slice, an operation that is performed at the commit, or the
arrival of strands at a barrier with their mask. -/
inductive DetItem where
  | write (addr grain : Nat) (bytes : List Byte)
  | scratch (off : Nat) (bytes : List Byte)
  | poison (scr : Bool) (sector : Nat)
  | barrier (fn : BarrierFn) (off : Nat) (val : Word)
  | request (req : Req)
  | perform (op : Nat)
  | arrive (wait : Block) (mask : Dword)
  deriving DecidableEq, Repr

/-- Deterministic state of a group: instructions retired in the quantum, whether the quantum has
ended, what TSTAT.CAN reads in the round (R420), and the buffer (R292). -/
structure DetState where
  used   : Nat
  ended  : Bool
  can    : Bool
  buffer : List DetItem
  deriving DecidableEq, Repr

/-- What the issue logic remembers of a group (R47, R48, R297, R429). `lastGang` is the pointer of R48:
the lowest strand of the gang that issued last. -/
structure Sched where
  resident  : Nat
  lastIssue : Nat
  lastGang  : Option Nat
  yielded   : Bool
  noBreak   : List Nat
  deriving DecidableEq, Repr

/-- How far a group sees memory (R239, R243), in the numbers by which home slices order what they
perform: `since`, from which on every byte is seen; `seen`, of single bytes, since the group has
read them or observed a write of them there; `known`, those that its releases hand on; `acquired`
and `released`, the names given out when it last acquired, and last released at TEAM or wider;
`fenced` those when it last left a barrier or a byte-counting barrier; `borrowed`, the newest store of
another group that it has read from its core's write buffer. -/
structure View where
  since    : Nat
  seen     : Sparse Nat
  known    : Sparse Nat
  acquired : Nat
  released : Nat
  fenced   : Nat
  borrowed : Nat
  deriving DecidableEq, Repr

/-- An engine command that has completed and that its group has not observed (R246): its flag, the batch of a
copy, what it wrote at the home slices and when, and the scope of its release. -/
structure Done where
  flag   : FlagSel
  batch  : Option Nat
  writes : List (Nat × Nat × Nat)
  rel    : Option Scope
  deriving DecidableEq, Repr

/-- One group (R61). `regs` are the registers of each lane that are not zero; `mmar` is the range of registers
whose A fragment MMAR holds latched (R151). `entered` is when it last entered its handler (R306). -/
structure Group where
  launch  : Nat
  teamKey : Nat
  width   : Nat
  nregs   : Nat
  spores  : Nat
  quantum : Word
  regs    : Sparse (Sparse Word)
  strands : List Strand
  modes   : Modes
  trap    : TrapRegs
  held    : List TrapInfo
  halted  : Bool
  dbg   : Debug
  ident   : Ident
  count   : Counters
  thunks  : ThunkTable
  mmar    : Option (Nat × Nat)
  batch   : Nat
  monitor : Monitor
  fencing : Option Nat
  entered : Nat
  done    : List Done
  view    : View
  det     : DetState
  sched   : Sched
  deriving DecidableEq, Repr

/-! ## Teams, clusters, launches -/

/-- A barrier (R301, R302). `arr` counts as many groups as a cluster has; `arrived` names the groups
that arrived in the open phase; `low` is what MLOW reads. -/
structure Barrier where
  phase   : BitVec 8
  arr     : Nat
  isOpen  : Bool
  mask    : Dword
  low     : BitVec 16
  arrived : List Nat
  deriving DecidableEq, Repr

/-- A channel instance of a cluster (R266): the counts, how many sends have been accepted and how many
slots claimed, what stands in the full slots, by the number of the send, and whether a program has
accessed its area, whose values are then undefined (R264). -/
structure Channel where
  free     : Nat
  full     : Nat
  nextSend : Nat
  nextRecv : Nat
  written  : Sparse (List Byte)
  misused  : Bool
  deriving DecidableEq, Repr

/-- Where a team or cluster is (R304, R291). Times are counts of clk. -/
inductive Residence where
  | waiting
  | resident
  | stopping (since : Nat)
  | draining (since : Nat)
  | saved (since : Nat)
  | gone
  deriving DecidableEq, Repr

/-- One team (R32, R33): `slots` are its groups' slot keys while resident, `saved` their contexts
while it is saved (R305). -/
structure Team where
  launch   : Nat
  index    : Nat
  cluster  : Nat
  rank     : Nat
  core     : Nat
  area     : Nat
  slots    : List Nat
  saved    : List Group
  scratch  : Sparse Byte
  poison   : List Nat
  bars     : Sparse Barrier
  exited   : List Nat
  begun    : Bool
  placed   : Nat
  deriving DecidableEq, Repr

/-- One cluster of a launch, or a task (R33). `timer` is when its re-residence timer expires, `immune`
until when it is no victim, and `claim` the cores that have been freed for it (R291). -/
structure Cluster where
  launch    : Nat
  index     : Nat
  teams     : List Nat
  bars      : Sparse Barrier
  channels  : Sparse Channel
  residence : Residence
  timer     : Nat
  immune    : Nat
  claim     : List Nat
  deriving DecidableEq, Repr

/-- A declared channel (R264). -/
structure ChannelDecl where
  source : Nat
  dest   : Nat
  slots  : Nat
  deriving DecidableEq, Repr

/-- The launch descriptor (R277). `haddr` is none for all ones; `slot` is none for 0xFF. -/
structure Desc where
  kaddr     : VAddr
  haddr     : Option VAddr
  root      : Nat
  spillBase : Nat
  spillSize : Nat
  nteams    : Nat
  width     : Nat
  nregs     : Nat
  spores    : Nat
  scrways   : Nat
  scratch   : Nat
  groups    : Nat
  cx        : Nat
  cy        : Nat
  slot      : Option Nat
  det       : Bool
  lq        : Nat
  prio      : Nat
  job       : Word
  queues    : List Nat
  seed      : Dword
  sig       : Dword
  chbase    : Nat
  chslots   : Nat
  chans     : Sparse ChannelDecl
  args      : List Word
  elig      : List Nat
  tkimg     : Nat
  tksize    : Nat
  keys      : List Dword
  deriving DecidableEq, Repr

/-- States of a LAUNCH after CHECK (R278). -/
inductive LaunchPhase where
  | place | run | ending
  deriving DecidableEq, Repr

/-- One launch (R278). `cores` are those on which it has been resident (R249), `placing` is set while a
deterministic round is in its placement step, `committed` names the groups whose part of the
commit in progress has been made (R292, R419), and `base` is memory as it stood when the quanta of
the deterministic round began, the bytes that are not zero (R250). -/
structure Launch where
  desc       : Desc
  ptr        : Nat
  cmd        : Nat
  phase      : LaunchPhase
  next       : Nat
  tasks      : Nat
  scrways    : Nat
  withheld   : List Nat
  round      : Nat
  terminated : Bool
  imaged     : Bool
  firstIssue : Option Nat
  cores      : List Nat
  placing    : Bool
  committed  : List Nat
  base       : Sparse Byte
  deriving DecidableEq, Repr

/-! ## Memory -/

/-- A sector of an L1 (R194, R196). `grain` is the page's CG; `since` is the model's mark of when
its data left the home slice: updates sent before it are already in them. -/
structure L1Sector where
  addr   : Nat
  bytes  : List Byte
  grain  : Nat
  poison : Bool
  since  : Nat
  deriving DecidableEq, Repr

/-- One core: its L1 in order of use (most recent last), the operations rejected for want of a
miss-status entry in order (R200), SCRWAYS in force and asked for (R203), its power (R325), and what
its groups have released to each other: bytes and the times as of which they are seen (R243). -/
structure Core where
  l1       : List L1Sector
  rejected : List Nat
  scrways  : Nat
  ways     : Option Nat
  power    : PowerState
  shared   : Sparse Nat
  deriving DecidableEq, Repr

/-- A translation that a TLB holds (R215): the virtual page and its leaf entry, and the world of the
agent whose walk read it. -/
structure TlbEntry where
  secure : Bool
  root  : Nat
  level : Nat
  page  : Nat
  leaf  : Dword
  deriving DecidableEq, Repr

/-- A write forwarded to sharers (R197, R263): the cores that have not applied it and the stations
that have not acknowledged; `poison` is set where a copy has moved poison with it (R324). -/
structure Update where
  addr     : Nat
  bytes    : List Byte
  poison   : Bool
  grain    : Nat
  ops      : List Nat
  cores    : List Nat
  stations : List Nat
  deriving DecidableEq, Repr

/-- A directory entry: a grain unit and its sharer cores (R196). -/
structure DirEntry where
  size  : Nat
  cores : List Nat
  deriving DecidableEq, Repr

/-- One piece of an operation: the bytes of one access, the lanes it serves and, once it is fixed,
its value. `sent` is set while its request, or for a store its place in the write buffer, is live;
`fill` while the sector that it fetches may enter L1, with `laid` the bytes to lay over it (R198).
`parts` are bytes that have left pending lists at the home slice, while others of the piece still stand
in them (R226). `read` marks when its value left the home slice. -/
structure Piece where
  addr   : Nat
  vaddr  : Nat
  size   : Nat
  grain  : Nat
  lanes  : List Nat
  data   : Option (List Byte)
  poison : Bool
  sent   : Bool
  fill   : Bool
  parts  : Sparse Byte
  laid   : Sparse Byte
  read   : Nat
  deriving DecidableEq, Repr

/-- The kinds of operations that outlive their issue. `engineRead` is a read that a copy, a demand or another
agent has made at the home slices while words of it still stand in pending lists (R223), or a peer's atomic in
two halves (R231): `aux` names the command, and `count` what it reads of it. -/
inductive OpKind where
  | load | scratchLoad | store | atomic | atomicNoReturn | mop | mopr | reveal | send | receive
  | copy | tstore | tforce | engineRead | message | monitor
  | clean | inval | discard | install | spawn | cancelJob
  deriving DecidableEq, Repr

/-- A copy command (R205, R206). `done` has bit k set when the k-th 32-byte sector of the destination
has been written, and `arrived` when its bytes have arrived on the copy's barrier. -/
structure CopyJob where
  src   : Nat
  dst   : Nat
  ctl   : Word
  bar   : Nat
  batch : Nat
  done  : Nat
  arrived : Nat
  deriving DecidableEq, Repr

/-- A tile demand (R162 to R169): the node, the destination when it is a store or the offset of the
spill space when it is a force, the control word, whether a store waits for it (R167), the elements done (bit
i * cols + j for element (i, j) of the node), the leaf elements read so far, the flags of what has been computed,
and the granules in progress (bit k for the k-th): begun, and neither done nor stopped at a fault (R169). -/
structure TileJob where
  entry : Nat
  dest  : Option TileDesc
  spill : Option Nat
  ctl   : Word
  forStore : Bool
  done  : Nat
  cache : Sparse Nat
  flags : Flags
  begun : Nat
  deriving DecidableEq, Repr

/-- An operation that a group has issued and that has not completed (R69 to R75). `results` are the words
of a reveal, by register and lane. -/
structure Op where
  slot      : Nat
  core      : Nat
  pc        : VAddr
  kind      : OpKind
  flag      : FlagSel
  dst       : Option Reg
  count     : Nat
  width     : Nat
  lanes     : List Nat
  strands   : List Nat
  pieces    : List Piece
  results   : List (Nat × Nat × Word)
  acq       : Option Scope
  rel       : Option Scope
  copy      : Option CopyJob
  tile      : Option TileJob
  channel   : Option (Nat × Nat)
  data      : List Byte
  aux       : Nat
  suspended : Option TrapInfo
  deriving DecidableEq, Repr

/-- An operation in the pending list of a word (R226): an operator, an ST or an LD. `table` is the assize slot
and the number of the install that governs it, `ret` the piece of a MOPR that its old value goes to,
`ops` the operations that it completes, and `piece` the piece of a load that reads the word. -/
inductive Pending where
  | mop (addr : Nat) (cls : Nat) (desc : ClassDesc) (table : Nat × Nat) (operand : Nat)
      (ret : Option Nat) (ops cores : List Nat) (grain : Nat)
  | st (addr : Nat) (bytes : List Byte) (ops cores : List Nat) (grain : Nat)
  | ld (addr size op piece : Nat)
  deriving DecidableEq, Repr

/-- An assize table as installed at a slice (R220). -/
structure Table where
  classes   : List ClassDesc
  relations : List (BitVec 4)
  version   : Nat
  deriving DecidableEq, Repr

/-- A tinker (R268, R270): its memory, and the handler that runs: its message, its region and whether its
world lets it reach that (R318, R319), registers, the bytes of the region that it has written, and how it
ended: with a reply, or by an exception. -/
structure Tinker where
  mem     : Sparse Byte
  running : Option Nat
  region  : Nat
  reaches : Bool
  regs    : Sparse Word
  pc      : Word
  written : Sparse Byte
  retired : Nat
  result  : Option (Option Word)
  deriving DecidableEq, Repr

/-- Main memory and everything on the way to it. -/
structure Mem where
  /-- HBM, host and peer bytes in canonical form (R26). -/
  bytes    : List Host.Cell
  /-- Bytes that L2 holds dirty (R194). -/
  dirty    : Sparse Byte
  /-- Write-backs queued towards HBM, oldest first (R210). -/
  queue    : List (Nat × List (Nat × Byte))
  /-- Poisoned sectors (R324). -/
  poison   : List Nat
  dir      : Sparse DirEntry
  updates  : Sparse Update
  reqs     : Sparse Req
  ops      : Sparse Op
  pending  : List Pending
  /-- Assize slots at each slice: key `16 * slice + slot` (R217). -/
  tables   : Sparse Table
  /-- Installs under way: slot, table and the slices still to reach (R219). -/
  installs : Sparse (Nat × Table × List Nat)
  versions : Nat
  tinkers  : Sparse Tinker
  image    : Option Nat
  tlb      : List TlbEntry
  deriving DecidableEq, Repr

/-! ## Command processors and queues -/

/-- A command stream (R271). -/
structure Stream where
  sbase : Dword
  slog  : Word
  stail : Word
  shead : Word
  deriving DecidableEq, Repr

/-- States of a command that has been taken (R274, R278). -/
inductive CmdState where
  | waiting | ready | running
  deriving DecidableEq, Repr

/-- A command that has been taken and has not ended (R272). -/
structure Cmd where
  stream : Nat
  offset : Nat
  op     : Nat
  caddr  : Nat
  ptr    : Nat
  imm    : Dword
  deps   : List Nat
  state  : CmdState
  taken  : Nat
  deriving DecidableEq, Repr

/-- What the buffer-handle table records of a handle (R274). -/
structure Handle where
  writer  : Option Nat
  readers : List Nat
  deriving DecidableEq, Repr

/-- A record on its way to a queue: from a TSPAWN, or from the successor step of a task (R286,
R290). -/
structure Append where
  fields : List Dword
  op     : Option Nat
  task   : Option Nat
  deriving DecidableEq, Repr

/-- A bound queue (R280 to R282). -/
structure Queue where
  header  : Nat
  head    : Nat
  tail    : Nat
  ring    : Nat
  rlog    : Nat
  takeSeq : BitVec 8
  nextSeq : BitVec 8
  taken   : Option (List Dword)
  last    : Option (List Dword)
  faulted : Bool
  appends : List Append
  deriving DecidableEq, Repr

/-- A successor step in progress (R290): the slot of the ended task, or none for a retired task; `reached` is
set once the counter has reached 0, while the queue and the record are read. -/
structure Successor where
  slot    : Option Nat
  launch  : Nat
  core    : Nat
  counter : Nat
  reached : Bool
  deriving DecidableEq, Repr

/-! ## The system -/

/-- Start-up states (R322). -/
inductive Boot where
  | fuse | bist | train | retain | fetch | verify | run | recover | quarantine
  deriving DecidableEq, Repr

/-- A logged event: GTS, device and source number, and what happened (R323). -/
structure LogEntry where
  gts    : Nat
  device : Nat
  source : Nat
  what   : List Nat
  deriving DecidableEq, Repr

/-- What a host or peer read brings back through the port of a block: the data, with poison marked, or
an error (R315, R317, R319). -/
structure Reply where
  block  : Nat
  addr   : Nat
  bytes  : List Byte
  poison : Bool
  error  : Bool
  deriving DecidableEq, Repr

/-- The sexton's own stores (R29, R320): its ROM and its secure SRAM, the bytes that are not zero, the
private part of the identity key, and the public key by which it verifies images. -/
structure Sexton where
  rom  : Sparse Byte
  sram : Sparse Byte
  key  : Nat
  imageKey : Nat × Nat
  deriving DecidableEq, Repr

/-- The system around the cores. `retained` are the training parameters in always-on registers, and
`digest` the cached digest of the image that verified last (R322). -/
structure Sys where
  boot      : Boot
  failures  : Nat
  start     : Nat
  warm      : Bool
  retained  : Option (List Nat)
  digest    : Option (BitVec 256)
  sexton    : Sexton
  measured  : BitVec 256
  report    : List Byte
  /-- The world table: the numbers of the secure blocks, numbered as event sources (R318, R323). -/
  worlds    : List Nat
  regions   : Sparse (BitVec 128)
  device    : BitVec 8
  portsDown : List Nat
  peers     : List Nat
  quadrants : Sparse PowerState
  telemetry : List (Nat × List Nat)
  log       : List LogEntry
  defer     : Nat
  msix      : List Nat
  replies   : List Reply
  deriving DecidableEq, Repr

/-- Time: clk counts the model's own steps, GTS advances by the device's own clock, `tick` numbers
the free values taken (the model's own), `changes` counts steps that changed something (R47). -/
structure Time where
  clk     : Nat
  gts     : Nat
  tick    : Nat
  changes : Nat
  deriving DecidableEq, Repr

/-- Progress that agents make without a row of the table: a copy engine copies bytes, a tile engine works on a
granule, or on one element of it, a memory operator arrives at its slice, a read through a port goes back, L2 queues
or lands a write-back or evicts a region, TLBs fill and drop entries, a tinker retires an instruction, the host or a
peer writes its own memory, fuses are sensed or retained parameters checked at start-up, and the steward sets
PREEMPT_DEFER (R306) or a debug register of a saved context (R307). -/
inductive Background where
  | copyBytes (op chunk keeps reads holds : Nat)
  | granule (op granule : Nat) (elem : Option Nat) (keeps reads holds : Nat)
  | mopArrive (req : Nat)
  | portReply (op : Nat)
  | queueWriteBack (sector : Nat)
  | landWriteBack
  | evictL2 (region : Nat)
  | fillTlb (block root va : Nat)
  | dropTlb
  | tinkerStep (slice : Nat)
  | outside (addr : Nat) (bytes : List Byte)
  | startUp (ok cached : Bool)
  | setDefer (clk : Nat)
  | setDebug (team grpid num : Nat) (value : Word)
  deriving DecidableEq, Repr

/-- What an occurrence brings from outside the machine: the result of a check, or readings. -/
structure Input where
  ok     : Bool
  values : List Nat
  deriving DecidableEq, Repr

/-- One entry of the agenda: which agent moves next, and what it does. -/
inductive Turn where
  | issue (slot : Nat) (pc : VAddr)
  | occur (i : Instr) (input : Input)
  | background (b : Background)
  deriving DecidableEq, Repr

/-- The execution that issues (R37): the group's slot and the PC its gang stands at. -/
structure Issue where
  slot : Nat
  pc   : VAddr
  deriving DecidableEq, Repr

/-- The machine. -/
structure State where
  time     : Time
  agenda   : List Turn
  issue    : Issue
  input    : Input
  /-- The next name for a new operation, request, update, command, team, cluster or launch. -/
  ids      : Nat
  /-- Groups by slot key: `128 * core + slot`; slot / 32 is the bay (R23). -/
  slots    : Sparse Group
  teams    : Sparse Team
  clusters : Sparse Cluster
  launches : Sparse Launch
  cores    : Sparse Core
  mem      : Mem
  streams  : Sparse Stream
  cmds     : Sparse Cmd
  handles  : Sparse Handle
  queues   : Sparse Queue
  successors : Sparse Successor
  /-- Cancellations that each agent holds: engines 0 to 3, the port of core c at 4 + c (R288). -/
  cancels  : Sparse (List (Word × Nat))
  sys      : Sys
  deriving DecidableEq, Repr

/-- The model stops with no fault: every behaviour the spec gives ends in a next state. -/
inductive Fault where
  /-- Raised by nobody: kept so that the type has a name; safe. -/
  | none
  deriving DecidableEq, Repr

/-- Why the model would decline a step. -/
inductive Refusal where
  /-- Raised by an arm of `exec` whose instruction has no meaning yet; safe. -/
  | notModelled (mnemonic : String)
  deriving DecidableEq, Repr

namespace State

/-- The machine right after reset: power-on of a cold start, in FUSE (R322). Nothing is placed,
every table is empty and every register named in the log has the value it names. -/
def reset : State where
  time := { clk := 0, gts := 0, tick := 0, changes := 0 }
  agenda := []
  issue := { slot := 0, pc := 0 }
  input := { ok := true, values := [] }
  ids := 0
  slots := []
  teams := []
  clusters := []
  launches := []
  cores := []
  mem := {
    bytes := [], dirty := [], queue := [], poison := [], dir := [], updates := [], reqs := [],
    ops := [], pending := [], tables := [], installs := [], versions := 0, tinkers := [],
    image := none, tlb := [] }
  streams := []
  cmds := []
  handles := []
  queues := []
  successors := []
  cancels := []
  sys := {
    boot := .fuse, failures := 0, start := 0, warm := false, retained := none, digest := none,
    sexton := { rom := [], sram := [], key := 0, imageKey := (0, 0) }, measured := 0, report := [],
    worlds := [613], regions := [], device := 0, portsDown := [], peers := [], quadrants := [],
    telemetry := [], log := [], defer := 65536, msix := [], replies := [] }

end State

end Sys2Proof.Machine
end

