-- ==== Sys2Proof/Machine/Ops.lean ====
section
/-!
DEFINITION. The named operations over groups: registers, lanes and gangs (R5 to R7, R36, R37,
R54), scalar reads (R58), taking a trap (R10, R293 to R296), stalling and retiring (R47, R309),
and the scoreboard (R69, R71).
-/
namespace Sys2Proof.Machine

open Sys2Proof

/-- The outcome of an instruction or of a step. -/
abbrev Out := Host.Outcome State Fault Refusal

/-! ## Fields of GM (R62) -/

namespace Gm
def et (gm : Word) : Option ElemType := ElemType.ofCodeNat (gm.extractLsb' 0 4).toNat
def rm (gm : Word) : Option RMode := RMode.ofCodeNat (gm.extractLsb' 4 3).toNat
def sat (gm : Word) : Bool := gm.getLsbD 7
def ftz (gm : Word) : Bool := gm.getLsbD 8
def greg (gm : Word) : Nat := (gm.extractLsb' 9 8).toNat
def gen (gm : Word) : Bool := gm.getLsbD 17
def gneg (gm : Word) : Bool := gm.getLsbD 18
end Gm

namespace Gs
def tm (gs : Word) : Bool := gs.getLsbD 9
def ss (gs : Word) : Bool := gs.getLsbD 10
def det (gs : Word) : Bool := gs.getLsbD 11
end Gs

/-! ## Registers (R5, R54, R55) -/

namespace Group

/-- v[r][l]. -/
def reg (g : Group) (r l : Nat) : Word := (g.regs.get l []).get r 0

/-- The MMAR latch after a write to register `r`: dropped where the register is in its range (R151). -/
def latchAfter (m : Option (Nat × Nat)) (r : Nat) : Option (Nat × Nat) :=
  match m with
  | some (a, n) => if a ≤ r ∧ r < a + n then none else some (a, n)
  | none => none

/-- v[r][l] ← x. -/
def setReg (g : Group) (r l : Nat) (x : Word) : Group :=
  { g with regs := g.regs.set l [] ((g.regs.get l []).set r 0 x), mmar := latchAfter g.mmar r }

/-- The value of `n` consecutive registers of a lane, the lowest register first. -/
def words (g : Group) (r n l : Nat) : List Word := (List.range n).map fun i => g.reg (r + i) l

/-- Write consecutive registers of a lane, the lowest register first. -/
def setWords (g : Group) (r l : Nat) : List Word → Group
  | [] => g
  | w :: ws => (g.setReg r l w).setWords (r + 1) l ws

/-- A single register or a pair of a lane, as 64 bits (R55). -/
def read (g : Group) (r n l : Nat) : Dword :=
  if n = 1 then (g.reg r l).setWidth 64 else g.reg (r + 1) l ++ g.reg r l

/-- Write a single register or a pair of a lane (R55). -/
def write (g : Group) (r n l : Nat) (x : Dword) : Group :=
  if n = 1 then g.setReg r l (x.setWidth 32)
  else (g.setReg r l (x.setWidth 32)).setReg (r + 1) l (x.extractLsb' 32 32)

/-- Write one value into several lanes. -/
def writeLanes (g : Group) (r n : Nat) (x : Dword) : List Nat → Group
  | [] => g
  | l :: ls => (g.write r n l x).writeLanes r n x ls

end Group

/-! ## Lanes, strands and gangs (R6, R12, R36, R37) -/

namespace StackEntry
def mask : StackEntry → BitVec 4
  | .path _ m => m
  | .park _ m => m

/-- The entry with some lanes removed. -/
def without (m : BitVec 4) : StackEntry → StackEntry
  | .path t k => .path t (k &&& ~~~m)
  | .park p k => .park p (k &&& ~~~m)
end StackEntry

namespace Strand

/-- The lanes of a strand that have not exited: in exec, on the stack, or kept by a resume record
while R36 is suspended (R36, R293). -/
def live (t : Strand) : BitVec 4 :=
  let held := t.stack.foldl (fun m e => m ||| e.mask) t.exec
  match t.record with
  | some r => held ||| r.kept
  | none => held

def exited (t : Strand) : Bool := t.run == .exited

/-- Whether the strand's PC stands at a body word of its clause (R73). -/
def inBody (t : Strand) : Bool :=
  match t.clause with
  | some c => decide (c.hdr.toNat < t.pc.toNat ∧ t.pc.toNat ≤ c.hdr.toNat + 4 * c.len)
  | none => false

/-- Whether the strand's PC stands at the last body word of its clause (R73). -/
def atLast (t : Strand) : Bool :=
  match t.clause with
  | some c => decide (t.pc.toNat = c.hdr.toNat + 4 * c.len)
  | none => false

/-- Move to a PC reached by a branch: no clause is open there (R120). -/
def jump (t : Strand) (target : VAddr) : Strand :=
  { t with pc := target, clause := none, stalled := none, aliasing := none }

/-- Move to the next word. -/
def advance (t : Strand) : Strand := { t with pc := t.pc + 4, stalled := none, aliasing := none }

end Strand

/-- The lanes named by a 4-bit mask of strand `i`. -/
def maskLanes (i : Nat) (m : BitVec 4) : List Nat :=
  ((List.range 4).filter fun j => m.getLsbD j).map fun j => 4 * i + j

/-- A lane mask (R56). -/
def laneMask (ls : List Nat) : BitVec 64 := ls.foldl (fun m l => m ||| (1#64 <<< l)) 0

/-- A strand that the model never reaches: used where a list has no such strand. -/
def Strand.absent : Strand :=
  { pc := 0, exec := 0, stack := [], run := .exited, clause := Option.none, block := Option.none,
    record := Option.none, stalled := Option.none, aliasing := Option.none }

namespace Group

def strand (g : Group) (i : Nat) : Strand := g.strands.getD i Strand.absent

def setStrand (g : Group) (i : Nat) (t : Strand) : Group := { g with strands := g.strands.set i t }

def modStrand (g : Group) (i : Nat) (f : Strand → Strand) : Group := g.setStrand i (f (g.strand i))

/-- Apply a function to each of some strands. -/
def modStrands (g : Group) (is : List Nat) (f : Nat → Strand → Strand) : Group :=
  { g with strands := g.strands.mapIdx fun i t => if i ∈ is then f i t else t }

/-- All strands of a group, in ascending number. -/
def allStrands (g : Group) : List Nat := List.range g.strands.length

/-- The issuing gang at a PC: every strand in RUN there that does not wait (R37). -/
def gang (g : Group) (pc : VAddr) : List Nat :=
  g.allStrands.filter fun i =>
    let t := g.strand i
    t.run == .run && t.block.isNone && t.pc == pc

/-- Every lane of the strands of a gang. -/
def gangLanes (is : List Nat) : List Nat := is.flatMap fun i => (List.range 4).map fun j => 4 * i + j

/-- The lanes in exec of the strands of a gang. -/
def execLanes (g : Group) (is : List Nat) : List Nat := is.flatMap fun i => maskLanes i (g.strand i).exec

/-- The lanes of the strands of a gang that have not exited. -/
def liveLanes (g : Group) (is : List Nat) : List Nat := is.flatMap fun i => maskLanes i (g.strand i).live

/-- The guard of a lane (R6). -/
def guardPasses (g : Group) (l : Nat) : Bool :=
  !Gm.gen g.modes.gm || ((g.reg (Gm.greg g.modes.gm) l).getLsbD 0 != Gm.gneg g.modes.gm)

/-- The active lanes of a gang (R6). -/
def activeLanes (g : Group) (is : List Nat) : List Nat := (g.execLanes is).filter g.guardPasses

/-- Uniform: the lowest lane that has not exited of the lowest strand of the gang (R12). -/
def uniformLane (g : Group) (is : List Nat) : Nat := (g.liveLanes is).headD 0

/-- A scalar read of one register, and whether its values differ across the gang's lanes that have
not exited (R58). -/
def scalarRead (g : Group) (is : List Nat) (r : Nat) : Word × Bool :=
  let x := g.reg r (g.uniformLane is)
  (x, (g.liveLanes is).any fun l => g.reg r l != x)

/-- A scalar read of one register or of a pair, word by word (R58). -/
def scalarOpnd (g : Group) (is : List Nat) (r n : Nat) : Dword × Flags :=
  let l := g.uniformLane is
  (g.read r n l, Flags.when ((List.range n).any fun i => (g.scalarRead is (r + i)).2) Flags.nur)

/-- OR sticky bits into GS (R9). -/
def raiseFlags (g : Group) (f : Flags) : Group :=
  { g with modes := { g.modes with gs := g.modes.gs ||| f.sticky } }

def tm (g : Group) : Bool := Gs.tm g.modes.gs

/-- Whether the group is in the handler that it was in at some time (R306). -/
def handling (g : Group) (since : Nat) : Bool := g.tm && decide (g.entered < since)

/-- Whether the group is one of a deterministic launch whose quantum has ended (R292). -/
def quantumOver (g : Group) : Bool :=
  Gs.det g.modes.gs && (g.det.ended || decide (g.quantum.toNat ≤ g.det.used))

end Group

/-! ## State accessors -/

namespace State

def group (s : State) (k : Nat) : Option Group := s.slots.find k

def setGroup (s : State) (k : Nat) (g : Group) : State := { s with slots := s.slots.put k (some g) }

def modGroup (s : State) (k : Nat) (f : Group → Group) : State := { s with slots := s.slots.update k f }

def launch (s : State) (k : Nat) : Option Launch := s.launches.find k

def team (s : State) (k : Nat) : Option Team := s.teams.find k

def cluster (s : State) (k : Nat) : Option Cluster := s.clusters.find k

/-- A core that no entry lists: an empty L1, no way for scratch, powered (R325). -/
def core (s : State) (c : Nat) : Core :=
  s.cores.get c { l1 := [], rejected := [], scrways := 0, ways := none, power := .on, shared := [] }

def setCore (s : State) (c : Nat) (x : Core) : State := { s with cores := s.cores.put c (some x) }

/-- A name that nothing else has. -/
def fresh (s : State) : Nat × State := (s.ids, { s with ids := s.ids + 1 })

/-- Count a step that changed something (R47). -/
def changed (s : State) : State := { s with time := { s.time with changes := s.time.changes + 1 } }

/-- The number of the next free value, and the state that has taken it. -/
def free (s : State) : Nat × State :=
  (s.time.tick, { s with time := { s.time with tick := s.time.tick + 1 } })

end State

/-- Whether one logged event comes before another (R323). -/
def LogEntry.before (a b : LogEntry) : Bool :=
  decide (a.gts < b.gts) || (a.gts == b.gts && (decide (a.device < b.device) ||
    (a.device == b.device && decide (a.source < b.source))))

/-- Put an event into the log: behind those that it does not come before (R323). -/
def insertLog (e : LogEntry) : List LogEntry → List LogEntry
  | [] => [e]
  | x :: xs => if e.before x then e :: x :: xs else x :: insertLog e xs

/-- The MSI-X vector of the steward's events (R314). -/
def stewardVector : Nat := 64

namespace State

/-- Log an event, which the steward tells the host of (R314, R323; log 33). The source number is of 12 bits. -/
def log (s : State) (source : Nat) (what : List Nat) : State :=
  let e : LogEntry := { gts := s.time.gts, device := s.sys.device.toNat, source := source % 4096, what := what }
  { s with sys := { s.sys with log := insertLog e s.sys.log, msix := s.sys.msix ++ [stewardVector] } }

end State

/-- The core of a slot key (R23). -/
def slotCore (slot : Nat) : Nat := slot / 128

/-! ## Traps (R10, R293 to R296) -/

/-- The low 32 and the high bits of an address, as the trap registers hold them (R77). -/
def lowWord (n : Nat) : Word := BitVec.ofNat 32 n
def highWord (n : Nat) : Word := BitVec.ofNat 32 (n / 2 ^ 32)

/-- The trap registers in the order of their numbers (R77). -/
def TrapRegs.words (t : TrapRegs) : List Word :=
  [t.xpcl, t.xpch, t.xlm0, t.xlm1, t.xcause, t.xsub, t.xaddrl, t.xaddrh, t.xnpcl, t.xnpch, t.xnode, t.xstr]

/-- XSTR (R294). -/
def xstrOf (live gang : List Nat) : Word :=
  BitVec.ofNat 16 (live.foldl (fun n i => n ||| 2 ^ i) 0) ++ BitVec.ofNat 16 (gang.foldl (fun n i => n ||| 2 ^ i) 0)

namespace Group

/-- Strands that are not EXITED. -/
def liveStrands (g : Group) : List Nat := g.allStrands.filter fun i => !(g.strand i).exited

/-- The trap registers of a trap; a field that the cause does not use is zero (R293). -/
def trapRegs (g : Group) (t : TrapInfo) : TrapRegs :=
  { xpcl := lowWord t.pc.toNat, xpch := highWord t.pc.toNat
    xlm0 := t.lanes.extractLsb' 0 32, xlm1 := t.lanes.extractLsb' 32 32
    xcause := BitVec.ofNat 32 t.cause.code, xsub := t.sub
    xaddrl := lowWord t.addr, xaddrh := highWord t.addr
    xnpcl := lowWord t.npc.toNat, xnpch := highWord t.npc.toNat
    xnode := t.node
    xstr := xstrOf g.liveStrands (t.gang.filter fun i => !(g.strand i).exited) }

/-- A strand's resume record (R293). -/
def recordOf (t : Strand) : Resume :=
  { pc := t.pc, clause := t.clause, exec := t.exec, kept := t.exec, depth := t.stack.length,
    run := t.run, block := t.block }

/-- Entering the handler: records, trap registers, TM, and every strand that is not EXITED in RUN
at HADDR with its lanes that have not exited (R293). A fence in progress starts again at RTT. -/
def enterHandler (g : Group) (haddr : VAddr) (t : TrapInfo) : Group :=
  { g with
    strands := g.strands.map fun u =>
      if u.exited then u
      else { u with record := some (recordOf u), exec := u.live, run := .run, pc := haddr,
                    clause := none, block := none, stalled := none, aliasing := none }
    trap := g.trapRegs t
    modes := { g.modes with gs := g.modes.gs ||| 0x200 }
    fencing := none }

end Group

namespace State

/-- Halting a group: it issues nothing further, the steward logs the cause, the PC and the lanes with
the trap registers, and terminates the launch (R295). -/
def halt (s : State) (k : Nat) (t : TrapInfo) : State :=
  match s.group k with
  | none => s
  | some g =>
    let s := s.setGroup k { g with halted := true }
    let s := { s with launches := s.launches.update g.launch fun l => { l with terminated := true } }
    s.log (slotCore k) ([0, t.cause.code, t.pc.toNat, t.lanes.toNat] ++ g.trap.words.map BitVec.toNat)

/-- Raising a cause for the group at a slot (R293, R295): with TM set, BREAK, WATCH and STEP are not
raised, LATE and MTIMEOUT are held, and any other cause halts the group; without TM the group
enters its handler, or halts when HADDR is all ones, with the trap registers written. A group
whose strands have all exited takes no trap; the cause is logged (R172; log 34; log 17). -/
def raise (s : State) (k : Nat) (t : TrapInfo) : State :=
  match s.group k with
  | none => s
  | some g =>
    let s := s.changed
    if g.liveStrands.isEmpty then s.log (slotCore k) [2, t.cause.code, t.pc.toNat, t.addr]
    else if g.tm then
      match t.cause with
      | .break | .watch | .step => s
      | .late | .mtimeout => s.setGroup k { g with held := g.held ++ [t] }
      | _ => s.halt k t
    else
      match (s.launch g.launch).bind (·.desc.haddr) with
      | some h => s.setGroup k { g.enterHandler h t with entered := s.time.clk }
      | none => (s.setGroup k { g with trap := g.trapRegs t }).halt k t

end State

/-- A precise trap at the issuing PC, with only a cause and lanes (R10, R296). -/
def TrapInfo.at (pc : VAddr) (gang : List Nat) (cause : Cause) (lanes : List Nat) : TrapInfo :=
  { cause := cause, sub := 0, addr := 0, pc := pc, npc := 0, node := 0, lanes := laneMask lanes, gang := gang,
    op := none }

/-- The same with an address (R296). -/
def TrapInfo.atAddr (pc : VAddr) (gang : List Nat) (cause : Cause) (lanes : List Nat) (addr : Nat) : TrapInfo :=
  { TrapInfo.at pc gang cause lanes with addr := addr }

/-- The global group id (R34). -/
def Ident.global (i : Ident) : Nat := i.team * 64 + i.grpid

/-! ## The scoreboard and stalls (R47, R69, R71) -/

/-- The registers that an unlanded operation of the group will write; a reveal holds the quads of the
spores that it examines (R69, R408). -/
def Op.dests (o : Op) : List (Nat × Nat) :=
  match o.dst with
  | some d => (d.toNat, o.count) ::
      ((o.results.map (·.1)).eraseDups.filter (· != d.toNat)).map fun r => (r / 4 * 4, 4)
  | none => []

/-- Operations of the group at a slot that have not completed. -/
def State.opsOf (s : State) (k : Nat) : List (Nat × Op) :=
  s.mem.ops.filter fun p => p.2.slot == k

/-- Whether some of `n` registers from `r` are the operation's destination (R69). -/
def Op.writes (o : Op) (r n : Nat) : Bool := o.dests.any fun d => decide (r < d.1 + d.2 ∧ d.1 < r + n)

/-- The strands of the gang find that their next word cannot issue; they try again later (R47). -/
def State.stall (s : State) (k : Nat) (gang : List Nat) : State :=
  s.modGroup k fun g => g.modStrands gang fun _ t => { t with stalled := some s.time.changes }

/-! ## Issue and retirement -/

/-- The context of an execution: the slot, the group as it issues, and the gang (R37). -/
structure Ctx where
  slot : Nat
  pc   : VAddr
  g    : Group
  gang : List Nat
  deriving DecidableEq, Repr

namespace Ctx
def lanes (c : Ctx) : List Nat := c.g.activeLanes c.gang
def core (c : Ctx) : Nat := slotCore c.slot
end Ctx

/-- Run a word's meaning for the gang that issues: nothing happens where no strand can issue. -/
def issuing (s : State) (k : Ctx → Out) : Out :=
  match s.group s.issue.slot with
  | none => .next s
  | some g =>
    let gang := g.gang s.issue.pc
    if gang.isEmpty || g.halted || g.quantumOver then .next s
    else k { slot := s.issue.slot, pc := s.issue.pc, g := g, gang := gang }

/-- A precise trap of the issuing gang with the given lanes (R10). -/
def trapLanes (s : State) (c : Ctx) (cause : Cause) (lanes : List Nat) : Out :=
  .next (s.raise c.slot (TrapInfo.at c.pc c.gang cause lanes))

/-- A trap of steps 1 to 5 of R118: every lane in exec of the gang is named. -/
def trapAll (s : State) (c : Ctx) (cause : Cause) : Out := trapLanes s c cause (c.g.execLanes c.gang)

/-- A precise trap with an address. -/
def trapAddr (s : State) (c : Ctx) (cause : Cause) (lanes : List Nat) (addr : Nat) : Out :=
  .next (s.raise c.slot (TrapInfo.atAddr c.pc c.gang cause lanes addr))

/-- What the issue logic notes when a gang issues (R47, R48, R297, R429). -/
def Sched.issued (x : Sched) (clk : Nat) (gang : List Nat) : Sched :=
  { x with lastIssue := clk, lastGang := gang.head?, yielded := false,
           noBreak := x.noBreak.filter fun i => !(gang.contains i) }

/-- Bookkeeping of a retired execution: the counter, the quantum and the issue logic (R77, R292). -/
def Group.retired (g : Group) (clk : Nat) (gang : List Nat) : Group :=
  { g with
    count := { g.count with retired := g.count.retired + 1 }
    det := { g.det with used := g.det.used + 1 }
    sched := g.sched.issued clk gang }

/-- Retire an execution whose effect has been written into the group at its slot; STEP follows while GS.SS was
set with TM clear (R309; log 16). -/
def retire (s : State) (c : Ctx) : Out :=
  let s := (s.modGroup c.slot fun g => g.retired s.time.clk c.gang).changed
  if Gs.ss c.g.modes.gs && !c.g.tm then
    match s.group c.slot with
    | none => .next s
    | some g =>
      match c.gang.filter fun i => !(g.strand i).exited with
      | [] => .next s
      | i :: is =>
        let pc := (g.strand i).pc
        .next (s.raise c.slot { TrapInfo.at pc ((i :: is).filter fun j => (g.strand j).pc == pc) .step
          (g.execLanes (i :: is)) with pc := pc })
  else .next s

/-- Complete an execution: the group's new registers and modes, the gang one word further. -/
def complete (s : State) (c : Ctx) (g : Group) : Out :=
  retire (s.setGroup c.slot (g.modStrands c.gang fun _ t => t.advance)) c

/-- Complete an execution that changes no register: the gang moves one word further. -/
def completeOnly (s : State) (c : Ctx) : Out :=
  retire (s.modGroup c.slot fun g => g.modStrands c.gang fun _ t => t.advance) c

/-- Whether an operation of a deterministic group completes only at a commit (R292). -/
def Op.commitOnly (o : Op) : Bool :=
  match o.kind with
  | .atomic | .mopr | .receive | .message => true
  | _ => false

/-- End the quantum of a deterministic group (R292). -/
def Group.endQuantum (g : Group) : Group :=
  if Gs.det g.modes.gs then { g with det := { g.det with ended := true } } else g

/-- The gang stalls at its word. -/
def stallHere (s : State) (c : Ctx) : Out := .next (s.stall c.slot c.gang)

/-- The gang stalls on some operations; where one of them completes only at a commit the group is
blocked and its quantum ends (R292). -/
def stallOn (s : State) (c : Ctx) (p : Op → Bool) : Out :=
  let s := s.stall c.slot c.gang
  if (s.opsOf c.slot).any fun o => p o.2 && o.2.commitOnly then .next (s.modGroup c.slot Group.endQuantum)
  else .next s

/-- The gang is blocked at its word: its quantum ends in deterministic operation (R292). -/
def blockHere (s : State) (c : Ctx) : Out :=
  .next ((s.stall c.slot c.gang).modGroup c.slot Group.endQuantum)

end Sys2Proof.Machine
end

