-- ==== Sys2Proof/Machine/Operands.lean ====
section
/-!
DEFINITION. Operand forms and the checks of R118: position in the clause (R73), register operands
(R54, R55, R106, R109), spore numbers (R60), the mode (R64) and the guard (R62); scalar reads of
uniform operands (R58); and the lane-wise form and its scalar twin (R7, R57).
-/
namespace Sys2Proof.Machine

open Sys2Proof

/-- A register operand: its number and how many registers it names (R55). -/
structure Opnd where
  reg   : Nat
  count : Nat
  deriving DecidableEq, Repr

namespace Opnd
def one (r : Reg) : Opnd := ⟨r.toNat, 1⟩
def two (r : Reg) : Opnd := ⟨r.toNat, 2⟩
def four (r : Reg) : Opnd := ⟨r.toNat, 4⟩

/-- A field that names a pair under a 64-bit ET (R109). -/
def byEt (gm : Word) (r : Reg) : Opnd :=
  match Gm.et gm with
  | some t => if t.wide then two r else one r
  | none => one r

/-- Within the allocation and aligned (R54, R55). -/
def valid (n : Nat) (o : Opnd) : Bool := decide (o.reg + o.count ≤ n) && o.reg % o.count == 0
end Opnd

/-- What a word needs before its entry's own checks: whether it must end its clause (R73), the
operands of step 4, the spore numbers of step 4, the mode condition of step 5, and whether it
evaluates the guard. -/
structure Needs where
  last  : Bool
  opnds : List Opnd
  spores : List (BitVec 3)
  mode  : Bool
  guard : Bool
  deriving DecidableEq, Repr

/-- The needs of a word with register operands only. -/
def Needs.regs (opnds : List Opnd) : Needs :=
  { last := false, opnds := opnds, spores := [], mode := true, guard := true }

/-- The needs of a word that ignores the guard. -/
def Needs.unguarded (opnds : List Opnd) : Needs := { Needs.regs opnds with guard := false }

/-- The needs of a word that must end its clause (R73). -/
def Needs.ending (opnds : List Opnd) : Needs := { Needs.unguarded opnds with last := true }

/-- Steps 1, 4 and 5 of R118 for the gang: the cause of the first that fails. -/
def firstFault (c : Ctx) (n : Needs) : Option Cause :=
  if c.gang.any fun i => !(c.g.strand i).inBody then some .illegal
  else if n.last && (c.gang.any fun i => !(c.g.strand i).atLast) then some .illegal
  else if n.opnds.any fun o => !o.valid c.g.nregs then some .illopnd
  else if n.spores.any fun k => decide (c.g.spores ≤ k.toNat) then some .illopnd
  else if !n.mode then some .illopnd
  else if n.guard && Gm.gen c.g.modes.gm && decide (c.g.nregs ≤ Gm.greg c.g.modes.gm) then some .illopnd
  else none

/-- Whether an unlanded operation will write an operand, or the guard where it is read (R69, R71). -/
def hazard (c : Ctx) (n : Needs) (o : Op) : Bool :=
  (n.opnds.any fun r => o.writes r.reg r.count) ||
  (n.spores.any fun k => o.writes (c.g.nregs - 4 - 4 * k.toNat) 4) ||
  (n.guard && Gm.gen c.g.modes.gm && o.writes (Gm.greg c.g.modes.gm) 1)

/-- Issue a word: the checks of R118 that do not depend on values, then the scoreboard (R69). -/
def checked (s : State) (needs : Word → Needs) (k : Ctx → Out) : Out :=
  issuing s fun c =>
    let n := needs c.g.modes.gm
    match firstFault c n with
    | some cause => trapAll s c cause
    | none =>
      if (s.opsOf c.slot).any fun o => hazard c n o.2 then stallOn s c (hazard c n) else k c

/-! ## Lane-wise forms (R7) and scalar twins (R57) -/

/-- A lane-wise instruction: its destination, its sources in order, whether the mode admits it
(step 5 of R118), and its effect on one lane. -/
structure Form where
  dst : Opnd
  srcs : List Opnd
  ok  : Bool
  fn  : List Dword → Dword × Flags

/-- The causes that the flags of some lanes raise: the lowest code, and the lanes that reached it
(R10). Nothing traps while TM is set (R67). -/
def flagTrap (g : Group) (outs : List (Nat × Flags)) : Option (Cause × List Nat) :=
  if g.tm then none
  else
    let all := outs.flatMap fun o => o.2.causes g.modes.xen
    match all with
    | [] => none
    | c :: cs =>
      let low := cs.foldl (fun (a : Cause) b => if b.code < a.code then b else a) c
      some (low, (outs.filter fun o => (o.2.causes g.modes.xen).contains low).map (·.1))

/-- All the flags that some lanes raised. -/
def allFlags (outs : List (Nat × Flags)) : Flags := outs.foldl (fun f o => f ||| o.2) 0

/-- Record the flags of some lanes in GS, trap if an enabled one was raised, else go on (R9, R10). -/
def withFlags (s : State) (c : Ctx) (outs : List (Nat × Flags)) (k : State → Group → Out) : Out :=
  let g := c.g.raiseFlags (allFlags outs)
  match flagTrap c.g outs with
  | some (cause, lanes) => trapLanes (s.setGroup c.slot g) c cause lanes
  | none => k s g

/-- The effect of a form on one lane. -/
def Form.eval (f : Form) (g : Group) (l : Nat) : Dword × Flags :=
  f.fn (f.srcs.map fun o => g.read o.reg o.count l)

/-- Write each lane its own result. -/
def writeResults (g : Group) (o : Opnd) : List (Nat × Dword) → Group
  | [] => g
  | (l, x) :: r => writeResults (g.write o.reg o.count l x) o r

/-- A lane-wise instruction (R7): every active lane's sources are read before any write. -/
def vector (mk : Word → Form) (s : State) : Out :=
  checked s (fun gm => { Needs.regs ((mk gm).dst :: (mk gm).srcs) with mode := (mk gm).ok }) fun c =>
    let f := mk c.g.modes.gm
    let outs := c.lanes.map fun l => (l, f.eval c.g l)
    withFlags s c (outs.map fun o => (o.1, o.2.2)) fun s g =>
      complete s c (writeResults g f.dst (outs.map fun o => (o.1, o.2.1)))

/-- A scalar twin (R57): one result from scalar reads, written into every lane of every strand of
the gang. Its flags and traps are evaluated once and name every lane of the gang: those of its reads
first, so that a NUREAD ends it before it computes (R9, R10, R58). -/
def scalar (mk : Word → Form) (s : State) : Out :=
  checked s (fun gm => { Needs.unguarded ((mk gm).dst :: (mk gm).srcs) with mode := (mk gm).ok }) fun c =>
    let f := mk c.g.modes.gm
    let reads := f.srcs.map fun o => c.g.scalarOpnd c.gang o.reg o.count
    let r := f.fn (reads.map (·.1))
    let nur := reads.foldl (fun a x => a ||| x.2) 0
    let lanes := Group.gangLanes c.gang
    withFlags s c (lanes.map fun l => (l, nur)) fun s g =>
      withFlags s { c with g := g } (lanes.map fun l => (l, r.2)) fun s g =>
        complete s c (g.writeLanes f.dst.reg f.dst.count r.1 lanes)

/-- Scalar reads of uniform operands (R58): NUR is recorded, and NUREAD names the lanes in exec of
the gang. The continuation receives the values in order. That a trap on a uniform operand of an
instruction that acts once names the lanes in exec of the gang is the model's choice: R10 names no lanes
there (log 38). -/
def uniform (s : State) (c : Ctx) (os : List Opnd) (k : State → Ctx → List Dword → Out) : Out :=
  let reads := os.map fun o => c.g.scalarOpnd c.gang o.reg o.count
  let fl := reads.foldl (fun a x => a ||| x.2) 0
  withFlags s c ((c.g.execLanes c.gang).map fun l => (l, fl)) fun s g =>
    k (s.setGroup c.slot g) { c with g := g } (reads.map (·.1))

/-- The four words of a uniform quad, with its NUR flag (R58). -/
def Group.scalarQuad (g : Group) (gang : List Nat) (r : Nat) : List Word × Flags :=
  let rs := (List.range 4).map fun i => g.scalarRead gang (r + i)
  (rs.map (·.1), Flags.when (rs.any (·.2)) Flags.nur)

/-- A word that acts once per execution, and not at all without an active lane. -/
def onceActive (s : State) (c : Ctx) (k : Unit → Out) : Out :=
  if c.lanes.isEmpty then completeOnly s c else k ()

end Sys2Proof.Machine
end

