-- ==== Sys2Proof/Machine/IntegerAlu.lean ====
section
/-!
DEFINITION. The integer and bitwise instructions of the vector ALU and their scalar twins
(R326 to R329, R331, R339, R341, R349, R350, R382, R388, R389, R392, R394, R402, R404, R412, R428).
-/
namespace Sys2Proof.Machine

open Sys2Proof

/-- A form whose element type must be admitted (step 5 of R118). -/
def etForm (gm : Word) (admits : ElemType → Bool) (dst : Opnd) (srcs : List Opnd)
    (fn : ElemType → List Dword → Dword × Flags) : Form :=
  match Gm.et gm with
  | some t => { dst := dst, srcs := srcs, ok := admits t, fn := fn t }
  | none => { dst := dst, srcs := srcs, ok := false, fn := fun _ => (0, 0) }

/-- The n-th source value. -/
def arg (xs : List Dword) (i : Nat) : Dword := xs.getD i 0

/-- Any element type that is not reserved (ET 0 to 13). -/
def anyEt : ElemType → Bool := fun _ => true

/-- ET 0 to 3 (R326, R350). -/
def wholeInt (t : ElemType) : Bool := t.isInt && t.count == 1

/-- d ← f(a, b) on integer elements, all three widened by ET (R326, R382, R412). -/
def intForm2 (f : ElemType → Bool → Dword → Dword → Dword) (d a b : Reg) (gm : Word) : Form :=
  etForm gm ElemType.isInt (.byEt gm d) [.byEt gm a, .byEt gm b] fun t xs =>
    (f t (Gm.sat gm) (arg xs 0) (arg xs 1), 0)

/-- d ← f(d, a, b) on integer elements (R382). -/
def intForm3 (f : ElemType → Bool → Dword → Dword → Dword → Dword) (d a b : Reg) (gm : Word) : Form :=
  etForm gm ElemType.isInt (.byEt gm d) [.byEt gm d, .byEt gm a, .byEt gm b] fun t xs =>
    (f t (Gm.sat gm) (arg xs 0) (arg xs 1) (arg xs 2), 0)

/-- d ← f(a) on integer elements (R327, R341, R349, R392). -/
def intForm1 (f : ElemType → Bool → Dword → Dword) (d a : Reg) (gm : Word) : Form :=
  etForm gm ElemType.isInt (.byEt gm d) [.byEt gm a] fun t xs => (f t (Gm.sat gm) (arg xs 0), 0)

/-- A bitwise operation over 64 or 32 bits, under every ET (R331, R394, R428). -/
def bitForm2 (f : Dword → Dword → Dword) (d a b : Reg) (gm : Word) : Form :=
  etForm gm anyEt (.byEt gm d) [.byEt gm a, .byEt gm b] fun _ xs => (f (arg xs 0) (arg xs 1), 0)

/-- A shift: the count b is always one register (R109, R402). -/
def shiftForm (f : ElemType → Dword → Dword → Dword) (d a b : Reg) (gm : Word) : Form :=
  etForm gm ElemType.isInt (.byEt gm d) [.byEt gm a, .one b] fun t xs => (f t (arg xs 0) (arg xs 1), 0)

/-- CMP: d is one register (R350). -/
def cmpForm (cond : Elem.Cond) (d a b : Reg) (gm : Word) : Form :=
  etForm gm wholeInt (.one d) [.byEt gm a, .byEt gm b] fun t xs =>
    (Elem.cmp t cond (arg xs 0) (arg xs 1), 0)

/-- BFX: the specifier b is one register (R339). -/
def bfxForm (d a b : Reg) (gm : Word) : Form :=
  etForm gm wholeInt (.byEt gm d) [.byEt gm a, .one b] fun t xs => (Elem.bfx t (arg xs 0) (arg xs 1), 0)

/-- BFI: d is source and destination (R339). -/
def bfiForm (d a b : Reg) (gm : Word) : Form :=
  etForm gm wholeInt (.byEt gm d) [.byEt gm d, .byEt gm a, .one b] fun t xs =>
    (Elem.bfi t (arg xs 0) (arg xs 1) (arg xs 2), 0)

/-- SEL: the predicate is bit 0 of the old d, in its low register where d is a pair (R404). -/
def selForm (d a b : Reg) (gm : Word) : Form :=
  etForm gm anyEt (.byEt gm d) [.one d, .byEt gm a, .byEt gm b] fun _ xs =>
    (Elem.sel (arg xs 0) (arg xs 1) (arg xs 2), 0)

/-- ADDI: d is source and destination (R329). -/
def addiForm (d : Reg) (imm : BitVec 16) (gm : Word) : Form :=
  etForm gm ElemType.isInt (.byEt gm d) [.byEt gm d] fun t xs =>
    (Elem.addi t (Gm.sat gm) imm (arg xs 0), 0)

/-- NOT under every ET (R392). -/
def notForm (d a : Reg) (gm : Word) : Form :=
  etForm gm anyEt (.byEt gm d) [.byEt gm a] fun t xs => (Elem.clip t.wide (~~~(arg xs 0)), 0)

/-- MOV copies 64 or 32 bits by ET (R388). -/
def movForm (d a : Reg) (gm : Word) : Form :=
  etForm gm anyEt (.byEt gm d) [.byEt gm a] fun _ xs => (arg xs 0, 0)

/-- MOVP copies a pair and does not read ET (R388). -/
def movpForm (d a : Reg) (_ : Word) : Form :=
  { dst := .two d, srcs := [.two a], ok := true, fn := fun xs => (arg xs 0, 0) }

/-- MOVI writes the immediate extended by its sign (R389). -/
def moviForm (d : Reg) (imm : BitVec 16) (_ : Word) : Form :=
  { dst := .one d, srcs := [], ok := true, fn := fun _ => ((imm.signExtend 32).setWidth 64, 0) }

/-- MOVHI writes the high half and keeps the low one (R389). -/
def movhiForm (d : Reg) (imm : BitVec 16) (_ : Word) : Form :=
  { dst := .one d, srcs := [.one d], ok := true
    fn := fun xs => ((imm ++ (arg xs 0).extractLsb' 0 16).setWidth 64, 0) }

/-- ADD (R328). -/
def execAdd (d a b : Reg) (s : State) : Out := vector (intForm2 Elem.add d a b) s

/-- Scalar twin: ADD (R328). -/
def execAddS (d a b : Reg) (s : State) : Out := scalar (intForm2 Elem.add d a b) s

/-- SUB (R412). -/
def execSub (d a b : Reg) (s : State) : Out := vector (intForm2 Elem.sub d a b) s

/-- Scalar twin: SUB (R412). -/
def execSubS (d a b : Reg) (s : State) : Out := scalar (intForm2 Elem.sub d a b) s

/-- MUL (R382). -/
def execMul (d a b : Reg) (s : State) : Out := vector (intForm2 Elem.mul d a b) s

/-- Scalar twin: MUL (R382). -/
def execMulS (d a b : Reg) (s : State) : Out := scalar (intForm2 Elem.mul d a b) s

/-- MULHI (R382). -/
def execMulhi (d a b : Reg) (s : State) : Out := vector (intForm2 (fun t _ => Elem.mulhi t) d a b) s

/-- Scalar twin: MULHI (R382). -/
def execMulhiS (d a b : Reg) (s : State) : Out := scalar (intForm2 (fun t _ => Elem.mulhi t) d a b) s

/-- MADLO (R382). -/
def execMadlo (d a b : Reg) (s : State) : Out := vector (intForm3 Elem.madlo d a b) s

/-- Scalar twin: MADLO (R382). -/
def execMadloS (d a b : Reg) (s : State) : Out := scalar (intForm3 Elem.madlo d a b) s

/-- MIN (R382). -/
def execMin (d a b : Reg) (s : State) : Out := vector (intForm2 (fun t _ => Elem.min t) d a b) s

/-- Scalar twin: MIN (R382). -/
def execMinS (d a b : Reg) (s : State) : Out := scalar (intForm2 (fun t _ => Elem.min t) d a b) s

/-- MAX (R382). -/
def execMax (d a b : Reg) (s : State) : Out := vector (intForm2 (fun t _ => Elem.max t) d a b) s

/-- Scalar twin: MAX (R382). -/
def execMaxS (d a b : Reg) (s : State) : Out := scalar (intForm2 (fun t _ => Elem.max t) d a b) s

/-- AND (R331). -/
def execAnd (d a b : Reg) (s : State) : Out := vector (bitForm2 (· &&& ·) d a b) s

/-- Scalar twin: AND (R331). -/
def execAndS (d a b : Reg) (s : State) : Out := scalar (bitForm2 (· &&& ·) d a b) s

/-- OR (R394). -/
def execOr (d a b : Reg) (s : State) : Out := vector (bitForm2 (· ||| ·) d a b) s

/-- Scalar twin: OR (R394). -/
def execOrS (d a b : Reg) (s : State) : Out := scalar (bitForm2 (· ||| ·) d a b) s

/-- XOR (R428). -/
def execXor (d a b : Reg) (s : State) : Out := vector (bitForm2 (· ^^^ ·) d a b) s

/-- Scalar twin: XOR (R428). -/
def execXorS (d a b : Reg) (s : State) : Out := scalar (bitForm2 (· ^^^ ·) d a b) s

/-- SHL (R402). -/
def execShl (d a b : Reg) (s : State) : Out := vector (shiftForm Elem.shl d a b) s

/-- Scalar twin: SHL (R402). -/
def execShlS (d a b : Reg) (s : State) : Out := scalar (shiftForm Elem.shl d a b) s

/-- SHR (R402). -/
def execShr (d a b : Reg) (s : State) : Out := vector (shiftForm Elem.shr d a b) s

/-- Scalar twin: SHR (R402). -/
def execShrS (d a b : Reg) (s : State) : Out := scalar (shiftForm Elem.shr d a b) s

/-- SHA (R402). -/
def execSha (d a b : Reg) (s : State) : Out := vector (shiftForm Elem.sha d a b) s

/-- Scalar twin: SHA (R402). -/
def execShaS (d a b : Reg) (s : State) : Out := scalar (shiftForm Elem.sha d a b) s

/-- ROL (R402). -/
def execRol (d a b : Reg) (s : State) : Out := vector (shiftForm Elem.rol d a b) s

/-- Scalar twin: ROL (R402). -/
def execRolS (d a b : Reg) (s : State) : Out := scalar (shiftForm Elem.rol d a b) s

/-- CMP.eq (R350). -/
def execCmpEq (d a b : Reg) (s : State) : Out := vector (cmpForm .eq d a b) s

/-- Scalar twin: CMP.eq (R350). -/
def execCmpEqS (d a b : Reg) (s : State) : Out := scalar (cmpForm .eq d a b) s

/-- CMP.ne (R350). -/
def execCmpNe (d a b : Reg) (s : State) : Out := vector (cmpForm .ne d a b) s

/-- Scalar twin: CMP.ne (R350). -/
def execCmpNeS (d a b : Reg) (s : State) : Out := scalar (cmpForm .ne d a b) s

/-- CMP.lt (R350). -/
def execCmpLt (d a b : Reg) (s : State) : Out := vector (cmpForm .lt d a b) s

/-- Scalar twin: CMP.lt (R350). -/
def execCmpLtS (d a b : Reg) (s : State) : Out := scalar (cmpForm .lt d a b) s

/-- CMP.le (R350). -/
def execCmpLe (d a b : Reg) (s : State) : Out := vector (cmpForm .le d a b) s

/-- Scalar twin: CMP.le (R350). -/
def execCmpLeS (d a b : Reg) (s : State) : Out := scalar (cmpForm .le d a b) s

/-- SEL (R404). -/
def execSel (d a b : Reg) (s : State) : Out := vector (selForm d a b) s

/-- Scalar twin: SEL (R404). -/
def execSelS (d a b : Reg) (s : State) : Out := scalar (selForm d a b) s

/-- BFX (R339). -/
def execBfx (d a b : Reg) (s : State) : Out := vector (bfxForm d a b) s

/-- Scalar twin: BFX (R339). -/
def execBfxS (d a b : Reg) (s : State) : Out := scalar (bfxForm d a b) s

/-- BFI (R339). -/
def execBfi (d a b : Reg) (s : State) : Out := vector (bfiForm d a b) s

/-- Scalar twin: BFI (R339). -/
def execBfiS (d a b : Reg) (s : State) : Out := scalar (bfiForm d a b) s

/-- MOV (R388). -/
def execMov (d a : Reg) (s : State) : Out := vector (movForm d a) s

/-- Scalar twin: MOV (R388). -/
def execMovS (d a : Reg) (s : State) : Out := scalar (movForm d a) s

/-- MOVP (R388). -/
def execMovp (d a : Reg) (s : State) : Out := vector (movpForm d a) s

/-- Scalar twin: MOVP (R388). -/
def execMovpS (d a : Reg) (s : State) : Out := scalar (movpForm d a) s

/-- MOVI (R389). -/
def execMovi (d : Reg) (imm : BitVec 16) (s : State) : Out := vector (moviForm d imm) s

/-- Scalar twin: MOVI (R389). -/
def execMoviS (d : Reg) (imm : BitVec 16) (s : State) : Out := scalar (moviForm d imm) s

/-- MOVHI (R389). -/
def execMovhi (d : Reg) (imm : BitVec 16) (s : State) : Out := vector (movhiForm d imm) s

/-- Scalar twin: MOVHI (R389). -/
def execMovhiS (d : Reg) (imm : BitVec 16) (s : State) : Out := scalar (movhiForm d imm) s

/-- ADDI (R329). -/
def execAddi (d : Reg) (imm : BitVec 16) (s : State) : Out := vector (addiForm d imm) s

/-- Scalar twin: ADDI (R329). -/
def execAddiS (d : Reg) (imm : BitVec 16) (s : State) : Out := scalar (addiForm d imm) s

/-- ABS (R327). -/
def execAbs (d a : Reg) (s : State) : Out := vector (intForm1 Elem.abs d a) s

/-- Scalar twin: ABS (R327). -/
def execAbsS (d a : Reg) (s : State) : Out := scalar (intForm1 Elem.abs d a) s

/-- NEG (R392). -/
def execNeg (d a : Reg) (s : State) : Out := vector (intForm1 Elem.neg d a) s

/-- Scalar twin: NEG (R392). -/
def execNegS (d a : Reg) (s : State) : Out := scalar (intForm1 Elem.neg d a) s

/-- NOT (R392). -/
def execNot (d a : Reg) (s : State) : Out := vector (notForm d a) s

/-- Scalar twin: NOT (R392). -/
def execNotS (d a : Reg) (s : State) : Out := scalar (notForm d a) s

/-- CLZ (R349). -/
def execClz (d a : Reg) (s : State) : Out := vector (intForm1 (fun t _ => Elem.clz t) d a) s

/-- Scalar twin: CLZ (R349). -/
def execClzS (d a : Reg) (s : State) : Out := scalar (intForm1 (fun t _ => Elem.clz t) d a) s

/-- POPC (R392). -/
def execPopc (d a : Reg) (s : State) : Out := vector (intForm1 (fun t _ => Elem.popc t) d a) s

/-- Scalar twin: POPC (R392). -/
def execPopcS (d a : Reg) (s : State) : Out := scalar (intForm1 (fun t _ => Elem.popc t) d a) s

/-- BREV (R341). -/
def execBrev (d a : Reg) (s : State) : Out := vector (intForm1 (fun t _ => Elem.brev t) d a) s

/-- Scalar twin: BREV (R341). -/
def execBrevS (d a : Reg) (s : State) : Out := scalar (intForm1 (fun t _ => Elem.brev t) d a) s

end Sys2Proof.Machine
end

