-- ==== Sys2Proof/Machine/FloatAlu.lean ====
section
/-!
DEFINITION. The floating instructions (R357 to R374), the special functions (R361), FCLASS (R359),
CVT (R352, R353), RNENC and RNDEC (R401).
-/
namespace Sys2Proof.Machine

open Sys2Proof

/-- The rounding mode in force; a reserved code never reaches a rounding (R64). -/
def fpCtx (gm : Word) : Fp.Ctx := { rm := (Gm.rm gm).getD .rne, ftz := Gm.ftz gm }

/-- Whether RM holds a mode, for an instruction that reads it (R64). -/
def rmOk (gm : Word) : Bool := (Gm.rm gm).isSome

/-- d ← f(a, b) on floating elements, rounded under RM (R357). -/
def fpForm2 (f : Fp.Ctx → FFmt → Nat → Nat → Nat × Flags) (d a b : Reg) (gm : Word) : Form :=
  etForm gm (fun t => t.isFloat && rmOk gm) (.byEt gm d) [.byEt gm a, .byEt gm b] fun t xs =>
    Fp.map2 t (f (fpCtx gm) t.ffmt) (arg xs 0) (arg xs 1)

/-- FMA: d is source and destination (R366). -/
def fmaForm (d a b : Reg) (gm : Word) : Form :=
  etForm gm (fun t => t.isFloat && rmOk gm) (.byEt gm d) [.byEt gm d, .byEt gm a, .byEt gm b]
    fun t xs => Fp.map3 t (Fp.fma (fpCtx gm) t.ffmt) (arg xs 0) (arg xs 1) (arg xs 2)

/-- FMIN and FMAX do not read RM (R357, R367). -/
def minmaxForm (isMax : Bool) (d a b : Reg) (gm : Word) : Form :=
  etForm gm ElemType.isFloat (.byEt gm d) [.byEt gm a, .byEt gm b] fun t xs =>
    Fp.map2 t (Fp.minmax isMax (fpCtx gm) t.ffmt) (arg xs 0) (arg xs 1)

/-- FCMP admits f32 and f64 and writes one register (R357, R360). -/
def fcmpForm (r : Fp.Rel) (d a b : Reg) (gm : Word) : Form :=
  etForm gm (fun t => t == .f32 || t == .f64) (.one d) [.byEt gm a, .byEt gm b] fun t xs =>
    let p := Fp.compare r (fpCtx gm) t.ffmt (Elem.raw t.bits 0 (arg xs 0)) (Elem.raw t.bits 0 (arg xs 1))
    (if p.1 then 1 else 0, p.2)

/-- The special functions: f32, bf16x2 and f16x2, and f64 for FRCP and FSQRT (R361). -/
def specialForm (fn : Special.Fn) (d a : Reg) (gm : Word) : Form :=
  etForm gm (fun t => t.isFloat && (t != .f64 || fn == .rcp || fn == .sqrt) && rmOk gm)
    (.byEt gm d) [.byEt gm a] fun t xs => Fp.map1 t (Special.eval fn (fpCtx gm) t.ffmt) (arg xs 0)

/-- FCLASS writes one register, reads neither RM nor FTZ and sets no flag (R359). -/
def fclassForm (d a : Reg) (gm : Word) : Form :=
  etForm gm ElemType.isFloat (.one d) [.byEt gm a] fun t xs =>
    (Elem.build t fun k => Fp.classMask t.ffmt (Elem.raw t.bits k (arg xs 0)), 0)

/-- CVT: a is a pair for a 64-bit source; RM is read when either side is floating (R352). -/
def cvtForm (d a : Reg) (src : ElemType) (gm : Word) : Form :=
  etForm gm (fun t => !(src.isFloat || t.isFloat) || rmOk gm) (.byEt gm d)
    [if src.wide then .two a else .one a] fun t xs =>
    Convert.cvt (fpCtx gm) (Gm.sat gm) src t (arg xs 0)

/-- RNENC (R401). -/
def rnencForm (d a : Reg) (gm : Word) : Form :=
  etForm gm ElemType.isResidue (.one d) [.one a] fun t xs => Residue.rnenc (Gm.sat gm) t (arg xs 0)

/-- RNDEC (R401). -/
def rndecForm (d a : Reg) (gm : Word) : Form :=
  etForm gm ElemType.isResidue (.one d) [.one a] fun t xs => Residue.rndec t (arg xs 0)

/-- FADD (R358). -/
def execFadd (d a b : Reg) (s : State) : Out := vector (fpForm2 Fp.add d a b) s

/-- Scalar twin: FADD (R358). -/
def execFaddS (d a b : Reg) (s : State) : Out := scalar (fpForm2 Fp.add d a b) s

/-- FSUB (R373). -/
def execFsub (d a b : Reg) (s : State) : Out := vector (fpForm2 Fp.sub d a b) s

/-- Scalar twin: FSUB (R373). -/
def execFsubS (d a b : Reg) (s : State) : Out := scalar (fpForm2 Fp.sub d a b) s

/-- FMUL (R368). -/
def execFmul (d a b : Reg) (s : State) : Out := vector (fpForm2 Fp.mul d a b) s

/-- Scalar twin: FMUL (R368). -/
def execFmulS (d a b : Reg) (s : State) : Out := scalar (fpForm2 Fp.mul d a b) s

/-- FMA (R366). -/
def execFma (d a b : Reg) (s : State) : Out := vector (fmaForm d a b) s

/-- Scalar twin: FMA (R366). -/
def execFmaS (d a b : Reg) (s : State) : Out := scalar (fmaForm d a b) s

/-- FMIN (R367). -/
def execFmin (d a b : Reg) (s : State) : Out := vector (minmaxForm false d a b) s

/-- FMAX (R367). -/
def execFmax (d a b : Reg) (s : State) : Out := vector (minmaxForm true d a b) s

/-- FCMP.eq (R360). -/
def execFcmpEq (d a b : Reg) (s : State) : Out := vector (fcmpForm .eq d a b) s

/-- FCMP.lt (R360). -/
def execFcmpLt (d a b : Reg) (s : State) : Out := vector (fcmpForm .lt d a b) s

/-- FCMP.le (R360). -/
def execFcmpLe (d a b : Reg) (s : State) : Out := vector (fcmpForm .le d a b) s

/-- FCMP.un (R360). -/
def execFcmpUn (d a b : Reg) (s : State) : Out := vector (fcmpForm .un d a b) s

/-- FRCP (R369). -/
def execFrcp (d a : Reg) (s : State) : Out := vector (specialForm .rcp d a) s

/-- FRSQ (R370). -/
def execFrsq (d a : Reg) (s : State) : Out := vector (specialForm .rsq d a) s

/-- FSQRT (R372). -/
def execFsqrt (d a : Reg) (s : State) : Out := vector (specialForm .sqrt d a) s

/-- FEX2 (R364). -/
def execFex2 (d a : Reg) (s : State) : Out := vector (specialForm .ex2 d a) s

/-- FLG2 (R365). -/
def execFlg2 (d a : Reg) (s : State) : Out := vector (specialForm .lg2 d a) s

/-- FSIN (R371). -/
def execFsin (d a : Reg) (s : State) : Out := vector (specialForm .sin d a) s

/-- FCOS (R362). -/
def execFcos (d a : Reg) (s : State) : Out := vector (specialForm .cos d a) s

/-- FTNH (R374). -/
def execFtnh (d a : Reg) (s : State) : Out := vector (specialForm .tnh d a) s

/-- FCLASS (R359). -/
def execFclass (d a : Reg) (s : State) : Out := vector (fclassForm d a) s

/-- CVT (R352). -/
def execCvt (d a : Reg) (src : ElemType) (s : State) : Out := vector (cvtForm d a src) s

/-- RNENC (R401). -/
def execRnenc (d a : Reg) (s : State) : Out := vector (rnencForm d a) s

/-- RNDEC (R401). -/
def execRndec (d a : Reg) (s : State) : Out := vector (rndecForm d a) s

end Sys2Proof.Machine
end

