-- ==== Sys2Proof/Machine/CrossLane.lean ====
section
/-!
DEFINITION. The cross-lane instructions: SHFL (R406), BCAST (R338), VOTE (R423), ELECT (R355),
GETX (R375), REDUCE and SCAN (R53, R398).
-/
namespace Sys2Proof.Machine

open Sys2Proof

/-- v[r][l] where the lane belongs to the issuing execution, else 0 (R44). -/
def laneValue (c : Ctx) (r l : Nat) : Word := if c.gang.contains (l / 4) then c.g.reg r l else 0

/-- SHFL by a function of the lane and the lane operand (R406). -/
def shuffle (src : Nat → Nat → Nat → Nat) (d a b : Reg) (s : State) : Out :=
  checked s (fun _ => Needs.regs [.one d, .one a, .one b]) fun c =>
    let outs := c.lanes.map fun l =>
      (l, (laneValue c a.toNat (src c.g.width l (c.g.reg b.toNat l).toNat)).setWidth 64)
    complete s c (writeResults c.g (.one d) outs)

/-- SHFL.idx (R406). -/
def execShflIdx (d a b : Reg) (s : State) : Out := shuffle (fun w _ t => t % w) d a b s

/-- SHFL.xor (R406). -/
def execShflXor (d a b : Reg) (s : State) : Out := shuffle (fun w l t => l ^^^ (t % w)) d a b s

/-- SHFL.up (R406). -/
def execShflUp (d a b : Reg) (s : State) : Out := shuffle (fun _ l t => if t ≤ l then l - t else l) d a b s

/-- SHFL.dn (R406). -/
def execShflDn (d a b : Reg) (s : State) : Out :=
  shuffle (fun w l t => if l + t < w then l + t else l) d a b s

/-- BCAST (R338). -/
def execBcast (d a b : Reg) (s : State) : Out :=
  checked s (fun _ => Needs.regs [.one d, .one a, .one b]) fun c =>
    onceActive s c fun _ =>
      uniform s c [.one b] fun s c xs =>
        let src := (arg xs 0).toNat
        if c.g.width ≤ src then trapLanes s c .illopnd c.lanes
        else
          let x := (laneValue c a.toNat src).setWidth 64
          complete s c (writeResults c.g (.one d) (c.lanes.map fun l => (l, x)))

/-- VOTE: the active lanes whose predicate is 1, written as a scalar twin writes (R423). -/
def execVote (d a : Reg) (s : State) : Out :=
  checked s (fun _ => Needs.regs [.two d, .one a]) fun c =>
    let m := laneMask (c.lanes.filter fun l => (c.g.reg a.toNat l).getLsbD 0)
    complete s c (c.g.writeLanes d.toNat 2 m (Group.gangLanes c.gang))

/-- ELECT: 1 in the lowest active lane, 0 in the others (R355). -/
def execElect (d : Reg) (s : State) : Out :=
  checked s (fun _ => Needs.regs [.one d]) fun c =>
    let first := c.lanes.headD 0
    complete s c (writeResults c.g (.one d) (c.lanes.map fun l => (l, if l = first then 1 else 0)))

/-- GETX: exec of the issuing execution as a lane mask, written as a scalar twin writes (R375). -/
def execGetx (d : Reg) (s : State) : Out :=
  checked s (fun _ => Needs.unguarded [.two d]) fun c =>
    complete s c (c.g.writeLanes d.toNat 2 (laneMask (c.g.execLanes c.gang)) (Group.gangLanes c.gang))

namespace RedOp

/-- Whether an operation is one of fadd, fmin and fmax. -/
def isFloat : RedOp → Bool
  | .fadd | .fmin | .fmax => true
  | _ => false

/-- The identity of an operation for one element (R53). -/
def identity (op : RedOp) (t : ElemType) : Nat :=
  match op with
  | .add | .or | .xor => 0
  | .min => Elem.wrap t.bits (Elem.highest t.signed t.bits)
  | .max => Elem.wrap t.bits (Elem.lowest t.signed t.bits)
  | .and => 2 ^ t.bits - 1
  | .fadd => t.ffmt.signBit true
  | .fmin => t.ffmt.infBits
  | .fmax => t.ffmt.signBit true + t.ffmt.infBits

/-- The identity in every element of an operand (R53). -/
def identityOpnd (op : RedOp) (t : ElemType) : Dword := Elem.build t fun _ => identity op t

/-- The step c ⊕ x (R398). -/
def combine (op : RedOp) (t : ElemType) (fc : Fp.Ctx) (x y : Dword) : Dword × Flags :=
  match op with
  | .add => (Elem.add t false x y, 0)
  | .min => (Elem.min t x y, 0)
  | .max => (Elem.max t x y, 0)
  | .and => (x &&& y, 0)
  | .or => (x ||| y, 0)
  | .xor => (x ^^^ y, 0)
  | .fadd => Fp.map2 t (Fp.add fc t.ffmt) x y
  | .fmin => Fp.map2 t (Fp.minmax false fc t.ffmt) x y
  | .fmax => Fp.map2 t (Fp.minmax true fc t.ffmt) x y

/-- x(l0) read as an input: flushed, and a NaN made canonical, by the floating operations (R398). -/
def start (op : RedOp) (t : ElemType) (fc : Fp.Ctx) (x : Dword) : Dword × Flags :=
  if isFloat op then
    Fp.map1 t (fun n =>
      let v := Fp.read fc t.ffmt n
      ((v.round t.ffmt .rne false).1, Flags.when v.isSignalling Flags.iv)) x
  else (x, 0)

/-- The prefixes P(l0), P(l1), … and the flags of every step (R398). -/
def prefixes (op : RedOp) (t : ElemType) (fc : Fp.Ctx) : List Dword → List Dword × Flags
  | [] => ([], 0)
  | x :: xs =>
    let p := start op t fc x
    let r := xs.foldl (fun (acc : List Dword × Dword × Flags) y =>
      let q := combine op t fc acc.2.1 y
      (acc.1 ++ [q.1], q.1, acc.2.2 ||| q.2)) ([p.1], p.1, p.2)
    (r.1, r.2.2)

end RedOp

/-- The element types an operation admits (R53). -/
def redAdmits (op : RedOp) (t : ElemType) : Bool := if RedOp.isFloat op then t.isFloat else t.isInt

/-- REDUCE and SCAN over the active lanes in ascending order (R398). With no active lane the
identity goes to every lane of the gang and EMP is set (R53). `keep` says how many values the
results need, `out` gives each active lane its result from the prefixes. -/
def reduction (op : RedOp) (keep : Nat → Nat) (out : ElemType → List Dword → Nat → Dword)
    (d a : Reg) (s : State) : Out :=
  checked s (fun gm =>
    { Needs.regs [.byEt gm d, .byEt gm a] with
      mode := match Gm.et gm with
        | some t => redAdmits op t && (op != .fadd || rmOk gm)
        | none => false }) fun c =>
    let t := (Gm.et c.g.modes.gm).getD .i32
    let o := Opnd.byEt c.g.modes.gm d
    let lanes := c.lanes
    if lanes.isEmpty then
      complete s c
        ((c.g.writeLanes o.reg o.count (RedOp.identityOpnd op t) (Group.gangLanes c.gang)).raiseFlags Flags.emp)
    else
      let xs := (lanes.take (keep lanes.length)).map fun l => c.g.read a.toNat o.count l
      let p := RedOp.prefixes op t (fpCtx c.g.modes.gm) xs
      withFlags s c (lanes.map fun l => (l, p.2)) fun s g =>
        complete s c (writeResults g o (lanes.mapIdx fun i l => (l, out t p.1 i)))

/-- REDUCE: every active lane receives the value over all of them (R398). -/
def execReduce (d a : Reg) (op : RedOp) (s : State) : Out :=
  reduction op id (fun _ ps _ => ps.getLastD 0) d a s

/-- SCAN, inclusive or exclusive; an exclusive scan needs no value past the last but one, but its
first value is always read (R398). -/
def execScan (d a : Reg) (excl : Bool) (op : RedOp) (s : State) : Out :=
  if excl then
    reduction op (fun n => Nat.max 1 (n - 1))
      (fun t ps i => if i = 0 then RedOp.identityOpnd op t else ps.getD (i - 1) 0) d a s
  else reduction op id (fun _ ps i => ps.getD i 0) d a s

end Sys2Proof.Machine
end

