-- ==== Sys2Proof/Config.lean ====
section
/-!
DEFINITION. What the spec leaves open: free values, none of which has a body. Each is applied to the
machine's `tick`, which every step advances, so that every use is a value of its own; no proof can
see what it is (notes/assumptions names the entry of each).
-/
namespace Sys2Proof.Config

/-- How many GTS ticks pass in one step of the model (log 2). -/
opaque gtsElapse : Nat → Nat

/-- A choice among candidates, by tick and by use within the step: which stale translation or which
member of an ill-formed contiguous block serves an access (R214, R215; log 7), whether a queued
write-back lands under DISCARD (R210; log 8), and whether a tinker performs a misaligned access (log 11). -/
opaque choice : Nat → Nat → Nat

/-- A byte of a channel area that a program has misused (R264; log 10), or of an image that no page gives (log 11). -/
opaque freeByte : Nat → Nat → BitVec 8

/-- Tinker registers at the start of a handler that the spec does not name (R270; log 11). -/
opaque tinkerReg : Nat → Nat → BitVec 32

/-- The private part of the device identity key, which fuses give (R320; log 12). -/
opaque deviceKey : Nat

/-- The public key by which the sexton verifies images: the coordinates of a point (R320; log 12). -/
opaque imageKey : Nat × Nat

/-- The numbers that an SM2 signature draws, by tick and try (R321; log 12). -/
opaque sm2Nonce : Nat → Nat → Nat

/-- The fuse identity of the device (R321; log 12). -/
opaque fuseId : Nat → BitVec 8

/-- The L1 victim and set of a fill into a full L1 (R251; log 9). -/
opaque victim : Nat → Nat → Nat

end Sys2Proof.Config
end

