-- ==== Sys2Proof/Machine/Memory.lean ====
section
/-!
DEFINITION. Main memory at the home slices: its regions (R26), bytes (R193, R194), poison (R324),
worlds (R318, R319), the page walk and its checks (R11, R211 to R216, R430).
-/
namespace Sys2Proof.Machine

open Sys2Proof

/-! ## Regions (R26, R27) -/

/-- The regions of the physical address space (R26). -/
inductive Region where
  | hbm | host | peer (device : Nat) (offset : Nat) | unassigned
  deriving DecidableEq, Repr

/-- The size of local HBM, 576 GiB (R26). -/
def hbmSize : Nat := 0x9000000000

def regionOf (pa : Nat) : Region :=
  if pa < hbmSize then .hbm
  else if 0x4000000000000 ≤ pa ∧ pa < 0x8000000000000 then .host
  else if 0x8000000000000 ≤ pa ∧ pa < 0x9000000000000 then
    let off := pa % 2 ^ 40
    if off < hbmSize then .peer (pa / 2 ^ 40 % 256) off else .unassigned
  else .unassigned

/-- The home slice of an address (R27). -/
def homeSlice (pa : Nat) : Nat := pa / 512 % 192

/-- The 32-byte sector that holds an address. -/
def sectorOf (pa : Nat) : Nat := pa / 32 * 32

/-- The 512-byte region that holds an address (R194). -/
def regionBase (pa : Nat) : Nat := pa / 512 * 512

/-! ## Bytes -/

namespace Mem

/-- The value of a byte that a queued write-back carries, the newest last. -/
def queued (m : Mem) (a : Nat) : Option Byte :=
  m.queue.foldl (fun acc w => match w.2.find? (fun p => p.1 == a) with
    | some p => some p.2
    | none => acc) none

/-- A byte as the home slice sees it: dirty in L2, on its way to HBM, or in HBM. An unlisted byte
reads as zero: HBM is zeroed at start-up (R322; log 5), host and peer memory by the model's choice. -/
def byte (m : Mem) (a : Nat) : Byte :=
  match m.dirty.find a with
  | some b => b
  | none =>
    match m.queued a with
    | some b => b
    | none => Sparse.get m.bytes a 0

/-- `n` bytes from an address. -/
def read (m : Mem) (a n : Nat) : List Byte := (List.range n).map fun i => m.byte (a + i)

/-- A write of one byte: dirty in L2 for local HBM, straight to host and peer memory (R194, R195). -/
def setByte (m : Mem) (a : Nat) (b : Byte) : Mem :=
  if a < hbmSize then { m with dirty := m.dirty.put a (some b) }
  else { m with bytes := Sparse.set m.bytes a 0 b }

/-- A write of consecutive bytes. -/
def write (m : Mem) (a : Nat) : List Byte → Mem
  | [] => m
  | b :: bs => (m.setByte a b).write (a + 1) bs

/-- Whether a sector of `[a, a + n)` is poisoned (R324). -/
def poisoned (m : Mem) (a n : Nat) : Bool :=
  m.poison.any fun p => decide (p < a + n ∧ a < p + 32)

/-- Poison after a write of `n` bytes at `a`: a sector written whole is clean (R324). -/
def clearPoison (m : Mem) (a n : Nat) : Mem :=
  { m with poison := m.poison.filter fun p => !decide (a ≤ p ∧ p + 32 ≤ a + n) }

def addPoison (m : Mem) (p : Nat) : Mem := { m with poison := addOnce m.poison p }

end Mem

/-- A little-endian number from bytes (R2). -/
def leNat : List Byte → Nat
  | [] => 0
  | b :: bs => b.toNat + 256 * leNat bs

/-- The `n` little-endian bytes of a number (R2). -/
def leBytes : Nat → Nat → List Byte
  | 0, _ => []
  | n + 1, x => BitVec.ofNat 8 x :: leBytes n (x / 256)

/-! ## Worlds (R318, R319) -/

/-- Whether a block is in the secure world; cores are blocks 0 to 383 (R318, R323; log 6). -/
def State.secureBlock (s : State) (b : Nat) : Bool := s.sys.worlds.contains b

/-- Whether a region entry covers an address (R318, R319). -/
def regionCovers (e : BitVec 128) (pa : Nat) : Bool :=
  let hi := (e.extractLsb' 32 20).toNat
  let base := hi * 2 ^ 16 + (e.extractLsb' 0 16).toNat
  let limit := hi * 2 ^ 16 + (e.extractLsb' 16 16).toNat
  e.getLsbD 64 && decide (base ≤ pa / 2 ^ 16 ∧ pa / 2 ^ 16 ≤ limit)

/-- Whether an address lies in a secure granule (R319). -/
def State.secureGranule (s : State) (pa : Nat) : Bool := s.sys.regions.any fun e => regionCovers e.2 pa

/-- Whether an agent of a block may reach an address at all (R319). -/
def State.reachable (s : State) (block pa : Nat) : Bool := s.secureBlock block || !s.secureGranule pa

/-- The same for `n` bytes from an address: every 64 KiB granule among them (R319). -/
def State.reaches (s : State) (block pa n : Nat) : Bool :=
  s.secureBlock block ||
  (List.range ((pa + n - 1) / 2 ^ 16 + 1 - pa / 2 ^ 16)).all fun i => !s.secureGranule ((pa / 2 ^ 16 + i) * 2 ^ 16)

/-! ## Peers (R195, R316, R317) -/

/-- The address at which an access is served and, where it came as a peer access that names this device,
the slice that passes it on (R195). -/
def State.served (s : State) (pa : Nat) : Nat × Option Nat :=
  match regionOf pa with
  | .peer d off => if d = s.sys.device.toNat then (off, some (homeSlice pa)) else (pa, none)
  | _ => (pa, none)

/-- Whether an access can be delivered (R316, R317): a peer access needs its device and its port. -/
def State.deliverable (s : State) (pa : Nat) : Bool :=
  match regionOf pa with
  | .peer d _ => s.sys.peers.contains d && !s.sys.portsDown.contains (homeSlice pa % 32)
  | _ => true

/-- Whether an access comes to nothing: its address is unassigned (R26), or it cannot be delivered (R317). -/
def State.lost (s : State) (pa : Nat) : Bool := regionOf pa == .unassigned || !s.deliverable pa

/-! ## Translation (R211 to R216) -/

/-- What an access needs of its page (R213). -/
inductive Access where
  | read | write | both | fetch
  deriving DecidableEq, Repr

namespace Leaf
def valid (e : Dword) : Bool := e.getLsbD 0
def isLeaf (e : Dword) : Bool := e.getLsbD 1
def rd (e : Dword) : Bool := e.getLsbD 2
def wr (e : Dword) : Bool := e.getLsbD 3
def x (e : Dword) : Bool := e.getLsbD 4
/-- WORLD: 1 is non-secure (R212). -/
def nonSecure (e : Dword) : Bool := e.getLsbD 5
def cg (e : Dword) : Nat := (e.extractLsb' 6 2).toNat
def efmt (e : Dword) : Nat := (e.extractLsb' 8 4).toNat
def geo (e : Dword) : Nat := (e.extractLsb' 12 2).toNat
def cont (e : Dword) : Bool := e.getLsbD 14
def pa (e : Dword) : Nat := (e.extractLsb' 16 36).toNat * 2 ^ 16
/-- A well-formed leaf of a level: zero bits zero, and a PA aligned to 64 MiB at level 2 (R213). -/
def ok (level : Nat) (e : Dword) : Bool :=
  valid e && isLeaf e && e.extractLsb' 52 12 == 0 && !e.getLsbD 15 &&
  (level == 3 || pa e % 2 ^ 26 == 0)
/-- The attributes that members of a block must share (R214). -/
def attrs (e : Dword) : Dword := e &&& 0xFFF000000000FFFF
end Leaf

/-- A table entry at levels 0 to 2 whose zero bits are zero (R211). -/
def tableOk (e : Dword) : Bool :=
  Leaf.valid e && !Leaf.isLeaf e && e.extractLsb' 52 12 == 0 && e.extractLsb' 2 11 == 0

/-- How a walk ends without a leaf. -/
inductive WalkFault where
  | page | poison | perm
  deriving DecidableEq, Repr

/-- The VA bits that index a level (R211). -/
def vaIndex (level va : Nat) : Nat :=
  match level with
  | 0 => va / 2 ^ 46 % 64
  | 1 => va / 2 ^ 36 % 1024
  | 2 => va / 2 ^ 26 % 1024
  | _ => va / 2 ^ 16 % 1024

/-- Read an 8-byte entry through L2 (R215); poison stops the walk (R430), as does an address that comes to
nothing (R26, R317). That a walk ends with PERM at an entry that lies at an unassigned address, as the access to
such an address does (R26), and with MEMERR at one on a peer that cannot be reached (R317), is the model's choice:
R211, R213 and R430 do not say (log 42). The read stands where `readTables` has placed it in the pending lists of its
words (R223, R226); that a walk made while a handler runs reads what stood before it is the model's choice (R270;
log 42). -/
def readEntry (s : State) (block table index : Nat) : Except WalkFault Dword :=
  let at' := table + 8 * index
  let a := (s.served at').1
  if !s.reachable block at' || !s.reachable block a || regionOf at' == .unassigned then .error .perm
  else if !s.deliverable a || s.mem.poisoned a 8 then .error .poison
  else .ok (BitVec.ofNat 64 (leNat (s.mem.read a 8)))

/-- The walk from a level down: the leaf, its level and the table that holds it (R211, R213). -/
def walkFrom (s : State) (block va : Nat) : Nat → Nat → Nat → Except WalkFault (Nat × Dword × Nat)
  | 0, _, _ => .error .page
  | fuel + 1, level, table =>
    match readEntry s block table (vaIndex level va) with
    | .error f => .error f
    | .ok e =>
      if Leaf.valid e && Leaf.isLeaf e then
        if 2 ≤ level && Leaf.ok level e then .ok (level, e, table) else .error .page
      else if level < 3 && tableOk e then
        walkFrom s block va fuel (level + 1) ((e.extractLsb' 13 39).toNat * 2 ^ 13)
      else .error .page

/-- The walk of a virtual address through a root table (R211). -/
def walk (s : State) (block root va : Nat) : Except WalkFault (Nat × Dword × Nat) :=
  walkFrom s block va 4 0 root

/-- The size of a leaf of a level (R211). -/
def leafSize (level : Nat) : Nat := if level = 2 then 2 ^ 26 else 2 ^ 16

/-- Entries of the block that holds a VA: 16 level-3 leaves or 8 level-2 leaves (R214). -/
def blockEntries (s : State) (block level table va : Nat) : List (Except WalkFault Dword) :=
  let n := if level = 2 then 8 else 16
  let first := vaIndex level va / n * n
  (List.range n).map fun i => readEntry s block table (first + i)

/-- Whether a block is well formed (R214). -/
def blockOk (level : Nat) (es : List (Except WalkFault Dword)) : Bool :=
  match es with
  | .ok e0 :: _ =>
    Leaf.pa e0 % (leafSize level * es.length) == 0 &&
    (es.mapIdx fun i r => match r with
      | .ok e => Leaf.ok level e && Leaf.cont e && Leaf.attrs e == Leaf.attrs e0 &&
          Leaf.pa e == Leaf.pa e0 + i * leafSize level
      | .error _ => false).all id
  | _ => false

/-- A way to translate: the leaf entry used, its level, and the address it gives. -/
structure Xlat where
  leaf  : Dword
  level : Nat
  pa    : Nat
  deriving DecidableEq, Repr

/-- How many leaves a block of a level has (R214). -/
def blockCount (level : Nat) : Nat := if level = 2 then 8 else 16

/-- An entry as an ordinary leaf of its own size (R214). -/
def Xlat.own (level : Nat) (e : Dword) (va : Nat) : Xlat :=
  { leaf := e, level := level, pa := Leaf.pa e + va % leafSize level }

/-- An entry as a member of its block: its address with the offset bits within the block replaced (R214). -/
def Xlat.member (level : Nat) (e : Dword) (va : Nat) : Xlat :=
  let span := leafSize level * blockCount level
  { leaf := e, level := level, pa := Leaf.pa e / span * span + va % span }

/-- The table that a walk reaches `n` levels further down, through table entries only (R211). -/
def tableFrom (s : State) (block va : Nat) : Nat → Nat → Nat → Option Nat
  | 0, _, table => some table
  | n + 1, level, table =>
    match readEntry s block table (vaIndex level va) with
    | .ok e => if tableOk e then tableFrom s block va n (level + 1) ((e.extractLsb' 13 39).toNat * 2 ^ 13) else none
    | .error _ => none

/-- The members with CONT of the block of a level that holds a VA, unless the block is well formed
(R214). -/
def contMembers (s : State) (block root level va : Nat) : List Xlat :=
  match tableFrom s block va level 0 root with
  | none => []
  | some table =>
    let es := blockEntries s block level table va
    if blockOk level es then []
    else es.filterMap fun r => match r with
      | .ok m => if Leaf.ok level m && Leaf.cont m then some (Xlat.member level m va) else none
      | .error _ => none

/-- Translations that a TLB still holds for a VA (R215): a leaf for its own page, and one with CONT for the
whole of its block as well (R214). -/
def cached (s : State) (block root va : Nat) : List Xlat :=
  s.mem.tlb.flatMap fun t =>
    if t.root = root ∧ t.secure = s.secureBlock block then
      (if va / leafSize t.level = t.page then [Xlat.own t.level t.leaf va] else []) ++
      (if Leaf.cont t.leaf ∧ va / leafSize t.level / blockCount t.level = t.page / blockCount t.level then
        [Xlat.member t.level t.leaf va] else [])
    else []

/-- Whether a block is a core that runs a deterministic launch (R250). -/
def State.detCore (s : State) (block : Nat) : Bool := s.slots.any fun p => slotCore p.1 == block && Gs.det p.2.modes.gs

/-- What the walk of an access gives through its own entry (R211, R213). -/
def ownXlat (s : State) (block root va : Nat) : Except WalkFault Xlat :=
  (walk s block root va).map fun r => Xlat.own r.1 r.2.1 va

/-- The other ways in which it may translate now: members of blocks that are not well formed (R214), and
what TLBs still hold (R215). -/
def otherXlats (s : State) (block root va : Nat) : List Xlat :=
  ((contMembers s block root 3 va ++ contMembers s block root 2 va ++ cached s block root va).eraseDups).filter
    fun x => some x != (ownXlat s block root va).toOption

/-- The translation an access uses: its own entry, or a free choice where there are other ways (R214,
R215). A core that runs a deterministic launch always takes its own entry, so that no free choice enters
its results (R13, R250; log 7). `use` numbers the access within the step. -/
def translateVa (s : State) (block root va use : Nat) : Except WalkFault Xlat :=
  match otherXlats s block root va with
  | [] => ownXlat s block root va
  | xs =>
    if s.detCore block then ownXlat s block root va
    else match (none :: xs.map some)[Config.choice s.time.tick use % (xs.length + 1)]? with
      | some (some x) => .ok x
      | _ => ownXlat s block root va

/-- The cause of a walk's fault (R213, R430). -/
def WalkFault.cause : WalkFault → Cause
  | .page => .page
  | .poison => .memerr
  | .perm => .perm

/-- A checked address: its physical address, grain, page format and page size (R11). `via` is the slice that
passes an address on that names this device as a peer: it is served at its local offset (R195). -/
structure Phys where
  pa    : Nat
  grain : Nat
  efmt  : Nat
  geo   : Nat
  page  : Nat
  via   : Option Nat
  deriving DecidableEq, Repr

/-- Log the accesses of a block that come to nothing (R26, R317). -/
def State.noteLost (s : State) (block : Nat) (pas : List Nat) : State :=
  (pas.filter s.lost).foldl (fun s pa => s.log block [16, pa]) s

/-- The table entry at which a walk comes to nothing: it lies at an unassigned address, or cannot be reached
(R26, R317). -/
def lostEntry (s : State) (block va : Nat) : Nat → Nat → Nat → Option Nat
  | 0, _, _ => none
  | fuel + 1, level, table =>
    let at' := (s.served (table + 8 * vaIndex level va)).1
    if s.lost at' then some at'
    else match readEntry s block table (vaIndex level va) with
      | .ok e => if tableOk e then lostEntry s block va fuel (level + 1) ((e.extractLsb' 13 39).toNat * 2 ^ 13) else none
      | .error _ => none

/-- The same for a virtual address that a fault names: of the access, or of its walk. -/
def State.noteLostAt (s : State) (block root va use : Nat) : State :=
  match translateVa s block root va use with
  | .ok x => s.noteLost block [(s.served x.pa).1]
  | .error _ => s.noteLost block (lostEntry s block va 4 0 root).toList

/-- An access turned away with a cause is logged where the cause says that it comes to nothing (R26, R317). -/
def State.noteFault (s : State) (block root va use : Nat) (cause : Cause) : State :=
  if cause = .perm ∨ cause = .memerr then s.noteLostAt block root va use else s

/-- Checks 2 to 4 of R11 for one access, which lies within a page. `deny` names physical addresses
that the instruction's own entry turns away with PERM. -/
def checkAccess (s : State) (block root va : Nat) (acc : Access) (deny : Nat → Bool) (use : Nat) :
    Except Cause Phys :=
  match translateVa s block root va use with
  | .error f => .error f.cause
  | .ok x =>
    let right := match acc with
      | .read => Leaf.rd x.leaf
      | .write => Leaf.wr x.leaf
      | .both => Leaf.rd x.leaf && Leaf.wr x.leaf
      | .fetch => Leaf.x x.leaf
    let at' := s.served x.pa
    if !right || (!Leaf.nonSecure x.leaf && !s.secureBlock block) || !s.reachable block x.pa ||
        !s.reachable block at'.1 || regionOf x.pa == .unassigned || deny x.pa then .error .perm
    else if 5 ≤ Leaf.efmt x.leaf || Leaf.geo x.leaf = 3 then .error .format
    else .ok { pa := at'.1, grain := if regionOf x.pa == .hbm then Leaf.cg x.leaf else 0,
               efmt := Leaf.efmt x.leaf, geo := Leaf.geo x.leaf, page := leafSize x.level, via := at'.2 }

/-- The root table of a group's launch (R211, R277). -/
def State.rootOf (s : State) (launch : Nat) : Nat := ((s.launch launch).map (·.desc.root)).getD 0

end Sys2Proof.Machine
end

