-- ==== Sys2Proof/Machine/Sync.lean ====
section
/-!
DEFINITION. Ordering and waiting: completion flags (R72 to R75), acquire and release as the
hardware meets them (R242 to R244), barriers (R300 to R302), the waits at REGANG (R41), a group's
exit (R42, R356), and the completion of operations.
-/
namespace Sys2Proof.Machine

open Sys2Proof

/-! ## Completion flags -/

namespace State

/-- Whether a flag is busy: an operation assigned to it has not completed (R74). -/
def flagBusy (s : State) (k : Nat) (f : Fin 12) : Bool := (s.opsOf k).any fun p => p.2.flag == some f

/-- The FLAGS register (R77). -/
def flagsWord (s : State) (k : Nat) : Word :=
  BitVec.ofNat 32 ((List.finRange 12).foldl (fun n f => if s.flagBusy k f then n ||| 2 ^ f.val else n) 0)

/-- Whether every flag of a wait mask is clear (R73, R76). -/
def flagsClear (s : State) (k : Nat) (m : BitVec 12) : Bool :=
  (List.finRange 12).all fun f => !(m.getLsbD f.val && s.flagBusy k f)

/-- Replace, or remove, an operation. -/
def putOp (s : State) (id : Nat) (o : Option Op) : State :=
  { s with mem := { s.mem with ops := s.mem.ops.put id o } }

def op (s : State) (id : Nat) : Option Op := s.mem.ops.find id

end State

/-- The reads under way of an engine command are given up, when it ends or starts again. -/
def State.dropReads (s : State) (id : Nat) : State :=
  { s with mem := { s.mem with ops := s.mem.ops.filter fun p => !(p.2.kind == .engineRead && p.2.aux == id) } }

/-- Flag A or flag B of the clause that the gang executes (R74). -/
def Ctx.flagA (c : Ctx) : FlagSel :=
  ((c.g.strand (c.gang.headD 0)).clause.map (·.flagA)).getD none
def Ctx.flagB (c : Ctx) : FlagSel :=
  ((c.g.strand (c.gang.headD 0)).clause.map (·.flagB)).getD none

/-! ## What a core holds of memory (R194, R198) -/

/-- LDB is marked in the operation; it neither reads nor fills L1. -/
def Op.bypass (o : Op) : Bool := o.aux == 1

/-- Lay bytes at an address over the bytes of a sector. -/
def overlay (base : Nat) (old : List Byte) (a : Nat) (new : List Byte) : List Byte :=
  old.mapIdx fun i b => if a ≤ base + i then new.getD (base + i - a) b else b

/-- Lay single bytes over the bytes of a sector. -/
def overlaySparse (base : Nat) (old : List Byte) (laid : Sparse Byte) : List Byte :=
  old.mapIdx fun i b => (laid.find (base + i)).getD b

/-- An L1 sector with some bytes of memory laid over it; one that is written whole loses its poison
(R324). -/
def L1Sector.lay (e : L1Sector) (a : Nat) (bytes : List Byte) : L1Sector :=
  { e with bytes := overlay e.addr e.bytes a bytes
           poison := e.poison && !decide (a ≤ e.addr ∧ e.addr + 32 ≤ a + bytes.length) }

/-- Change the L1 sectors of a core. -/
def State.mapL1 (s : State) (c : Nat) (f : L1Sector → L1Sector) : State :=
  s.setCore c { s.core c with l1 := (s.core c).l1.map f }

/-- Change the pieces of the loads through L1 that a core has in flight. -/
def State.mapFills (s : State) (c : Nat) (f : Piece → Piece) : State :=
  { s with mem := { s.mem with ops := s.mem.ops.map fun p =>
      if p.2.core == c && p.2.kind == .load && !p.2.bypass then (p.1, { p.2 with pieces := p.2.pieces.map f }) else p } }

/-- Fills of a core that have been read at the home slice in part come to L1 no more, where a test of the piece
says so. -/
def State.stopFills (s : State) (c : Nat) (p : Piece → Bool) : State :=
  s.mapFills c fun q => if p q && !q.parts.isEmpty then { q with fill := false } else q

/-! ## Acquire and release (R244) -/

/-- Two maps of times together: the later time of each key. -/
def mergeTimes (a b : Sparse Nat) : Sparse Nat := b.foldl (fun m p => m.put p.1 (some (Nat.max p.2 (m.get p.1 0)))) a

/-- A view after some bytes have been read at the home slice, or a write there been observed (R239). -/
def View.see (v : View) (a n time : Nat) : View :=
  { v with seen := mergeTimes v.seen ((List.range n).map fun i => (a + i, time)) }

/-- As of when a group sees a byte (R239). -/
def View.floor (v : View) (a : Nat) : Nat := Nat.max v.since (v.seen.get a 0)

/-- The view of a group that acquires: what its core hands on, and what it has read itself (R243). -/
def View.acquire (v : View) (shared : Sparse Nat) (now : Nat) : View :=
  let seen := mergeTimes v.seen shared
  { v with seen := seen, known := seen, acquired := now }

/-- Whether the reads of an operation have their values, those of an atomic among them (R242). -/
def Op.fixed (o : Op) : Bool :=
  match o.kind with
  | .load | .scratchLoad | .atomic | .mopr => o.pieces.all fun q => q.data.isSome || q.poison
  | _ => true

/-- Whether a scope is CLU or wider. -/
def wideScope : Scope → Bool
  | .grp | .team => false
  | _ => true

namespace State

/-- Drop the CG-0 sectors of a core's L1 (R244), and those that are coming as they stood earlier. -/
def dropUntracked (s : State) (core : Nat) : State :=
  let s := s.stopFills core fun q => q.grain == 0
  let x := s.core core
  s.setCore core { x with l1 := x.l1.filter fun e => e.grain != 0 }

/-- A group has seen some bytes as they stood at the home slice at a time (R239). -/
def seeBytes (s : State) (k a n time : Nat) : State :=
  s.modGroup k fun g => { g with view := g.view.see a n time }

/-- An acquire of a group: it sees from then on what the groups of its core have released (R243), stores
already buffered there no longer serve its loads, and at CLU or wider the core's CG-0 sectors are dropped
(R244). One at GRP orders nothing between groups. (log 18) -/
def acquire (s : State) (k : Nat) (sc : Scope) : State :=
  if sc = .grp then s
  else
    let s := s.modGroup k fun g => { g with view := g.view.acquire (s.core (slotCore k)).shared s.ids }
    if wideScope sc then s.dropUntracked (slotCore k) else s

/-- An acquire that is a fence as well: the group's later accesses wait for its earlier reads (R242,
R247; log 18). -/
def acquireFence (s : State) (k : Nat) (sc : Scope) : State :=
  (s.acquire k sc).modGroup k fun g => { g with view := { g.view with fenced := s.ids } }

/-- Whether every earlier load of the group has its value (R244). -/
def loadsFixed (s : State) (k : Nat) : Bool :=
  (s.opsOf k).all fun p =>
    match p.2.kind with
    | .load | .scratchLoad => p.2.fixed
    | _ => true

/-- Whether every earlier read of the group has its value (R242). -/
def readsFixed (s : State) (k : Nat) : Bool := (s.opsOf k).all fun p => p.2.fixed

/-- Whether an operation counts as an unacknowledged write of its group (R225, R244). -/
def countsWrite (o : Op) : Bool :=
  match o.kind with
  | .store | .atomicNoReturn | .mop => true
  | _ => false

/-- Whether an operation is an atomic with return, CAS or MOPR (R244). -/
def returnsOld (o : Op) : Bool :=
  match o.kind with
  | .atomic | .mopr => true
  | _ => false

/-- Whether a group is one of a deterministic launch (R292). -/
def isDet (s : State) (k : Nat) : Bool :=
  match s.group k with
  | some g => Gs.det g.modes.gs
  | none => false

/-- Whether a write of another group of the core happens before what the group does now: it was issued
before that group's last release, and that before the group's last acquire (R243). -/
def handedOn (s : State) (g : Group) (slot op : Nat) : Bool :=
  match s.group slot with
  | some h => decide (op < g.view.acquired ∧ op < h.view.released)
  | none => false

/-- Whether what the group has learnt from others is performed everywhere: no update is on its way for
bytes that it knows of, and no write of its core that happens before is unacknowledged (R243; log 18). -/
def learntPerformed (s : State) (k : Nat) (g : Group) : Bool :=
  (s.mem.updates.all fun u => (List.range u.2.bytes.length).all fun i =>
    decide (g.view.known.get (u.2.addr + i) 0 < u.1)) &&
  s.mem.ops.all fun p => p.2.slot == k || slotCore k != p.2.core ||
    !((countsWrite p.2 || returnsOld p.2) && s.handedOn g p.2.slot p.1)

/-- Whether a release of the group at a scope has nothing left to wait for (R244): at CLU or wider what
other groups have released to it is performed as well, since happens-before is transitive (R243; log 18).
In deterministic operation order and scope impose nothing (R250). -/
def releaseReady (s : State) (k : Nat) (sc : Scope) : Bool :=
  s.isDet k || match sc with
  | .grp => true
  | .team => s.loadsFixed k
  | _ => s.loadsFixed k && ((s.opsOf k).all fun p => !(countsWrite p.2 || returnsOld p.2)) &&
    (match s.group k with
     | some g => s.learntPerformed k g
     | none => true)

/-- A release of the group at TEAM or wider has been made: its core hands on what it knows (R243; log 18). -/
def markRelease (s : State) (k : Nat) (sc : Scope) : State :=
  match s.group k with
  | none => s
  | some g =>
    if sc = .grp || Gs.det g.modes.gs then s
    else
      let x := s.core (slotCore k)
      (s.setGroup k { g with view := { g.view with released := s.ids } }).setCore (slotCore k)
        { x with shared := mergeTimes x.shared g.view.known }

/-! ### Observing engine commands (R246) -/

/-- Whether a store of a core is on its way to a byte: a request, or an ST that rests in a pending list (R226). -/
def ownStore (s : State) (core a : Nat) : Bool :=
  (s.mem.reqs.any fun r => r.2.src == .core core && (match r.2.kind with
    | .write _ => true
    | _ => false) && decide (r.2.addr ≤ a ∧ a < r.2.addr + r.2.size)) ||
  s.mem.pending.any fun p => match p with
    | .st b bytes _ cores _ => cores.contains core && decide (b ≤ a ∧ a < b + bytes.length)
    | _ => false

/-- A core's copies of CG-0 sectors that an observed write of `n` bytes has made old take the bytes as they stand
at the home slice, but for those that the core's own stores will write; so do fills that have been read before.
The group's later loads then return the write (R206, R246). No rule says how: that the copies stay valid and are
written in place is the model's choice (R251; log 18). -/
def refresh (s : State) (core a n time : Nat) : State :=
  let bytes := ((List.range n).map (a + ·)).filter fun b => !s.ownStore core b
  let lay (e : L1Sector) : L1Sector :=
    let mine := bytes.filter fun b => sectorOf b == e.addr
    if e.grain == 0 && decide (e.since < time) && !mine.isEmpty then
      { e with bytes := overlaySparse e.addr e.bytes (mine.foldl (fun m b => m.put b (some (s.mem.byte b))) [])
               poison := (e.poison && decide (mine.length < 32)) || s.mem.poisoned e.addr 32 }
    else e
  let late (q : Piece) : Piece :=
    if q.grain == 0 && q.fill then
      bytes.foldl (fun q b => if (q.parts.find b).isSome then { q with laid := q.laid.put b (some (s.mem.byte b)) } else q) q
    else q
  (s.mapL1 core lay).mapFills core late

/-- A group observes a completed engine command: it has seen the command's writes, which are in its program
order now, and with REL has released them (R239, R246). -/
def observeOne (s : State) (k : Nat) (d : Done) : State :=
  let s := d.writes.foldl (fun s w => (s.seeBytes k w.1 w.2.1 w.2.2).refresh (slotCore k) w.1 w.2.1 w.2.2) s
  match d.rel with
  | some sc => s.markRelease k sc
  | none => s

/-- A group observes those completed engine commands that satisfy a test (R246). -/
def observe (s : State) (k : Nat) (p : Done → Bool) : State :=
  match s.group k with
  | some g =>
    match g.done.filter p with
    | [] => s
    | now => now.foldl (fun s d => s.observeOne k d) (s.modGroup k fun g => { g with done := g.done.filter fun d => !p d })
  | none => s

end State

/-- A wait on some flags observes the engine commands assigned to them (R246). -/
def Done.onFlags (m : BitVec 12) (d : Done) : Bool := match d.flag with
  | some f => m.getLsbD f.val
  | none => false

/-- A channel that holds of its full slots only those that have been claimed (R266, R267). -/
def Channel.onlyClaimed (x : Channel) : Channel :=
  let kept := x.written.filter fun p => decide (p.1 < x.nextRecv)
  { x with full := kept.length, written := kept }

/-! ## Barriers (R300 to R302) -/

/-- A barrier that nothing has opened. -/
def Barrier.closed : Barrier := { phase := 0, arr := 0, isOpen := false, mask := 0, low := 0, arrived := [] }

/-- The waiting strands of a group leave a wait, also in its resume records (R301). -/
def Group.unblock (g : Group) (b : Block) : Group :=
  { g with strands := g.strands.map fun t =>
      { t with block := if t.block = some b then none else t.block
               record := t.record.map fun r => { r with block := if r.block = some b then none else r.block } } }

/-- Whether some strand of the group waits so, also in its resume records. -/
def Group.waits (g : Group) (b : Block) : Bool :=
  g.strands.any fun t => t.block == some b || (match t.record with
    | some r => r.block == some b
    | none => false)

/-- Whether a strand of the group waits at a barrier, also in its resume records. -/
def Group.atBarrier (g : Group) : Bool :=
  let bar : Option Block → Bool := fun b => match b with
    | some (.bar _) | some (.barc _) => true
    | _ => false
  g.strands.any fun t => bar t.block || (match t.record with
    | some r => bar r.block
    | none => false)

/-- The group has arrived as a whole: a strand waits at the barrier, and every strand that is not
EXITED waits there or at a REGANG (R301). -/
def Group.allWait (g : Group) (b : Block) : Bool :=
  (g.strands.any fun t => !t.exited && t.block == some b) &&
  g.strands.all fun t => t.exited || t.block == some b || (match t.run with
    | .wait _ => true
    | _ => false)

namespace State

/-- Let the groups of some teams that wait at a barrier leave with an acquire (R301). -/
def leaveBarrier (s : State) (b : Block) (sc : Scope) (slots : List Nat) (acq : Bool) : State :=
  slots.foldl (fun s k => match s.group k with
    | none => s
    | some g =>
      if g.waits b then
        let s := s.setGroup k (g.unblock b)
        if acq then s.acquireFence k sc else s
      else s) s

/-- Members of a team barrier that have exited without arriving (R301). -/
def exitedTeam (t : Team) (b : Barrier) : Nat :=
  (t.exited.filter fun g => b.mask.getLsbD g && !b.arrived.contains g).length

/-- The completion test of a team barrier (R301). -/
def testBar (s : State) (tk : Nat) (i : BitVec 4) : State :=
  match s.team tk with
  | none => s
  | some t =>
    let b := t.bars.get i.toNat Barrier.closed
    if b.isOpen && decide (Elem.popCount 64 b.mask.toNat ≤ b.arr + exitedTeam t b) then
      let b' := { b with phase := b.phase + 1, isOpen := false, arr := 0, arrived := [] }
      let s := { s with teams := s.teams.put tk (some { t with bars := t.bars.put i.toNat (some b') }) }
      s.leaveBarrier (.bar i) .team t.slots true
    else s

/-- The number that names group `g` of the team of rank `r` in a cluster barrier. -/
def memberNo (rank grpid : Nat) : Nat := 64 * rank + grpid

/-- The teams of a cluster. -/
def teamsOf (s : State) (c : Cluster) : List Team := c.teams.filterMap s.team

/-- Members of a cluster barrier that have exited without arriving (R301). -/
def exitedCluster (s : State) (c : Cluster) (b : Barrier) : Nat :=
  ((s.teamsOf c).map fun t =>
    if b.mask.getLsbD t.rank then
      (t.exited.filter fun g => !b.arrived.contains (memberNo t.rank g)).length else 0).sum

/-- The completion test of a cluster barrier (R301). -/
def testBarc (s : State) (ck : Nat) (i : BitVec 4) : State :=
  match s.cluster ck with
  | none => s
  | some c =>
    let b := c.bars.get i.toNat Barrier.closed
    let groups := ((s.launch c.launch).map (·.desc.groups)).getD 1
    if b.isOpen && decide (Elem.popCount 64 b.mask.toNat * groups ≤ b.arr + s.exitedCluster c b) then
      let b' := { b with phase := b.phase + 1, isOpen := false, arr := 0, arrived := [] }
      let s := { s with clusters := s.clusters.put ck (some { c with bars := c.bars.put i.toNat (some b') }) }
      s.leaveBarrier (.barc i) .clu ((s.teamsOf c).flatMap (·.slots)) true
    else s

/-- A group arrives at a team barrier (R301). -/
def arriveBar (s : State) (k : Nat) (g : Group) (i : BitVec 4) : State :=
  match s.team g.teamKey with
  | none => s
  | some t =>
    let b := t.bars.get i.toNat Barrier.closed
    if b.isOpen && !b.arrived.contains g.ident.grpid && g.allWait (.bar i) && s.releaseReady k .team then
      let b' := { b with arr := b.arr + 1, arrived := b.arrived ++ [g.ident.grpid] }
      ({ s with teams := s.teams.put g.teamKey (some { t with bars := t.bars.put i.toNat (some b') }) }.markRelease
        k .team).testBar g.teamKey i
    else s

/-- A group arrives at a cluster barrier (R301). -/
def arriveBarc (s : State) (k : Nat) (g : Group) (i : BitVec 4) : State :=
  match (s.team g.teamKey).bind fun t => (s.cluster t.cluster).map fun c => (t.cluster, c) with
  | none => s
  | some (ck, c) =>
    let b := c.bars.get i.toNat Barrier.closed
    let me := memberNo g.ident.rank g.ident.grpid
    if b.isOpen && !b.arrived.contains me && g.allWait (.barc i) && s.releaseReady k .clu then
      let b' := { b with arr := b.arr + 1, arrived := b.arrived ++ [me] }
      ({ s with clusters := s.clusters.put ck (some { c with bars := c.bars.put i.toNat (some b') }) }.markRelease
        k .clu).testBarc ck i
    else s

/-- All barrier numbers (R300). -/
def barrierIds : List (BitVec 4) := (List.range 16).map (BitVec.ofNat 4)

/-- Arrivals that a group can now make, whatever barrier its strands wait at. -/
def arrivals (s : State) (k : Nat) : State :=
  barrierIds.foldl (fun s i =>
    let s := match s.group k with
      | some g => if g.waits (.bar i) then s.arriveBar k g i else s
      | none => s
    match s.group k with
    | some g => if g.waits (.barc i) then s.arriveBarc k g i else s
    | none => s) s

/-! ## Waits at a REGANG and exits -/

end State

/-- The address at which a strand waits (R35). -/
def Strand.waitsAt (t : Strand) : Option VAddr :=
  match t.run with
  | .wait p => some p
  | _ => none

/-- R41: when every strand that is not EXITED waits at a REGANG, the waits end: together where all
wait at one address, and each at its own next word otherwise. Either way the next word is the one
after the strand's own REGANG. -/
def Group.regangRelease (g : Group) : Group :=
  if !g.liveStrands.isEmpty && g.strands.all (fun t => t.exited || t.waitsAt.isSome) then
    { g with strands := g.strands.map fun t => match t.run with
      | .wait p => { t with run := .run, pc := p + 4, stalled := none, aliasing := none }
      | _ => t }
  else g

/-- Whether every strand has exited (R42). -/
def Group.allExited (g : Group) : Bool := g.strands.all Strand.exited

namespace State

/-- Whether every group of the team of a rank has exited (R267). -/
def rankExited (s : State) (cluster rank : Nat) : Bool :=
  match s.cluster cluster with
  | none => true
  | some c =>
    let groups := ((s.launch c.launch).map (·.desc.groups)).getD 1
    (s.teamsOf c).all fun t => t.rank != rank || decide (groups ≤ t.exited.length)

/-- The full slots of a cluster's channels whose destination team has exited are discarded, but for those that a
CHRECV of the team had claimed, which it still receives (R266, R267, R356). That a discarded slot gives its
source no credit back is the model's choice (log 27). -/
def discardSlots (s : State) (ck : Nat) : State :=
  match (s.cluster ck).bind fun c => s.launch c.launch with
  | none => s
  | some l =>
    let emptied (p : Nat × Channel) : Nat × Channel := match l.desc.chans.find p.1 with
      | some d => if s.rankExited ck d.dest then (p.1, p.2.onlyClaimed) else p
      | none => p
    { s with clusters := s.clusters.update ck fun c => { c with channels := c.channels.map emptied } }

/-- What the exit of a group changes for others (R267, R301): full slots that only its team would have
received go, and the barriers that it belongs to are tested. -/
def afterExit (s : State) (tk ck : Nat) : State :=
  barrierIds.foldl (fun s i => (s.testBar tk i).testBarc ck i) (s.discardSlots ck)

/-- A suspended operation of a group that has exited: its late fault is no longer the group's to handle, so
that LATE_FAULT ends it and logs it (R172). That one which was raised or held while strands lived ends so
too is the model's choice (log 40). -/
def unhandled (s : State) (k : Nat) : State :=
  { s with mem := { s.mem with ops := s.mem.ops.map fun p =>
      if p.2.slot == k && p.2.suspended.isSome then (p.1, { p.2 with aux := 0 }) else p } }

/-- The exit of a group is entered in its team, and what follows for others (R267, R301). -/
def noteExit (s : State) (g : Group) : State :=
  let s := { s with teams := s.teams.update g.teamKey fun t => { t with exited := addOnce t.exited g.ident.grpid } }
  s.afterExit g.teamKey (((s.team g.teamKey).map (·.cluster)).getD 0)

/-- A group that has just exited: records and held causes are discarded, its quantum ends (R356), reads of
instructions that no longer issue are given up, and what follows for others, in deterministic operation at the
commit (R292). -/
def groupExited (s : State) (k : Nat) (g : Group) : State :=
  let ops : Sparse Op := s.mem.ops.filter fun p =>
    !(p.2.kind == .engineRead && p.2.slot == k && decide (2 ^ 30 ≤ p.2.count))
  let s : State := { s with mem := { s.mem with ops := ops } }
  let s := s.setGroup k { g with
    held := []
    strands := g.strands.map fun t => { t with record := none, block := none }
    det := { g.det with ended := true } }
  let s := s.unhandled k
  if Gs.det g.modes.gs then s else s.noteExit g

/-- What follows when a strand of a group has entered WAIT, a barrier or EXITED, or one of its
operations has completed (R41, R42, R301). In deterministic operation arrivals are made at the
commit (R292). -/
def settle (s : State) (k : Nat) : State :=
  match s.group k with
  | none => s
  | some g =>
    if g.allExited then
      (match s.team g.teamKey with
       | some t => if t.exited.contains g.ident.grpid then s else s.groupExited k g
       | none => s)
    else
      let s := s.setGroup k g.regangRelease
      if Gs.det g.modes.gs then s else s.arrivals k

/-- Arrivals that groups of a core, or of any, can now make at barriers, since what they have learnt may have been
performed (R243, R301). In deterministic operation arrivals are made at the commit (R292). -/
def recheck (s : State) (cores : Nat → Bool) : State :=
  s.slots.foldl (fun s p =>
    if cores (slotCore p.1) && !Gs.det p.2.modes.gs && p.2.atBarrier then s.arrivals p.1 else s) s

/-- An operation has completed: it leaves, the strands that waited for it go on, and the group's waits are looked
at again; so are those of the other groups of its core where it was a write that they may have waited for. -/
def finishOp (s : State) (id : Nat) : State :=
  match s.op id with
  | none => s
  | some o =>
    let s := s.putOp id none
    let s := (s.modGroup o.slot fun g => g.unblock (.op id)).settle o.slot
    if countsWrite o || returnsOld o then s.recheck (· == o.core) else s

end State

/-- End some lanes of a strand (R42): `gone` are the lanes that end. In a handler the strand's
resume record and the entries of its stack lose them as well (R36). -/
def Strand.endLanes (t : Strand) (gone : BitVec 4) : Strand :=
  { t with
    exec := t.exec &&& ~~~gone
    stack := if t.record.isSome then
        (t.stack.map (StackEntry.without gone)).filter fun e => e.mask != 0
      else t.stack
    record := t.record.map fun r =>
      let lost := (t.stack.take r.depth).filter fun e =>
        (StackEntry.without gone e).mask == 0
      { r with exec := r.exec &&& ~~~gone, kept := r.kept &&& ~~~gone, depth := r.depth - lost.length } }

/-- A strand whose exec may have become empty takes its next work from its stack (R42). The last
entry of the list is the top. A PARK entry resumes at its REGANG, which ends its clause. R42 gives that strand's
PC only; that it stands at the last word of a clause of one word is the model's choice (log 43). -/
def Strand.nextWork (t : Strand) : Strand :=
  if t.exec != 0 then t
  else
    match t.stack.getLast? with
    | none => { t with run := .exited, block := none, record := none }
    | some (.path a m) => { t.jump a with exec := m, stack := t.stack.dropLast, run := .run, block := none }
    | some (.park p m) =>
      { t with exec := m, stack := t.stack.dropLast, pc := p, stalled := none, aliasing := none, run := .run,
               block := none, clause := some { hdr := p - 4, len := 1, flagA := none, flagB := none } }

end Sys2Proof.Machine
end

