-- ==== Sys2Proof/Machine/Control.lean ====
section
/-!
DEFINITION. Control: branches (R38, R39, R119, R120, R340, R342, R378), REGANG (R40), EXIT (R42),
SETX (R405), modes (R63, R65), clause headers and WAITF (R72 to R76), TRAP and BRK (R298), RTT
(R297) and YIELD (R429).
-/
namespace Sys2Proof.Machine

open Sys2Proof

/-- The target of a B-format branch (R119). -/
def branchTarget (p : VAddr) (off : BitVec 16) : VAddr := p + 4 * off.signExtend 52

/-- The whole gang goes to a target (R120). -/
def jumpGang (s : State) (c : Ctx) (g : Group) (target : VAddr) : Out :=
  retire (s.setGroup c.slot (g.modStrands c.gang fun _ t => t.jump target)) c

/-- BRA (R340). -/
def execBra (off : BitVec 16) (s : State) : Out :=
  checked s (fun _ => Needs.ending []) fun c => jumpGang s c c.g (branchTarget c.pc off)

/-- BRC: one uniform predicate for the gang (R340). -/
def execBrc (p : Reg) (off : BitVec 16) (s : State) : Out :=
  checked s (fun _ => Needs.ending [.one p]) fun c =>
    uniform s c [.one p] fun s c xs =>
      jumpGang s c c.g (if (arg xs 0).getLsbD 0 then branchTarget c.pc off else c.pc + 4)

/-- The lanes of strand `i` that some lanes of the group name. -/
def strandMask (i : Nat) (ls : List Nat) : BitVec 4 :=
  (List.range 4).foldl (fun m j => if ls.contains (4 * i + j) then m ||| (1#4 <<< j) else m) 0

/-- One strand at a BRV: `act` are its active lanes and `tk` those whose predicate is 1 (R39). -/
def brvStrand (p target : VAddr) (act tk : BitVec 4) (t : Strand) : Strand :=
  if act != 0 && tk == act then t.jump target
  else if tk == 0 then t.jump (p + 4)
  else { t.jump (p + 4) with exec := t.exec &&& ~~~tk, stack := t.stack ++ [.path target tk] }

/-- BRV (R39). That it makes the guard-register check of R118 (R62), as it evaluates the guard, though step 5 names
the branches among those that never make it, is the model's choice (log 43). -/
def execBrv (p : Reg) (off : BitVec 16) (s : State) : Out :=
  checked s (fun _ => { Needs.ending [.one p] with guard := true }) fun c =>
    let act := c.lanes
    let tk := act.filter fun l => (c.g.reg p.toNat l).getLsbD 0
    let parts (i : Nat) : Bool := strandMask i tk != 0 && strandMask i tk != strandMask i act
    let laid := c.gang.filter fun i => parts i && decide (16 ≤ (c.g.strand i).stack.length)
    if laid.isEmpty then
      retire (s.setGroup c.slot (c.g.modStrands c.gang fun i t =>
        brvStrand c.pc (branchTarget c.pc off) (strandMask i act) (strandMask i tk) t)) c
    else trapLanes s c .divstk (tk.filter fun l => laid.contains (l / 4))

/-- CALL: the link pair of every lane of the gang, then the whole gang moves (R342). -/
def execCall (p : Reg) (off : BitVec 16) (s : State) : Out :=
  checked s (fun _ => Needs.ending [.two p]) fun c =>
    jumpGang s c (c.g.writeLanes p.toNat 2 ((c.pc + 4).setWidth 64) (Group.gangLanes c.gang))
      (branchTarget c.pc off)

/-- The jump through a uniform pair that JMPR and RET share (R378, R400). -/
def jumpPair (a : Reg) (s : State) : Out :=
  checked s (fun _ => Needs.ending [.two a]) fun c =>
    uniform s c [.two a] fun s c xs =>
      let t : VAddr := (arg xs 0).setWidth 52
      if t.toNat % 4 ≠ 0 then trapAddr s c .align (c.g.execLanes c.gang) t.toNat
      else jumpGang s c c.g t

/-- JMPR (R378). -/
def execJmpr (a : Reg) (s : State) : Out := jumpPair a s

/-- RET (R400). -/
def execRet (a : Reg) (s : State) : Out := jumpPair a s

/-- How many entries of a strand's stack a REGANG does not see: those that its resume record keeps
(R399; log 36). -/
def Strand.keptDepth (t : Strand) : Nat := (t.record.map (·.depth)).getD 0

/-- One strand at a REGANG at `p`: the lanes `e` look for work on the entries above the `kept` ones,
of which the list gives the top first. None is ILLCONV with the lanes gathered so far (R40, R399). -/
def regangStrand (p : VAddr) (t : Strand) (kept : List StackEntry) : List StackEntry → BitVec 4 → Strand ⊕ BitVec 4
  | [], e => .inl { t with exec := e, stack := kept, run := .wait p, stalled := none }
  | .path a m :: r, e =>
    match r with
    | .park p' m2 :: r' =>
      if p' = p then .inl { t.jump a with exec := m, stack := kept ++ (.park p (m2 ||| e) :: r').reverse }
      else .inl { t.jump a with exec := m, stack := kept ++ (.park p e :: r).reverse }
    | _ => .inl { t.jump a with exec := m, stack := kept ++ (.park p e :: r).reverse }
  | .park p' m :: r, e => if p' = p then regangStrand p t kept r (e ||| m) else .inr e

/-- REGANG of strand `t` at `p`. -/
def Strand.regang (p : VAddr) (t : Strand) : Strand ⊕ BitVec 4 :=
  regangStrand p t (t.stack.take t.keptDepth) (t.stack.drop t.keptDepth).reverse t.exec

/-- REGANG (R40), then R41. -/
def execRegang (s : State) : Out :=
  checked s (fun _ => Needs.ending []) fun c =>
    let res := c.gang.map fun i => (i, (c.g.strand i).regang c.pc)
    let bad := res.flatMap fun r => match r.2 with
      | .inl _ => []
      | .inr e => maskLanes r.1 e
    if bad.isEmpty then
      let g := res.foldl (fun g r => match r.2 with
        | .inl t => g.setStrand r.1 t
        | .inr _ => g) c.g
      retire ((s.setGroup c.slot g).settle c.slot) c
    else trapLanes s c .illconv bad

/-- EXIT: the active lanes end; what is left of each strand goes on (R42). -/
def execExit (s : State) : Out :=
  checked s (fun _ => Needs.regs []) fun c =>
    let act := c.lanes
    let g := c.g.modStrands c.gang fun i t =>
      let t := t.advance.endLanes (strandMask i act)
      t.nextWork
    retire ((s.setGroup c.slot g).settle c.slot) c

/-- NOP (R393). -/
def execNop (s : State) : Out := checked s (fun _ => Needs.unguarded []) fun c => completeOnly s c

/-- MODE.T writes GM[8:0] (R63). -/
def execModeT (imm : BitVec 9) (s : State) : Out :=
  checked s (fun _ => Needs.unguarded []) fun c =>
    let gm := (c.g.modes.gm &&& 0x7FE00) ||| imm.setWidth 32
    complete s c { c.g with modes := { c.g.modes with gm := gm } }

/-- MODE.G writes GREG, GEN and GNEG, bits 16:9, 17 and 18 of GM (R63). -/
def execModeG (imm : BitVec 10) (s : State) : Out :=
  checked s (fun _ => Needs.unguarded []) fun c =>
    let gm := (c.g.modes.gm &&& 0x1FF) ||| (imm.setWidth 32 <<< 9)
    complete s c { c.g with modes := { c.g.modes with gm := gm } }

/-- A word with its low or its high half replaced. -/
def setLow (w : Word) (x : BitVec 16) : Word := w.extractLsb' 16 16 ++ x
def setHigh (w : Word) (x : BitVec 16) : Word := x ++ w.extractLsb' 0 16

/-- The bits of MM0 that are not reserved (R65). -/
def mm0Mask : Word := 0xFFFF7FFF

/-- MXMODE (R65, R391). -/
def execMxmode (half : MxHalf) (imm : BitVec 16) (s : State) : Out :=
  checked s (fun _ => Needs.unguarded []) fun c =>
    let m := c.g.modes
    let m' := match half with
      | .mm0Low => { m with mm0 := setLow m.mm0 imm &&& mm0Mask }
      | .mm0High => { m with mm0 := setHigh m.mm0 imm }
      | .mm1Low => { m with mm1 := setLow m.mm1 imm }
      | .mm1High => { m with mm1 := setHigh m.mm1 imm }
      | .mm2Low => { m with mm2 := setLow m.mm2 imm }
      | .mm2High => { m with mm2 := setHigh m.mm2 imm }
    complete s c { c.g with modes := m' }

/-- Whether an operation holds one of the flags of a mask (R75). -/
def holdsFlag (m : BitVec 12) (o : Op) : Bool :=
  match o.flag with
  | some f => m.getLsbD f.val
  | none => false

/-- WAITF (R425). -/
def execWaitf (mask : BitVec 12) (s : State) : Out :=
  checked s (fun _ => Needs.unguarded []) fun c =>
    if s.flagsClear c.slot mask then completeOnly (s.observe c.slot (Done.onFlags mask)) c
    else stallOn s c (holdsFlag mask)

/-- The bookkeeping of a header: it is not counted and not followed by STEP (R347). A group's first word is a
header: its issue begins the team (R49) and stamps the launch (R275). -/
def headerIssued (s : State) (c : Ctx) (g : Group) : Out :=
  let s := s.setGroup c.slot { g with
    sched := g.sched.issued s.time.clk c.gang }
  .next { s.changed with
    teams := s.teams.update c.g.teamKey fun t => { t with begun := true }
    launches := s.launches.update c.g.launch fun l =>
      { l with firstIssue := l.firstIssue.or (some s.time.gts) } }

/-- A clause header: it must not stand in a body, waits for its flags and opens the body (R73). -/
def execClause (wait : BitVec 12) (fa fb : FlagSel) (len : BitVec 4) (s : State) : Out :=
  issuing s fun c =>
    if c.gang.any fun i => (c.g.strand i).inBody then trapAll s c .illegal
    else if s.flagsClear c.slot wait then
      let s := s.observe c.slot (Done.onFlags wait)
      headerIssued s c (((s.group c.slot).getD c.g).modStrands c.gang fun _ t =>
        { t.advance with clause := some { hdr := c.pc, len := len.toNat + 1, flagA := fa, flagB := fb } })
    else stallOn s c (holdsFlag wait)

/-- A trap raised by an instruction that has completed: the gang stands past it (R296). -/
def trapAfter (s : State) (c : Ctx) (cause : Cause) (sub : Word) : Out :=
  let pc := if c.g.tm then c.pc else c.pc + 4
  let s := s.modGroup c.slot fun g =>
    (g.modStrands c.gang fun _ t => t.advance).retired s.time.clk c.gang
  .next (s.raise c.slot { TrapInfo.at pc c.gang cause c.lanes with sub := sub })

/-- TRAP (R298, R418). -/
def execTrap (imm : BitVec 16) (s : State) : Out :=
  checked s (fun _ => Needs.regs []) fun c =>
    onceActive s c fun _ => trapAfter s c .swtrap (imm.setWidth 32)

/-- BRK (R298); with TM set it acts as NOP. -/
def execBrk (imm : BitVec 16) (s : State) : Out :=
  checked s (fun _ => Needs.regs []) fun c =>
    if c.lanes.isEmpty || c.g.tm then completeOnly s c
    else trapAfter s c .break (0x10000 ||| imm.setWidth 32)

/-- A strand resumed from its record (R297): the faulting gang's strands resume at XPC, which keeps
the clause position where XPC is a body word of the record's clause. Lanes that the handler cleared
from the record end as EXIT ends them (R427), and a strand that is left with no lane in exec takes its next
work (R36, R42). -/
def resumeStrand (gang : Bool) (xpc : VAddr) (t : Strand) : Strand :=
  match t.record with
  | none => t
  | some r =>
    let base : Strand :=
      { t with exec := r.exec, run := r.run, block := r.block, record := none, stalled := none, aliasing := none }
    let placed :=
      if gang && xpc != r.pc then
        match r.clause with
        | some k =>
          if k.hdr.toNat < xpc.toNat && xpc.toNat ≤ k.hdr.toNat + 4 * k.len && xpc.toNat % 4 == 0
          then { base with pc := xpc, clause := some k }
          else base.jump xpc
        | none => base.jump xpc
      else { base with pc := r.pc, clause := r.clause }
    placed.nextWork

/-- The PC that the trap registers hold (R77). -/
def TrapRegs.xpc (t : TrapRegs) : VAddr := (t.xpch.setWidth 20 ++ t.xpcl)

/-- Whether an operation is suspended by a late fault that the group has taken (R171): `aux` marks that
it was raised, and it is no longer held. -/
def Group.delivered (g : Group) (id : Nat) (o : Op) : Bool :=
  o.suspended.isSome && o.aux == 1 && !(g.held.any fun t => t.op == some id)

/-- A demand or copy as it starts again (R171, R205): every byte and every granule is done again. That the flags
of what had been computed before are kept, and reach GS with the others, is the model's choice (log 40). -/
def Op.restart (o : Op) : Op :=
  { o with
    suspended := none
    aux := 0
    pieces := []
    copy := o.copy.map fun j => { j with done := 0, arrived := 0 }
    tile := o.tile.map fun j => { j with done := 0, cache := [], begun := 0 } }

/-- Re-issue the demands and copies whose late fault the handler has handled (R171). -/
def State.reissue (s : State) (k : Nat) : State :=
  match s.group k with
  | none => s
  | some g =>
    let again (id : Nat) : Bool := match s.op id with
      | some o => o.slot == k && g.delivered id o
      | none => false
    { s with mem := { s.mem with
        ops := (s.mem.ops.filter fun p => !(p.2.kind == .engineRead && again p.2.aux)).map fun p =>
          if p.2.slot == k && g.delivered p.1 p.2 then (p.1, p.2.restart) else p } }

/-- The held cause to deliver next: late faults in the issue order of their instructions (R170), else
the oldest. -/
def nextHeld (held : List TrapInfo) : Option TrapInfo :=
  match held with
  | [] => none
  | t :: ts =>
    match t.op with
    | none => some t
    | some _ => some (ts.foldl (fun (m : TrapInfo) x => match m.op, x.op with
        | some a, some b => if b < a then x else m
        | _, _ => m) t)

/-- A held cause as it is raised: a late fault names the lanes that have not exited by then (R169). -/
def Group.heldTrap (g : Group) (t : TrapInfo) : TrapInfo :=
  if t.op.isSome then { t with lanes := laneMask (g.liveLanes g.allStrands) } else t

/-- Deliver a held LATE or MTIMEOUT, once TM is clear (R295, R297). -/
def State.deliverHeld (s : State) (k : Nat) : State :=
  match s.group k with
  | none => s
  | some g =>
    match nextHeld g.held with
    | none => s
    | some t => if g.tm then s else (s.setGroup k { g with held := g.held.erase t }).raise k (g.heldTrap t)

/-- RTT (R297). The strands resume, suspended demands of a handled LATE are re-issued (R171), and a
held cause is delivered. -/
def execRtt (s : State) : Out :=
  checked s (fun _ => Needs.ending []) fun c =>
    if !c.g.tm then trapAll s c .illegal
    else if c.g.liveStrands.any fun i => !c.gang.contains i || (match (c.g.strand i).record with
        | some r => r.depth != (c.g.strand i).stack.length
        | none => true) then
      trapAll s c .illegal
    else
      let xpc := c.g.trap.xpc
      let inGang (i : Nat) : Bool := c.g.trap.xstr.getLsbD i
      let g := { c.g with
        modes := { c.g.modes with gs := c.g.modes.gs &&& 0xFFFFFDFF }
        strands := c.g.strands.mapIdx fun i t => resumeStrand (inGang i) xpc t
        sched := { c.g.sched with noBreak := c.g.allStrands.filter inGang } }
      let late := c.g.trap.xcause == BitVec.ofNat 32 Cause.late.code
      let g := g.retired s.time.clk []
      let g := { g with sched := { g.sched with lastGang := c.gang.head? } }
      let s := (s.setGroup c.slot g).changed
      let s := if late then s.reissue c.slot else s
      .next ((s.settle c.slot).deliverHeld c.slot)

/-- YIELD: timing only (R429). -/
def execYield (s : State) : Out :=
  checked s (fun _ => Needs.unguarded []) fun c =>
    match completeOnly s c with
    | .next s => .next (s.modGroup c.slot fun g => { g with sched := { g.sched with yielded := true } })
    | r => r

/-- One strand at a SETX: `keep` are the lanes that the mask names (R405). -/
def setxStrand (p : VAddr) (keep : BitVec 4) (t : Strand) : Strand :=
  let k := t.exec &&& keep
  let z := t.exec &&& ~~~keep
  if k != 0 && z != 0 then { t.jump (p + 4) with exec := k, stack := t.stack ++ [.path (p + 4) z] }
  else t.jump (p + 4)

/-- SETX (R405). The high word of the mask is ignored where W ≤ 32. -/
def execSetx (a : Reg) (s : State) : Out :=
  checked s (fun _ => Needs.ending [.two a]) fun c =>
    uniform s c [.two a] fun s c xs =>
      let m := if c.g.width ≤ 32 then arg xs 0 &&& 0xFFFFFFFF else arg xs 0
      let keep (i : Nat) : BitVec 4 := m.extractLsb' (4 * i) 4
      let laid := c.gang.filter fun i =>
        let e := (c.g.strand i).exec
        (e &&& keep i) != 0 && (e &&& ~~~(keep i)) != 0 && decide (16 ≤ (c.g.strand i).stack.length)
      if laid.isEmpty then
        retire (s.setGroup c.slot (c.g.modStrands c.gang fun i t => setxStrand c.pc (keep i) t)) c
      else
        trapLanes s c .divstk (laid.flatMap fun i => maskLanes i ((c.g.strand i).exec &&& ~~~(keep i)))

end Sys2Proof.Machine
end

