-- ==== Sys2Proof/Machine/Cache.lean ====
section
/-!
DEFINITION. L1 caches (R194, R196 to R200, R251), the directory at the home slices (R196), the
updates that writes send to sharers (R197, R263), the write buffer (R197), monitors (R299), and a
write as it is performed at its home slice.
-/
namespace Sys2Proof.Machine

open Sys2Proof

/-! ## L1 (R194, R251) -/

/-- Whether a copy serves accesses through pages of a grain: an untracked copy those of CG 0, a tracked one those
of CG ≥ 1. So an access that names this device as a peer, which counts as CG 0, does not meet the copy that an
access to the local address has brought, and the other way round (R195). -/
def L1Sector.serves (e : L1Sector) (grain : Nat) : Bool := (e.grain == 0) == (grain == 0)

namespace State

/-- The valid L1 sector of a core that holds an address, for a page of a grain. -/
def l1Find (s : State) (c pa grain : Nat) : Option L1Sector :=
  (s.core c).l1.find? fun e => e.addr == sectorOf pa && e.serves grain

/-- A write of a core through a page of a grain: the copy of its sector that pages of other grains would find leaves
the core's L1, and so do fills of it that are under way. Only an address that is mapped with several grains, or
named as a peer's as well, has such a copy (R195, R198). -/
def dropTwin (s : State) (c pa grain : Nat) : State :=
  let x := s.core c
  (s.setCore c { x with l1 := x.l1.filter fun e => e.addr != sectorOf pa || e.serves grain }).mapFills c fun q =>
    if sectorOf q.addr == sectorOf pa && (q.grain == 0) != (grain == 0) then { q with fill := false } else q

/-- Keep the L1 sectors that satisfy a test. -/
def l1Keep (s : State) (c : Nat) (p : L1Sector → Bool) : State :=
  let x := s.core c
  s.setCore c { x with l1 := x.l1.filter p }

end State

/-- The sectors of a region move to the end, as the most recently used (R251). -/
def touchRegion (l : List L1Sector) (pa : Nat) : List L1Sector :=
  (l.filter fun e => regionBase e.addr != regionBase pa) ++ l.filter fun e => regionBase e.addr == regionBase pa

/-- The regions of an L1, the least recently used first. -/
def l1Regions (l : List L1Sector) : List Nat := l.foldl (fun rs e => addOnce rs (regionBase e.addr)) []

/-- Replacement (R251; log 9): a fill that needs a tag may find its set full, and then the least recently
used region of the set leaves. Which regions share a set is not specified: any region that at least
15 other regions have been used after may be the one, or none while a tag is free. -/
def replaceRegion (s : State) (ways : Nat) (l : List L1Sector) (pa use : Nat) : List L1Sector :=
  let rs := l1Regions l
  if rs.contains (regionBase pa) then l
  else
    let old := rs.take (rs.length - 15)
    if old.isEmpty then l
    else
      let k := Config.victim s.time.tick use
      let gone : Option Nat :=
        if rs.length < (16 - ways) * 64 then (none :: old.map some).getD (k % (old.length + 1)) none
        else old[k % old.length]?
      match gone with
      | some r => l.filter fun e => regionBase e.addr != r
      | none => l

namespace State

/-- Put a sector into a core's L1; data that left the home slice earlier than what L1 holds does
not replace it. Its `since` says from when on updates are still to be laid over it. -/
def l1Install (s : State) (c : Nat) (e : L1Sector) (use : Nat) : State :=
  let x := s.core c
  match x.l1.find? fun o => o.addr == e.addr with
  | some o =>
    let e' := if o.since ≤ e.since then e else o
    s.setCore c { x with l1 := touchRegion (x.l1.map fun q => if q.addr == e.addr then e' else q) e.addr }
  | none =>
    s.setCore c { x with l1 := touchRegion (replaceRegion s x.scrways x.l1 e.addr use) e.addr ++ [e] }

/-- A use of a region by a core (R251). -/
def l1Touch (s : State) (c pa : Nat) : State :=
  let x := s.core c
  s.setCore c { x with l1 := touchRegion x.l1 pa }

end State

/-- A part of a sector's bytes. -/
def sliceBytes (base : Nat) (bytes : List Byte) (a n : Nat) : List Byte := (bytes.drop (a - base)).take n

/-! ## The directory (R196) -/

/-- The size of a grain unit (R196). -/
def grainSize (grain : Nat) : Nat := if grain = 1 then 32 else if grain = 2 then 128 else 512

namespace State

/-! ### The room of an L2 slice (R29, R194, R199) -/

/-- L2 queues the dirty bytes of a sector for write-back (R194). -/
def queueWriteBack (s : State) (sector : Nat) : State :=
  let now := s.mem.dirty.filter fun p => sectorOf p.1 == sectorOf sector
  if now.isEmpty then s
  else { s with mem := { s.mem with
    dirty := s.mem.dirty.filter fun p => sectorOf p.1 != sectorOf sector
    queue := s.mem.queue ++ [(sectorOf sector, now)] } }

/-- Whether an invalidation of a region's copies may leave its slice and arrive: it travels behind the updates
that the slice has sent (R259, R261), so none of them is still on its way to a core that holds a copy, and
none of the region itself. -/
def invalArrives (s : State) (region : Nat) : Bool :=
  !(s.mem.updates.any fun u => homeSlice u.2.addr == homeSlice region &&
    (decide (u.2.addr < regionBase region + 512 ∧ regionBase region < u.2.addr + u.2.bytes.length) ||
      u.2.cores.any fun c => (s.core c).l1.any fun e => e.grain != 0 && regionBase e.addr == regionBase region))

/-- L2 lets a region go (R199): copies of CG ≥ 1 leave every L1, and the dirty sectors are queued. -/
def dropL2 (s : State) (region : Nat) : State :=
  let hit (a : Nat) : Bool := regionBase a == regionBase region
  let s := { s with
    cores := s.cores.map fun x => (x.1, { x.2 with l1 := x.2.l1.filter fun e => e.grain == 0 || !hit e.addr })
    mem := { s.mem with dir := s.mem.dir.filter fun e => !hit (e.1 / 4) } }
  (List.range 16).foldl (fun s i => s.queueWriteBack (regionBase region + 32 * i)) s

/-- The regions that an L2 slice is known to hold: those with dirty bytes or with sharers. Clean copies
without sharers may leave unseen. -/
def l2Regions (s : State) (slice : Nat) : List Nat :=
  (((s.mem.dirty.map fun p => regionBase p.1) ++ (s.mem.dir.map fun e => regionBase (e.1 / 4))).eraseDups).filter
    fun r => homeSlice r == slice

/-- Make room in the L2 slice of a region that it does not hold yet: 2 MiB are 4,096 regions (R29, R194).
Which region leaves is not specified: any whose invalidations can arrive (log 9). -/
def makeRoom (s : State) (pa : Nat) : State :=
  if decide (s.mem.dirty.length + s.mem.dir.length < 4096) || regionOf pa != .hbm then s
  else
    let rs := s.l2Regions (homeSlice pa)
    if rs.contains (regionBase pa) || decide (rs.length < 4096) then s
    else
      let idle := rs.filter s.invalArrives
      match idle[Config.victim s.time.tick (regionBase pa) % Nat.max 1 idle.length]? with
      | some r => s.dropL2 r
      | none => s

/-- The core becomes a sharer of the unit that holds an address (R196). -/
def addSharer (s : State) (c pa grain : Nat) : State :=
  if grain = 0 then s
  else
    let s := s.makeRoom pa
    let base := pa / grainSize grain * grainSize grain
    let key := 4 * base + grain
    let d : DirEntry := s.mem.dir.get key { size := grainSize grain, cores := [] }
    { s with mem := { s.mem with dir := s.mem.dir.put key (some { d with cores := addOnce d.cores c }) } }

/-- The sharers of any byte of `[a, a + n)`. -/
def sharers (s : State) (a n : Nat) : List Nat :=
  s.mem.dir.foldl (fun cs e =>
    if e.1 / 4 < a + n ∧ a < e.1 / 4 + e.2.size then e.2.cores.foldl addOnce cs else cs) []

end State

/-- The die of a core and of a home slice (R16). -/
def coreDie (c : Nat) : Nat := c / 96
def sliceDie (k : Nat) : Nat := k / 48

/-- The station that serves a core from outside its die: F2 of its quadrant for cores 0 to 11 and
F3 for cores 12 to 23 (R263). -/
def coreStation (c : Nat) : Nat := 2 * (c / 24) + c % 24 / 12

/-- The home slice as a collector of acknowledgements. -/
def homeStation : Nat := 32

/-- The stations that take part in an update (R263): F2 and F3 of every quadrant of each remote
die with a sharer, and the home slice. -/
def stationsOf (slice : Nat) (cores : List Nat) : List Nat :=
  let dies := (cores.map coreDie).eraseDups.filter fun d => d != sliceDie slice
  (dies.flatMap fun d => (List.range 8).map fun i => 8 * d + i) ++ [homeStation]

/-! ## Monitors (R299) -/

/-- Strands parked in MWAIT leave together (R299, R390). -/
def Group.wake (g : Group) : Group :=
  let clear : Option Block → Option Block := fun b => match b with
    | some (.mwait _) => none
    | b => b
  { g with strands := g.strands.map fun t =>
      { t with block := clear t.block, record := t.record.map fun r => { r with block := clear r.block } } }

/-- Whether a strand of the group is parked in MWAIT. -/
def Group.parked (g : Group) : Bool :=
  let isWait : Option Block → Bool := fun b => match b with
    | some (.mwait _) => true
    | _ => false
  g.strands.any fun t => isWait t.block || (match t.record with
    | some r => isWait r.block
    | none => false)

/-- TRIG is set; a parked group leaves the park and its monitor is disarmed (R299). -/
def Group.trigger (g : Group) : Group :=
  if g.parked then { g.wake with monitor := { sector := none, trig := false } }
  else { g with monitor := { g.monitor with trig := true } }

/-- A write to `[a, a + n)` triggers the monitors on its sectors (R299). -/
def State.triggerMonitors (s : State) (a n : Nat) : State :=
  { s with slots := s.slots.map fun p =>
      match p.2.monitor.sector with
      | some m => if m < a + n ∧ a < m + 32 then (p.1, p.2.trigger) else p
      | none => p }

/-! ## A write performed at its home slice -/

/-- The write of some bytes is performed: memory and poison, monitors, and the updates to sharers, of a CG ≥ 1
address with the writing core among them (R197, R238, R299, R324). -/
def State.performWrite (s : State) (a : Nat) (bytes : List Byte) (grain : Nat) (cores ops : List Nat) :
    State :=
  let n := bytes.length
  let s := s.makeRoom a
  let s := { s with mem := (s.mem.write a bytes).clearPoison a n }
  let s := s.triggerMonitors a n
  let cores := ((if grain = 0 then [] else cores) ++ s.sharers a n).eraseDups
  if cores.isEmpty then s
  else
    let (u, s) := s.fresh
    { s with mem := { s.mem with updates := s.mem.updates.put u (some {
        addr := a, bytes := bytes, poison := false, grain := grain, ops := ops, cores := cores,
        stations := stationsOf (homeSlice a) cores }) } }

/-- A copy has moved poison to a sector with the bytes that it has just written there: the update that brings them
to sharers, the last name given out, brings it as well (R197, R324). -/
def State.movePoison (s : State) (a : Nat) : State :=
  let hit (u : Update) : Bool := decide (u.addr < sectorOf a + 32 ∧ sectorOf a < u.addr + u.bytes.length)
  { s with mem := { s.mem.addPoison (sectorOf a) with
    updates := s.mem.updates.update (s.ids - 1) fun u => if hit u then { u with poison := true } else u } }

/-! ## The write buffer (R197) -/

/-- Stores of a core that still stand in its write buffer, oldest first: the operation and piece. -/
def State.buffered (s : State) (c : Nat) : List (Nat × Op × Piece) :=
  s.mem.ops.flatMap fun p =>
    if p.2.core == c && p.2.kind == .store then
      (p.2.pieces.filter (·.sent)).map fun q => (p.1, p.2, q)
    else []

/-- Lay buffered stores over some bytes at an address; a byte that none covers stays absent. -/
def bufferOver (a n : Nat) (ps : List (Nat × Op × Piece)) (old : List (Option Byte)) : List (Option Byte) :=
  ps.foldl (fun acc p =>
    match p.2.2.data with
    | some d => acc.mapIdx fun i b => if p.2.2.addr ≤ a + i ∧ i < n then (d[a + i - p.2.2.addr]?).or b else b
    | none => acc) old

/-- A store leaves the write buffer of its core: the piece that holds an address. -/
def State.leaveBuffer (s : State) (op addr : Nat) : State :=
  { s with mem := { s.mem with ops := s.mem.ops.update op fun o =>
      { o with pieces := o.pieces.map fun q =>
          if q.addr ≤ addr ∧ addr < q.addr + q.size then { q with sent := false } else q } } }

end Sys2Proof.Machine
end

