-- ==== Sys2Proof/Machine/Assize.lean ====
section
/-!
DEFINITION. The assize: tables and their rules (R220 to R223), class functions (R222), the pending
lists of words and their rewrite steps (R226, R227), and reads, writes and atomics as a home slice
performs them among pending operators (R223, R229, R332).
-/
namespace Sys2Proof.Machine

open Sys2Proof

/-- Whether two ranges of bytes meet. -/
def meets (a n b m : Nat) : Bool := decide (a < b + m ∧ b < a + n)

/-- Whether a tinker runs a handler on the region of an address: no other operation on the region is
performed meanwhile (R270; log 24). -/
def State.regionHeld (s : State) (a n : Nat) : Bool :=
  s.mem.tinkers.any fun t => t.2.running.isSome && meets t.2.region 512 a n

/-! ## Class functions (R222, R332) -/

/-- The size of the word of an element type: 8 bytes for the wide types, else 4 (R222). -/
def wordSize (et : ElemType) : Nat := if et.wide then 8 else 4

/-- The new value of a word from its old value and an operand (R222). Rounding never flushes. -/
def classFn (fn : Nat) (et : ElemType) (rm : RMode) (o a : Nat) : Nat :=
  let x : Dword := BitVec.ofNat 64 o
  let y : Dword := BitVec.ofNat 64 a
  let c : Fp.Ctx := { rm := rm, ftz := false }
  match fn with
  | 0 => (Elem.add et false x y).toNat
  | 1 => (Elem.min et x y).toNat
  | 2 => (Elem.max et x y).toNat
  | 3 => (Elem.clip et.wide (x &&& y)).toNat
  | 4 => (Elem.clip et.wide (x ||| y)).toNat
  | 5 => (Elem.clip et.wide (x ^^^ y)).toNat
  | 6 => (Fp.map2 et (Fp.add c et.ffmt) x y).1.toNat
  | 7 => (Fp.map2 et (Fp.sub c et.ffmt) y x).1.toNat
  | 8 => (Fp.map2 et (Fp.minmax false c et.ffmt) x y).1.toNat
  | 9 => (Fp.map2 et (Fp.minmax true c et.ffmt) x y).1.toNat
  | _ => (Fp.map2 et (Fp.mul c et.ffmt) x y).1.toNat

/-- The value of the composition of `a` then `b`, where the function has one (R222). -/
def compose (d : ClassDesc) (a b : Nat) : Option Nat :=
  if d.fn = 7 then none else some (classFn d.fn d.et d.rm a b)

/-- Whether `a` then `b` are exact inverses (R222). -/
def exactInverses (d : ClassDesc) (a b : Nat) : Bool :=
  match d.fn with
  | 0 => (Elem.add d.et false (BitVec.ofNat 64 a) (BitVec.ofNat 64 b)) == 0
  | 5 => a == b
  | 6 =>
    (List.range d.et.count).all fun k =>
      let x := Elem.raw d.et.bits k (BitVec.ofNat 64 a)
      let y := Elem.raw d.et.bits k (BitVec.ofNat 64 b)
      y == x ^^^ 2 ^ (d.et.bits - 1) && !(FVal.ofBits d.et.ffmt false x).isNan
  | 10 =>
    match FVal.mul (FVal.ofBits d.et.ffmt false a) (FVal.ofBits d.et.ffmt false b) with
    | (v, _) => FVal.eqv v (.fin false 1 0)
  | _ => false

/-- The new value of a word under an atomic (R332). -/
def atomFn (fn : AtomFn) (et : ElemType) (o a cmp : Nat) : Nat :=
  match fn with
  | .add => classFn (if et.isFloat then 6 else 0) et .rne o a
  | .min => classFn 1 et .rne o a
  | .max => classFn 2 et .rne o a
  | .and => classFn 3 et .rne o a
  | .or => classFn 4 et .rne o a
  | .xor => classFn 5 et .rne o a
  | .xchg => a
  | .cas => if o = cmp then a else o

/-! ## Tables (R220 to R223) -/

/-- Byte `i` of a table. -/
def tableByte (bytes : List Byte) (i : Nat) : Nat := (bytes.getD i 0).toNat

/-- Whether an element type is admitted for a function (R222). -/
def admits (fn etCode : Nat) : Bool :=
  match ElemType.ofCodeNat etCode with
  | none => false
  | some et =>
    if fn ≤ 5 then et == .i32 || et == .n32 || et == .i64 || et == .n64
    else if fn = 6 then et == .f32 || et == .bf16x2
    else et == .f32

/-- Offending offsets of the descriptor of class `c` (R218, R221, R222). -/
def descFaults (bytes : List Byte) (c : Nat) : List Nat :=
  let b (i : Nat) : Nat := tableByte bytes (16 * c + i)
  let zero := ((List.range 12).map (· + 4)).filter fun i => b i ≠ 0
  let own :=
    if b 3 < 128 then []
    else
      let rm := b 1 / 16 % 8
      (if 11 ≤ b 0 || !admits (b 0) (b 1 % 16) || (b 0 ≤ 5 && rm ≠ 0) then [0] else []) ++
      (if 128 ≤ b 1 || 5 ≤ rm then [1] else []) ++
      (if 16 ≤ b 2 then [2] else []) ++
      (if b 3 % 128 ≠ 0 then [3] else [])
  (own ++ zero).map (16 * c + ·)

/-- The lowest offending byte of a table, if any (R218). -/
def tableFault (bytes : List Byte) : Option Nat :=
  (((List.range 16).flatMap (descFaults bytes)) ++
    ((List.range 94).map (· + 418)).filter fun i => tableByte bytes i ≠ 0).head?

/-- The descriptor of class `c` (R221). -/
def readDesc (bytes : List Byte) (c : Nat) : ClassDesc :=
  let b (i : Nat) : Nat := tableByte bytes (16 * c + i)
  { valid := decide (128 ≤ b 3), inv := b 2 % 16
    rm := (RMode.ofCodeNat (b 1 / 16 % 8)).getD .rne
    et := (ElemType.ofCodeNat (b 1 % 16)).getD .i32, fn := b 0 }

/-- A table from its 512 bytes (R220, R223). -/
def readTable (bytes : List Byte) (version : Nat) : Table :=
  { classes := (List.range 16).map (readDesc bytes)
    relations := (List.range 324).map fun i =>
      BitVec.ofNat 4 (tableByte bytes (256 + i / 2) / (if i % 2 = 0 then 1 else 16))
    version := version }

/-- A descriptor that no table lists. -/
def ClassDesc.invalid : ClassDesc := { valid := false, inv := 0, rm := .rne, et := .i32, fn := 0 }

namespace Table
def cls (t : Table) (c : Nat) : ClassDesc := t.classes.getD c ClassDesc.invalid
/-- Entry (r, c) of the relation matrix: bits C, A, M, X (R223). -/
def rel (t : Table) (r c : Nat) : BitVec 4 := t.relations.getD (18 * r + c) 0
end Table

/-- The table in a slot at a slice (R217, R219). -/
def State.table (s : State) (slice slot : Nat) : Option Table := s.mem.tables.find (16 * slice + slot)

/-! ## Pending lists (R226) -/

namespace Pending
def addr : Pending → Nat
  | .mop a .. => a
  | .st a .. => a
  | .ld a .. => a
def size : Pending → Nat
  | .mop _ _ d .. => wordSize d.et
  | .st _ b .. => b.length
  | .ld _ n .. => n
/-- The row or column of the relation matrix. -/
def index : Pending → Nat
  | .mop _ c .. => c
  | .ld .. => 16
  | .st .. => 17
def table : Pending → Option (Nat × Nat)
  | .mop _ _ _ t .. => some t
  | .st .. | .ld .. => none
/-- Whether it returns the old value. -/
def returns : Pending → Bool
  | .mop _ _ _ _ _ r .. => r.isSome
  | .st .. => false
  | .ld .. => true
/-- Whether it is a load. -/
def isLd : Pending → Bool
  | .ld .. => true
  | _ => false
end Pending

/-- The table that governs a step between two neighbours: both the same, or the one of the operator
where the other is an ST (R223, R226). -/
def governing (s : State) (p q : Pending) : Option Table :=
  let get (t : Nat × Nat) : Option Table :=
    (s.table (homeSlice p.addr) t.1).bind fun x => if x.version = t.2 then some x else none
  match p.table, q.table with
  | some a, some b => if a = b then get a else none
  | some a, none => get a
  | none, some b => get b
  | none, none => none

/-- Bit `k` of the relation of an earlier p and a later q. -/
def related (s : State) (p q : Pending) (k : Nat) : Bool :=
  match governing s p q with
  | some t => (t.rel p.index q.index).getLsbD k
  | none => false

/-- A rewrite step at the head of a list (R226); none where it is not licensed. -/
def rewriteAt (s : State) : MopStep → List Pending → Option (List Pending)
  | .swap 0, p :: q :: r => if related s p q 0 then some (q :: p :: r) else none
  | .drop 0, p :: q :: r => if related s p q 1 && !p.returns && !q.isLd then some (q :: r) else none
  | .fuse 0, .mop a c d t x none ops cores g :: .mop a' c' d' t' y none ops' cores' g' :: r =>
    if c = c' && related s (.mop a c d t x none ops cores g) (.mop a' c' d' t' y none ops' cores' g') 2 then
      (compose d x y).map fun z => .mop a c d t z none (ops ++ ops') (cores ++ cores') (Nat.max g g') :: r
    else none
  | .cancel 0, .mop a c d t x none ops cores g :: .mop a' c' d' t' y none ops' cores' g' :: r =>
    if c' = d.inv && d.fn = d'.fn && d.et = d'.et && d.rm = d'.rm && exactInverses d x y &&
        related s (.mop a c d t x none ops cores g) (.mop a' c' d' t' y none ops' cores' g') 3 then some r
    else none
  | .swap (n + 1), p :: r => (rewriteAt s (.swap n) r).map (p :: ·)
  | .drop (n + 1), p :: r => (rewriteAt s (.drop n) r).map (p :: ·)
  | .fuse (n + 1), p :: r => (rewriteAt s (.fuse n) r).map (p :: ·)
  | .cancel (n + 1), p :: r => (rewriteAt s (.cancel n) r).map (p :: ·)
  | _, _ => none

/-- Change one piece of an operation. -/
def State.modPiece (s : State) (op i : Nat) (f : Piece → Piece) : State :=
  { s with mem := { s.mem with ops := s.mem.ops.update op fun o => { o with pieces := o.pieces.modify i f } } }

/-- The value of a piece is fixed at the home slice, and where it serves lanes its group has seen those bytes there
(R239, R241): the reads of engines, fetches and PREF serve none. -/
def State.fixPiece (s : State) (op i : Nat) (bytes : List Byte) : State :=
  let (k, s) := s.fresh
  let s := s.modPiece op i fun q => { q with data := some bytes, read := k }
  match s.op op with
  | some o => match o.pieces[i]? with
    | some q => if q.lanes.isEmpty then s else s.seeBytes o.slot q.addr bytes.length k
    | none => s
  | none => s

/-- A piece whose bytes are poisoned, or could not be delivered (R317, R324). -/
def State.spoilPiece (s : State) (op i : Nat) : State := s.modPiece op i fun q => { q with poison := true }

/-- Put bytes at an address into a finite map. -/
def overBytes (m : Sparse Byte) (a : Nat) : List Byte → Sparse Byte
  | [] => m
  | b :: bs => overBytes (m.put a (some b)) (a + 1) bs

/-- Bytes of a finite map in order. -/
def partBytes (m : Sparse Byte) (a n : Nat) : List Byte := (List.range n).map fun k => m.get (a + k) 0

/-- A sector that has been read at the home slice enters the L1 of the core that asked for it, with the core's
later stores laid over it, and the core becomes a sharer (R194, R196, R198). A sector whose words have left
pending lists at several moments enters a sharer as it stands at the last of them, since writes in between
have sent the core no update. -/
def State.installFill (s : State) (o : Op) (q : Piece) : State :=
  let sec := sectorOf q.addr
  if q.fill then
    let bytes := if q.grain = 0 then partBytes q.parts sec 32 else s.mem.read sec 32
    (s.addSharer o.core q.addr q.grain).l1Install o.core
      { addr := sec, bytes := overlaySparse sec bytes q.laid, grain := q.grain, poison := s.mem.poisoned sec 32,
        since := s.ids } q.addr
  else s

/-- The value of a piece, once no word of its read stands in a pending list any more: a fill enters L1, and
bytes that poison has reached are marked (R226, R324). -/
def State.joinParts (s : State) (op i : Nat) : State :=
  let left := s.mem.pending.any fun p => match p with
    | .ld _ _ o j => o == op && j == i
    | _ => false
  match (s.op op).bind fun o => (o.pieces[i]?).map fun q => (o, q) with
  | some (o, q) =>
    if left || q.data.isSome then s
    else
      let bytes := partBytes q.parts q.addr q.size
      let s := s.installFill o q
      if q.poison || s.mem.poisoned q.addr q.size then s.modPiece op i fun q => { q with data := some bytes, poison := true }
      else s.fixPiece op i bytes
  | none => s

/-- Apply one operation to its word (R225, R227): a poisoned word stays as it is. -/
def applyPending (s : State) : Pending → State
  | .st a bytes ops cores g => s.performWrite a bytes g cores ops
  | .ld a n op i =>
    (s.modPiece op i fun q => { q with parts := overBytes q.parts a (s.mem.read a n)
                                       poison := q.poison || (s.mem.poisoned a n && meets q.addr q.size a n) }).joinParts op i
  | .mop a _ d _ x ret ops cores g =>
    let n := wordSize d.et
    let old := s.mem.read a n
    if s.mem.poisoned a n then
      match ret, ops with
      | some i, op :: _ => s.spoilPiece op i
      | _, _ => s
    else
      let s := s.performWrite a (leBytes n (classFn d.fn d.et d.rm (leNat old) x)) g cores ops
      match ret, ops with
      | some i, op :: _ => s.fixPiece op i old
      | _, _ => s

/-- The pending operations of the word at an address, oldest first. -/
def State.wordList (s : State) (a : Nat) : List Pending := s.mem.pending.filter fun p => p.addr == a

/-- Replace the pending operations of a word. -/
def State.setWordList (s : State) (a : Nat) (l : List Pending) : State :=
  { s with mem := { s.mem with pending := (s.mem.pending.filter fun p => p.addr != a) ++ l } }

/-- Apply all but the last `keep` operations of a word. -/
def State.drainWord (s : State) (a keep : Nat) : State :=
  let l := s.wordList a
  let now := l.take (l.length - keep)
  now.foldl applyPending (s.setWordList a (l.drop (l.length - keep)))

/-- The words with pending operations that meet `[a, a + n)`: address and size. -/
def State.pendingWords (s : State) (a n : Nat) : List (Nat × Nat) :=
  ((s.mem.pending.filter fun p => decide (p.addr < a + n ∧ a < p.addr + p.size)).map
    fun p => (p.addr, p.size)).eraseDups

/-- Cut the words that meet some bytes: every pending operation is applied, in order (R226). -/
def State.cut (s : State) (a n : Nat) : State :=
  (s.pendingWords a n).foldl (fun s w => s.drainWord w.1 0) s

/-- Apply the pending operations of every word of whose list an operation satisfies a test, in order. -/
def State.drainWhere (s : State) (p : Pending → Bool) : State :=
  (((s.mem.pending.filter p).map (·.addr)).eraseDups).foldl (fun s a => s.drainWord a 0) s

/-- A write of the host, a peer, a command processor or a queue engine that rests in a pending list: no group's
operation waits for it. -/
def Pending.posted : Pending → Bool
  | .st _ _ ops .. => ops.isEmpty
  | _ => false

/-- How many of the last operations of a word a read may stand before: each has C with a later LD
(R226). -/
def loadsPass (s : State) (l : List Pending) : Nat :=
  (l.reverse.takeWhile fun p => match p.table with
    | some t => match s.table (homeSlice p.addr) t.1 with
      | some x => x.version == t.2 && (x.rel p.index 16).getLsbD 0
      | none => false
    | none => false).length

/-- A read at the home slice: it stands behind the pending operations of each word it covers whole,
but for the last `keeps` where the table lets a load pass them, and cuts the others (R223, R227). The words
that `held` names are left as they are. -/
def State.homeRead (s : State) (a n keeps : Nat) (held : List (Nat × Nat) := []) : List Byte × State :=
  let s := ((s.pendingWords a n).filter fun w => !held.contains w).foldl (fun s w =>
    if a ≤ w.1 ∧ w.1 + w.2 ≤ a + n then s.drainWord w.1 (Nat.min keeps (loadsPass s (s.wordList w.1)))
    else s.drainWord w.1 0) s
  (s.mem.read a n, s)

/-- The bytes of a write that stand in no pending word, in runs. -/
def runsOutside (ws : List (Nat × Nat)) (a : Nat) : List Byte → List (Nat × List Byte)
  | [] => []
  | b :: bs =>
    let rest := runsOutside ws (a + 1) bs
    if ws.any fun w => decide (w.1 ≤ a ∧ a < w.1 + w.2) then rest
    else match rest with
      | (a', r) :: more => if a' = a + 1 then (a, b :: r) :: more else (a, [b]) :: rest
      | [] => [(a, [b])]

/-- Whether a table at a slice lets an operator of some class on words of a size pass, or absorb, an earlier
access of a row of the relation matrix: 16 for an LD, 17 for an ST (R223, R226). -/
def State.licensed (s : State) (slice size row : Nat) : Bool :=
  s.mem.tables.any fun t => t.1 / 16 == slice && (List.range 16).any fun c =>
    (t.2.cls c).valid && wordSize (t.2.cls c).et == size &&
    ((t.2.rel row c).getLsbD 0 || (row == 17 && (t.2.rel row c).getLsbD 1))

/-- The words that an access may leave in a pending list of their own, as operators that come later may
absorb or pass it (R223, R226): of 4 or 8 bytes, aligned, covered whole, apart from each other and from other
words with pending operations, and only where a table of their slice lets an operator do so. -/
def State.holdable (s : State) (row a n : Nat) (ws : List (Nat × Nat)) : List (Nat × Nat) :=
  if s.mem.tables.isEmpty then []
  else ws.foldl (fun acc w =>
    if (w.2 = 4 ∨ w.2 = 8) ∧ w.1 % w.2 = 0 ∧ a ≤ w.1 ∧ w.1 + w.2 ≤ a + n ∧ (s.pendingWords w.1 w.2).all (· == w) ∧
        s.licensed (homeSlice w.1) w.2 row ∧
        !(acc.any fun x => decide (x.1 < w.1 + w.2 ∧ w.1 < x.1 + x.2)) then acc ++ [w] else acc) []

/-- A read of some bytes at the home slice for a piece of an operation: it passes the last `keeps` operations of
each word that the table lets a load pass, and the words that `held` names stay in their pending lists as LDs
(R223, R226). -/
def State.readInto (s : State) (op i a n keeps : Nat) (held : List (Nat × Nat)) : State :=
  let held := s.holdable 16 a n held
  let x := s.homeRead a n keeps held
  let s := x.2.modPiece op i fun q => { q with parts := overBytes q.parts a x.1 }
  { s with mem := { s.mem with pending := s.mem.pending ++ held.map fun (w : Nat × Nat) => Pending.ld w.1 w.2 op i } }.joinParts op i

/-- A write at the home slice: an ST of each word with pending operations that it covers whole, and of the
words that `holds` names, and a cut of those that it covers in part (R223, R226). -/
def State.homeWrite (s : State) (a : Nat) (bytes : List Byte) (grain : Nat) (cores ops : List Nat)
    (holds : List (Nat × Nat)) : State :=
  let n := bytes.length
  let ws := s.pendingWords a n
  let hs := s.holdable 17 a n holds
  if ws.isEmpty && hs.isEmpty then s.performWrite a bytes grain cores ops
  else
    let whole := ws.filter fun w => decide (a ≤ w.1 ∧ w.1 + w.2 ≤ a + n)
    let part := ws.filter fun w => !whole.contains w
    let whole := whole ++ hs.filter fun w => !whole.contains w
    let s := part.foldl (fun s w => s.drainWord w.1 0) s
    let later := whole.map fun w => Pending.st w.1 (sliceBytes a bytes w.1 w.2) ops cores grain
    let s := { s with mem := { s.mem with pending := s.mem.pending ++ later } }
    (runsOutside whole a bytes).foldl (fun s r => s.performWrite r.1 r.2 grain cores ops) s

/-- A write that rests in no pending list: the operations that stand before it are applied first. -/
def State.writeNow (s : State) (a : Nat) (bytes : List Byte) (grain : Nat) (cores ops : List Nat) : State :=
  (s.cut a bytes.length).performWrite a bytes grain cores ops

/-- Pairs of neighbours of a list: how an input names words, by address and size. -/
def wordPairs : List Nat → List (Nat × Nat)
  | a :: n :: r => (a, n) :: wordPairs r
  | _ => []

/-- The aligned words of a size within some bytes; none for a size that no word has. -/
def wordsWithin (size a n : Nat) : List (Nat × Nat) :=
  if size = 4 ∨ size = 8 then (List.range ((a + n) / size + 1 - a / size)).map fun i => ((a / size + i) * size, size) else []

/-- An atomic at the home slice: the old value, or none where the word is poisoned (R245, R333,
R334, R344, R345). A CAS that fails writes nothing. -/
def State.homeAtomic (s : State) (a n grain : Nat) (fn : AtomFn) (et : ElemType) (x cmp : Nat)
    (cores ops : List Nat) : Option (List Byte) × State :=
  let s := s.cut a n
  if s.mem.poisoned a n then (none, s)
  else
    let old := s.mem.read a n
    let o := leNat old
    if fn = .cas ∧ o ≠ cmp then (some old, s)
    else (some old, s.performWrite a (leBytes n (atomFn fn et o x cmp)) grain cores ops)

end Sys2Proof.Machine
end

