-- ==== Sys2Proof/Machine/Thunks.lean ====
section
/-!
DEFINITION. The thunk table (R152 to R161): descriptors, handles, nodes, references, spill space
(R165), and the source ranges that a group's stores are held against (R167, R168, R206).
-/
namespace Sys2Proof.Machine

open Sys2Proof

/-! ## Formats and descriptors (R152, R153) -/

namespace TileFmt
/-- The element size in bytes (R153). -/
def size : TileFmt → Nat
  | .bf16 | .f16 | .rn16 => 2
  | .rn8 => 1
  | .f32 | .i32 => 4
def ofCode : Nat → Option TileFmt
  | 0 => some .bf16
  | 1 => some .f16
  | 2 => some .f32
  | 3 => some .rn16
  | 4 => some .rn8
  | 5 => some .i32
  | _ => none
/-- The page format that a shuffled page of this format has (R145, R212). -/
def efmt : TileFmt → Option Nat
  | .bf16 => some 1
  | .f16 => some 2
  | .rn16 => some 3
  | .rn8 => some 4
  | _ => none
def residue : TileFmt → Bool
  | .rn16 | .rn8 => true
  | _ => false
end TileFmt

/-- The shape that word 2 of a quad holds: rows and columns, none where a zero field is not zero. -/
def quadShape (w2 : Word) : Option (Nat × Nat) :=
  if w2.extractLsb' 24 8 ≠ 0 then none
  else some ((w2.extractLsb' 0 12).toNat + 1, (w2.extractLsb' 12 12).toNat + 1)

/-- The descriptor in a quad (R152, R153), or none where it breaks a rule. -/
def readTileDesc (q : List Word) : Option TileDesc :=
  let w0 := q.getD 0 0
  let w1 := q.getD 1 0
  let w3 := q.getD 3 0
  match quadShape (q.getD 2 0), TileFmt.ofCode (w1.extractLsb' 28 4).toNat with
  | some (rows, cols), some fmt =>
    let high := (w1.extractLsb' 0 20).toNat
    let base := high * 2 ^ 32 + w0.toNat
    let scr := w3.getLsbD 20
    if w3.extractLsb' 21 11 ≠ 0 || w1.extractLsb' 20 8 ≠ 0 || base % fmt.size ≠ 0 || (scr && high ≠ 0) then none
    else some { base := base, scr := scr, stride := (w3.extractLsb' 0 20).toNat, rows := rows, cols := cols, fmt := fmt }
  | _, _ => none

namespace TileDesc
/-- The address of element (i, j) (R153). -/
def addr (d : TileDesc) (i j : Nat) : Nat := d.base + (i * d.stride + j) * d.fmt.size
/-- The length of the byte span of a descriptor (R167). -/
def span (d : TileDesc) : Nat := ((d.rows - 1) * d.stride + d.cols) * d.fmt.size
end TileDesc

/-! ## Nodes and handles (R154, R155) -/

/-- The handle of an entry (R154). -/
def handleOf (gen idx : Nat) : Word := BitVec.ofNat 32 (2 ^ 31 + gen % 256 * 256 + idx)

namespace ThunkTable

def gen (t : ThunkTable) (e : Nat) : Nat := t.gens.get e 0

/-- The entry that a handle names, if the handle is valid (R154). -/
def entryOf (t : ThunkTable) (h : Word) : Option Nat :=
  let e := (h.extractLsb' 0 5).toNat
  match t.nodes.find e with
  | some n => if !n.dropped && h == handleOf (t.gen e) e then some e else none
  | none => none

/-- The lowest free entry (R154). -/
def freeEntry (t : ThunkTable) : Option Nat := (List.range 32).find? fun e => (t.nodes.find e).isNone

/-- Allocate an entry for a node: its index and the table (R154). -/
def alloc (t : ThunkTable) (n : Node) : Option (Nat × ThunkTable) :=
  t.freeEntry.map fun e =>
    (e, { nodes := t.nodes.put e (some n), gens := t.gens.put e (some ((t.gen e + 1) % 256)) })

end ThunkTable

/-- The entries that a node refers to; a forced node has released its inputs (R156, R165). -/
def Node.inputs (n : Node) : List Nat :=
  if n.forced.isSome then []
  else match n.op with
    | .desc _ => []
    | .mul a b .. => [a, b]
    | .add a b => [a, b]
    | .map a _ => [a]
    | .scl a _ => [a]
    | .red a .. => [a]
    | .view r _ => [r]

def Node.isView (n : Node) : Bool := match n.op with
  | .view .. => true
  | _ => false

/-- Demands in progress of a group: the entries that they refer to (R156). -/
def State.demanded (s : State) (k : Nat) : List Nat := (s.opsOf k).filterMap fun p => p.2.tile.map (·.entry)

/-- Free dropped nodes that nothing refers to, until none is left (R161). -/
def freeDropped (held : List Nat) : Nat → Sparse Node → Sparse Node
  | 0, ns => ns
  | fuel + 1, ns =>
    let used := held ++ ns.flatMap fun p => p.2.inputs
    freeDropped held fuel (ns.filter fun p => !p.2.dropped || used.contains p.1)

/-- The table of a group after references have gone (R161). -/
def State.sweep (s : State) (k : Nat) : State :=
  let held := s.demanded k
  s.modGroup k fun g => { g with thunks := { g.thunks with nodes := freeDropped held 32 g.thunks.nodes } }

/-! ## Views (R160) -/

def IndexMap.ident : IndexMap := { m00 := 1, m01 := 0, o0 := 0, m10 := 0, m11 := 1, o1 := 0 }

namespace IndexMap
def apply (m : IndexMap) (i j : Nat) : Nat × Nat := (m.m00 * i + m.m01 * j + m.o0, m.m10 * i + m.m11 * j + m.o1)
/-- `m` after `n`: the map of a view of a view. -/
def after (m n : IndexMap) : IndexMap where
  m00 := m.m00 * n.m00 + m.m01 * n.m10
  m01 := m.m00 * n.m01 + m.m01 * n.m11
  o0 := m.m00 * n.o0 + m.m01 * n.o1 + m.o0
  m10 := m.m10 * n.m00 + m.m11 * n.m10
  m11 := m.m10 * n.m01 + m.m11 * n.m11
  o1 := m.m10 * n.o0 + m.m11 * n.o1 + m.o1
end IndexMap

/-- The root of an entry and the map into it: itself where it is no view (R160). -/
def ThunkTable.root (t : ThunkTable) (e : Nat) : Nat × IndexMap :=
  match t.nodes.find e with
  | some n => (match n.op with
    | .view r m => (r, m)
    | _ => (e, IndexMap.ident))
  | none => (e, IndexMap.ident)

/-! ## Spill space (R165) -/

/-- The bytes of a forced node, rounded up to 256 (R165). -/
def spillBytes (n : Node) : Nat := (n.rows * n.cols * n.fmt.size + 255) / 256 * 256

/-- Spill space in use: by forced nodes and by forces in progress (R165). -/
def State.spillUsed (s : State) (k : Nat) (g : Group) : List (Nat × Nat) :=
  (g.thunks.nodes.filterMap fun p => p.2.forced.map fun o => (o, spillBytes p.2)) ++
  (s.opsOf k).filterMap fun p => match p.2.tile with
    | some j => match j.spill, g.thunks.nodes.find j.entry with
      | some o, some n => if n.forced.isNone then some (o, spillBytes n) else none
      | _, _ => none
    | none => none

/-- The lowest free offset, a multiple of 256, at which `need` bytes fit (R165). -/
def spillFit (size need : Nat) (used : List (Nat × Nat)) : Option Nat :=
  let starts := (0 :: used.map fun u => u.1 + u.2)
  let fits := starts.filter fun o => decide (o + need ≤ size) && used.all fun u =>
    decide (o + need ≤ u.1 ∨ u.1 + u.2 ≤ o)
  match fits with
  | [] => none
  | x :: xs => some (xs.foldl Nat.min x)

/-- Where the spill region of a group starts (R165). -/
def spillBase (d : Desc) (g : Group) : Nat := d.spillBase + d.spillSize * (g.ident.team * d.groups + g.ident.grpid)

/-! ## Aliasing (R167, R168, R206) -/

/-- A range of bytes as written: scratch or virtual memory, start and length. -/
structure Span where
  scr  : Bool
  addr : Nat
  len  : Nat
  deriving DecidableEq, Repr

def Span.meets (a b : Span) : Bool :=
  a.scr == b.scr && decide (0 < a.len ∧ 0 < b.len ∧ a.addr < b.addr + b.len ∧ b.addr < a.addr + a.len)

/-- The leaves that a node reaches through unforced nodes, itself among them (R167). -/
def reachLeaves (t : ThunkTable) : Nat → Nat → List TileDesc
  | 0, _ => []
  | fuel + 1, e =>
    match t.nodes.find e with
    | some n =>
      if n.forced.isSome then []
      else match n.op with
        | .desc d => [d]
        | _ => n.inputs.flatMap (reachLeaves t fuel)
    | none => []

/-- The source ranges of an entry (R167). -/
def sourceRanges (t : ThunkTable) (e : Nat) : List Span :=
  (reachLeaves t 33 e).map fun d => { scr := d.scr, addr := d.base, len := d.span }

/-- The live, unforced nodes that are no views and whose sources some stores meet, in ascending
entry index (R167). -/
def aliased (t : ThunkTable) (stores : List Span) : List Nat :=
  (t.nodes.filter fun p => !p.2.isView && p.2.forced.isNone &&
    (sourceRanges t p.1).any fun r => stores.any (Span.meets r)).map (·.1)

/-- A force of an entry as an operation (R165, R167). -/
def forceOp (o : Op) (entry spill : Nat) (forStore : Bool) : Op :=
  { o with kind := .tforce, tile := some { entry := entry, dest := none, spill := some spill, ctl := 0, forStore := forStore,
                                           done := 0, cache := [], flags := 0, begun := 0 } }

/-- Whether a force of an entry is in progress. -/
def State.forcing (s : State) (k e : Nat) : Bool := (s.opsOf k).any fun p => match p.2.tile with
  | some j => j.entry == e && j.spill.isSome
  | none => false

/-- The aliased entries with their generations: what the check of R167 finds for a store. -/
def aliasSet (t : ThunkTable) (stores : List Span) : List (Nat × Nat) := (aliased t stores).map fun e => (e, t.gen e)

/-- The set that the check has fixed for the store of a gang, if it has been made (R167). -/
def Group.aliasing (g : Group) (gang : List Nat) : Option (List (Nat × Nat)) :=
  (gang.mapM fun i => (g.strand i).aliasing).map fun ls => (ls.flatMap id).eraseDups

/-- The entries of such a set that are still to be forced. -/
def unforcedOf (t : ThunkTable) (es : List (Nat × Nat)) : List Nat :=
  (es.filter fun e => t.gen e.1 == e.2 && (match t.nodes.find e.1 with
    | some n => n.forced.isNone
    | none => false)).map (·.1)

/-- Start the force of an entry; none where its spill copy does not fit (R165). An entry whose force is in
progress gets no second one: the store waits for that force, and a fault of it stays the TFORCE's own, which is
the model's choice (log 40). -/
def State.startForce (s : State) (k : Nat) (o : Op) (forStore : Bool) (e : Nat) : Option State :=
  if s.forcing k e then some s
  else match s.group k with
    | none => some s
    | some g =>
      match (s.launch g.launch), g.thunks.nodes.find e with
      | some l, some n =>
        (spillFit l.desc.spillSize (spillBytes n) (s.spillUsed k g)).map fun off =>
          let (id, s) := s.fresh
          s.putOp id (some (forceOp o e off forStore))
      | _, _ => some s

/-- What an engine command reads, for a copy, and what it writes (R168, R206). -/
def Op.reads (o : Op) : List Span :=
  match o.copy with
  | some j => [{ scr := j.ctl.getLsbD 24, addr := j.src, len := (j.ctl.extractLsb' 0 24).toNat }]
  | none => []
def Op.stores (o : Op) : List Span :=
  match o.copy, o.tile with
  | some j, _ => [{ scr := j.ctl.getLsbD 25, addr := j.dst, len := (j.ctl.extractLsb' 0 24).toNat }]
  | none, some j => match j.dest with
    | some d => [{ scr := d.scr, addr := d.base, len := d.span }]
    | none => []
  | none, none => []

/-- Whether copies and TSTOREs of a group in flight meet what some stores write: the source and the
destination of a copy, and the destination span of a TSTORE (R168, R206). -/
def engineBusy (s : State) (k : Nat) (stores : List Span) : Bool :=
  (s.opsOf k).any fun p => (p.2.reads ++ p.2.stores).any fun r => stores.any (Span.meets r)

/-- Whether copies and TSTOREs of a group in flight still write scratch that some reads of an engine name:
scratch accesses of one group keep program order byte by byte (R202). -/
def scratchBehind (s : State) (k : Nat) (reads : List Span) : Bool :=
  (s.opsOf k).any fun p => p.2.stores.any fun r => r.scr && reads.any (Span.meets r)

end Sys2Proof.Machine
end

