-- ==== Sys2Proof/Machine/Access.lean ====
section
/-!
DEFINITION. What the memory instructions share: the checks of R11 for the lanes of an execution,
watchpoints (R308), the waits before an access may issue (R167, R168, R200, R206, R242, R244, R363),
requests to the slices (R201, R261), and deterministic buffering (R250).
-/
namespace Sys2Proof.Machine

open Sys2Proof

/-! ## Widths -/

/-- Bytes of an access (R105). -/
def widthBytes : Width → Nat
  | .b8 => 1
  | .b16 => 2
  | .b32 => 4
  | .b64 => 8
  | .b128 => 16
/-- Registers of a data operand (R106). -/
def widthRegs : Width → Nat
  | .b64 => 2
  | .b128 => 4
  | _ => 1

/-- The data operand of an access (R106). -/
def dataOpnd (d : Reg) (w : Width) : Opnd := ⟨d.toNat, widthRegs w⟩

/-- The low bytes of the data operand of a lane. -/
def Group.dataBytes (g : Group) (d : Reg) (n l : Nat) : List Byte :=
  ((g.words d.toNat ((n + 3) / 4) l).flatMap wordBytes).take n

/-! ## Checks (R11) -/

/-- An address as an instruction passes it: bits [51:0] of its pair (R11). -/
def Group.address (g : Group) (a : Reg) (l : Nat) : Nat := (g.read a.toNat 2 l).toNat % 2 ^ 52

/-- An access of a lane that has passed its checks. -/
structure LaneAcc where
  lane : Nat
  va   : Nat
  phys : Phys
  deriving DecidableEq, Repr

/-- What the accesses of an instruction need: their size, the rights of their page, the addresses
that its entry turns away, whether the data that would be read are poisoned (R11, R324; log 19), and
whether an access that cannot be delivered traps here (R317). -/
structure AccSpec where
  size   : Nat
  rights : Access
  deny   : Nat → Bool
  bad    : Phys → Bool
  reach  : Bool

/-- The checks of R11 for one address, in their order. -/
def checkOne (s : State) (core root : Nat) (sp : AccSpec) (va use : Nat) : Except Cause Phys :=
  if va % sp.size ≠ 0 then .error .align
  else
    match checkAccess s core root va sp.rights sp.deny use with
    | .error e => .error e
    | .ok p =>
      if sp.bad p || (sp.reach && !s.deliverable p.pa) then .error .memerr
      else .ok p

/-- Among lanes that failed: the lowest cause, the lanes that reached it, and the address of the
lowest of them (R10, R379). -/
def laneFault (outs : List (Nat × Nat × Except Cause Phys)) : Option (Cause × List Nat × Nat) :=
  let bad := outs.filterMap fun o => match o.2.2 with
    | .error e => some (o.1, o.2.1, e)
    | .ok _ => none
  match bad with
  | [] => none
  | b :: bs =>
    let low := bs.foldl (fun (m : Cause) x => if x.2.2.code < m.code then x.2.2 else m) b.2.2
    let hit := (b :: bs).filter fun x => x.2.2 == low
    some (low, hit.map (·.1), (hit.map (·.2.1)).headD 0)

/-- The accesses of the lanes that passed. -/
def laneAccs (outs : List (Nat × Nat × Except Cause Phys)) : List LaneAcc :=
  outs.filterMap fun o => match o.2.2 with
    | .ok p => some { lane := o.1, va := o.2.1, phys := p }
    | .error _ => none

/-! ## Channel areas (R264) -/

/-- Whether a virtual address lies in an area of a channel that the launch declares (R264). -/
def Desc.inAreas (d : Desc) (va : Nat) : Bool :=
  decide (d.chbase ≤ va ∧ va < d.chbase + d.chslots * 2 ^ 18) && (d.chans.find ((va - d.chbase) / 2 ^ 14 % 16)).isSome

/-- A channel of a cluster whose area some of the addresses name is misused. -/
def Cluster.misuse (c : Cluster) (d : Desc) (vas : List Nat) : Cluster :=
  { c with channels := c.channels.map fun x =>
      if vas.any fun va => (va - d.chbase) / 2 ^ 14 == 16 * (c.index % Nat.max 1 d.chslots) + x.1
      then (x.1, { x.2 with misused := true }) else x }

/-- A program's accesses to areas of its launch's channels are noted: their values are undefined from
then on (R264; log 10). -/
def State.misuse (s : State) (launch : Nat) (vas : List Nat) : State :=
  match s.launch launch with
  | some l =>
    let hit := vas.filter l.desc.inAreas
    if hit.isEmpty then s
    else { s with clusters := s.clusters.map fun p =>
        if p.2.launch = launch then (p.1, p.2.misuse l.desc hit) else p }
  | none => s

/-- The bytes that a program reads at a virtual address: free bytes in a channel's area (R264; log 10). -/
def State.seenBytes (s : State) (launch va : Nat) (bytes : List Byte) : List Byte :=
  match s.launch launch with
  | some l =>
    if l.desc.inAreas va then (List.range bytes.length).map fun i => Config.freeByte s.time.tick (va + i) else bytes
  | none => bytes

/-! ## Watchpoints (R308) -/

/-- The kinds of accesses that watchpoints tell apart. -/
inductive Watch where
  | rd | wr | op
  deriving DecidableEq, Repr

namespace Debug
/-- The range of watchpoint `i`: its aligned start and its size (R308). -/
def watchRange (d : Debug) (i : Nat) : Nat × Nat :=
  let al := if i = 0 then d.wpa0 else d.wpa1
  let h := if i = 0 then d.wph0 else d.wph1
  let n := 2 ^ Nat.max 2 (h.extractLsb' 20 5).toNat
  let a := (h.extractLsb' 0 20).toNat * 2 ^ 32 + al.toNat
  (a / n * n, n)
/-- Whether watchpoint `i` is enabled for a kind of access and a lane (R308). -/
def watches (d : Debug) (i : Nat) (k : Watch) (l : Nat) : Bool :=
  let bit := 4 * i + match k with
    | .rd => 1
    | .wr => 2
    | .op => 3
  let lo := (d.wpc.extractLsb' (8 + 12 * i) 6).toNat
  let hi := (d.wpc.extractLsb' (14 + 12 * i) 6).toNat
  d.wpc.getLsbD (4 * i) && d.wpc.getLsbD bit && decide (lo ≤ l ∧ l ≤ hi)
end Debug

/-- The lowest watchpoint that some access matches, and the accesses that match it (R308). The first
issue of a gang after RTT is not tested (R297), and nothing is while TM is set (R295). -/
def watchHit (g : Group) (k : Watch) (n : Nat) (accs : List LaneAcc) : Option (Nat × List LaneAcc) :=
  let tested := if g.tm then [] else accs.filter fun x => !g.sched.noBreak.contains (x.lane / 4)
  let hits := [0, 1].map fun i =>
    let r := g.dbg.watchRange i
    (i, tested.filter fun x => g.dbg.watches i k x.lane && decide (x.va < r.1 + r.2 ∧ r.1 < x.va + n))
  hits.find? fun h => !h.2.isEmpty

/-! ## Waits before an access -/

/-- Whether an operation keeps the group's later accesses waiting: an acquire that has not been made
(R242), or a read from before the group left a barrier or a byte-counting barrier (R208, R247). -/
def holdsAccess (g : Group) (p : Nat × Op) : Bool :=
  (p.2.acq.isSome && p.2.kind != .copy && p.2.kind != .tstore) || (decide (p.1 < g.view.fenced) && !p.2.fixed)

/-- Whether the group's later accesses wait, but for what some operations would hold: for a fence of
another strand (R363), or for an operation of its own. Deterministic operation orders nothing this way
(R250). -/
def heldBut (but : Op → Bool) (s : State) (c : Ctx) : Bool :=
  !Gs.det c.g.modes.gs &&
  ((match c.g.fencing with
    | some i => !c.gang.contains i
    | none => false) ||
   (s.opsOf c.slot).any fun p => !but p.2 && holdsAccess c.g p)

/-- Whether the group's later accesses wait. -/
def accessHeld (s : State) (c : Ctx) : Bool := heldBut (fun _ => false) s c

/-- Whether an access meets bytes of an earlier access of the group that has been rejected (R200): the
bytes that it names, by address and length. -/
def rejectedMeets (s : State) (c : Ctx) (bytes : List (Nat × Nat)) : Bool :=
  (s.core c.core).rejected.any fun id => match s.op id with
    | some o => o.slot == c.slot && o.pieces.any fun q => !q.sent && q.data.isNone && !q.poison &&
        bytes.any fun x => decide (q.addr < x.1 + x.2 ∧ x.1 < q.addr + q.size)
    | none => false

/-- The accesses of an instruction are made: those that cannot be delivered are logged (R317), and those to
areas of channels are noted (R264). -/
def State.noted (s : State) (c : Ctx) (accs : List LaneAcc) : State :=
  (s.noteLost c.core (accs.map (·.phys.pa))).misuse c.g.launch (accs.map (·.va))

/-- The accesses of the active lanes to the addresses in a pair: every lane's checks and watchpoints, of
which the lowest cause is taken (R10, R308), then the waits. -/
def withLanes (s : State) (c : Ctx) (a : Reg) (sp : AccSpec) (w : Watch) (k : List LaneAcc → Out) : Out :=
  let root := s.rootOf c.g.launch
  let outs := c.lanes.map fun l =>
    let va := c.g.address a l
    (l, va, checkOne s c.core root sp va l)
  let accs := laneAccs outs
  let lost := outs.foldl (fun s o => match o.2.2 with
    | .error e => s.noteFault c.core root o.2.1 o.1 e
    | .ok _ => s) s
  match laneFault outs, watchHit c.g w sp.size accs with
  | none, none =>
    if accs.isEmpty then completeOnly s c
    else if accessHeld s c || rejectedMeets s c (accs.map fun x => (x.phys.pa, sp.size)) then stallHere s c
    else k accs
  | some (cause, lanes, addr), none => trapAddr lost c cause lanes addr
  | fault, some (i, hit) =>
    match fault.filter fun f => decide (f.1.code < Cause.watch.code) with
    | some (cause, lanes, addr) => trapAddr lost c cause lanes addr
    | none =>
      .next (s.raise c.slot { TrapInfo.atAddr c.pc c.gang .watch (hit.map (·.lane)) ((hit.map (·.va)).headD 0) with
        sub := BitVec.ofNat 32 i })

/-- Whether an order has a release or an acquire. -/
def orderReleases : Order → Bool
  | .release | .acqRel => true
  | _ => false
def orderAcquires : Order → Bool
  | .acquire | .acqRel => true
  | _ => false

/-- A release has been made by what has just been done (R243). -/
def releasing (c : Ctx) (sc : Scope) : Out → Out
  | .next s => .next (s.markRelease c.slot sc)
  | r => r

/-- Wait until a release has nothing left to wait for (R244), then make it. -/
def withRelease (s : State) (c : Ctx) (sc : Option Scope) (k : Unit → Out) : Out :=
  match sc with
  | some sc =>
    if Gs.det c.g.modes.gs || s.releaseReady c.slot sc then releasing c sc (k ())
    else stallOn s c fun o => State.countsWrite o || State.returnsOld o
  | none => k ()

/-- The scope of an order's release, or of its acquire. -/
def releaseOf (ctl : Ctl) : Option Scope := if orderReleases ctl.order then some ctl.scope else none
def acquireOf (ctl : Ctl) : Option Scope := if orderAcquires ctl.order then some ctl.scope else none

/-- An operation as it starts. -/
def Op.start (c : Ctx) (kind : OpKind) (flag : FlagSel) : Op where
  slot := c.slot
  core := c.core
  pc := c.pc
  kind := kind
  flag := flag
  dst := none
  count := 0
  width := 0
  lanes := c.lanes
  strands := c.gang
  pieces := []
  results := []
  acq := none
  rel := none
  copy := none
  tile := none
  channel := none
  data := []
  aux := 0
  suspended := none

/-- An operation of an agent that is no group. -/
def Op.ofAgent : Op where
  slot := 0
  core := 384
  pc := 0
  kind := .cancelJob
  flag := none
  dst := none
  count := 0
  width := 0
  lanes := []
  strands := []
  pieces := []
  results := []
  acq := none
  rel := none
  copy := none
  tile := none
  channel := none
  data := []
  aux := 0
  suspended := none

/-- The waits of a store of the group (R167, R168, R206): for its own copies and TSTOREs that it
meets, and for the forces of the live nodes whose sources it meets, one whole after the other in ascending
index. The set of those nodes is fixed when the check is first made: the strands keep it while they stall. -/
def withAliases (s : State) (c : Ctx) (stores : List Span) (k : Unit → Out) : Out :=
  if engineBusy s c.slot stores then stallHere s c
  else
    let set := (c.g.aliasing c.gang).getD (aliasSet c.g.thunks stores)
    match unforcedOf c.g.thunks set with
    | [] => k ()
    | e :: _ =>
      let s := s.modGroup c.slot fun g => g.modStrands c.gang fun _ t => { t with aliasing := some set }
      match s.startForce c.slot (Op.start c .tforce none) true e with
      | some s' => stallHere (if s'.ids = s.ids then s' else s'.changed) c
      | none =>
        .next (s.raise c.slot { TrapInfo.at c.pc c.gang .thkfull (c.g.execLanes c.gang) with
          node := handleOf (c.g.thunks.gen e) e })

/-- The bytes that lanes store to, as written (R167). -/
def laneSpans (n : Nat) (accs : List LaneAcc) : List Span :=
  accs.map fun x => { scr := false, addr := x.va, len := n }

/-! ## Requests (R201, R261) -/

/-- Whether a slice can take a request into an entry: a free entry or one for its region, and a free
slot, and no earlier request to the region outside (R201). -/
def State.mayAdmit (s : State) (slice addr : Nat) : Bool :=
  let mine := s.mem.reqs.filter fun p => p.2.slice == slice
  let taken := mine.filter fun p => p.2.admitted
  decide (taken.length < 2048) &&
  (taken.any (fun p => regionBase p.2.addr == regionBase addr) ||
    decide ((taken.map fun p => regionBase p.2.addr).eraseDups.length < 256)) &&
  !mine.any fun p => !p.2.admitted && regionBase p.2.addr == regionBase addr

/-- Send a request to the home slice of its address. -/
def State.send (s : State) (r : Req) : State :=
  let slice := homeSlice r.addr
  let (id, s) := s.fresh
  let r := { r with slice := slice, admitted := s.mayAdmit slice r.addr }
  { s with mem := { s.mem with reqs := s.mem.reqs.put id (some r) } }

/-- Send a list of requests in order. -/
def State.sendAll (s : State) (rs : List Req) : State := rs.foldl State.send s

/-- Requests sent by a group: at once, or in deterministic operation into its buffer (R250). -/
def State.sendOrBuffer (s : State) (c : Ctx) (rs : List Req) : State :=
  if Gs.det c.g.modes.gs then
    s.modGroup c.slot fun g => { g with det := { g.det with buffer := g.det.buffer ++ rs.map .request } }
  else s.sendAll rs

/-- A deterministic group's instruction that ends its quantum early (R292). -/
def endEarly (c : Ctx) : Out → Out
  | .next s => .next (s.modGroup c.slot Group.endQuantum)
  | r => r

/-- A piece that nothing has fixed yet. -/
def Piece.start (x : LaneAcc) (n : Nat) (lanes : List Nat) : Piece where
  addr := x.phys.pa
  vaddr := x.va
  size := n
  grain := x.phys.grain
  lanes := lanes
  data := none
  poison := false
  sent := false
  fill := false
  parts := []
  laid := []
  read := 0

/-- Accesses with equal addresses together, each with its lanes in ascending order (R252). -/
def byAddress (accs : List LaneAcc) : List (LaneAcc × List Nat) :=
  ((accs.map (·.phys.pa)).eraseDups).filterMap fun pa =>
    let same := accs.filter fun x => x.phys.pa == pa
    same.head?.map fun x => (x, same.map (·.lane))

/-! ## Reads that may stand in pending lists (R223) -/

/-- Whether a piece has its bytes, or never gets them. -/
def Piece.over (q : Piece) : Bool := q.data.isSome || (q.poison && q.parts.isEmpty)

/-- A read of some runs of bytes at the home slices for part `key` of an operation `id` of a group, with their
bytes and whether poison is among them: at once, but for words that `held` names, which may stand in pending
lists as LDs; then nothing yet, and the read is under way until they have left them (R223, R226). -/
def State.lateRead (s : State) (o : Op) (id key keeps : Nat) (rs held : List (Nat × Nat)) :
    Option (List Byte × Bool) × State :=
  match s.mem.ops.find? fun p => p.2.kind == .engineRead && p.2.slot == o.slot && p.2.aux == id && p.2.count == key with
  | some (rid, x) =>
    if x.pieces.all fun q => q.data.isSome then
      (some (x.pieces.flatMap fun q => q.data.getD [], x.pieces.any (·.poison)), s.putOp rid none)
    else (none, s)
  | none =>
    if rs.all fun r => (s.holdable 16 r.1 r.2 held).isEmpty then
      let x := rs.foldl (fun (acc : List Byte × Bool × State) r =>
        let x := acc.2.2.homeRead r.1 r.2 keeps
        (acc.1 ++ x.1, acc.2.1 || x.2.mem.poisoned r.1 r.2, x.2)) ([], false, s)
      (some (x.1, x.2.1), x.2.2)
    else
      let (rid, s) := s.fresh
      let pieces := rs.map fun r =>
        Piece.start { lane := 0, va := 0, phys := { pa := r.1, grain := 0, efmt := 0, geo := 0, page := 0, via := none } } r.2 []
      let s := s.putOp rid (some { o with
        kind := .engineRead, flag := none, rel := none, copy := none, tile := none, aux := id, count := key, pieces := pieces })
      (none, ((rs.mapIdx fun i r => (i, r)).foldl (fun s p => s.readInto rid p.1 p.2.1 p.2.2 keeps held) s).changed)

/-- How many operations a read passes, and which of its words stand as LDs, where no turn says so: free choices
of the step (R223, R227). -/
def State.freeKeeps (s : State) (use : Nat) : Nat := Config.choice s.time.tick (use + 3000)
def State.freeHeld (s : State) (use a n : Nat) : List (Nat × Nat) :=
  let k := Config.choice s.time.tick (use + 4000)
  wordsWithin (if k % 3 = 0 then 0 else if k % 3 = 1 then 4 else 8) a n

/-! ## The buffer of a deterministic group (R250) -/

/-- The slice whose table a MOP or MOPR reads: the one that passes it on, or its home (R230). -/
def Req.tableSlice (r : Req) : Nat :=
  match r.kind with
  | .mop _ _ _ _ _ via => via.getD (homeSlice r.addr)
  | _ => homeSlice r.addr

/-- Apply a buffered item to memory as the group's own loads see it. -/
def overlayItem (table : Nat → Option Table) (m : Mem) : DetItem → Mem
  | .write a _ b => (m.write a b).clearPoison a b.length
  | .request r =>
    match r.kind with
    | .write b => (m.write r.addr b).clearPoison r.addr b.length
    | .atomic fn et _ x cmp _ =>
      m.write r.addr (leBytes r.size (atomFn fn et (leNat (m.read r.addr r.size)) x cmp))
    | .mop slot cls d x _ _ =>
      let d := match table slot with
        | some t => if (t.cls cls).valid then t.cls cls else d
        | none => d
      m.write r.addr (leBytes r.size (classFn d.fn d.et d.rm (leNat (m.read r.addr r.size)) x))
    | _ => m
  | .poison false sector => m.addPoison sector
  | _ => m

/-- Memory as it stood when the quanta of a deterministic round began (R250). -/
def State.roundMem (s : State) (launch : Nat) : Mem :=
  { s.mem with bytes := ((s.launch launch).map (·.base)).getD [], dirty := [], queue := [] }

/-- Memory as the loads of a deterministic group see it: that of the round's start, overlaid by its buffer
(R250; log 20). -/
def State.detView (s : State) (g : Group) : Mem :=
  g.det.buffer.foldl (fun m i => match i with
    | .request r => overlayItem (fun slot => s.table r.tableSlice slot) m i
    | i => overlayItem (fun _ => none) m i) (s.roundMem g.launch)

/-- Whether bytes that a group reads at the home slice are poisoned, for a deterministic group as it sees
them (R250, R324). -/
def State.readPoison (s : State) (g : Group) (n : Nat) (p : Phys) : Bool :=
  if Gs.det g.modes.gs then (s.detView g).poisoned p.pa n else s.mem.poisoned p.pa n

end Sys2Proof.Machine
end

