-- ==== Sys2Proof/Machine/LoadStore.lean ====
section
/-!
DEFINITION. LD, LDB and ST (R379, R380, R409, R410), and the events that serve them: reads and writes at
the home slice (R197, R241), updates and their acknowledgements (R197, R263), drop notices (R196),
replay of rejected misses (R200), ingress (R201), landing (R70) and store acknowledgement (R244).
-/
namespace Sys2Proof.Machine

open Sys2Proof

/-! ## Serving a load (R197, R198, R251, R380) -/

/-- Fills in flight of a core: operation and piece. -/
def State.fills (s : State) (c : Nat) : List (Nat × Op × Piece) :=
  s.mem.ops.flatMap fun p =>
    if p.2.core == c && p.2.kind == .load && !p.2.bypass then
      (p.2.pieces.filter fun q => q.sent && q.data.isNone && !q.poison).map fun q => (p.1, p.2, q)
    else []

/-- The miss-status entries of a core that are in use: one for each sector in flight (R200). -/
def State.missEntries (s : State) (c : Nat) : List Nat := ((s.fills c).map fun p => sectorOf p.2.2.addr).eraseDups

/-- Whether a core has an entry for a miss: one for its sector, or a free one that no rejected
access waits for (R200). -/
def State.missFree (s : State) (c sector : Nat) (first : Bool) : Bool :=
  let es := s.missEntries c
  (first || (s.core c).rejected.isEmpty) && (es.contains sector || decide (es.length < 64))

/-- Whether an operation acts at the home slice on some bytes (R198, R245), or on their region (R246). -/
def Op.atHome (o : Op) (q : Piece) (a n : Nat) : Bool :=
  match o.kind with
  | .atomic | .atomicNoReturn | .mop | .mopr => meets q.addr q.size a n
  | .message => meets (regionBase q.addr) 512 a n
  | _ => false

/-- A load of a group as it is served: its name, slot and core, whether it is an LDB, and its bytes. -/
structure Serve where
  id     : Nat
  slot   : Nat
  core   : Nat
  bypass : Bool
  addr   : Nat
  size   : Nat
  grain  : Nat

/-- Piece `q` of a load, as it is served. -/
def Op.serve (o : Op) (id : Nat) (q : Piece) : Serve :=
  { id := id, slot := o.slot, core := o.core, bypass := o.bypass, addr := q.addr, size := q.size, grain := q.grain }

/-- Whether an operation at the home slice on the load's bytes keeps a load of a CG ≥ 1 page from L1: one of its
own group, or of a group that has released it to this one (R239, R243). On a CG-0 page the core's copy has left
when the operation issued, and one that has come since was read after the operation (R198). -/
def behindAtomic (s : State) (g : Group) (v : Serve) : Bool :=
  v.grain != 0 && s.mem.ops.any fun p => p.2.core == v.core && (p.2.pieces.any fun r =>
    p.2.atHome r v.addr v.size && (p.2.slot == v.slot || s.handedOn g p.2.slot p.1))

/-- Whether a store that still stands in the core's write buffer has been performed. -/
def State.performed (s : State) (op i : Nat) : Bool :=
  !(s.mem.reqs.any fun r => r.2.op == op && r.2.piece == i) &&
  !(s.mem.pending.any fun p => match p with
    | .st _ _ ops .. => ops.contains op
    | _ => false)

/-- Whether the group has acquired since a store was issued that the write buffer still holds though it has been
performed: another core's write that came after it there may have been released to the group (R243). -/
def behindAcquire (s : State) (g : Group) (v : Serve) : Bool :=
  (s.buffered v.core).any fun p => decide (p.1 < g.view.acquired) && meets p.2.2.addr p.2.2.size v.addr v.size &&
    (List.range p.2.1.pieces.length).any fun i =>
      ((p.2.1.pieces[i]?).map (·.addr)) == some p.2.2.addr && s.performed p.1 i

/-- Whether an update is on its way to the core for a byte that the group has seen as of a later time, and what
the core holds lacks it: its L1 copy, or a buffered store that the update brings back (R239). -/
def behindUpdate (s : State) (g : Group) (v : Serve) : Bool :=
  s.mem.updates.any fun u => u.2.cores.contains v.core && meets u.2.addr u.2.bytes.length v.addr v.size &&
    (u.2.ops.any (fun id => (s.buffered v.core).any fun p => p.1 == id) ||
      (match s.l1Find v.core v.addr v.grain with
       | some e => decide (e.since < u.1)
       | none => false)) &&
    (List.range v.size).any fun i =>
      decide (u.2.addr ≤ v.addr + i ∧ v.addr + i < u.2.addr + u.2.bytes.length ∧ u.1 ≤ g.view.floor (v.addr + i))

/-- Whether an earlier load of the group has no value yet for a byte of this one (R239). An LDB on a CG-0
page gives no order (R239). -/
def behindLoad (s : State) (v : Serve) : Bool :=
  s.mem.ops.any fun p => decide (p.1 < v.id) && p.2.slot == v.slot && p.2.kind == .load &&
    !(p.2.bypass && v.grain == 0) &&
    p.2.pieces.any fun r => r.data.isNone && !r.poison && meets r.addr r.size v.addr v.size

/-- Whether a load must not be served from L1 and the write buffer now: it waits where its sector is valid in L1,
since nothing but what R251 lists takes a valid sector away, and goes to the home slice where it is not (log 18). -/
def mustMiss (s : State) (g : Group) (v : Serve) : Bool :=
  behindAtomic s g v || behindAcquire s g v || behindUpdate s g v || behindLoad s v

/-- The buffered stores that a load may take: LDB those of its own group only (R380). -/
def State.forwards (s : State) (v : Serve) : List (Nat × Op × Piece) :=
  (s.buffered v.core).filter fun p => !v.bypass || p.2.1.slot == v.slot

/-- The bytes that a load takes from its core now: L1 overlaid by the write buffer, or the write
buffer alone where it holds them all (R197, R380). -/
def servedNow (s : State) (g : Group) (v : Serve) : Option (List Byte) :=
  if mustMiss s g v then none
  else
    let base : List (Option Byte) := match (if v.bypass then none else s.l1Find v.core v.addr v.grain) with
      | some e => (sliceBytes e.addr e.bytes v.addr v.size).map some
      | none => List.replicate v.size none
    let all := bufferOver v.addr v.size (s.forwards v) base
    if all.all Option.isSome then some (all.filterMap id) else none

/-- The group has read stores of other groups from its core's write buffer (R248). -/
def State.borrow (s : State) (v : Serve) : State :=
  let hit := (s.forwards v).filter fun p => p.2.1.slot != v.slot && meets p.2.2.addr p.2.2.size v.addr v.size
  s.modGroup v.slot fun g => { g with view := { g.view with
    borrowed := hit.foldl (fun n p => Nat.max n p.1) g.view.borrowed } }

/-- A group that reads a byte from L1 has seen it as of when the copy was current (R239, R243). -/
def State.seeHit (s : State) (o : Op) (q : Piece) : State :=
  match (if o.bypass then none else s.l1Find o.core q.addr q.grain) with
  | some e => s.seeBytes o.slot q.addr q.size e.since
  | none => s

/-- The request for a piece of a load. -/
def loadReq (id i : Nat) (o : Op) (q : Piece) : Req where
  src := .core o.core
  slice := 0
  addr := q.addr
  size := q.size
  grain := q.grain
  kind := .read (!o.bypass)
  op := id
  piece := i
  admitted := false

/-- Whether a load's sector is valid in its core's L1. -/
def State.valid (s : State) (v : Serve) : Bool := !v.bypass && (s.l1Find v.core v.addr v.grain).isSome

/-- Whether a load's sector is valid in L1, and poisoned there (R324). -/
def State.spoilt (s : State) (v : Serve) : Bool :=
  !v.bypass && (s.l1Find v.core v.addr v.grain).any (·.poison)

/-- Serve piece `i` of a load: now, poison with it (R324), by a request, or not at all, for want of a miss-status
entry or while a valid sector may not serve it. -/
def State.servePiece (first : Bool) (id : Nat) (s : State) (i : Nat) : State :=
  match s.op id with
  | none => s
  | some o =>
    match s.group o.slot, o.pieces[i]? with
    | some g, some q =>
      let v := o.serve id q
      if q.sent || q.data.isSome then s
      else match servedNow s g v with
        | some d => (((s.l1Touch o.core q.addr).borrow v).seeHit o q).modPiece id i fun q =>
            { q with data := some d, poison := s.spoilt v }
        | none =>
          if s.valid v then s
          else if o.bypass || s.missFree o.core (sectorOf q.addr) first then
            (s.modPiece id i fun q => { q with sent := true, fill := !o.bypass }).send (loadReq id i o q)
          else s
    | _, _ => s

/-- Whether an operation still has pieces that nothing has served. -/
def Op.unserved (o : Op) : Bool := o.pieces.any fun q => !q.sent && q.data.isNone

/-- Serve every piece of a load; what no entry is free for is rejected (R200). -/
def State.serveLoad (s : State) (id n : Nat) : State :=
  let s := (List.range n).foldl (State.servePiece false id) s
  match s.op id with
  | some o =>
    if o.unserved then
      let x := s.core o.core
      s.setCore o.core { x with rejected := x.rejected ++ [id] }
    else s
  | none => s

/-- A load of an execution, as it would be served at issue. -/
def Ctx.serve (s : State) (c : Ctx) (bypass : Bool) (n : Nat) (p : Phys) : Serve :=
  { id := s.ids, slot := c.slot, core := c.core, bypass := bypass, addr := p.pa, size := n, grain := p.grain }

/-- Whether the data that a load would read now are poisoned: in L1 where L1 serves it, else at the home
slice (R11, R379; log 19). -/
def loadPoison (s : State) (c : Ctx) (bypass : Bool) (n : Nat) (p : Phys) : Bool :=
  let v := Ctx.serve s c bypass n p
  if Gs.det c.g.modes.gs || !s.valid v then s.readPoison c.g n p
  else s.spoilt v

/-- Whether a load has to wait: its sector is valid in L1, but may not serve it yet (R239, R251; log 18). -/
def loadWaits (s : State) (c : Ctx) (bypass : Bool) (n : Nat) (p : Phys) : Bool :=
  let v := Ctx.serve s c bypass n p
  !Gs.det c.g.modes.gs && s.valid v && mustMiss s c.g v

/-- LD and LDB (R379, R380). -/
def load (bypass : Bool) (d a : Reg) (ctl : Ctl) (s : State) : Out :=
  checked s (fun _ => Needs.regs [dataOpnd d ctl.width, .two a]) fun c =>
    let n := widthBytes ctl.width
    withLanes s c a { size := n, rights := .read, deny := fun _ => false, bad := loadPoison s c bypass n,
                      reach := true } .rd fun accs =>
      if accs.any fun x => loadWaits s c bypass n x.phys then stallHere s c
      else
        let s := s.noted c accs
        let det := Gs.det c.g.modes.gs
        let pieces := (byAddress accs).map fun x =>
          let q := Piece.start x.1 n x.2
          if det then { q with data := some ((s.detView c.g).read q.addr n) } else q
        let (id, s) := s.fresh
        let s := s.putOp id (some { Op.start c .load c.flagA with
          dst := some d, count := widthRegs ctl.width, width := n, pieces := pieces, acq := acquireOf ctl
          aux := if bypass then 1 else 0 })
        completeOnly (s.serveLoad id pieces.length) c

/-- LD (R379). -/
def execLd (d a : Reg) (ctl : Ctl) (s : State) : Out := load false d a ctl s

/-- LDB (R380). -/
def execLdb (d a : Reg) (ctl : Ctl) (s : State) : Out := load true d a ctl s

/-! ## ST (R409, R410) -/

/-- The bytes that an execution stores, one write for each address: the highest lane's (R409). -/
def laneStores (g : Group) (d : Reg) (n : Nat) (accs : List LaneAcc) : List (LaneAcc × List Nat × List Byte) :=
  (byAddress accs).map fun x => (x.1, x.2, g.dataBytes d n (x.2.getLastD x.1.lane))

/-- A store at its core, as it issues: on a CG-0 page it updates the core's L1 copy and the fills in flight (R198). That
a store is no use of its region for the bound of R251, as loads and fetches are, is the model's choice (log 9). -/
def State.storeL1 (s : State) (c a grain : Nat) (bytes : List Byte) : State :=
  let s := s.dropTwin c a grain
  if grain = 0 then
    (s.mapL1 c fun e => if e.addr == sectorOf a then e.lay a bytes else e).mapFills c fun q =>
      if q.sent && sectorOf q.addr == sectorOf a then { q with laid := overBytes q.laid a bytes } else q
  else s

/-- ST (R409): nothing is sent where an access cannot be delivered (R317). -/
def execSt (d a : Reg) (ctl : Ctl) (s : State) : Out :=
  checked s (fun _ => Needs.regs [dataOpnd d ctl.width, .two a]) fun c =>
    let n := widthBytes ctl.width
    withLanes s c a { size := n, rights := .write, deny := fun _ => false, bad := fun _ => false,
                      reach := false } .wr fun accs =>
      withAliases s c (laneSpans n accs) fun _ =>
        withRelease s c (releaseOf ctl) fun _ =>
          let s := s.noted c accs
          let ws := (laneStores c.g d n accs).filter fun w => s.deliverable w.1.phys.pa
          if Gs.det c.g.modes.gs then
            completeOnly (s.modGroup c.slot fun g => { g with det := { g.det with
              buffer := g.det.buffer ++ ws.map fun w => .write w.1.phys.pa w.1.phys.grain w.2.2 } }) c
          else
            let s := ws.foldl (fun s w => s.storeL1 c.core w.1.phys.pa w.1.phys.grain w.2.2) s
            let (id, s) := s.fresh
            let s := s.putOp id (some { Op.start c .store none with
              pieces := ws.map fun w => { Piece.start w.1 n w.2.1 with
                data := some w.2.2, sent := w.1.phys.grain != 0 }
              rel := releaseOf ctl })
            let s := s.sendAll (ws.mapIdx fun i w =>
              { src := .core c.core, slice := 0, addr := w.1.phys.pa, size := n, grain := w.1.phys.grain,
                kind := .write w.2.2, op := id, piece := i, admitted := false })
            completeOnly s c

/-! ## The home slice -/

namespace State

/-- Whether a request is one half of a bf16x2 word and another the other half: an atomic on each of its own
(R231, R256). -/
def otherHalf (a b : Req) : Bool :=
  a.op == b.op && !meets a.addr a.size b.addr b.size && (match a.kind with
    | .atomic _ _ half .. => half
    | _ => false)

/-- A request that its slice can serve: admitted, none of the same source to its region earlier, but for the
other half of its own word, and no handler on its region (R201, R231, R261, R270). -/
def servable (s : State) (id : Nat) : Option Req :=
  match s.mem.reqs.find id with
  | some r =>
    if r.admitted && !s.regionHeld r.addr r.size && !(s.mem.reqs.any fun p => decide (p.1 < id) && p.2.src == r.src &&
        regionBase p.2.addr == regionBase r.addr && !otherHalf p.2 r) then some r else none
  | none => none

def dropReq (s : State) (id : Nat) : State := { s with mem := { s.mem with reqs := s.mem.reqs.put id none } }


end State

/-- The cores of a request's source, which an update returns to (R197). -/
def Agent.cores : Agent → List Nat
  | .core c => [c]
  | _ => []

/-- A request that can no longer be delivered: a read or an old value comes back as from a poisoned word, and
what would write is discarded; the steward logs it (R317). -/
def State.failReq (s : State) (id : Nat) (r : Req) : State :=
  let s := (s.dropReq id).log (match r.src with
    | .core c | .engine c => c
    | _ => homeSlice r.addr) [16, r.addr]
  let returns := match r.kind with
    | .read _ => true
    | .atomic _ _ _ _ _ ret => ret
    | .mop _ _ _ _ ret _ => ret
    | _ => false
  (if returns then s.spoilPiece r.op r.piece else s).changed

/-- SLICE_READ (R241): the value of a load is fixed at this moment, but for words that `input.values` names (by
address and size) as LDs that stay in a pending list. A fill reads its whole sector. -/
def execSliceRead (req keeps : Nat) (s : State) : Out :=
  match s.servable req with
  | some r =>
    match r.kind, s.op r.op with
    | .read fill, some _ =>
      if !s.deliverable r.addr then .next (s.failReq req r)
      else .next ((s.dropReq req).readInto r.op r.piece (if fill then sectorOf r.addr else r.addr)
        (if fill then 32 else r.size) keeps (wordPairs s.input.values)).changed
    | .read _, none => .next (s.dropReq req)
    | _, _ => .next s
  | none => .next s

/-- SLICE_WRITE (R197): a store is performed at its home slice, or stays in the pending lists of the words that
`input.values` names (R226). -/
def execSliceWrite (req : Nat) (s : State) : Out :=
  match s.servable req with
  | some r =>
    match r.kind with
    | .write bytes =>
      if !s.deliverable r.addr then .next (s.failReq req r)
      else .next ((s.dropReq req).homeWrite r.addr bytes r.grain r.src.cores [r.op] (wordPairs s.input.values)).changed
    | _ => .next s
  | none => .next s


/-- UPDATE_APPLY (R197): updates of one slice to one core in the order sent, since they are one stream (R261,
R262); one that meets no sector is dropped. The writing core's buffer lets go. -/
def execUpdateApply (upd core : Nat) (s : State) : Out :=
  match s.mem.updates.find upd with
  | some u =>
    if u.cores.contains core && !(s.mem.updates.any fun p => decide (p.1 < upd) && p.2.cores.contains core &&
        homeSlice p.2.addr == homeSlice u.addr) then
      let n := u.bytes.length
      let s := s.mapL1 core fun e =>
        if meets e.addr 32 u.addr n && decide (e.since ≤ upd) then
          let e' := e.lay u.addr u.bytes
          { e' with since := upd, poison := e'.poison || u.poison } else e
      let s := { s with mem := { s.mem with
        updates := s.mem.updates.put upd (some { u with cores := u.cores.filter (· != core) }) } }
      let s := u.ops.foldl (fun s id => match s.op id with
        | some o => if o.core = core ∧ o.kind = .store then s.leaveBuffer id u.addr else s
        | none => s) s
      .next s.changed
    else .next s
  | none => .next s

/-- Whether the sharers behind a station have applied an update (R263). -/
def stationReady (u : Update) (station : Nat) : Bool :=
  if station = homeStation then u.cores.isEmpty && u.stations.all (· == homeStation)
  else !u.cores.any fun c => coreStation c == station && coreDie c != sliceDie (homeSlice u.addr)

/-- UPDATE_ACK (R263): a station acknowledges when its cores have applied the update, and the home
slice when every core and station has. -/
def execUpdateAck (upd station : Nat) (s : State) : Out :=
  match s.mem.updates.find upd with
  | some u =>
    if u.stations.contains station && stationReady u station then
      let u' := if station = homeStation then none
        else some { u with stations := u.stations.filter (· != station) }
      .next ({ s with mem := { s.mem with updates := s.mem.updates.put upd u' } }.recheck fun _ => true).changed
    else .next s
  | none => .next s

/-- DROP_NOTICE (R196): the sharer bit of a core that holds no sector of the unit is cleared. The unit
is named by its directory key. -/
def execDropNotice (core unit : Nat) (s : State) : Out :=
  match s.mem.dir.find unit with
  | some d =>
    let a := unit / 4
    let held := (s.core core).l1.any fun e => meets e.addr 32 a d.size
    if d.cores.contains core && !held then
      let cores := d.cores.filter (· != core)
      .next { s with mem := { s.mem with
        dir := s.mem.dir.put unit (if cores.isEmpty then none else some { d with cores := cores }) } }.changed
    else .next s
  | none => .next s

/-- L1_MISS_REPLAY (R200): the access rejected earliest takes the entries that are free. -/
def execL1MissReplay (core : Nat) (s : State) : Out :=
  match (s.core core).rejected with
  | [] => .next s
  | id :: ids =>
    match s.op id with
    | none => .next (s.setCore core { s.core core with rejected := ids }).changed
    | some o =>
      let s' := (List.range o.pieces.length).foldl (State.servePiece true id) s
      match s'.op id with
      | some o' =>
        if o'.unserved then .next (if s'.ids = s.ids then s else s'.changed)
        else .next (s'.setCore core { s'.core core with rejected := ids }).changed
      | none => .next s'

/-- SLICE_INGRESS_ADMIT (R201): the first waiting request that now has an entry and a slot. -/
def execSliceIngressAdmit (slice : Nat) (s : State) : Out :=
  let fits (p : Nat × Req) : Bool :=
    p.2.slice == slice && !p.2.admitted &&
    State.mayAdmit { s with mem := { s.mem with reqs := s.mem.reqs.filter fun q => q.2.admitted || decide (q.1 < p.1) } }
      slice p.2.addr
  match s.mem.reqs.find? fits with
  | some p => .next { s with mem := { s.mem with reqs := s.mem.reqs.update p.1 fun r => { r with admitted := true } } }.changed
  | none => .next s

/-! ## Completion -/

/-- The registers' words that some bytes fill, zero-extended (R379). -/
def wordsOf (count : Nat) (bytes : List Byte) : List Word :=
  (List.range count).map fun i => BitVec.ofNat 32 (leNat ((bytes.drop (4 * i)).take 4))

/-- Write each lane its data, low piece first; a lane with a poisoned piece is not written (R70, R334,
R379). -/
def Group.land (g : Group) (d : Reg) (count : Nat) (lanes : List Nat) (ps : List Piece) : Group :=
  lanes.foldl (fun g l =>
    let mine := ps.filter fun q => q.lanes.contains l
    if mine.any (·.poison) then g
    else g.setWords d.toNat l (wordsOf count (mine.flatMap fun q => q.data.getD []))) g


/-- The imprecise MEMERR of an operation whose words are poisoned (R225, R334, R345). -/
def State.poisonTrap (s : State) (o : Op) (ps : List Piece) : State :=
  let lanes := (ps.filter (·.poison)).flatMap (·.lanes)
  match lanes with
  | [] => s
  | l :: ls =>
    let low := ls.foldl Nat.min l
    let addr := ((ps.find? fun q => q.poison && q.lanes.contains low).map (·.vaddr)).getD 0
    s.raise o.slot { TrapInfo.atAddr o.pc [] .memerr [] addr with lanes := laneMask lanes }

/-- Land an operation's results: registers, none of a load that has failed (R379), its acquire, and what a
poisoned word brings. -/
def State.landOp (s : State) (id : Nat) (o : Op) : State :=
  let seen (g : Group) (q : Piece) : Piece :=
    if o.kind = .scratchLoad then q else { q with data := q.data.map (s.seenBytes g.launch q.vaddr) }
  let failed := o.kind == .load && o.pieces.any (·.poison)
  let s := match o.dst with
    | some d => if failed then s else s.modGroup o.slot fun g => g.land d o.count o.lanes (o.pieces.map (seen g))
    | none => s
  let s := match o.acq with
    | some sc => s.acquire o.slot sc
    | none => s
  ((s.finishOp id).poisonTrap o o.pieces).changed

/-- LOAD_LANDING (R70): every lane of the load at once. -/
def execLoadLanding (op : Nat) (s : State) : Out :=
  match s.op op with
  | some o =>
    if (o.kind = .load ∨ o.kind = .scratchLoad) ∧ (o.pieces.all fun q => q.data.isSome || q.poison) then
      .next (s.landOp op o)
    else .next s
  | none => .next s

/-- Whether anything on its way names an operation. -/
def State.inFlight (s : State) (op : Nat) : Bool :=
  (s.mem.reqs.any fun r => r.2.op == op) || (s.mem.updates.any fun u => u.2.ops.contains op) ||
  s.mem.pending.any fun p => match p with
    | .mop _ _ _ _ _ _ ops .. => ops.contains op
    | .st _ _ ops .. => ops.contains op
    | .ld _ _ o _ => o == op

/-- STORE_ACK (R197, R225, R335): every write of the operation has been applied and acknowledged. -/
def execStoreAck (op : Nat) (s : State) : Out :=
  match s.op op with
  | some o =>
    if State.countsWrite o && !s.inFlight op then .next (s.finishOp op).changed else .next s
  | none => .next s

end Sys2Proof.Machine
end

