-- ==== Sys2Proof/Machine/Atomics.lean ====
section
/-!
DEFINITION. ATOM, ATOMN and CAS (R332 to R335, R343 to R345), MOP and MOPR (R224, R225, R230), and their
events: the atomic at the home slice (R245), a step on a pending list (R226, R227), and the returns.
-/
namespace Sys2Proof.Machine

open Sys2Proof

/-! ## What the atomics share -/

/-- The element type of an atomic, none where GM.ET is not admitted (R332). -/
def atomEt (fn : AtomFn) (w : Width) (gm : Word) : Option ElemType :=
  let wide := w == .b64
  match fn with
  | .add => (Gm.et gm).filter fun t =>
      if wide then t == .i64 || t == .n64 else t == .i32 || t == .n32 || t == .f32 || t == .bf16x2
  | .min | .max => (Gm.et gm).filter fun t =>
      if wide then t == .i64 || t == .n64 else t == .i32 || t == .n32
  | _ => some (if wide then .n64 else .n32)

/-- Host addresses that an atomic turns away (R195, R333): all but add of integers and, with
return, xchg, and CAS. -/
def hostDenies (fn : AtomFn) (et : ElemType) (ret : Bool) (pa : Nat) : Bool :=
  regionOf pa == .host && !(match fn with
    | .add => !et.isFloat
    | .xchg => ret
    | .cas => true
    | _ => false)

/-- The two halves of a bf16x2 word, or the word whole (R231): offset and size. -/
def atomParts (fn : AtomFn) (et : ElemType) (n : Nat) : List (Nat × Nat) :=
  if fn == .add && et == .bf16x2 then [(0, 2), (2, 2)] else [(0, n)]

/-- A CG-0 word's sector leaves the core's L1, and fills in flight do not bring it back (R198); of another word's only
a copy that pages of CG 0 would find leaves. -/
def State.dropOwnCopy (s : State) (c pa grain : Nat) : State :=
  if grain = 0 then
    (s.l1Keep c fun e => e.addr != sectorOf pa).mapFills c fun q =>
      if sectorOf q.addr == sectorOf pa then { q with fill := false } else q
  else s.dropTwin c pa grain

/-- One word of an atomic: where, for which lanes, its operand and compare value. -/
structure AtomWord where
  acc     : LaneAcc
  lanes   : List Nat
  operand : Nat
  compare : Nat

/-- The pieces and the requests of an atomic's words, in order. -/
def atomPieces (fn : AtomFn) (et : ElemType) (n : Nat) (ws : List AtomWord) : List (AtomWord × Nat × Nat) :=
  ws.flatMap fun w => (atomParts fn et n).map fun p => (w, p.1, p.2)

/-- Send an atomic: the operation, its pieces and one request for each (R333, R335, R344). One that
cannot be delivered is not applied, as on a poisoned word (R317, R334; log 35). -/
def sendAtomic (s : State) (c : Ctx) (fn : AtomFn) (et : ElemType) (n : Nat) (ret : Bool) (o : Op)
    (ws : List AtomWord) : Out :=
  let parts := atomPieces fn et n ws
  let s := ws.foldl (fun s w => s.dropOwnCopy c.core w.acc.phys.pa w.acc.phys.grain) s
  let (id, s) := s.fresh
  let s := s.putOp id (some { o with
    pieces := parts.map fun p =>
      { Piece.start p.1.acc p.2.2 p.1.lanes with
        addr := p.1.acc.phys.pa + p.2.1, poison := !s.deliverable p.1.acc.phys.pa } })
  let reqs := parts.mapIdx fun i p =>
    { src := .core c.core, slice := 0, addr := p.1.acc.phys.pa + p.2.1, size := p.2.2, grain := p.1.acc.phys.grain
      kind := .atomic fn et (p.2.2 == 2) (p.1.operand / 2 ^ (8 * p.2.1) % 2 ^ (8 * p.2.2)) p.1.compare ret
      op := id, piece := i, admitted := false : Req }
  completeOnly (s.sendOrBuffer c (reqs.filter fun r => s.deliverable r.addr)) c

/-- The checks that an atomic's lanes pass (R333). -/
def atomSpec (fn : AtomFn) (et : ElemType) (n : Nat) (ret : Bool) : AccSpec :=
  { size := n, rights := .both, deny := hostDenies fn et ret, bad := fun _ => false, reach := false }

/-- An atomic that returns old values: each lane's operation in ascending order (R333, R344). -/
def atomReturning (fn : AtomFn) (d a : Reg) (ctl : Ctl) (dataRegs : Nat) (arg : Group → Nat → Nat × Nat)
    (s : State) : Out :=
  let n := widthBytes ctl.width
  checked s (fun gm => { Needs.regs [⟨d.toNat, dataRegs⟩, .two a] with mode := (atomEt fn ctl.width gm).isSome }) fun c =>
    let et := (atomEt fn ctl.width c.g.modes.gm).getD .n32
    withLanes s c a (atomSpec fn et n true) .op fun accs =>
      withAliases s c (laneSpans n accs) fun _ =>
        withRelease s c (releaseOf ctl) fun _ =>
          endEarly c (sendAtomic (s.noted c accs) c fn et n true
            { Op.start c .atomic c.flagA with
              dst := some d, count := widthRegs ctl.width, width := n, acq := acquireOf ctl, rel := releaseOf ctl }
            (accs.map fun x => { acc := x, lanes := [x.lane], operand := (arg c.g x.lane).1, compare := (arg c.g x.lane).2 }))

/-- ATOM (R333). -/
def atom (fn : AtomFn) (d a : Reg) (ctl : Ctl) (s : State) : Out :=
  let k := widthRegs ctl.width
  atomReturning fn d a ctl k (fun g l => ((g.read d.toNat k l).toNat, 0)) s

/-- CAS: the compare value in the low register or pair of d, the swap value in the high (R343, R344). -/
def execCas (d a : Reg) (ctl : Ctl) (s : State) : Out :=
  let k := widthRegs ctl.width
  atomReturning .cas d a ctl (2 * k)
    (fun g l => ((g.read (d.toNat + k) k l).toNat, (g.read d.toNat k l).toNat)) s

/-- The words that an ATOMN sends: the operands of the lanes of each word combined in ascending
lane order (R335, R256). -/
def atomCombined (fn : AtomFn) (et : ElemType) (k : Nat) (g : Group) (d : Reg) (accs : List LaneAcc) : List AtomWord :=
  (byAddress accs).map fun x =>
    let vals := x.2.map fun l => (g.read d.toNat k l).toNat
    { acc := x.1, lanes := x.2, operand := (vals.drop 1).foldl (fun o v => atomFn fn et o v 0) (vals.headD 0), compare := 0 }

/-- ATOMN (R335): what cannot be delivered is discarded (R317). -/
def atomn (fn : AtomFn) (d a : Reg) (ctl : Ctl) (s : State) : Out :=
  let n := widthBytes ctl.width
  let k := widthRegs ctl.width
  checked s (fun gm => { Needs.regs [⟨d.toNat, k⟩, .two a] with mode := (atomEt fn ctl.width gm).isSome }) fun c =>
    let et := (atomEt fn ctl.width c.g.modes.gm).getD .n32
    withLanes s c a (atomSpec fn et n false) .op fun accs =>
      withAliases s c (laneSpans n accs) fun _ =>
        withRelease s c (releaseOf ctl) fun _ =>
          sendAtomic (s.noted c accs) c fn et n false { Op.start c .atomicNoReturn none with width := n, rel := releaseOf ctl }
            ((atomCombined fn et k c.g d accs).filter fun w => s.deliverable w.acc.phys.pa)

/-- ATOM.add (R333). -/
def execAtomAdd (d a : Reg) (ctl : Ctl) (s : State) : Out := atom .add d a ctl s
/-- ATOM.min (R333). -/
def execAtomMin (d a : Reg) (ctl : Ctl) (s : State) : Out := atom .min d a ctl s
/-- ATOM.max (R333). -/
def execAtomMax (d a : Reg) (ctl : Ctl) (s : State) : Out := atom .max d a ctl s
/-- ATOM.and (R333). -/
def execAtomAnd (d a : Reg) (ctl : Ctl) (s : State) : Out := atom .and d a ctl s
/-- ATOM.or (R333). -/
def execAtomOr (d a : Reg) (ctl : Ctl) (s : State) : Out := atom .or d a ctl s
/-- ATOM.xor (R333). -/
def execAtomXor (d a : Reg) (ctl : Ctl) (s : State) : Out := atom .xor d a ctl s
/-- ATOM.xchg (R333). -/
def execAtomXchg (d a : Reg) (ctl : Ctl) (s : State) : Out := atom .xchg d a ctl s
/-- ATOMN.add (R335). -/
def execAtomnAdd (d a : Reg) (ctl : Ctl) (s : State) : Out := atomn .add d a ctl s
/-- ATOMN.min (R335). -/
def execAtomnMin (d a : Reg) (ctl : Ctl) (s : State) : Out := atomn .min d a ctl s
/-- ATOMN.max (R335). -/
def execAtomnMax (d a : Reg) (ctl : Ctl) (s : State) : Out := atomn .max d a ctl s
/-- ATOMN.and (R335). -/
def execAtomnAnd (d a : Reg) (ctl : Ctl) (s : State) : Out := atomn .and d a ctl s
/-- ATOMN.or (R335). -/
def execAtomnOr (d a : Reg) (ctl : Ctl) (s : State) : Out := atomn .or d a ctl s
/-- ATOMN.xor (R335). -/
def execAtomnXor (d a : Reg) (ctl : Ctl) (s : State) : Out := atomn .xor d a ctl s

/-! ## MOP and MOPR (R224, R225) -/

/-- The slot of a group's launch, and the descriptor of a class in the table installed there: global
slice 0 serialises installs (R217, R219). -/
def State.mopClass (s : State) (g : Group) (cls : Nat) : Option (Nat × ClassDesc) :=
  ((s.launch g.launch).bind (·.desc.slot)).bind fun slot =>
    (s.table 0 slot).bind fun t => if (t.cls cls).valid then some (slot, t.cls cls) else none

/-- The slot and the descriptor of the group that issues. -/
def State.issuingClass (s : State) (cls : Nat) : Option (Nat × ClassDesc) :=
  (s.group s.issue.slot).bind fun g => s.mopClass g cls

/-- MOP and MOPR: every active lane sends its operation, in ascending lane order (R224, R225). A MOP that
cannot be delivered is discarded; a MOPR is treated as on a poisoned word (R317, R225; log 35). That a class
that is not valid is a matter of the mode (step 5 of R118), which traps with no lane active too and names
the lanes in exec of the gang, is the model's choice (log 38). -/
def memOperator (ret : Bool) (d a : Reg) (cls : BitVec 4) (s : State) : Out :=
  let known := s.issuingClass cls.toNat
  let desc := (known.map (·.2)).getD ClassDesc.invalid
  let slot := (known.map (·.1)).getD 0
  let n := wordSize desc.et
  let k := n / 4
  checked s (fun _ => { Needs.regs [⟨d.toNat, k⟩, .two a] with mode := known.isSome }) fun c =>
    withLanes s c a { size := n, rights := .both, deny := fun pa => regionOf pa == .host, bad := fun _ => false,
                      reach := false } .op fun accs =>
      withAliases s c (laneSpans n accs) fun _ =>
        let s := s.noted c accs
        let accs := accs.filter fun x => ret || s.deliverable x.phys.pa
        let s := accs.foldl (fun s x => s.dropOwnCopy c.core x.phys.pa x.phys.grain) s
        let (id, s) := s.fresh
        let o : Op := if ret then { Op.start c .mopr c.flagA with dst := some d, count := k } else Op.start c .mop none
        let s := s.putOp id (some { o with width := n, pieces := accs.map fun x =>
          { Piece.start x n [x.lane] with poison := !s.deliverable x.phys.pa } })
        let reqs := accs.mapIdx fun i x =>
          { src := .core c.core, slice := 0, addr := x.phys.pa, size := n, grain := x.phys.grain
            kind := .mop slot cls.toNat desc (c.g.read d.toNat k x.lane).toNat ret
              (x.phys.via.or (if regionOf x.phys.pa = .hbm then none else some (homeSlice x.phys.pa)))
            op := id, piece := i, admitted := false : Req }
        let r := completeOnly (s.sendOrBuffer c (reqs.filter fun r => s.deliverable r.addr)) c
        if ret then endEarly c r else r

/-- MOP (R225): what cannot be delivered is discarded (R317). -/
def execMop (d a : Reg) (cls : BitVec 4) (_sc : Scope) (s : State) : Out := memOperator false d a cls s

/-- MOPR (R225). -/
def execMopr (d a : Reg) (cls : BitVec 4) (_sc : Scope) (s : State) : Out := memOperator true d a cls s

/-! ## At the home slice -/

/-- Perform an atomic request (R245): a returned value, or the mark of a poisoned word. -/
def State.doAtomic (s : State) (r : Req) : State :=
  match r.kind with
  | .atomic fn et half x cmp ret =>
    let et := if half then .bf16x2 else et
    let res := s.homeAtomic r.addr r.size r.grain fn et x cmp r.src.cores [r.op]
    if ret then
      match res.1 with
      | some d => res.2.fixPiece r.op r.piece d
      | none => res.2.spoilPiece r.op r.piece
    else res.2
  | _ => s

/-- SLICE_ATOMIC (R245). -/
def execSliceAtomic (req : Nat) (s : State) : Out :=
  match s.servable req with
  | some r => (match r.kind with
    | .atomic .. =>
      if !s.deliverable r.addr then .next (s.failReq req r) else .next ((s.dropReq req).doAtomic r).changed
    | _ => .next s)
  | none => .next s

/-- The operator that a request asks for as it arrives at its slice, and whether the installed
table governs it there: otherwise it has the descriptor it was checked against, and cuts the word; one to a
peer address takes its descriptor from the slice that passes it on, and cuts it as well (R217, R219, R230;
log 25). -/
def State.mopEntry (s : State) (r : Req) : Option (Pending × Bool) :=
  match r.kind with
  | .mop slot cls checked x ret via =>
    let back := if ret then some r.piece else none
    let own := match s.table r.tableSlice slot with
      | some t => if (t.cls cls).valid && wordSize (t.cls cls).et == r.size then some t else none
      | none => none
    match own with
    | some t => some (.mop r.addr cls (t.cls cls) (slot, t.version) x back [r.op] r.src.cores r.grain, via.isNone)
    | none => some (.mop r.addr cls checked (slot, 0) x back [r.op] r.src.cores r.grain, false)
  | _ => none

/-- An operator arrives: at the end of its word's list, or applied in place behind a cut (R225, R226). -/
def State.mopArrive (s : State) (r : Req) (rewrites : Bool) : State :=
  match s.mopEntry r with
  | some (p, inList) =>
    if inList && rewrites then
      let s := (s.pendingWords r.addr r.size).foldl
        (fun s w => if w = (r.addr, r.size) then s else s.drainWord w.1 0) s
      { s with mem := { s.mem with pending := s.mem.pending ++ [p] } }
    else applyPending (s.cut r.addr r.size) p
  | none => s

/-- SLICE_MOP_APPLY (R226, R227): one licensed rewrite step on the word's list, or the application of
its first operation. -/
def execSliceMopApply (addr : Nat) (step : MopStep) (s : State) : Out :=
  match step, s.wordList addr with
  | .head, p :: ps => .next (applyPending (s.setWordList addr ps) p).changed
  | step, ps => match rewriteAt s step ps with
    | some ps' => .next (s.setWordList addr ps').changed
    | none => .next s

/-- Whether every old value of an operation has returned, its updates acknowledged (R244, R333). -/
def State.returned (s : State) (op : Nat) (o : Op) : Bool :=
  (o.pieces.all fun q => q.data.isSome || q.poison) && !(s.mem.updates.any fun u => u.2.ops.contains op)

/-- ATOM_RETURN (R333, R334, R344, R345). -/
def execAtomReturn (op : Nat) (s : State) : Out :=
  match s.op op with
  | some o => if o.kind = .atomic ∧ s.returned op o then .next (s.landOp op o) else .next s
  | none => .next s

/-- MOPR_RETURN (R225). -/
def execMoprReturn (op : Nat) (s : State) : Out :=
  match s.op op with
  | some o => if o.kind = .mopr ∧ s.returned op o then .next (s.landOp op o) else .next s
  | none => .next s

end Sys2Proof.Machine
end

