-- ==== Sys2Proof/Machine/Fetch.lean ====
section
/-!
DEFINITION. Fetching the next word of a gang (R98, R251, R430): through L1, which a miss fills from
the home slice.
-/
namespace Sys2Proof.Machine

open Sys2Proof

/-- The free choice that a fetch's translation uses (R214, R215). -/
def fetchUse : Nat := 1000

/-- Whether a core has requests on their way to a region: a fill comes behind them (R198, R261). -/
def State.regionBusy (s : State) (c pa : Nat) : Bool :=
  s.mem.reqs.any fun r => r.2.src == .core c && regionBase r.2.addr == regionBase pa

/-- Whether a fill of a sector by a core is under way. -/
def State.fillComing (s : State) (c pa : Nat) : Bool :=
  s.mem.ops.any fun p => p.2.core == c && p.2.kind == .load && p.2.pieces.any fun q =>
    q.fill && q.data.isNone && sectorOf q.addr == sectorOf pa

/-- A fill of a sector by a fetch or a PREF of a group: it is read at its home slice and enters the core's L1, at
once or, where words of it stand as LDs in pending lists, once they have left them (R196, R223, R251). -/
def State.fillNow (s : State) (slot pc pa grain use : Nat) : State :=
  let c := slotCore slot
  let at' : Phys := { pa := sectorOf pa, grain := grain, efmt := 0, geo := 0, page := 0, via := none }
  let q : Piece := { Piece.start { lane := 0, va := 0, phys := at' } 32 [] with sent := true, fill := true }
  let (id, s) := s.fresh
  let o : Op := {
    slot := slot, core := c, pc := BitVec.ofNat 52 pc, kind := .load, flag := none, dst := none, count := 0, width := 0
    lanes := [], strands := [], pieces := [q], results := [], acq := none, rel := none, copy := none, tile := none
    channel := none, data := [], aux := 0, suspended := none }
  let s := (s.putOp id (some o)).readInto id 0 (sectorOf pa) 32 (s.freeKeeps use) (s.freeHeld use (sectorOf pa) 32)
  match (s.op id).bind fun o => o.pieces.head? with
  | some q => if q.data.isSome then s.putOp id none else s
  | none => s

/-- How a fetch ends: a word, a trap, or a wait behind the core's own requests to the region, for an update of the
word, for a fill that is under way, or for a handler on the region (R270). -/
inductive Fetched where
  | word (w : Word) (s : State)
  | trap (cause : Cause)
  | wait (s : State)

/-- Whether an update of a word that the group sees as of a later time is on its way to its core (R239, R249). -/
def behindFetch (s : State) (c : Nat) (v : View) (pa : Nat) : Bool :=
  s.mem.updates.any fun u => u.2.cores.contains c && (List.range 4).any fun i =>
    decide (u.2.addr ≤ pa + i ∧ pa + i < u.2.addr + u.2.bytes.length ∧ u.1 ≤ v.floor (pa + i))

/-- The sector that a fetch reads, and the state after it: for a deterministic group memory as it stood at the
start of the round (R250; log 20), else through L1 (R251); no sector while the fetch has to wait. -/
def fetchSector (s : State) (slot : Nat) (g : Group) (p : Phys) : Option L1Sector × State :=
  let c := slotCore slot
  if Gs.det g.modes.gs then
    (some { addr := sectorOf p.pa, bytes := (s.roundMem g.launch).read (sectorOf p.pa) 32, grain := p.grain,
            poison := s.mem.poisoned (sectorOf p.pa) 32, since := 0 }, s)
  else if behindFetch s c g.view p.pa then (none, s)
  else match s.l1Find c p.pa p.grain with
    | some e => (some e, s.l1Touch c p.pa)
    | none =>
      if s.regionBusy c p.pa || s.fillComing c p.pa || s.regionHeld (sectorOf p.pa) 32 then (none, s)
      else
        let s := s.fillNow slot 0 p.pa p.grain fetchUse
        match s.l1Find c p.pa p.grain with
        | some e => (some e, s)
        | none => (none, s.changed)

/-- The word at a PC and the state after its fetch, or the cause of the fetch trap (R98; log 26). -/
def fetchWord (s : State) (slot : Nat) (g : Group) (pc : VAddr) : Fetched :=
  let c := slotCore slot
  if pc.toNat % 4 ≠ 0 then .trap .align
  else
    match checkAccess s c (s.rootOf g.launch) pc.toNat .fetch (fun _ => false) fetchUse with
    | .error e => .trap e
    | .ok p =>
      if !s.deliverable p.pa then .trap .memerr
      else match fetchSector s slot g p with
        | (none, s') => .wait s'
        | (some e, s') =>
          if e.poison then .trap .memerr
          else match wordOfBytes (sliceBytes e.addr e.bytes p.pa 4) with
            | some w => .word w s'
            | none => .trap .memerr

end Sys2Proof.Machine
end

