-- ==== Sys2Proof/Machine/Maintain.lean ====
section
/-!
DEFINITION. FENCE (R363), CLEAN, INVAL, DISCARD and PREF (R209, R210, R348, R354, R376, R395), ASZLOAD and the
installs (R218, R219), MONITOR and MWAIT (R299, R386, R390), and their events.
-/
namespace Sys2Proof.Machine

open Sys2Proof

/-! ## FENCE (R363) -/

/-- FENCE: while its waits are not met the strand stalls, and holds the group's other strands (log 21). A gang
that no longer has an active lane holds them no more. -/
def execFence (sc : Scope) (od : Order) (s : State) : Out :=
  checked s (fun _ => Needs.regs []) fun c =>
    let mine (i : Nat) : Bool := c.gang.contains i
    let ended := if c.g.fencing.any mine then s.modGroup c.slot fun g => { g with fencing := none } else s
    onceActive ended c fun _ =>
      if Gs.det c.g.modes.gs then
        let r := completeOnly s c
        if sc = .grp then r else endEarly c r
      else if match c.g.fencing with
          | some i => !c.gang.contains i
          | none => false then stallHere s c
      else if (orderReleases od && !s.releaseReady c.slot sc) || (orderAcquires od && !s.readsFixed c.slot) then
        stallHere (s.modGroup c.slot fun g => { g with fencing := c.gang.head? }) c
      else
        let s := s.modGroup c.slot fun g => { g with fencing := none }
        let r := completeOnly (if orderAcquires od then s.acquire c.slot sc else s) c
        if orderReleases od then releasing c sc r else r

/-! ## Ranges (R209, R348) -/

/-- The 64 KiB pages of a range, widened to whole sectors and cut at the top of the address space:
start and length of each part. -/
def pageParts (start len : Nat) : List (Nat × Nat) :=
  if len = 0 then []
  else
    let lo := sectorOf start
    let hi := Nat.min (2 ^ 52) ((start + len + 31) / 32 * 32)
    (List.range ((hi - 1) / 2 ^ 16 + 1 - lo / 2 ^ 16)).map fun i =>
      let a := Nat.max lo ((lo / 2 ^ 16 + i) * 2 ^ 16)
      (a, Nat.min hi ((lo / 2 ^ 16 + i + 1) * 2 ^ 16) - a)

/-- One part of a range as physical bytes. -/
def partAt (s : State) (c : Ctx) (acc : Access) (part : Nat × Nat) (use : Nat) : Except Cause Piece :=
  match checkAccess s c.core (s.rootOf c.g.launch) part.1 acc (fun _ => false) use with
  | .ok p => .ok (Piece.start { lane := 0, va := part.1, phys := p } part.2 [])
  | .error e => .error e

/-- The parts of a range that some right admits; absent and forbidden pages are skipped. That a page is
forbidden to CLEAN and INVAL where it has neither RD nor WR is the model's choice (R209; log 41). -/
def partsWith (s : State) (c : Ctx) (accs : List Access) (start len : Nat) : List Piece :=
  ((pageParts start len).mapIdx fun i p => accs.findSome? fun acc => (partAt s c acc p i).toOption).filterMap fun x => x

/-- The parts of a range that are skipped are logged where they come to nothing (R26, R317): their pages, or the table
entries on the way to them. -/
def State.noteParts (s : State) (c : Ctx) (accs : List Access) (start len : Nat) : State :=
  ((pageParts start len).mapIdx fun i p => (i, p)).foldl (fun s' x =>
    if accs.any fun acc => (partAt s c acc x.2 x.1).toOption.isSome then s'
    else match accs.head?.map fun acc => partAt s c acc x.2 x.1 with
      | some (.error e) => s'.noteFault c.core (s.rootOf c.g.launch) x.2.1 x.1 e
      | _ => s') s

/-- Whether some bytes lie in one of some parts. -/
def inParts (ps : List Piece) (a n : Nat) : Bool := ps.any fun q => meets q.addr q.size a n

/-- The range instructions' form: uniform start and length, once where a lane is active. -/
def withRange (a b : Reg) (s : State) (k : State → Ctx → Nat → Nat → Out) : Out :=
  checked s (fun _ => Needs.regs [.two a, .one b]) fun c =>
    onceActive s c fun _ =>
      uniform s c [.two a, .one b] fun s c xs =>
        k s c ((arg xs 0).toNat % 2 ^ 52) ((arg xs 1).setWidth 32).toNat

/-- Start an operation that the issuing strands wait for, and go one word further. -/
def blockOn (s : State) (c : Ctx) (o : Op) : Nat × Out :=
  let (id, s) := s.fresh
  let s := s.putOp id (some o)
  (id, completeOnly (s.modGroup c.slot fun g => g.modStrands c.gang fun _ t => { t with block := some (.op id) }) c)

/-- Put an item into the buffer of a deterministic group. -/
def bufferItem (c : Ctx) (i : DetItem) : Out → Out
  | .next s => .next (s.modGroup c.slot fun g => { g with det := { g.det with buffer := g.det.buffer ++ [i] } })
  | r => r

/-- Wait for a maintenance operation; a deterministic group's is performed at its commit, and the
strand waits until then (R292, R348, R354). Its group's quantum does not end (R292). -/
def maintain (s : State) (c : Ctx) (o : Op) (atCommit : Bool) : Out :=
  let r := blockOn s c o
  if atCommit && Gs.det c.g.modes.gs then bufferItem c (.perform r.1) r.2 else r.2

/-- CLEAN (R209, R348). -/
def execClean (a b : Reg) (s : State) : Out :=
  withRange a b s fun s c start len =>
    maintain (s.noteParts c [.read, .write] start len) c
      { Op.start c .clean none with pieces := partsWith s c [.read, .write] start len } true

/-- INVAL (R209, R376). -/
def execInval (a b : Reg) (s : State) : Out :=
  withRange a b s fun s c start len =>
    maintain (s.noteParts c [.read, .write] start len) c
      { Op.start c .inval none with pieces := partsWith s c [.read, .write] start len } false

/-! ## Their effects -/

namespace Mem

/-- Bytes that satisfy a test reach HBM: queued ones, oldest first, then the dirty ones (R194, R209). -/
def landBytes (m : Mem) (p : Nat → Bool) : Mem :=
  let now := (m.queue.flatMap fun w => w.2.filter fun x => p x.1) ++ m.dirty.filter fun x => p x.1
  { m with
    bytes := now.foldl (fun b x => Sparse.set b x.1 0 x.2) m.bytes
    queue := (m.queue.map fun w => (w.1, w.2.filter fun x => !p x.1)).filter fun w => !w.2.isEmpty
    dirty := m.dirty.filter fun x => !p x.1 }

/-- Bytes that satisfy a test are dropped on their way to HBM; what was already queued towards it may
still land, sector by sector (R210). -/
def dropBytes (m : Mem) (p : Nat → Bool) (tick : Nat) : Mem :=
  let m := { m with dirty := m.dirty.filter fun x => !p x.1 }
  let m := m.landBytes fun a => p a && Config.choice tick (sectorOf a) % 2 == 1
  { m with queue := (m.queue.map fun w => (w.1, w.2.filter fun x => !p x.1)).filter fun w => !w.2.isEmpty }

end Mem

/-- Whether a DISCARD of some parts by a core takes the copy of a sector from a core: the core's own, and every
sharer's of CG ≥ 1 (R210). -/
def discards (own : Nat) (ps : List Piece) (core a grain : Nat) : Bool :=
  inParts ps a 32 && (core == own || grain != 0)

/-- A piece after a DISCARD of some parts by a core, the operation `id`: the core's own stores that were issued
before it leave its write buffer, and fills that have been read before come to L1 no more (R210, R354). -/
def discardPiece (own id : Nat) (ps : List Piece) (x : Nat × Op) (q : Piece) : Piece :=
  if x.2.kind == .store && x.2.core == own && decide (x.1 < id) && inParts ps q.addr q.size then { q with sent := false }
  else if x.2.kind == .load && !q.parts.isEmpty && discards own ps x.2.core (sectorOf q.addr) q.grain then
    { q with fill := false }
  else q

/-- The L1 copies that a DISCARD invalidates, and what is on its way to them (R210). -/
def State.discardL1 (s : State) (own id : Nat) (ps : List Piece) : State :=
  { s with
    cores := s.cores.map fun x => (x.1, { x.2 with l1 := x.2.l1.filter fun e => !discards own ps x.1 e.addr e.grain })
    mem := { s.mem with
      ops := s.mem.ops.map fun x => (x.1, { x.2 with pieces := x.2.pieces.map (discardPiece own id ps x) }) } }

/-- DISCARD of some parts by the operation `id`: pending operators are applied, the bytes dropped, the copies
invalidated, and the monitors triggered (R210, R226, R299, R354). In deterministic operation every byte lands: of
the outcomes of R210 the one that does not depend on what L2 has written back (R13, R250; log 8). -/
def State.discardParts (s : State) (own id : Nat) (det : Bool) (ps : List Piece) : State :=
  let s := ps.foldl (fun s q => s.cut q.addr q.size) s
  let hit (a : Nat) : Bool := inParts ps a 1
  let s := { s with mem := if det then s.mem.landBytes hit else s.mem.dropBytes hit s.time.tick }
  ps.foldl (fun s q => s.triggerMonitors q.addr q.size) (s.discardL1 own id ps)

/-- Whether a core still has requests on their way to some parts, earlier than an operation, a tinker runs on one
(R270), or the invalidations of copies in them would overtake updates (R259, R261). -/
def State.partsBusy (s : State) (core before : Nat) (ps : List Piece) : Bool :=
  (ps.any fun q => s.regionHeld q.addr q.size) ||
  (s.cores.any fun x => x.2.l1.any fun e => e.grain != 0 && inParts ps e.addr 32 && !s.invalArrives e.addr) ||
  s.mem.reqs.any fun r => decide (r.1 < before) && r.2.src == .core core && inParts ps r.2.addr r.2.size

/-- The effect of the CLEAN, INVAL or DISCARD `id`. -/
def State.performMaintenance (s : State) (id : Nat) (o : Op) : State :=
  match o.kind with
  | .clean => { s with mem := s.mem.landBytes fun a => inParts o.pieces a 1 }
  | .inval =>
    (s.l1Keep o.core fun e => !(e.grain == 0 && inParts o.pieces e.addr 32)).mapFills o.core fun q =>
      if q.grain == 0 && inParts o.pieces (sectorOf q.addr) 32 then { q with fill := false } else q
  | .discard => s.discardParts o.core id (s.isDet o.slot) o.pieces
  | _ => s

/-- Whether a deterministic group still buffers an operation. -/
def State.awaitsCommit (s : State) (slot op : Nat) : Bool :=
  match s.group slot with
  | some g => g.det.buffer.contains (.perform op)
  | none => false

/-- Whether a CLEAN or DISCARD has to wait: for a handler on its range (R270), and a DISCARD for its core's earlier
writes to the range, and until its invalidations can arrive. -/
def State.maintenanceWaits (s : State) (id : Nat) (o : Op) : Bool :=
  match o.kind with
  | .clean => o.pieces.any fun q => s.regionHeld q.addr q.size
  | .discard => s.partsBusy o.core id o.pieces
  | _ => false

/-- MAINTENANCE_COMPLETE (R209). -/
def execMaintenanceComplete (op : Nat) (s : State) : Out :=
  match s.op op with
  | some o =>
    let mine := o.kind = .clean ∨ o.kind = .inval ∨ o.kind = .discard
    if mine ∧ !s.awaitsCommit o.slot op ∧ !s.maintenanceWaits op o then
      .next ((s.performMaintenance op o).finishOp op).changed
    else .next s
  | none => .next s

/-! ## DISCARD and PREF -/

/-- The parts of a DISCARD before the first that its rights do not allow, and that part's fault. It names the
64 KiB-aligned start of the failing part, also on a page of 64 MiB: which start R209 means there is the
model's choice (log 41). -/
def discardRuns (s : State) (c : Ctx) : Nat → List (Nat × Nat) → List Piece × Option (Cause × Nat)
  | _, [] => ([], none)
  | i, p :: ps =>
    match partAt s c .write p i with
    | .ok q => let r := discardRuns s c (i + 1) ps; (q :: r.1, r.2)
    | .error e => ([], some (e, p.1 / 2 ^ 16 * 2 ^ 16))

/-- DISCARD (R209, R210, R354): the pages before one that faults are discarded, then it traps; in deterministic
operation they are discarded at the commit. -/
def execDiscard (a b : Reg) (s : State) : Out :=
  withRange a b s fun s c start len =>
    if start % 32 ≠ 0 ∨ len % 32 ≠ 0 then trapAddr s c .align (c.g.execLanes c.gang) start
    else
      let r := discardRuns s c 0 (pageParts start len)
      if accessHeld s c || rejectedMeets s c (r.1.map fun q => (q.addr, q.size)) then stallHere s c
      else match r with
      | (ps, none) => maintain s c { Op.start c .discard none with pieces := ps } true
      | (ps, some (cause, addr)) =>
        let lost := s.noteFault c.core (s.rootOf c.g.launch) addr ps.length cause
        if Gs.det c.g.modes.gs then
          let (id, s) := lost.fresh
          bufferItem c (.perform id) (trapAddr
            (s.putOp id (some { Op.start c .discard none with pieces := ps })) c cause (c.g.execLanes c.gang) addr)
        else if s.partsBusy c.core s.ids ps then stallHere s c
        else trapAddr (lost.discardParts c.core s.ids false ps) c cause (c.g.execLanes c.gang) addr

/-- The sectors of some parts. -/
def partSectors (ps : List Piece) : List (Nat × Nat) :=
  ps.flatMap fun q => (List.range (q.size / 32)).map fun i => (q.addr + 32 * i, q.grain)

/-- PREF of one sector, of a page of a grain: it enters the core's L1 unless it is there. One whose region the core has
requests on their way to, or a handler runs on, is left out, and one that cannot be delivered is logged (R317). -/
def State.prefetch (s : State) (c : Ctx) (pa grain use : Nat) : State :=
  if !s.deliverable pa then s.noteLost c.core [pa]
  else if (s.l1Find c.core pa grain).isSome || s.regionBusy c.core pa || s.fillComing c.core pa || s.regionHeld pa 32 then s
  else s.fillNow c.slot c.pc.toNat pa grain use

/-- PREF (R209, R395): sectors of readable pages that the core does not hold enter its L1. In deterministic
operation, where loads do not use L1, it fetches nothing. -/
def execPref (a b : Reg) (s : State) : Out :=
  withRange a b s fun s c start len =>
    let noted := s.noteParts c [.read] start len
    completeOnly (if Gs.det c.g.modes.gs then noted
      else ((partSectors (partsWith s c [.read] start len)).mapIdx fun i x => (i, x)).foldl (fun s x =>
        s.prefetch c x.2.1 x.2.2 (2000 + x.1)) noted) c

/-! ## ASZLOAD (R218, R219) -/

/-- A table at an address: what the group reads of it, and the state after it; nothing while words of it stand as
LDs in pending lists (R223). -/
def State.tableBytes (s : State) (c : Ctx) (pa : Nat) : Option (List Byte) × State :=
  if Gs.det c.g.modes.gs then (some ((s.detView c.g).read pa 512), s)
  else
    let r := s.lateRead (Op.start c .install none) 0 (2 ^ 30 + c.pc.toNat) (s.freeKeeps 0) [(pa, 512)] (s.freeHeld 0 pa 512)
    (r.1.map (·.1), r.2)

/-- Begin the install of a table: its mark goes to every slice (R219). -/
def State.beginInstall (s : State) (op slot : Nat) (bytes : List Byte) : State :=
  let v := s.mem.versions + 1
  { s with mem := { s.mem with
    versions := v, installs := s.mem.installs.put op (some (slot, readTable bytes v, List.range 192)) } }

/-- ASZLOAD: the checks in the order of R218, the release, the table's own checks, then the install. -/
def execAszload (a b : Reg) (s : State) : Out :=
  checked s (fun _ => Needs.regs [.two a, .one b]) fun c =>
    onceActive s c fun _ =>
      uniform s c [.two a, .one b] fun s c xs =>
        let va := (arg xs 0).toNat % 2 ^ 52
        let slot := ((arg xs 1).setWidth 32).toNat
        let lanes := c.g.execLanes c.gang
        if 16 ≤ slot then trapAll s c .illopnd
        else match checkOne s c.core (s.rootOf c.g.launch)
            { size := 512, rights := .read, deny := fun _ => false, bad := s.readPoison c.g 512, reach := true } va 0 with
          | .error e => trapAddr (s.noteFault c.core (s.rootOf c.g.launch) va 0 e) c e lanes va
          | .ok p =>
            if accessHeld s c || (!Gs.det c.g.modes.gs && s.regionHeld p.pa 512) then stallHere s c
            else withRelease s c (some .dev) fun _ =>
              match s.tableBytes c p.pa with
              | (none, s) => stallHere s c
              | (some t, s) =>
                match tableFault t with
                | some off => trapAddr s c .illopnd lanes (va + off)
                | none =>
                  let r := blockOn s c { Op.start c .install none with aux := slot, data := t, acq := some .dev }
                  if Gs.det c.g.modes.gs then endEarly c (bufferItem c (.perform r.1) r.2)
                  else match r.2 with
                    | .next s => .next (s.beginInstall r.1 slot t)
                    | x => x

/-- A table reaches a slice: the words that use its slot have their operations applied, and it takes
the slot (R219). -/
def State.placeTable (s : State) (slice slot : Nat) (t : Table) : State :=
  let words := ((s.mem.pending.filter fun p => homeSlice p.addr == slice && (p.table.map (·.1)) == some slot).map
    (·.addr)).eraseDups
  let s := words.foldl (fun s a => s.drainWord a 0) s
  { s with mem := { s.mem with tables := s.mem.tables.put (16 * slice + slot) (some t) } }

/-- TABLE_INSTALL (R219): the earliest install that has not reached the slice; the last slice completes its ASZLOAD,
which acquires at DEV. R219 orders installs to one slot; that those to different slots reach a slice in the order in
which they began, too, is the model's choice (log 43). -/
def execTableInstall (slice : Nat) (s : State) : Out :=
  match s.mem.installs.find? fun p => p.2.2.2.contains slice with
  | some (id, slot, t, left) =>
    let s := s.placeTable slice slot t
    let left := left.filter (· != slice)
    let s := { s with mem := { s.mem with
      installs := s.mem.installs.put id (if left.isEmpty then none else some (slot, t, left)) } }
    if left.isEmpty then
      match s.op id with
      | some o => .next ((s.acquire o.slot .dev).finishOp id).changed
      | none => .next s.changed
    else .next s.changed
  | none => .next s

/-! ## MONITOR and MWAIT (R299) -/

/-- The checks of a MONITOR: local HBM, else PERM, then those of R11 for 4 bytes with RD. -/
def checkMonitor (s : State) (c : Ctx) (va : Nat) : Except Cause Phys :=
  let root := s.rootOf c.g.launch
  let local' := match translateVa s c.core root va 0 with
    | .ok x => regionOf x.pa == .hbm
    | .error _ => true
  if !local' then .error .perm
  else checkOne s c.core root
    { size := 4, rights := .read, deny := fun _ => false, bad := fun _ => false, reach := false } va 0

/-- MONITOR: the group's monitor is armed and TRIG cleared; the strand waits until the home slice has
registered it. A deterministic group's is registered at issue (R386; log 21). -/
def execMonitor (a : Reg) (s : State) : Out :=
  checked s (fun _ => Needs.regs [.two a]) fun c =>
    onceActive s c fun _ =>
      uniform s c [.two a] fun s c xs =>
        let va := (arg xs 0).toNat % 2 ^ 52
        match checkMonitor s c va with
        | .error e => trapAddr (s.noteFault c.core (s.rootOf c.g.launch) va 0 e) c e (c.g.execLanes c.gang) va
        | .ok p =>
          let s := s.modGroup c.slot fun g => { g with monitor := { sector := some (sectorOf p.pa), trig := false } }
          if Gs.det c.g.modes.gs then completeOnly s c
          else
            let r := blockOn s c { Op.start c .monitor none with
              pieces := [Piece.start { lane := 0, va := va, phys := p } 4 []] }
            match r.2 with
            | .next s => .next (s.send { src := .core c.core, slice := 0, addr := p.pa, size := 4, grain := p.grain,
                                         kind := .monitor, op := r.1, piece := 0, admitted := false })
            | x => x

/-- MONITOR_REGISTERED (R299): after every write already performed to the sector has been applied at
all sharers. -/
def execMonitorRegistered (slot : Nat) (s : State) : Out :=
  let ready (p : Nat × Req) : Bool :=
    p.2.kind == .monitor && (s.servable p.1).isSome && (match s.op p.2.op with
      | some o => o.slot == slot
      | none => false) &&
    !(s.mem.updates.any fun u => meets u.2.addr u.2.bytes.length (sectorOf p.2.addr) 32)
  match s.mem.reqs.find? ready with
  | some p => .next ((s.dropReq p.1).finishOp p.2.op).changed
  | none => .next s

/-- MWAIT (R299; log 21): no monitor, or TRIG already set: go on; else the strands are parked. -/
def execMwait (a : Reg) (s : State) : Out :=
  checked s (fun _ => Needs.regs [.one a]) fun c =>
    onceActive s c fun _ =>
      uniform s c [.one a] fun s c xs =>
        if c.g.monitor.sector.isNone then completeOnly s c
        else if c.g.monitor.trig then
          completeOnly (s.modGroup c.slot fun g => { g with monitor := { sector := none, trig := false } }) c
        else
          let t := (arg xs 0).toNat
          let b := Block.mwait (if t = 0 then none else some (s.time.gts + t))
          endEarly c (completeOnly (s.modGroup c.slot fun g =>
            g.modStrands c.gang fun _ u => { u with block := some b }) c)

/-- The PC and lanes of a strand that is parked with a deadline that has passed, in the strand or in
its resume record. -/
def timedOut (gts : Nat) (t : Strand) : Option (VAddr × BitVec 4) :=
  let due : Option Block → Bool := fun b => match b with
    | some (.mwait (some d)) => decide (d ≤ gts)
    | _ => false
  if due t.block then some (t.pc, t.exec)
  else match t.record with
    | some r => if due r.block then some (r.pc, r.exec) else none
    | none => none

/-- MTIMEOUT (R299, R390): the monitor is disarmed, the group leaves the park and traps; the trap is
held while TM is set (R295). -/
def execMtimeout (slot : Nat) (s : State) : Out :=
  match s.group slot with
  | none => .next s
  | some g =>
    let out := g.allStrands.filterMap fun i => (timedOut s.time.gts (g.strand i)).map fun x => (i, x.1, x.2)
    match out with
    | [] => .next s
    | x :: xs =>
      let gang := (x :: xs).filter fun y => y.2.1 == x.2.1
      let s := s.setGroup slot { g.wake with monitor := { sector := none, trig := false } }
      .next (s.raise slot (TrapInfo.at x.2.1 (gang.map (·.1)) .mtimeout
        (gang.flatMap fun y => maskLanes y.1 y.2.2))).changed

end Sys2Proof.Machine
end

