-- ==== Sys2Proof/Machine/Scratch.lean ====
section
/-!
DEFINITION. Scratch (R193, R202, R208): its bytes, the checks of its accesses (R11, R381, R411),
LDS and STS, and the byte-counting barriers (R208, R337).
-/
namespace Sys2Proof.Machine

open Sys2Proof

/-- The bytes of a scratch area; it reads as zero where nothing has been written (R202). -/
def scratchRead (m : Sparse Byte) (o n : Nat) : List Byte := (List.range n).map fun i => m.get (o + i) 0

/-- Write bytes of a scratch area. -/
def scratchWrite (m : Sparse Byte) (o : Nat) : List Byte → Sparse Byte
  | [] => m
  | b :: bs => scratchWrite (m.set o 0 b) (o + 1) bs

namespace Team

/-- Write scratch bytes; a sector written whole loses its poison (R324). -/
def write (t : Team) (o : Nat) (bytes : List Byte) : Team :=
  { t with scratch := scratchWrite t.scratch o bytes
           poison := t.poison.filter fun p => !decide (o ≤ p ∧ p + 32 ≤ o + bytes.length) }

/-- Whether bytes of a scratch area are poisoned (R324). -/
def poisonAt (t : Team) (o n : Nat) : Bool := t.poison.any fun p => decide (p < o + n ∧ o < p + 32)

end Team

/-! ## Byte-counting barriers (R208) -/

/-- A word of scratch. -/
def scratchWord (m : Sparse Byte) (o : Nat) : Nat := leNat (scratchRead m o 4)

/-- The words EXP, ARR and PH of a barrier after Check() (R208). -/
def checkBarrier (exp arr ph : Nat) : Nat × Nat × Nat :=
  if 0 < exp ∧ exp ≤ arr then (0, arr - exp, (ph + 1) % 2 ^ 32) else (exp, arr, ph)

/-- An update of the barrier at an offset (R208). -/
def barrierUpdate (m : Sparse Byte) (fn : BarrierFn) (o val : Nat) : Sparse Byte :=
  let exp := scratchWord m o
  let arr := scratchWord m (o + 4)
  let ph := scratchWord m (o + 8)
  let r := match fn with
    | .init => (val, 0, 0)
    | .expect => checkBarrier ((exp + val) % 2 ^ 32) arr ph
    | .arrive => checkBarrier exp ((arr + val) % 2 ^ 32) ph
  scratchWrite m o (leBytes 4 r.1 ++ leBytes 4 r.2.1 ++ leBytes 4 r.2.2)

/-- Scratch as the loads of a deterministic group see it (R250). -/
def scratchView (t : Team) (g : Group) : Sparse Byte :=
  g.det.buffer.foldl (fun m i => match i with
    | .scratch o b => scratchWrite m o b
    | .barrier fn o v => barrierUpdate m fn o v.toNat
    | _ => m) t.scratch

/-- The poison of a team's scratch as a deterministic group sees it: its own writes and copies over what is
committed (R250, R324). -/
def scratchPoisonView (t : Team) (g : Group) : Team :=
  g.det.buffer.foldl (fun t i => match i with
    | .scratch o b => t.write o b
    | .poison true sector => { t with poison := addOnce t.poison sector }
    | _ => t) t

/-- A strand's wait for a barrier of its scratch to leave a phase is over (R208, R337). -/
def Block.left (m : Sparse Byte) : Option Block → Bool
  | some (.bcwait o ph) => scratchWord m (o + 8) != ph.toNat
  | _ => false

/-- Strands of a group whose barriers have left their phases go on, also in its resume records. -/
def Group.leavePhases (g : Group) (m : Sparse Byte) : Group :=
  let clear (b : Option Block) : Option Block := if Block.left m b then none else b
  { g with strands := g.strands.map fun t =>
      { t with block := clear t.block, record := t.record.map fun r => { r with block := clear r.block } } }

namespace State

/-- After a change of a team's scratch: strands that wait at BCWAIT for a phase to end, which now has, leave
with an acquire at TEAM (R208, R337); a deterministic group's as it sees the words (R202, R250). -/
def wakePhases (s : State) (k : Nat) : State :=
  match s.team k with
  | none => s
  | some t => t.slots.foldl (fun s i => match s.group i with
    | none => s
    | some g =>
      let g' := g.leavePhases (if Gs.det g.modes.gs then scratchView t g else t.scratch)
      if g' = g then s else (s.setGroup i g').acquireFence i .team) s

/-- Change the scratch of a team. -/
def changeScratch (s : State) (k : Nat) (f : Team → Team) : State :=
  { s with teams := s.teams.update k f }.wakePhases k

def modTeam (s : State) (k : Nat) (f : Team → Team) : State := { s with teams := s.teams.update k f }

/-- The bound of a group's scratch accesses: its team's area (R202). -/
def scratchBound (s : State) (g : Group) : Nat := ((s.launch g.launch).map (·.desc.scratch)).getD 0

/-- Writes to scratch by offset: performed at the core, or into the buffer of a deterministic group. -/
def scratchStore (s : State) (c : Ctx) (ws : List (Nat × List Byte)) : State :=
  if Gs.det c.g.modes.gs then
    s.modGroup c.slot fun g => { g with det := { g.det with buffer := g.det.buffer ++ ws.map fun w => .scratch w.1 w.2 } }
  else s.changeScratch c.g.teamKey fun t => ws.foldl (fun t w => t.write w.1 w.2) t

end State

/-- Whether a core's scratch accesses wait for a change of SCRWAYS (R203); in deterministic operation the change
waits for the end of the round instead (log 20). -/
def scratchHeld (s : State) (c : Ctx) : Bool := (s.core c.core).ways.isSome && !Gs.det c.g.modes.gs

/-- Whether scratch bytes that a group reads are poisoned, for a deterministic group as it sees them (R250,
R324). -/
def State.scratchPoison (s : State) (g : Group) (o n : Nat) : Bool :=
  match s.team g.teamKey with
  | some t => (if Gs.det g.modes.gs then scratchPoisonView t g else t).poisonAt o n
  | none => false

/-- The checks of one scratch access: alignment, bound and poison (R11). -/
def checkScratch (s : State) (c : Ctx) (n o : Nat) (reads : Bool) : Except Cause Unit :=
  if o % n ≠ 0 then .error .align
  else if s.scratchBound c.g < o + n then .error .illopnd
  else if reads && s.scratchPoison c.g o n then .error .memerr
  else .ok ()

/-- An offset in scratch as an address. -/
def Phys.scratch (o : Nat) : Phys := { pa := o, grain := 0, efmt := 0, geo := 0, page := 0, via := none }

/-- The scratch accesses of the active lanes: lane and offset. -/
def withScratch (s : State) (c : Ctx) (a : Reg) (n : Nat) (reads : Bool) (k : List (Nat × Nat) → Out) : Out :=
  let outs := c.lanes.map fun l => (l, (c.g.reg a.toNat l).toNat)
  let bad := outs.map fun x => (x.1, x.2, match checkScratch s c n x.2 reads with
    | .ok () => (.ok (Phys.scratch 0) : Except Cause Phys)
    | .error e => .error e)
  match laneFault bad with
  | some (cause, lanes, addr) => trapAddr s c cause lanes addr
  | none =>
    if outs.isEmpty then completeOnly s c
    else if accessHeld s c || scratchHeld s c then stallHere s c
    else k outs

/-- LDS (R381): each lane's bytes as scratch holds them at issue; they land later (R70). -/
def execLds (d a : Reg) (ctl : Ctl) (s : State) : Out :=
  checked s (fun _ => Needs.regs [dataOpnd d ctl.width, .one a]) fun c =>
    let n := widthBytes ctl.width
    withScratch s c a n true fun accs =>
      let m := match s.team c.g.teamKey with
        | some t => if Gs.det c.g.modes.gs then scratchView t c.g else t.scratch
        | none => []
      let pieces := accs.map fun x =>
        let x' : LaneAcc := { lane := x.1, va := x.2, phys := Phys.scratch x.2 }
        { Piece.start x' n [x.1] with data := some (scratchRead m x.2 n) }
      let (id, s) := s.fresh
      completeOnly (s.putOp id (some { Op.start c .scratchLoad c.flagA with
        dst := some d, count := widthRegs ctl.width, width := n, pieces := pieces, acq := acquireOf ctl })) c

/-- The scratch accesses that write: of several lanes at one offset, the highest (R409, R411). -/
def highestLanes (accs : List (Nat × Nat)) : List (Nat × Nat) :=
  accs.filter fun x => !accs.any fun y => y.2 == x.2 && decide (x.1 < y.1)

/-- STS (R411): of several lanes that write one offset, the highest one's value is written. -/
def execSts (d a : Reg) (ctl : Ctl) (s : State) : Out :=
  checked s (fun _ => Needs.regs [dataOpnd d ctl.width, .one a]) fun c =>
    let n := widthBytes ctl.width
    withScratch s c a n false fun accs =>
      withAliases s c (accs.map fun x => { scr := true, addr := x.2, len := n }) fun _ =>
        withRelease s c (releaseOf ctl) fun _ =>
          completeOnly (s.scratchStore c ((highestLanes accs).map fun x => (x.2, c.g.dataBytes d n x.1))) c

/-! ## BCINIT, BCEXP, BCARR, BCWAIT (R208, R337) -/

/-- The checks of a barrier instruction and its two uniform operands (R208, R337); where it reads the barrier's
words, poison among them is MEMERR (R11, R324). -/
def withBarrier (reads : Bool) (a b : Reg) (s : State) (k : State → Ctx → Nat → Nat → Out) : Out :=
  checked s (fun _ => Needs.regs [.one a, .one b]) fun c =>
    onceActive s c fun _ =>
      uniform s c [.one a, .one b] fun s c xs =>
        let o := (xs.getD 0 0).toNat
        if o % 16 ≠ 0 then trapAddr s c .align (c.g.execLanes c.gang) o
        else if s.scratchBound c.g < o + 16 then trapAddr s c .illopnd (c.g.execLanes c.gang) o
        else if reads && s.scratchPoison c.g o 16 then trapAddr s c .memerr (c.g.execLanes c.gang) o
        else if accessHeld s c || scratchHeld s c then stallHere s c
        else k s c o (xs.getD 1 0).toNat

/-- One update by an instruction: at the core, or into the buffer of a deterministic group. It waits for the
group's own copies and TSTOREs of its bytes (R202, R206). -/
def barrierWord (fn : BarrierFn) (a b : Reg) (s : State) : Out :=
  withBarrier (fn != .init) a b s fun s c o v =>
    if engineBusy s c.slot [{ scr := true, addr := o, len := 16 }] then stallHere s c
    else if Gs.det c.g.modes.gs then
      completeOnly (s.modGroup c.slot fun g =>
        { g with det := { g.det with buffer := g.det.buffer ++ [.barrier fn o (BitVec.ofNat 32 v)] } }) c
    else completeOnly (s.changeScratch c.g.teamKey fun t => { t with scratch := barrierUpdate t.scratch fn o v }) c

/-- BCINIT (R208). -/
def execBcinit (a b : Reg) (s : State) : Out := barrierWord .init a b s
/-- BCEXP (R208). -/
def execBcexp (a b : Reg) (s : State) : Out := barrierWord .expect a b s
/-- BCARR (R208). -/
def execBcarr (a b : Reg) (s : State) : Out := barrierWord .arrive a b s

/-- BCWAIT: the strands wait until PH ≠ b, at whatever moment it is so, and leave with an acquire at TEAM
(R208, R337). A deterministic group sees PH behind its own buffered updates (R202, R250). -/
def execBcwait (a b : Reg) (s : State) : Out :=
  withBarrier true a b s fun s c o v =>
    let ph := match s.team c.g.teamKey with
      | some t => scratchWord (if Gs.det c.g.modes.gs then scratchView t c.g else t.scratch) (o + 8)
      | none => 0
    if ph = v then
      endEarly c (completeOnly (s.modGroup c.slot fun g =>
        g.modStrands c.gang fun _ t => { t with block := some (.bcwait o (BitVec.ofNat 32 v)) }) c)
    else completeOnly (s.acquireFence c.slot .team) c

end Sys2Proof.Machine
end

