-- ==== Sys2Proof/Machine/Engine.lean ====
section
/-!
DEFINITION. What the copy engine and the tile engine share: the places that their bytes have in memory
or in scratch (R144, R145, R202, R212), reads and writes of them at the home slices (R198, R246, R324), and
late faults (R169 to R172, R205, R317, R430).
-/
namespace Sys2Proof.Machine

open Sys2Proof

/-- Where an engine finds a byte, and the size of the page that holds it. -/
structure Loc where
  scr   : Bool
  addr  : Nat
  grain : Nat
  efmt  : Nat
  page  : Nat
  deriving DecidableEq, Repr

/-- Where byte `off` of a block of a shuffled page is stored, for elements of `e` bytes and blocks of
edge `b` (R144). -/
def shuffleOffset (e b off : Nat) : Nat :=
  let elem := off / e
  let i := elem / b
  let j := elem % b
  (i / 4 * (4 * b) + 4 * j + i % 4) * e + off % e

/-- The stored address of a byte of a page (R145): a plain page stores it in place. -/
def storedAt (p : Phys) : Nat :=
  if p.efmt = 0 then p.pa
  else
    let e := if p.efmt = 4 then 1 else 2
    let b := 16 * 2 ^ p.geo
    let n := b * b * e
    p.pa / n * n + shuffleOffset e b (p.pa % n)

/-- The place of one byte of an engine access, or its late fault. An address at or above 2^52 wraps modulo 2^52
in translation, while the spans of R167 and XADDR are not wrapped: the model's choice (R153; log 40). `fits` says
which page formats the access takes (R145). -/
def engineLoc (s : State) (o : Op) (g : Group) (scr decode : Bool) (fits : Nat → Bool) (acc : Access) (a use : Nat) :
    Except Cause Loc :=
  if scr then
    if s.scratchBound g < a + 1 then .error .illopnd
    else .ok { scr := true, addr := a, grain := 0, efmt := 0, page := 2 ^ 16 }
  else
    match checkAccess s o.core (s.rootOf g.launch) (a % 2 ^ 52) acc (fun _ => false) use with
    | .error e => .error e
    | .ok p =>
      if !fits p.efmt then .error .format
      else if !s.deliverable p.pa then .error .memerr
      else .ok { scr := false, addr := if decode then storedAt p else p.pa, grain := p.grain, efmt := p.efmt, page := p.page }

/-- A fault of an engine's access: the cause and the address that it reports, and the address that failed with the
number of its access, whose translation may have been a free choice (R214, R215). -/
structure EngineFault where
  cause : Cause
  addr  : Nat
  va    : Nat
  use   : Nat
  deriving DecidableEq, Repr

/-- The places of some bytes in order, or the first fault. -/
def engineLocs (s : State) (o : Op) (g : Group) (scr decode : Bool) (acc : Access) (use : Nat) :
    List Nat → Except EngineFault (List Loc)
  | [] => .ok []
  | a :: as =>
    match engineLoc s o g scr decode (fun _ => true) acc a use with
    | .error e => .error { cause := e, addr := a, va := a, use := use }
    | .ok l => (engineLocs s o g scr decode acc (use + 1) as).map (l :: ·)

/-- Neighbouring bytes of one sector together: the first place of each run and its length. -/
def runsOf : List Loc → List (Loc × Nat)
  | [] => []
  | l :: ls =>
    match runsOf ls with
    | (m, n) :: more =>
      if m.scr = l.scr ∧ m.addr = l.addr + 1 ∧ m.addr % 32 ≠ 0 ∧ m.grain = l.grain then (l, n + 1) :: more
      else (l, 1) :: (m, n) :: more
    | [] => [(l, 1)]

/-- How an engine reads memory: for a deterministic group as the group sees it (R351), but a spill copy, which
nothing buffers, as it stands (R417). -/
structure ReadMode where
  view  : Bool
  keeps : Nat
  reads : Nat
  deriving DecidableEq, Repr

/-- How the engines of a group read what is no spill copy. `keeps` says how many pending operations a read
passes, and `reads` the size of the words that it leaves in pending lists (R223, R226). -/
def Group.readMode (g : Group) (keeps reads : Nat) : ReadMode :=
  { view := Gs.det g.modes.gs, keeps := keeps, reads := reads }

/-- Read one run of scratch, or of memory as a deterministic group sees it (R246, R250, R351): its bytes, and
whether poison is among them. -/
def readRun (s : State) (g : Group) (r : Loc × Nat) : List Byte × Bool :=
  if r.1.scr then
    match s.team g.teamKey with
    | some t =>
      (scratchRead (if Gs.det g.modes.gs then scratchView t g else t.scratch) r.1.addr r.2,
        s.scratchPoison g r.1.addr r.2)
    | none => (List.replicate r.2 0, false)
  else ((s.detView g).read r.1.addr r.2, (s.detView g).poisoned r.1.addr r.2)

/-- Read some runs for a part of an engine command's work, and answer their bytes and whether poison is among
them; nothing yet while words of them stand in pending lists as LDs (R223, R226). -/
def engineRead (s : State) (id key : Nat) (o : Op) (g : Group) (m : ReadMode) (rs : List (Loc × Nat)) :
    Option (List Byte × Bool) × State :=
  if m.view || rs.any (·.1.scr) then
    let x := rs.foldl (fun (acc : List Byte × Bool) r =>
      let x := readRun s g r
      (acc.1 ++ x.1, acc.2 || x.2)) ([], false)
    (some x, s)
  else
    s.lateRead o id key m.keeps (rs.map fun r => (r.1.addr, r.2)) (rs.flatMap fun r => wordsWithin m.reads r.1.addr r.2)

/-- Whether a tinker runs on a region of some places: an engine's access waits (R270). -/
def State.locsHeld (s : State) (ls : List Loc) : Bool := ls.any fun l => !l.scr && s.regionHeld l.addr 1

/-- Whether a write that has not been performed at the home slice happens before an engine command's access: of
its own group, issued before the group's release `released` or, where `own` is set, before the command; or of
another group of the core that has handed it on (R237, R243, R246). -/
def State.writeBefore (s : State) (id : Nat) (o : Op) (g : Group) (own : Bool) (p : Nat × Op) : Bool :=
  p.2.core == o.core && (State.countsWrite p.2 || State.returnsOld p.2) &&
  (if p.2.slot = o.slot then decide (p.1 < id) && (own || decide (p.1 < g.view.released)) else s.handedOn g p.2.slot p.1)

/-- Whether an engine command's access to some places must wait for such a write of their bytes (log 18). -/
def State.engineBehind (s : State) (id : Nat) (o : Op) (g : Group) (own : Bool) (ls : List Loc) : Bool :=
  !Gs.det g.modes.gs && s.mem.reqs.any fun r =>
    (ls.any fun l => !l.scr && meets l.addr 1 r.2.addr r.2.size) && (match s.op r.2.op with
      | some w => s.writeBefore id o g own (r.2.op, w)
      | none => false)

/-- What a deterministic group buffers of a copy: its bytes, and the poison that it moves (R250, R324). -/
def Group.buffered (g : Group) (scr poison : Bool) (r : Loc) (i : DetItem) : Group :=
  { g with det := { g.det with buffer := g.det.buffer ++ (i :: if poison then [.poison scr (sectorOf r.addr)] else []) } }

/-- Whether an ST of an operation rests in the pending list of a word of some bytes: it has not been performed. -/
def State.restsIn (s : State) (id a n : Nat) : Bool :=
  s.mem.pending.any fun p => match p with
    | .st b bytes ops .. => ops.contains id && meets b bytes.length a n
    | _ => false

/-- Write one run: in scratch, at the home slice, or into the buffer of a deterministic group. The operation
notes where and when, for the group that will observe it (R246); `sent` marks a write that rests in a pending list.
One that moves poison does not, so that the poison moves with it (R324). -/
def writeRun (s : State) (id : Nat) (o : Op) (det poison : Bool) (holds : Nat) (r : Loc) (bytes : List Byte) : State :=
  if r.scr then
    if det then s.modGroup o.slot fun g => g.buffered true poison r (.scratch r.addr bytes)
    else match s.group o.slot with
      | some g => s.changeScratch g.teamKey fun t =>
          let t := t.write r.addr bytes
          if poison then { t with poison := addOnce t.poison (sectorOf r.addr) } else t
      | none => s
  else if det then s.modGroup o.slot fun g => g.buffered false poison r (.write r.addr r.grain bytes)
  else
    let s := if poison then (s.writeNow r.addr bytes r.grain [] [id]).movePoison r.addr
      else s.homeWrite r.addr bytes r.grain [] [id] (wordsWithin holds r.addr bytes.length)
    { s with mem := { s.mem with ops := s.mem.ops.update id fun o => { o with
      pieces := o.pieces ++ [{ Piece.start { lane := 0, va := 0, phys := { Phys.scratch r.addr with grain := r.grain } }
        bytes.length [] with read := s.ids, sent := s.restsIn id r.addr bytes.length }] } } }

/-- Write some bytes, run by run. -/
def engineWrite (s : State) (id : Nat) (o : Op) (det poison : Bool) (holds : Nat) (ls : List Loc) (bytes : List Byte) :
    State :=
  ((runsOf ls).foldl (fun (acc : State × List Byte) r =>
    (writeRun acc.1 id o det poison holds r.1 (acc.2.take r.2), acc.2.drop r.2)) (s, bytes)).1

/-- An engine command completes: its group will observe it (R246). Of a write that rested in a pending list it is
known that it has been performed by now. In deterministic operation that orders nothing (R250). -/
def State.engineDone (s : State) (id : Nat) (o : Op) : State :=
  let done : Done :=
    { flag := o.flag, batch := o.copy.map (·.batch), rel := o.rel
      writes := o.pieces.map fun q => (q.addr, q.size, if q.sent then s.ids else q.read) }
  ((s.modGroup o.slot fun g => if Gs.det g.modes.gs then g else { g with done := g.done ++ [done] }).dropReads id).finishOp id

/-! ## Late faults -/

/-- Suspend a copy or a demand at a fault (R169, R205). Of a demand that is suspended already the first fault stays. -/
def State.suspend (s : State) (id : Nat) (o : Op) (cause : Cause) (addr : Nat) (npc : VAddr) (node : Word) : State :=
  let precise := match o.tile with
    | some j => j.forStore
    | none => false
  let t : TrapInfo :=
    { cause := .late, sub := BitVec.ofNat 32 cause.code, addr := addr, pc := o.pc, npc := npc, node := node, lanes := 0,
      gang := if precise then o.strands else [], op := some id }
  (s.putOp id (some { o with suspended := o.suspended.or (some t) })).changed

/-- Log an engine's access that comes to nothing, where a fault tells of one (R26, R317). -/
def State.noteLostOf (s : State) (o : Op) (g : Group) (scr : Bool) (f : EngineFault) : State :=
  if scr then s else s.noteFault o.core (s.rootOf g.launch) (f.va % 2 ^ 52) f.use f.cause

/-- Whether a demand has granules in progress, which finish before its late fault is raised (R169). -/
def Op.inProgress (o : Op) : Bool := o.tile.any fun j => j.begun != 0

/-- LATE_FAULT (R169 to R172): the suspended operation that issued first and has not been raised, once its granules
in progress have finished. With every strand exited the operation ends and the fault is logged. -/
def execLateFault (op : Nat) (s : State) : Out :=
  match s.op op with
  | some o =>
    match o.suspended, s.group o.slot with
    | some t, some g =>
      let earlier := (s.opsOf o.slot).any fun p => decide (p.1 < op) && p.2.suspended.isSome && p.2.aux == 0
      if o.aux != 0 || earlier || o.inProgress then .next s
      else if g.allExited then
        .next ((((s.dropReads op).finishOp op).sweep o.slot).log (slotCore o.slot) [1, t.sub.toNat, t.addr, t.npc.toNat]).changed
      else
        let s := s.putOp op (some { o with aux := 1 })
        .next (s.raise o.slot { t with lanes := laneMask (g.liveLanes g.allStrands) }).changed
    | _, _ => .next s
  | none => .next s

/-- Whether a command's release has nothing left to wait for (R246): the group's writes that precede it,
acknowledged at CLU or wider, and performed at TEAM, whose instance has the core's engines (R237); at CLU or
wider what the group has learnt as well (R243). No update of the command's own is on its way by then. -/
def State.engineReleased (s : State) (id : Nat) (o : Op) : Bool :=
  let earlier (p : Nat × Op) : Bool := decide (p.1 < id) && (State.countsWrite p.2 || State.returnsOld p.2)
  match o.rel, s.group o.slot with
  | some sc, some g =>
    Gs.det g.modes.gs || (match sc with
      | .grp => true
      | .team => (s.opsOf o.slot).all fun p => !(earlier p && s.mem.reqs.any fun r => r.2.op == p.1)
      | _ => ((s.opsOf o.slot).all fun p => !earlier p) && s.learntPerformed o.slot g)
  | _, _ => true

end Sys2Proof.Machine
end

