-- ==== Sys2Proof/Machine/Copies.lean ====
section
/-!
DEFINITION. Copies (R204 to R207, R351, R424): CPY, CPCLOSE, WAITB, the progress of a copy, and its completion.
-/
namespace Sys2Proof.Machine

open Sys2Proof

/-! ## The control register (R205) -/

namespace CopyJob
def len (j : CopyJob) : Nat := (j.ctl.extractLsb' 0 24).toNat
def srcScr (j : CopyJob) : Bool := j.ctl.getLsbD 24
def dstScr (j : CopyJob) : Bool := j.ctl.getLsbD 25
def decode (j : CopyJob) : Bool := j.ctl.getLsbD 26
def acq (j : CopyJob) : Bool := j.ctl.getLsbD 27
def rel (j : CopyJob) : Bool := j.ctl.getLsbD 28
def scope (j : CopyJob) : Option Scope := Scope.ofCode (j.ctl.extractLsb' 29 3)
/-- How many sectors of the destination the copy writes. -/
def chunks (j : CopyJob) : Nat := if j.len = 0 then 0 else (j.dst + j.len - 1) / 32 + 1 - j.dst / 32
/-- Whether every byte has been written, and has arrived on its barrier. -/
def finished (j : CopyJob) : Bool := (List.range j.chunks).all fun k => j.done.testBit k && j.arrived.testBit k
/-- The destination's span. -/
def span (j : CopyJob) : Span := { scr := j.dstScr, addr := j.dst, len := j.len }
end CopyJob

/-- The first check of CPY that fails, in the order of R205: whether, and the address it reports. -/
def copyFault (bound : Nat) (j : CopyJob) (q : List Word) : Option Nat :=
  let high (i : Nat) : Nat := (q.getD i 0).toNat
  if j.scope.isNone then some 0
  else if 2 ^ 20 ≤ high 1 ∨ 2 ^ 20 ≤ high 3 ∨ (j.srcScr ∧ high 1 ≠ 0) ∨ (j.dstScr ∧ high 3 ≠ 0) then some 0
  else if j.srcScr ∧ j.dstScr ∧ (j.scope.map wideScope).getD false then some 0
  else if j.decode ∧ (j.src % 2 ≠ 0 ∨ j.dst % 2 ≠ 0 ∨ j.len % 2 ≠ 0) then some 0
  else if j.srcScr ∧ bound < j.src + j.len then some j.src
  else if j.dstScr ∧ bound < j.dst + j.len then some j.dst
  else if j.bar ≠ 0 ∧ (j.bar % 16 ≠ 0 ∨ bound < j.bar + 16) then some j.bar
  else none

/-- CPY (R205, R206, R351). Its reads of scratch wait for the group's own commands that still write there
(R202). -/
def execCpy (d a b : Reg) (s : State) : Out :=
  checked s (fun _ => Needs.regs [.one d, .four a, .one b]) fun c =>
    onceActive s c fun _ =>
      uniform s c [.one d, ⟨a.toNat, 1⟩, ⟨a.toNat + 1, 1⟩, ⟨a.toNat + 2, 1⟩, ⟨a.toNat + 3, 1⟩, .one b] fun s c xs =>
        let q := (List.range 4).map fun i => (arg xs (i + 1)).setWidth 32
        let word (i : Nat) : Nat := (q.getD i 0).toNat
        let j : CopyJob := { src := word 1 * 2 ^ 32 + word 0, dst := word 3 * 2 ^ 32 + word 2,
                             ctl := (arg xs 5).setWidth 32, bar := ((arg xs 0).setWidth 32).toNat,
                             batch := c.g.batch, done := 0, arrived := 0 }
        let det := Gs.det c.g.modes.gs
        match copyFault (s.scratchBound c.g) j q with
        | some addr => trapAddr s c .illopnd (c.g.execLanes c.gang) addr
        | none =>
          let scope := j.scope.getD .grp
          if accessHeld s c || ((j.srcScr || j.dstScr || j.bar != 0) && scratchHeld s c) ||
              scratchBehind s c.slot [{ scr := j.srcScr, addr := j.src, len := j.len }] ||
              (!det && j.acq && !s.readsFixed c.slot) then stallHere s c
          else withAliases s c [j.span] fun _ =>
            let s := if !det && j.acq then s.acquire c.slot scope else s
            let (id, s) := s.fresh
            completeOnly (s.putOp id (some { Op.start c .copy c.flagB with
              copy := some j, rel := if j.rel then some scope else none })) c

/-- The bytes of the `k`-th destination sector of a copy: its offsets within the copy. -/
def chunkBytes (j : CopyJob) (k : Nat) : List Nat :=
  let lo := Nat.max j.dst ((j.dst / 32 + k) * 32)
  let hi := Nat.min (j.dst + j.len) ((j.dst / 32 + k + 1) * 32)
  (List.range (hi - lo)).map fun i => lo - j.dst + i

/-- The groups of a core may see bytes that a copy has written at the home slices, once they have arrived: those that
leave BCWAIT acquire them (R208), and the core's CG-0 copies take them (log 18). -/
def State.shareBytes (s : State) (core : Nat) (rs : List (Nat × Nat)) : State :=
  let time := s.ids
  rs.foldl (fun s r =>
    let x := s.core core
    let now := (List.range r.2).map fun i => (r.1 + i, time)
    (s.setCore core { x with shared := mergeTimes x.shared now }).refresh core r.1 r.2 time) s

/-- Bytes arrive on a copy's barrier one by one after they are written (R206, R208). -/
def State.copyArrives (s : State) (o : Op) (det : Bool) (bar : Nat) : Nat → State
  | 0 => s
  | n + 1 =>
    if bar = 0 then s
    else
      let s := if det then
          s.modGroup o.slot fun g => { g with det := { g.det with buffer := g.det.buffer ++ [.barrier .arrive bar 1] } }
        else match s.group o.slot with
          | some g => s.changeScratch g.teamKey fun t => { t with scratch := barrierUpdate t.scratch .arrive bar 1 }
          | none => s
      s.copyArrives o det bar n

/-- The bytes of a written sector of a copy's destination arrive on its barrier, once their writes have been
performed (R206, R208). The pieces of the operation that are marked with the sector say where they are. -/
def State.chunkArrives (s : State) (id k : Nat) : State :=
  match s.op id with
  | some o =>
    match o.copy, s.group o.slot with
    | some j, some g =>
      let ps := o.pieces.filter fun q => q.lanes == [k]
      if !j.done.testBit k || j.arrived.testBit k || ps.any fun q => s.restsIn id q.addr q.size then s
      else
        let s := { s with mem := { s.mem with ops := s.mem.ops.update id fun o =>
          { o with copy := some { j with arrived := j.arrived ||| 2 ^ k } } } }
        let s := if j.bar = 0 then s else s.shareBytes o.core (ps.map fun q => (q.addr, q.size))
        (s.copyArrives o (Gs.det g.modes.gs) j.bar (chunkBytes j k).length).changed
    | _, _ => s
  | none => s

/-- One sector of a copy's destination is read and written, or the copy is suspended at a fault (R205; log 22).
`keeps` says how many pending operations the read passes, `reads` the size of the words that it leaves in pending
lists, so that the sector is written once they have left them, and `holds` the same of the write (R223, R226). -/
def State.copyChunk (s : State) (id k keeps reads holds : Nat) : State :=
  match s.op id with
  | some o =>
    match o.copy, s.group o.slot with
    | some j, some g =>
      if o.suspended.isSome || j.done.testBit k || decide (j.chunks ≤ k) then s.chunkArrives id k
      else
        let offs := chunkBytes j k
        let det := Gs.det g.modes.gs
        match engineLocs s o g j.srcScr j.decode .read 0 (offs.map (j.src + ·)) with
        | .error f => (s.noteLostOf o g j.srcScr f).suspend id o f.cause f.addr o.pc 0
        | .ok from' =>
          match engineLocs s o g j.dstScr j.decode .write 32 (offs.map (j.dst + ·)) with
          | .error f => (s.noteLostOf o g j.dstScr f).suspend id o f.cause f.addr o.pc 0
          | .ok to' =>
            if (!det && (s.locsHeld from' || s.locsHeld to')) || s.engineBehind id o g false from' ||
                s.engineBehind id o g true to' then s else
            let vas (scr : Bool) (a : Nat) : List Nat := if scr then [] else offs.map (a + ·)
            let s := s.misuse g.launch (vas j.srcScr j.src ++ vas j.dstScr j.dst)
            match engineRead s id k o g (g.readMode keeps reads) (runsOf from') with
            | (none, s) => s
            | (some r, s) =>
              let bytes := if j.srcScr then r.1
                else (offs.zip r.1).flatMap fun p => s.seenBytes g.launch (j.src + p.1) [p.2]
              let s := engineWrite s id o det r.2 holds to' bytes
              let s := { s with mem := { s.mem with ops := s.mem.ops.update id fun o => { o with
                copy := some { j with done := j.done ||| 2 ^ k }
                pieces := o.pieces.map fun (q : Piece) => if q.lanes.isEmpty then { q with lanes := [k] } else q } } }
              (s.chunkArrives id k).changed
    | _, _ => s
  | none => s

/-- A copy of a deterministic group is made whole at once, in ascending order, up to a fault: which bytes of its
destination a load of the group finds does not differ between runs (R13, R206, R351; log 22). -/
def State.copyWhole (s : State) (id : Nat) (j : CopyJob) : State :=
  (List.range j.chunks).foldl (fun s k => s.copyChunk id k 0 0 0) s

/-- COPY_COMPLETE (R206, R207): every byte is written, the writes are acknowledged, and its release
waits for nothing. -/
def execCopyComplete (op : Nat) (s : State) : Out :=
  match s.op op with
  | some o =>
    match o.copy with
    | some j =>
      if j.finished && o.suspended.isNone && !s.inFlight op && s.engineReleased op o then
        .next (s.engineDone op o).changed
      else .next s
    | none => .next s
  | none => .next s

/-- CPCLOSE: the number of the open batch into every lane of the gang (R207). -/
def execCpclose (d : Reg) (s : State) : Out :=
  checked s (fun _ => Needs.regs [.one d]) fun c =>
    onceActive s c fun _ =>
      let g := c.g.writeLanes d.toNat 1 (BitVec.ofNat 64 (c.g.batch % 2 ^ 32)) (Group.gangLanes c.gang)
      complete s c { g with batch := c.g.batch + 1 }

/-- Whether WAITB of `a` covers a batch number (R207). -/
def coversBatch (a b : Nat) : Bool := decide ((a + 2 ^ 32 - b % 2 ^ 32) % 2 ^ 32 < 2 ^ 31)

/-- Whether WAITB of `a` waits for an operation: a copy of a batch that it covers, the most recent of
its number (R207). -/
def waitsForCopy (a openBatch : Nat) (o : Op) : Bool :=
  match o.copy with
  | some j => coversBatch a j.batch && decide (openBatch < j.batch + 2 ^ 32)
  | none => false

/-- WAITB (R207, R424). -/
def execWaitb (a : Reg) (s : State) : Out :=
  checked s (fun _ => Needs.regs [.one a]) fun c =>
    onceActive s c fun _ =>
      uniform s c [.one a] fun s c xs =>
        let n := ((arg xs 0).setWidth 32).toNat
        if coversBatch n c.g.batch then trapAll s c .illopnd
        else if (s.opsOf c.slot).any fun p => waitsForCopy n c.g.batch p.2 then blockHere s c
        else completeOnly (s.observe c.slot fun d => d.batch.any fun b =>
          coversBatch n b && decide (c.g.batch < b + 2 ^ 32)) c

end Sys2Proof.Machine
end

