-- ==== Sys2Proof/Machine/RiscV.lean ====
section
/-!
DEFINITION. The tinkers' core, RV32IMC (R268; log 11): its address space, the compressed instructions, and
one instruction. Its exceptions end the handler (R270).
-/
namespace Sys2Proof.Machine

open Sys2Proof

namespace Tinker

/-- A tinker at rest, its memory zero. -/
def idle : Tinker :=
  { mem := [], running := none, region := 0, reaches := true, regs := [], pc := 0, written := [], retired := 0, result := none }

def reg (t : Tinker) (r : Nat) : Word := if r = 0 then 0 else t.regs.get r 0

def setReg (t : Tinker) (r : Nat) (x : Word) : Tinker := if r = 0 then t else { t with regs := t.regs.put r (some x) }

/-- Where an address of a tinker lies (R268): handler memory, or the region window; none is an access
outside them, or to a region that its world does not reach (R319). A poisoned sector of the region does not
read (R324). -/
def load1 (t : Tinker) (m : Mem) (a : Nat) : Option Byte :=
  if a < 0x8000 then some (t.mem.get a 0)
  else if 0x10000 ≤ a ∧ a < 0x10200 ∧ t.reaches then
    let pa := t.region + (a - 0x10000)
    if m.poisoned pa 1 then none else some ((t.written.find pa).getD (m.byte pa))
  else none

def store1 (t : Tinker) (a : Nat) (b : Byte) : Option Tinker :=
  if a < 0x8000 then some { t with mem := t.mem.set a 0 b }
  else if 0x10000 ≤ a ∧ a < 0x10200 ∧ t.reaches then
    some { t with written := t.written.put (t.region + (a - 0x10000)) (some b) }
  else none

/-- A little-endian read of `n` bytes. -/
def load (t : Tinker) (m : Mem) (a : Nat) : Nat → Option Nat
  | 0 => some 0
  | n + 1 => match t.load1 m a, t.load m (a + 1) n with
    | some b, some r => some (b.toNat + 256 * r)
    | _, _ => none

/-- A little-endian write of `n` bytes: all of them, or none. -/
def store (t : Tinker) (a x : Nat) : Nat → Option Tinker
  | 0 => some t
  | n + 1 => (t.store1 a (BitVec.ofNat 8 x)).bind fun t => t.store (a + 1) (x / 256) n

end Tinker

namespace RiscV

/-- Bits [hi:lo] of a word. -/
def field (w : Word) (hi lo : Nat) : Nat := w.toNat / 2 ^ lo % 2 ^ (hi + 1 - lo)

/-- A `b`-bit number sign-extended. -/
def sext (b n : Nat) : Word := BitVec.ofInt 32 (Elem.value true b n)

def immI (w : Word) : Word := sext 12 (field w 31 20)
def immS (w : Word) : Word := sext 12 (field w 31 25 * 32 + field w 11 7)
def immB (w : Word) : Word :=
  sext 13 (field w 31 31 * 2 ^ 12 + field w 7 7 * 2 ^ 11 + field w 30 25 * 2 ^ 5 + field w 11 8 * 2)
def immU (w : Word) : Word := w &&& 0xFFFFF000
def immJ (w : Word) : Word :=
  sext 21 (field w 31 31 * 2 ^ 20 + field w 19 12 * 2 ^ 12 + field w 20 20 * 2 ^ 11 + field w 30 21 * 2)

/-- Encodings that compressed instructions stand for. -/
def encR (op f3 f7 rd a b : Nat) : Word := BitVec.ofNat 32 (f7 * 2 ^ 25 + b * 2 ^ 20 + a * 2 ^ 15 + f3 * 2 ^ 12 + rd * 2 ^ 7 + op)
def encI (op f3 rd a : Nat) (imm : Word) : Word :=
  BitVec.ofNat 32 (imm.toNat % 2 ^ 12 * 2 ^ 20 + a * 2 ^ 15 + f3 * 2 ^ 12 + rd * 2 ^ 7 + op)
def encS (f3 a b : Nat) (imm : Word) : Word :=
  BitVec.ofNat 32 (field imm 11 5 * 2 ^ 25 + b * 2 ^ 20 + a * 2 ^ 15 + f3 * 2 ^ 12 + field imm 4 0 * 2 ^ 7 + 0x23)
def encB (f3 a b : Nat) (imm : Word) : Word :=
  BitVec.ofNat 32 (field imm 12 12 * 2 ^ 31 + field imm 10 5 * 2 ^ 25 + b * 2 ^ 20 + a * 2 ^ 15 + f3 * 2 ^ 12 +
    field imm 4 1 * 2 ^ 8 + field imm 11 11 * 2 ^ 7 + 0x63)
def encJ (rd : Nat) (imm : Word) : Word :=
  BitVec.ofNat 32 (field imm 20 20 * 2 ^ 31 + field imm 10 1 * 2 ^ 21 + field imm 11 11 * 2 ^ 20 +
    field imm 19 12 * 2 ^ 12 + rd * 2 ^ 7 + 0x6F)

/-- The instruction that a compressed one stands for; none is illegal. -/
def expand (h : Nat) : Option Word :=
  let w : Word := BitVec.ofNat 32 h
  let f (hi lo : Nat) : Nat := field w hi lo
  let rd := f 11 7
  let rs2 := f 6 2
  let a' := 8 + f 9 7
  let b' := 8 + f 4 2
  let imm6 := sext 6 (f 12 12 * 32 + f 6 2)
  let jump := sext 12 (f 12 12 * 2 ^ 11 + f 8 8 * 2 ^ 10 + f 10 9 * 2 ^ 8 + f 6 6 * 2 ^ 7 + f 7 7 * 2 ^ 6 + f 2 2 * 2 ^ 5 +
    f 11 11 * 2 ^ 4 + f 5 3 * 2)
  let branch := sext 9 (f 12 12 * 2 ^ 8 + f 6 5 * 2 ^ 6 + f 2 2 * 2 ^ 5 + f 11 10 * 2 ^ 3 + f 4 3 * 2)
  let word := f 5 5 * 64 + f 12 10 * 8 + f 6 6 * 4
  match f 1 0, f 15 13 with
  | 0, 0 =>
    let imm := f 10 7 * 64 + f 12 11 * 16 + f 5 5 * 8 + f 6 6 * 4
    if imm = 0 then none else some (encI 0x13 0 b' 2 (BitVec.ofNat 32 imm))
  | 0, 2 => some (encI 0x03 2 b' a' (BitVec.ofNat 32 word))
  | 0, 6 => some (encS 2 a' b' (BitVec.ofNat 32 word))
  | 1, 0 => some (encI 0x13 0 rd rd imm6)
  | 1, 1 => some (encJ 1 jump)
  | 1, 2 => some (encI 0x13 0 rd 0 imm6)
  | 1, 3 =>
    if rd = 2 then
      let imm := f 12 12 * 2 ^ 9 + f 4 3 * 2 ^ 7 + f 5 5 * 2 ^ 6 + f 2 2 * 2 ^ 5 + f 6 6 * 2 ^ 4
      if imm = 0 then none else some (encI 0x13 0 2 2 (sext 10 imm))
    else if imm6 = 0 then none
    else some (BitVec.ofNat 32 ((imm6.toNat * 2 ^ 12) % 2 ^ 32 + rd * 2 ^ 7 + 0x37))
  | 1, 4 =>
    match f 11 10 with
    | 0 => if f 12 12 = 1 then none else some (encR 0x13 5 0 a' a' rs2)
    | 1 => if f 12 12 = 1 then none else some (encR 0x13 5 0x20 a' a' rs2)
    | 2 => some (encI 0x13 7 a' a' imm6)
    | _ =>
      if f 12 12 = 1 then none
      else match f 6 5 with
        | 0 => some (encR 0x33 0 0x20 a' a' b')
        | 1 => some (encR 0x33 4 0 a' a' b')
        | 2 => some (encR 0x33 6 0 a' a' b')
        | _ => some (encR 0x33 7 0 a' a' b')
  | 1, 5 => some (encJ 0 jump)
  | 1, 6 => some (encB 0 a' 0 branch)
  | 1, 7 => some (encB 1 a' 0 branch)
  | 2, 0 => if f 12 12 = 1 then none else some (encR 0x13 1 0 rd rd rs2)
  | 2, 2 =>
    if rd = 0 then none else some (encI 0x03 2 rd 2 (BitVec.ofNat 32 (f 3 2 * 64 + f 12 12 * 32 + f 6 4 * 4)))
  | 2, 4 =>
    if f 12 12 = 0 then
      if rs2 = 0 then (if rd = 0 then none else some (encI 0x67 0 0 rd 0)) else some (encR 0x33 0 0 rd 0 rs2)
    else if rs2 = 0 then (if rd = 0 then some 0x00100073 else some (encI 0x67 0 1 rd 0))
    else some (encR 0x33 0 0 rd rd rs2)
  | 2, 6 => some (encS 2 2 rs2 (BitVec.ofNat 32 (f 8 7 * 64 + f 12 9 * 4)))
  | _, _ => none

/-- The RV32I and RV32M operations on two registers; none is illegal. -/
def alu (f7 f3 : Nat) (x y : Word) : Option Word :=
  let sh := y.toNat % 32
  match f7, f3 with
  | 0, 0 => some (x + y)
  | 0x20, 0 => some (x - y)
  | 0, 1 => some (x <<< sh)
  | 0, 2 => some (if x.toInt < y.toInt then 1 else 0)
  | 0, 3 => some (if x.toNat < y.toNat then 1 else 0)
  | 0, 4 => some (x ^^^ y)
  | 0, 5 => some (x >>> sh)
  | 0x20, 5 => some (x.sshiftRight sh)
  | 0, 6 => some (x ||| y)
  | 0, 7 => some (x &&& y)
  | 1, 0 => some (x * y)
  | 1, 1 => some (BitVec.ofInt 32 (x.toInt * y.toInt / 2 ^ 32))
  | 1, 2 => some (BitVec.ofInt 32 (x.toInt * y.toNat / 2 ^ 32))
  | 1, 3 => some (BitVec.ofNat 32 (x.toNat * y.toNat / 2 ^ 32))
  | 1, 4 => some (if y = 0 then 0xFFFFFFFF else BitVec.ofInt 32 (x.toInt.tdiv y.toInt))
  | 1, 5 => some (if y = 0 then 0xFFFFFFFF else x / y)
  | 1, 6 => some (if y = 0 then x else BitVec.ofInt 32 (x.toInt.tmod y.toInt))
  | 1, 7 => some (if y = 0 then x else x % y)
  | _, _ => none

/-- The branch conditions; none is illegal. -/
def taken (f3 : Nat) (x y : Word) : Option Bool :=
  match f3 with
  | 0 => some (x == y)
  | 1 => some (x != y)
  | 4 => some (decide (x.toInt < y.toInt))
  | 5 => some (decide (y.toInt ≤ x.toInt))
  | 6 => some (decide (x.toNat < y.toNat))
  | 7 => some (decide (y.toNat ≤ x.toNat))
  | _ => none

/-- How an instruction ends: the tinker after it, ECALL, or an exception. -/
inductive Ended where
  | next (t : Tinker)
  | ecall
  | exception

/-- Go on at an address; a value is written to a register first. -/
def go (t : Tinker) (rd : Nat) (x : Option Word) (pc : Word) : Ended :=
  match x with
  | some v => .next { t.setReg rd v with pc := pc }
  | none => .exception

/-- Execute one 32-bit instruction that took `len` bytes; `split` says whether a misaligned access is
performed or is an exception. -/
def exec32 (t : Tinker) (m : Mem) (split : Bool) (w : Word) (len : Nat) : Ended :=
  let rd := field w 11 7
  let x := t.reg (field w 19 15)
  let y := t.reg (field w 24 20)
  let f3 := field w 14 12
  let f7 := field w 31 25
  let next := t.pc + BitVec.ofNat 32 len
  let aligned (a n : Nat) : Bool := a % n == 0 || split
  match field w 6 0 with
  | 0x37 => go t rd (some (immU w)) next
  | 0x17 => go t rd (some (t.pc + immU w)) next
  | 0x6F => go t rd (some next) (t.pc + immJ w)
  | 0x67 => if f3 = 0 then go t rd (some next) ((x + immI w) &&& 0xFFFFFFFE) else .exception
  | 0x63 => match taken f3 x y with
    | some b => .next { t with pc := if b then t.pc + immB w else next }
    | none => .exception
  | 0x03 =>
    let a := (x + immI w).toNat
    let get (n : Nat) : Option Nat := if aligned a n then t.load m a n else none
    match f3 with
    | 0 => go t rd ((get 1).map (sext 8)) next
    | 1 => go t rd ((get 2).map (sext 16)) next
    | 2 => go t rd ((get 4).map (BitVec.ofNat 32)) next
    | 4 => go t rd ((get 1).map (BitVec.ofNat 32)) next
    | 5 => go t rd ((get 2).map (BitVec.ofNat 32)) next
    | _ => .exception
  | 0x23 =>
    let a := (x + immS w).toNat
    let n := 2 ^ f3
    if f3 ≤ 2 && aligned a n then match t.store a y.toNat n with
      | some t => .next { t with pc := next }
      | none => .exception
    else .exception
  | 0x13 =>
    match f3 with
    | 1 => go t rd (if f7 = 0 then alu 0 1 x (BitVec.ofNat 32 (field w 24 20)) else none) next
    | 5 => go t rd (if f7 = 0 ∨ f7 = 0x20 then alu f7 5 x (BitVec.ofNat 32 (field w 24 20)) else none) next
    | _ => go t rd (alu 0 f3 x (immI w)) next
  | 0x33 => go t rd (alu f7 f3 x y) next
  | 0x0F => if f3 = 0 then .next { t with pc := next } else .exception
  | 0x73 => if w = 0x00000073 then .ecall else .exception
  | _ => .exception

/-- Fetch and execute one instruction; only handler memory executes (R268). -/
def run1 (t : Tinker) (m : Mem) (split : Bool) : Ended :=
  let a := t.pc.toNat
  let half (o : Nat) : Option Nat := if a + o + 2 ≤ 0x8000 then t.load m (a + o) 2 else none
  match half 0 with
  | none => .exception
  | some h =>
    if h % 4 = 3 then match half 2 with
      | some h' => exec32 t m split (BitVec.ofNat 32 (h + 2 ^ 16 * h')) 4
      | none => .exception
    else match expand h with
      | some w => exec32 t m split w 2
      | none => .exception

end RiscV

end Sys2Proof.Machine
end

