-- ==== Sys2Proof/Machine/Messages.lean ====
section
/-!
DEFINITION. Active messages (R269, R330) and the tinkers that run their handlers (R268, R270).
-/
namespace Sys2Proof.Machine

open Sys2Proof

/-! ## AMSG (R269) -/

/-- RPL of the control register: a reply, or no wait for the handler (R269). -/
def wantsReply : Nat := 1
def posted : Nat := 2

/-- The checks of AMSG on its target (R269). -/
def checkTarget (s : State) (c : Ctx) (va : Nat) : Except Cause Phys :=
  let root := s.rootOf c.g.launch
  if va % 4 ≠ 0 then .error .align
  else match translateVa s c.core root va 0 with
    | .error e => .error e.cause
    | .ok x =>
      if regionOf x.pa != .hbm then .error .perm
      else checkAccess s c.core root va .both (fun _ => false) 0

/-- The copies of a CG-0 region that its core drops when it sends a message (R330). -/
def State.dropOwnRegion (s : State) (c pa grain : Nat) : State :=
  (List.range 16).foldl (fun s i => s.dropOwnCopy c (regionBase pa + 32 * i) grain) s

/-- AMSG (R269, R330). -/
def execAmsg (d a b : Reg) (s : State) : Out :=
  checked s (fun _ => Needs.regs [.one d, .four a, .one b]) fun c =>
    onceActive s c fun _ =>
      uniform s c [⟨a.toNat, 1⟩, ⟨a.toNat + 1, 1⟩, ⟨a.toNat + 2, 1⟩, ⟨a.toNat + 3, 1⟩, .one b] fun s c xs =>
        let w (i : Nat) : Word := (arg xs i).setWidth 32
        let ctl := w 4
        let rpl := (ctl.extractLsb' 6 2).toNat
        let va := ((w 1).extractLsb' 0 20).toNat * 2 ^ 32 + (w 0).toNat
        if (w 1).extractLsb' 20 12 ≠ 0 ∨ ctl.extractLsb' 8 24 ≠ 0 ∨ rpl = 3 then trapAll s c .illopnd
        else match checkTarget s c va with
          | .error e => trapAddr (s.noteFault c.core (s.rootOf c.g.launch) va 0 e) c e (c.g.execLanes c.gang) va
          | .ok p =>
            if accessHeld s c || rejectedMeets s c [(regionBase p.pa, 512)] then stallHere s c
            else
              let s := s.dropOwnRegion c.core p.pa p.grain
              let (id, s) := s.fresh
              let o : Op := { Op.start c .message c.flagB with
                pieces := [Piece.start { lane := 0, va := va, phys := p } 4 []], lanes := Group.gangLanes c.gang
                aux := rpl }
              let s := s.putOp id (some (if rpl = wantsReply then { o with dst := some d, count := 1 } else o))
              let image := ((s.launch c.g.launch).map fun l => l.desc.tkimg != 0).getD false
              let s := s.sendOrBuffer c [{
                src := .core c.core, slice := 0, addr := p.pa, size := 4, grain := p.grain
                kind := .message p.pa (ctl.extractLsb' 0 6).toNat (w 2).toNat (w 3).toNat c.g.ident.global image
                op := id, piece := 0, admitted := false }]
              endEarly c (completeOnly s c)

/-! ## Handlers (R270) -/

/-- The tinker of a slice. -/
def State.tinker (s : State) (slice : Nat) : Tinker := s.mem.tinkers.get slice Tinker.idle

def State.putTinker (s : State) (slice : Nat) (t : Tinker) : State :=
  { s with mem := { s.mem with tinkers := s.mem.tinkers.put slice (some t) } }

/-- The reply of a message is known, with the time of its handler's writes; a slice has accepted it (R269). -/
def State.reply (s : State) (op : Nat) (x : Word) : State :=
  s.modPiece op 0 fun q => { q with sent := true, data := some (wordBytes x), read := s.ids }
def State.accept (s : State) (op : Nat) : State := s.modPiece op 0 fun q => { q with sent := true }

/-- Register i at the start of a handler: a0 to a3 as R270 says, the others free (log 11). -/
def handlerRegs (tick : Nat) (a : List Nat) : Sparse Word :=
  (List.range 31).map fun i => (i + 1,
    if 10 ≤ i + 1 ∧ i + 1 < 14 then BitVec.ofNat 32 (a.getD (i + 1 - 10) 0) else Config.tinkerReg tick (i + 1))

/-- Whether the tinker of a slice reaches an address: it acts in the world of its slice's block (R318, R319). -/
def State.tinkerReaches (s : State) (slice pa : Nat) : Bool := s.reachable (384 + slice) pa

/-- Start a handler at the entry for its index, or reply at once that there is none (R268, R270). -/
def State.startHandler (s : State) (op target hix p0 p1 gid : Nat) (image : Bool) : State :=
  let slice := homeSlice target
  let t := s.tinker slice
  let entry := ((t.load s.mem (4 * hix) 4).getD 0)
  if !image || entry == 0xFFFFFFFF then s.reply op 0xFFFFFFFD
  else
    let s := (s.cut (regionBase target) 512).accept op
    s.putTinker slice { t with
      running := some op, region := regionBase target, reaches := s.tinkerReaches slice (regionBase target)
      pc := BitVec.ofNat 32 entry, written := [], retired := 0, result := none
      regs := handlerRegs s.time.tick [target % 512, p0, p1, gid] }

/-- TINKER_HANDLER: the slice takes a message while its tinker is at rest (R270). -/
def execTinkerHandler (req : Nat) (s : State) : Out :=
  match s.servable req with
  | some r =>
    match r.kind with
    | .message target hix p0 p1 gid image =>
      if (s.tinker (homeSlice target)).running.isSome then .next s
      else .next ((s.dropReq req).startHandler r.op target hix p0 p1 gid image).changed
    | _ => .next s
  | none => .next s

/-- One instruction of a handler (R270; log 11). `misaligned` says whether a misaligned access is performed or
excepts. -/
def State.stepHandler (s : State) (slice : Nat) (misaligned : Bool) : State :=
  let t := s.tinker slice
  if t.running.isNone || t.result.isSome || decide (512 < t.retired) then s
  else
    let t := { t with reaches := s.tinkerReaches slice t.region }
    let t' := match RiscV.run1 t s.mem misaligned with
      | .next u => { u with retired := t.retired + 1 }
      | .ecall => { t with result := some (some (t.reg 10)) }
      | .exception => { t with result := some none }
    (s.putTinker slice t').changed

/-- The same, where what a misaligned access does is free (log 11). -/
def State.stepTinker (s : State) (slice : Nat) : State := s.stepHandler slice (Config.choice s.time.tick 0 % 2 == 0)

/-- The bytes that a handler has written, in runs within sectors. -/
def writtenRuns : Sparse Byte → List (Nat × List Byte)
  | [] => []
  | (a, b) :: r =>
    match writtenRuns r with
    | (a', bs) :: more => if a' = a + 1 ∧ a' % 32 ≠ 0 then (a, b :: bs) :: more else (a, [b]) :: (a', bs) :: more
    | [] => [(a, [b])]

/-- End a handler: with a reply its writes to the region are performed; aborted it writes nothing
there (R270). -/
def State.endHandler (s : State) (slice : Nat) (keep : Bool) (x : Word) : State :=
  let t := s.tinker slice
  match t.running with
  | none => s
  | some op =>
    let grain := match s.op op with
      | some o => (o.pieces.head?.map (·.grain)).getD 0
      | none => 0
    let s := s.putTinker slice { t with running := none, written := [], result := none, retired := 0 }
    let s := if keep then (writtenRuns t.written).foldl (fun s r => s.performWrite r.1 r.2 grain [] [op]) s else s
    s.reply op x

/-- TINKER_HANDLER_END: ECALL, whose reply is a0, or an exception (R270). -/
def execTinkerHandlerEnd (slice : Nat) (s : State) : Out :=
  match (s.tinker slice).result with
  | some (some x) => .next (s.endHandler slice true x).changed
  | some none => .next (s.endHandler slice false 0xFFFFFFFE).changed
  | none => .next s

/-- HANDLER_INSTRUCTION_LIMIT: more than 512 instructions have retired (R270). -/
def execHandlerInstructionLimit (slice : Nat) (s : State) : Out :=
  let t := s.tinker slice
  if t.running.isSome && t.result.isNone && decide (512 < t.retired) then .next (s.endHandler slice false 0xFFFFFFFF).changed
  else .next s

/-- Steps enough for a handler to retire one instruction more than 512, or to end after 512 (R270). -/
def handlerSteps : Nat := 514

/-- A whole handler at once, at a commit (R269): it ends, or it has retired more than 512 instructions. A
misaligned access is performed, so that no free choice enters the results of a deterministic launch (R13;
log 11). The number bounds the steps. -/
def State.runHandler (s : State) (slice : Nat) : Nat → State
  | 0 => s.endHandler slice false 0xFFFFFFFF
  | n + 1 =>
    match (s.tinker slice).result with
    | some (some x) => s.endHandler slice true x
    | some none => s.endHandler slice false 0xFFFFFFFE
    | none => (s.stepHandler slice true).runHandler slice n

/-- The end of a message's handler reaches the sender, whose later accesses to the region come after the
handler's (R239, R246); the reply lands in every lane of the gang, where the message asked for it (R269). -/
def State.landReply (s : State) (op : Nat) (o : Op) (q : Piece) : State :=
  let s := (s.seeBytes o.slot (regionBase q.addr) 512 q.read).refresh (slotCore o.slot) (regionBase q.addr) 512 q.read
  let s := match o.dst with
    | some d => s.modGroup o.slot fun g => g.writeLanes d.toNat 1 (BitVec.ofNat 64 (leNat (q.data.getD []))) o.lanes
    | none => s
  (s.finishOp op).changed

/-- AMSG_REPLY (R269): with RPL = 1 the reply lands in every lane of the gang; with 0 flag B clears when
the handler has ended; with 2 it clears on acceptance, and the message leaves when its handler has
ended. The handler's own updates have been acknowledged by then (R246; log 24). -/
def execAmsgReply (op : Nat) (s : State) : Out :=
  match s.op op with
  | some o =>
    match o.kind, o.pieces with
    | .message, [q] =>
      if q.data.isSome && !s.inFlight op then .next (s.landReply op o q)
      else if q.sent && o.aux == posted && o.flag.isSome then
        .next ((s.putOp op (some { o with flag := none })).settle o.slot).changed
      else .next s
    | _, _ => .next s
  | none => .next s

end Sys2Proof.Machine
end

