-- ==== Sys2Proof/Machine/Special.lean ====
section
/-!
DEFINITION. The special registers: RDSR (R77, R78, R397) and WRSR (R302, R426, R427).
-/
namespace Sys2Proof.Machine

open Sys2Proof

/-- Four bits per strand from a first strand on, strand `first` lowest (R77). -/
def packMasks (first : Nat) (f : Nat → BitVec 4) : Word :=
  BitVec.ofNat 32 ((List.range 8).foldl (fun n i => n + (f (first + i)).toNat * 2 ^ (4 * i)) 0)

/-- What EXEC0 and EXEC1 give for a strand (R397): exec while TM is clear, the record's exec field
while it is set. -/
def Group.execField (g : Group) (i : Nat) : BitVec 4 :=
  let t := g.strand i
  if g.tm then
    match t.record with
    | some r => r.exec
    | none => 0
  else if t.exited then 0 else t.exec

/-- BARSTi (R302). -/
def Barrier.word (b : Barrier) : Word := b.phase ++ BitVec.ofNat 7 b.arr ++ BitVec.ofBool b.isOpen ++ b.low

/-- Breakpoint and watchpoint registers by number (R77). -/
def Debug.get (d : Debug) (n : Nat) : Word :=
  match n with
  | 0x40 => d.bka0 | 0x41 => d.bka1 | 0x42 => d.bka2 | 0x43 => d.bka3
  | 0x44 => d.bkh0 | 0x45 => d.bkh1 | 0x46 => d.bkh2 | 0x47 => d.bkh3
  | 0x48 => d.bkm
  | 0x50 => d.wpa0 | 0x51 => d.wph0 | 0x52 => d.wpa1 | 0x53 => d.wph1
  | _ => d.wpc

/-- Writing one of them; reserved bits stay zero (R307, R308). -/
def Debug.set (d : Debug) (n : Nat) (x : Word) : Debug :=
  match n with
  | 0x40 => { d with bka0 := x } | 0x41 => { d with bka1 := x }
  | 0x42 => { d with bka2 := x } | 0x43 => { d with bka3 := x }
  | 0x44 => { d with bkh0 := x } | 0x45 => { d with bkh1 := x }
  | 0x46 => { d with bkh2 := x } | 0x47 => { d with bkh3 := x }
  | 0x48 => { d with bkm := x &&& 0xF }
  | 0x50 => { d with wpa0 := x } | 0x51 => { d with wph0 := x &&& 0x01FFFFFF }
  | 0x52 => { d with wpa1 := x } | 0x53 => { d with wph1 := x &&& 0x01FFFFFF }
  | _ => { d with wpc := x }

/-- The trap registers by number (R77). -/
def TrapRegs.get (t : TrapRegs) (n : Nat) : Word :=
  match n with
  | 0x10 => t.xpcl | 0x11 => t.xpch | 0x12 => t.xlm0 | 0x13 => t.xlm1
  | 0x14 => t.xcause | 0x15 => t.xsub | 0x16 => t.xaddrl | 0x17 => t.xaddrh
  | 0x18 => t.xnpcl | 0x19 => t.xnpch | 0x1A => t.xnode | _ => t.xstr

/-- The barrier of the group's team (R77). -/
def State.teamBarrier (s : State) (g : Group) (i : Nat) : Barrier :=
  ((s.team g.teamKey).map fun t => t.bars.get i Barrier.closed).getD Barrier.closed

/-- The value that RDSR of a register gives to lane `l` (R77, R397). -/
def srValue (s : State) (c : Ctx) (n l : Nat) : Word :=
  let g := c.g
  let gts := BitVec.ofNat 64 s.time.gts
  match n with
  | 0x00 => g.modes.gm
  | 0x01 => g.modes.mm0
  | 0x02 => g.modes.mm1
  | 0x03 => g.modes.mm2
  | 0x04 => g.modes.gs
  | 0x05 => g.modes.xen
  | 0x06 => s.flagsWord c.slot
  | 0x07 => packMasks 0 g.execField
  | 0x08 => packMasks 8 g.execField
  | 0x20 => BitVec.ofNat 32 l
  | 0x21 => BitVec.ofNat 32 (l / 4)
  | 0x22 => BitVec.ofNat 32 g.ident.grpid
  | 0x23 => BitVec.ofNat 32 g.ident.team
  | 0x24 => BitVec.ofNat 32 (16 * g.ident.cluster + g.ident.rank)
  | 0x25 => BitVec.ofNat 32 c.core
  | 0x26 => g.ident.job
  | 0x30 => gts.extractLsb' 0 32
  | 0x31 => g.count.gtsLatch.getD (gts.extractLsb' 32 32)
  | 0x32 => g.count.retired.extractLsb' 0 32
  | 0x33 => g.count.retLatch.getD (g.count.retired.extractLsb' 32 32)
  | 0x34 => g.quantum
  | _ =>
    if 0x10 ≤ n ∧ n ≤ 0x1B then g.trap.get n
    else if 0x28 ≤ n ∧ n ≤ 0x2F then g.ident.words.getD (n - 0x28) 0
    else if 0x40 ≤ n ∧ n ≤ 0x54 then g.dbg.get n
    else (s.teamBarrier g (n - 0x60)).word

/-- The latches of R78 after a read of a register. -/
def Counters.latched (k : Counters) (gts : Dword) (n : Nat) : Counters :=
  match n with
  | 0x30 => { k with gtsLatch := some (gts.extractLsb' 32 32) }
  | 0x31 => { k with gtsLatch := none }
  | 0x32 => { k with retLatch := some (k.retired.extractLsb' 32 32) }
  | 0x33 => { k with retLatch := none }
  | _ => k

/-- RDSR (R397). -/
def execRdsr (d : Reg) (num : BitVec 8) (s : State) : Out :=
  issuing s fun c0 =>
    if srAccess num == .unlisted then trapAll s c0 .illegal
    else
      checked s (fun _ => Needs.regs [.one d]) fun c =>
        let outs := c.lanes.map fun l => (l, (srValue s c num.toNat l).setWidth 64)
        let g := writeResults c.g (.one d) outs
        complete s c { g with count := g.count.latched (BitVec.ofNat 64 s.time.gts) num.toNat }

/-- GS after a write (R426, R427): DET is ignored, and TM stays while resume records exist. -/
def gsWritten (g : Group) (x : Word) : Word :=
  let keepTm := g.tm && g.strands.any fun t => t.record.isSome
  (g.modes.gs &&& 0x800) ||| (x &&& 0x7FF) ||| (if keepTm then 0x200 else 0)

/-- EXEC0 or EXEC1 after a write: the exec fields of the resume records, within the lanes that were
in exec at the trap (R427). -/
def execWritten (g : Group) (first : Nat) (x : Word) : Group :=
  { g with strands := g.strands.mapIdx fun i t =>
      if first ≤ i ∧ i < first + 8 then
        { t with record := t.record.map fun r => { r with exec := x.extractLsb' (4 * (i - first)) 4 &&& r.kept } }
      else t }

/-- Registers of the group alone (R426). -/
def srWritten (g : Group) (n : Nat) (x : Word) : Group :=
  match n with
  | 0x00 => { g with modes := { g.modes with gm := x &&& 0x7FFFF } }
  | 0x01 => { g with modes := { g.modes with mm0 := x &&& mm0Mask } }
  | 0x02 => { g with modes := { g.modes with mm1 := x } }
  | 0x03 => { g with modes := { g.modes with mm2 := x } }
  | 0x04 => { g with modes := { g.modes with gs := gsWritten g x } }
  | 0x05 => { g with modes := { g.modes with xen := x &&& 0x3BF } }
  | 0x07 => execWritten g 0 x
  | 0x08 => execWritten g 8 x
  | 0x10 => { g with trap := { g.trap with xpcl := x } }
  | 0x11 => { g with trap := { g.trap with xpch := x } }
  | 0x12 => { g with trap := { g.trap with xlm0 := x } }
  | 0x13 => { g with trap := { g.trap with xlm1 := x } }
  | _ => { g with dbg := g.dbg.set n x }

/-- A write of BARSTi (R302): PHASE is set; OPEN = 0 abandons an open phase, whose strands leave
without an acquire; OPEN = 1 on an open barrier sets ARR and tests. -/
def barstWritten (s : State) (g : Group) (i : BitVec 4) (x : Word) : State :=
  match s.team g.teamKey with
  | none => s
  | some t =>
    let b := t.bars.get i.toNat Barrier.closed
    let put (b : Barrier) : State :=
      { s with teams := s.teams.put g.teamKey (some { t with bars := t.bars.put i.toNat (some b) }) }
    if x.getLsbD 16 then (put { b with phase := x.extractLsb' 24 8, arr := (x.extractLsb' 17 7).toNat }).testBar g.teamKey i
    else
      (put { b with phase := x.extractLsb' 24 8, isOpen := false, arr := 0, arrived := [] }).leaveBarrier
        (.bar i) .team t.slots false

/-- WRSR (R426). That a write outside the handler to a register marked TM is refused at step 3 of R118, with
the unlisted numbers, is the model's choice (log 38). -/
def execWrsr (a : Reg) (num : BitVec 8) (s : State) : Out :=
  issuing s fun c0 =>
    let acc := srAccess num
    if acc == .unlisted || acc == .ro || (acc == .rwTm && !c0.g.tm) then trapAll s c0 .illegal
    else
      checked s (fun _ => Needs.unguarded [.one a]) fun c =>
        uniform s c [.one a] fun s c xs =>
          let x : Word := (arg xs 0).setWidth 32
          if 0x60 ≤ num.toNat then
            let i : BitVec 4 := BitVec.ofNat 4 (num.toNat - 0x60)
            if x.getLsbD 16 && !(s.teamBarrier c.g i.toNat).isOpen then trapAll s c .illegal
            else completeOnly (barstWritten s c.g i x) c
          else complete s c (srWritten c.g num.toNat x)

end Sys2Proof.Machine
end

