-- ==== Sys2Proof/Machine/Spores.lean ====
section
/-!
DEFINITION. Spores (R174 to R186, R407, R408): the generator, digits and comparisons, the seven instructions,
and the landing of a reveal.
-/
namespace Sys2Proof.Machine

open Sys2Proof

/-! ## The generator (R177) -/

/-- One round of vmix. -/
def vmixRound (k : Dword) (x : Dword) (i : Nat) : Dword :=
  let x := (x + k.rotateLeft (8 * i + 5)) * 0xA3C59AC2F1D36E4B#64
  x ^^^ (x >>> 29)

/-- vmix (R177). -/
def vmix (k c : Dword) : Dword :=
  let x := [0, 1, 2, 3].foldl (vmixRound k) (c ^^^ k)
  let x := x * 0x8E1D5F3B27C94A61#64
  x ^^^ (x >>> 32)

/-! ## Spores (R174 to R176) -/

/-- The words of a spore. -/
structure Spore where
  w0 : Word
  w1 : Word
  w2 : Word
  w3 : Word
  deriving DecidableEq, Repr

namespace Spore

def ksel (p : Spore) : Nat := (p.w3.extractLsb' 28 4).toNat
def len (p : Spore) : Nat := (p.w3.extractLsb' 7 9).toNat

/-- Well formed (R175). -/
def ok (p : Spore) : Bool :=
  p.w3.getLsbD 0 && p.w3.extractLsb' 16 12 == 0 && p.w3.extractLsb' 2 5 == 0 && decide (len p ≤ 256 ∧ len p % 8 = 0)

/-- The 256 digits as one number, the first digit highest (R176, R178). -/
def digits (key : Dword) (p : Spore) : Nat :=
  let more (j : Nat) : Nat := (vmix key (p.w2.setWidth 64 + BitVec.ofNat 64 j)).toNat
  p.w0.toNat * 2 ^ 224 + p.w1.toNat * 2 ^ 192 + more 1 * 2 ^ 128 + more 2 * 2 ^ 64 + more 3

/-- L ← max(L, m), and LIM after a limit event (R181, R185). -/
def examined (p : Spore) (m : Nat) (limit : Bool) : Spore :=
  let w := if len p < m then (p.w3 &&& 0xFFFF007F) ||| (BitVec.ofNat 32 m <<< 7) else p.w3
  { p with w3 := if limit then w ||| 2 else w }

end Spore

/-- Reveal: the first m of 256 digits (R178). -/
def reveal (digits m : Nat) : Nat := digits / 2 ^ (256 - m)

/-- The register of spore k of a group (R60). -/
def Group.sporeReg (g : Group) (k : BitVec 3) : Nat := g.nregs - 4 - 4 * k.toNat

/-- Spore k of a lane. -/
def Group.spore (g : Group) (k : BitVec 3) (l : Nat) : Spore :=
  let r := g.sporeReg k
  { w0 := g.reg r l, w1 := g.reg (r + 1) l, w2 := g.reg (r + 2) l, w3 := g.reg (r + 3) l }

/-- A key of the group's launch (R176, R277). -/
def State.sporeKey (s : State) (g : Group) (i : Nat) : Dword :=
  ((s.launch g.launch).map fun l => l.desc.keys.getD i 0).getD 0

/-! ## Comparisons (R182 to R185) -/

/-- What a comparison finds in a lane: its result, the digits examined, whether it met the limit, and
its flags. -/
structure Found where
  value : Word
  m     : Nat
  limit : Bool
  flags : Flags
  deriving DecidableEq, Repr

/-- The numbers of digits that a comparison looks at in turn from `k` steps of eight on. -/
def steps (k n : Nat) : List Nat := (List.range n).map fun i => 8 * (k + i)

/-- SPLT in one lane (R182): x is `mx * 2^ex`, strictly between 0 and 1. -/
def ltStep (d mx sh m : Nat) : Option Bool :=
  let lo := reveal d m * 2 ^ (256 - m)
  let hi := lo + 2 ^ (256 - m)
  let x := mx * 2 ^ sh
  if hi ≤ x then some true else if x ≤ lo then some false else none

/-- SPLT (R182). -/
def spltLane (d : Nat) (x : Nat) : Found :=
  let none' (r : Bool) (f : Flags) : Found := { value := if r then 1 else 0, m := 0, limit := false, flags := f }
  match FVal.ofBits .f32 false x with
  | .nan _ => none' false Flags.iv
  | .inf neg => none' (!neg) 0
  | .fin neg mx e =>
    if neg || mx == 0 then none' false 0
    else if 0 ≤ e + bitLen mx - 1 then none' true 0
    else
      let sh := (256 + e).toNat
      match (steps 0 33).findSome? fun m => (ltStep d mx sh m).map fun r => (m, r) with
      | some (m, r) => { value := if r then 1 else 0, m := m, limit := false, flags := 0 }
      | none => none' false 0

/-- SPCMP (R183, R185). -/
def spcmpLane (same : Bool) (d d' : Nat) : Found :=
  if same then { value := 0, m := 0, limit := false, flags := 0 }
  else match (steps 1 32).findSome? fun m =>
      let u := reveal d m
      let u' := reveal d' m
      if u < u' then some (m, true) else if u' < u then some (m, false) else none with
    | some (m, r) => { value := if r then 1 else 0, m := m, limit := false, flags := 0 }
    | none => { value := 0, m := 256, limit := true, flags := Flags.spl }

/-- SPIDX (R184, R185). -/
def spidxLane (d n : Nat) : Found :=
  let at' (m : Nat) : Nat × Nat :=
    let u := reveal d m
    (n * u / 2 ^ m, (n * (u + 1) + 2 ^ m - 1) / 2 ^ m - 1)
  match (steps 0 33).findSome? fun m =>
      let k := at' m
      if k.1 = k.2 then some (m, k.1) else none with
    | some (m, k) => { value := BitVec.ofNat 32 k, m := m, limit := false, flags := 0 }
    | none => { value := BitVec.ofNat 32 (at' 256).2, m := 256, limit := true, flags := Flags.spl }

/-! ## The instructions (R179, R407) -/

/-- Whether a register lies in the quad of a spore (R179). -/
def Group.inSpore (g : Group) (k : BitVec 3) (d : Reg) : Bool :=
  decide (g.sporeReg k ≤ d.toNat ∧ d.toNat < g.sporeReg k + 4)

/-- Issue a spore instruction: its destination outside the operand spores, and the lanes that fail
their own checks (R179, R407). That a destination inside one traps with no active lane too, and names every lane in
exec of the gang, is the model's choice (log 38). -/
def withSpores (s : State) (opnds : List Opnd) (ks : List (BitVec 3)) (d : Option Reg) (bad : Group → Nat → Bool)
    (k : Ctx → Out) : Out :=
  checked s (fun _ => { Needs.regs opnds with spores := ks }) fun c =>
    let fails := c.lanes.filter (bad c.g)
    if (match d with
        | some r => ks.any fun i => c.g.inSpore i r
        | none => false) then trapAll s c .illopnd
    else if !fails.isEmpty then trapLanes s c .illopnd fails
    else k c

/-- The first digits of a spore at a position (R180). -/
def seedDigits (key : Dword) (p : Word) : Word × Word :=
  let c := vmix key (p.setWidth 64)
  (c.extractLsb' 32 32, c.extractLsb' 0 32)

/-- SPSEED (R180). -/
def execSpseed (k : BitVec 3) (a b : Reg) (s : State) : Out :=
  withSpores s [.one a, .one b] [k] none (fun _ _ => false) fun c =>
    let g := c.lanes.foldl (fun g l =>
      let ks := (c.g.reg a.toNat l).extractLsb' 0 4
      let p := c.g.reg b.toNat l
      let d := seedDigits (s.sporeKey c.g ks.toNat) p
      g.setWords (c.g.sporeReg k) l [d.1, d.2, p, ks ++ (1 : BitVec 28)]) c.g
    complete s c g

/-- SPNEXT (R180). -/
def execSpnext (k : BitVec 3) (s : State) : Out :=
  withSpores s [] [k] none (fun g l => !(g.spore k l).ok) fun c =>
    let g := c.lanes.foldl (fun g l =>
      let p := c.g.spore k l
      let d := seedDigits (s.sporeKey c.g p.ksel) (p.w2 + 4)
      g.setWords (c.g.sporeReg k) l [d.1, d.2, p.w2 + 4, p.w3 &&& 0xFFFF007D]) c.g
    complete s c g

/-- The words that a comparison writes in a lane: its result, and word 3 of each spore it examined. -/
def compareWrites (g : Group) (d : Reg) (ks : List (BitVec 3)) (l : Nat) (r : Found) : List (Nat × Nat × Word) :=
  (d.toNat, l, r.value) :: ks.map fun k => (g.sporeReg k + 3, l, ((g.spore k l).examined r.m r.limit).w3)

/-- Write words by register and lane. -/
def Group.setAll (g : Group) (ws : List (Nat × Nat × Word)) : Group :=
  ws.foldl (fun g w => g.setReg w.1 w.2.1 w.2.2) g

/-- A comparison (R181): its flags; then its results at once, or, where a lane has looked past digit 64,
through the landing buffer under flag A. -/
def compareSpores (s : State) (c : Ctx) (d : Reg) (ks : List (BitVec 3)) (f : Nat → Found) : Out :=
  let outs := c.lanes.map fun l => (l, f l)
  withFlags s c (outs.map fun o => (o.1, o.2.flags)) fun s g =>
    let ws := outs.flatMap fun o => compareWrites c.g d ks o.1 o.2
    if outs.any fun o => decide (64 < o.2.m) then
      let (id, s) := s.fresh
      let s := s.putOp id (some { Op.start c .reveal c.flagA with
        dst := some d, count := 1, results := ws })
      complete s c g
    else complete s c (g.setAll ws)

/-- SPLT (R182). -/
def execSplt (d : Reg) (k : BitVec 3) (b : Reg) (s : State) : Out :=
  withSpores s [.one d, .one b] [k] (some d) (fun g l => !(g.spore k l).ok) fun c =>
    compareSpores s c d [k] fun l =>
      let p := c.g.spore k l
      spltLane (p.digits (s.sporeKey c.g p.ksel)) (c.g.reg b.toNat l).toNat

/-- SPCMP (R183). -/
def execSpcmp (d : Reg) (k k' : BitVec 3) (s : State) : Out :=
  withSpores s [.one d] [k, k'] (some d) (fun g l => !(g.spore k l).ok || !(g.spore k' l).ok) fun c =>
    compareSpores s c d [k, k'] fun l =>
      let p := c.g.spore k l
      let q := c.g.spore k' l
      let x := s.sporeKey c.g p.ksel
      let y := s.sporeKey c.g q.ksel
      spcmpLane (p.w0 == q.w0 && p.w1 == q.w1 && p.w2 == q.w2 && x == y) (p.digits x) (q.digits y)

/-- SPIDX (R184). -/
def execSpidx (d : Reg) (k : BitVec 3) (b : Reg) (s : State) : Out :=
  withSpores s [.one d, .one b] [k] (some d)
    (fun g l => !(g.spore k l).ok || (g.reg b.toNat l) == 0 || decide (65536 < (g.reg b.toNat l).toNat)) fun c =>
    compareSpores s c d [k] fun l =>
      let p := c.g.spore k l
      spidxLane (p.digits (s.sporeKey c.g p.ksel)) (c.g.reg b.toNat l).toNat

/-- A spore instruction that only writes d (R186). -/
def readSpore (d : Reg) (k : BitVec 3) (f : Spore → Word) (s : State) : Out :=
  withSpores s [.one d] [k] (some d) (fun g l => !(g.spore k l).ok) fun c =>
    complete s c (c.lanes.foldl (fun g l => g.setReg d.toNat l (f (c.g.spore k l))) c.g)

/-- The f32 value of the first min(L, 64) digits, truncated (R186). -/
def Spore.value (p : Spore) : Word :=
  let q := Nat.min p.len 64
  let m := (p.w0.toNat * 2 ^ 32 + p.w1.toNat) / 2 ^ (64 - q)
  BitVec.ofNat 32 (roundBits .f32 .rtz false false m (-(q : Int)) false).1

/-- SPVAL (R186). -/
def execSpval (d : Reg) (k : BitVec 3) (s : State) : Out := readSpore d k Spore.value s

/-- SPLEN (R186). -/
def execSplen (d : Reg) (k : BitVec 3) (s : State) : Out := readSpore d k (fun p => BitVec.ofNat 32 p.len) s

/-- SPORE_REVEAL_LANDING (R70, R181): the result and the spores' words for all lanes together. -/
def execSporeRevealLanding (op : Nat) (s : State) : Out :=
  match s.op op with
  | some o =>
    if o.kind = .reveal then .next ((s.modGroup o.slot fun g => g.setAll o.results).finishOp op).changed else .next s
  | none => .next s

end Sys2Proof.Machine
end

