-- ==== Sys2Proof/Machine/Start.lean ====
section
/-!
DEFINITION. Groups, teams and clusters as they start (R32 to R36, R54, R61, R266, R279, R283).
-/
namespace Sys2Proof.Machine

open Sys2Proof

/-- A strand at the start of its group (R36). -/
def Strand.start (pc : VAddr) : Strand :=
  { pc := pc, exec := 15, stack := [], run := .run, clause := none, block := none, record := none,
    stalled := none, aliasing := none }

/-- The registers that have no value of their own before a group writes them (R61, R77, R307, R308). -/
def Modes.start (det : Bool) : Modes :=
  { gm := 0, mm0 := 0, mm1 := 0, mm2 := 0, gs := if det then 0x800 else 0, xen := 0 }

def TrapRegs.start : TrapRegs :=
  { xpcl := 0, xpch := 0, xlm0 := 0, xlm1 := 0, xcause := 0, xsub := 0, xaddrl := 0, xaddrh := 0,
    xnpcl := 0, xnpch := 0, xnode := 0, xstr := 0 }

def Debug.start : Debug :=
  { bka0 := 0, bka1 := 0, bka2 := 0, bka3 := 0, bkh0 := 0, bkh1 := 0, bkh2 := 0, bkh3 := 0, bkm := 0,
    wpa0 := 0, wph0 := 0, wpa1 := 0, wph1 := 0, wpc := 0 }

/-- What a group sees when it starts: memory as it stands then (R249). -/
def View.start (ids : Nat) : View :=
  { since := ids, seen := [], known := [], acquired := ids, released := 0, fenced := 0, borrowed := 0 }

/-- A group at its start: its strands at the entry PC, every register zero (R54, R61). -/
def Group.start (d : Desc) (launch team : Nat) (ident : Ident) (pc : VAddr) (clk ids : Nat) : Group where
  launch := launch
  teamKey := team
  width := d.width
  nregs := d.nregs
  spores := d.spores
  quantum := if d.det then BitVec.ofNat 32 (2 ^ d.lq) else 0
  regs := []
  strands := List.replicate (d.width / 4) (Strand.start pc)
  modes := Modes.start d.det
  trap := TrapRegs.start
  held := []
  halted := false
  dbg := Debug.start
  ident := ident
  count := { retired := 0, gtsLatch := none, retLatch := none }
  thunks := { nodes := [], gens := [] }
  mmar := none
  batch := 1
  monitor := { sector := none, trig := false }
  fencing := none
  entered := 0
  done := []
  view := View.start ids
  det := { used := 0, ended := false, can := false, buffer := [] }
  sched := { resident := clk, lastIssue := clk, lastGang := none, yielded := false, noBreak := [] }

/-- The identity of group `g` of team `t` of a grid launch (R34, R279). -/
def gridIdent (d : Desc) (t g : Nat) : Ident where
  grpid := g
  team := t
  cluster := t / (d.cx * d.cy)
  rank := t % (d.cx * d.cy)
  job := d.job
  words := d.args
  queue := none
  successor := 0

/-- The low word of a task record's field. -/
def fieldWord (rec : List Dword) (i : Nat) : Word := (rec.getD i 0).setWidth 32

/-- The identity of a task (R283). -/
def taskIdent (rec : List Dword) (index queue : Nat) : Ident where
  grpid := 0
  team := index
  cluster := index
  rank := 0
  job := fieldWord rec 4
  words := (List.range 8).map (fieldWord rec)
  queue := some queue
  successor := (rec.getD 3 0).toNat

/-- A channel instance as its cluster starts: every slot free (R266). -/
def Channel.start (slots : Nat) : Channel :=
  { free := slots, full := 0, nextSend := 0, nextRecv := 0, written := [], misused := false }

/-- The channels of a cluster at its start: free = slots, full = 0 (R266). -/
def startChannels (d : Desc) : Sparse Channel :=
  d.chans.map fun p => (p.1, Channel.start p.2.slots)

end Sys2Proof.Machine
end

