-- ==== Sys2Proof/Machine/Place.lean ====
section
/-!
DEFINITION. Where groups are resident: the room of a core (R23 to R25, R325), the cores that a team,
a cluster or a task may take (R33, R46, R264, R292), and the start of its groups (R249, R284).
-/
namespace Sys2Proof.Machine

open Sys2Proof

/-! ## The room of a core -/

/-- The registers that one group of a launch occupies (R23). -/
def Desc.groupRegs (d : Desc) : Nat := d.width * ((d.nregs + 7) / 8 * 8)

/-- How many groups fit a core by slots, lanes and registers (R24). -/
def Desc.groupLimit (d : Desc) : Nat :=
  Nat.min 128 (Nat.min (3072 / Nat.max 1 d.width) (393216 / Nat.max 1 d.groupRegs))

/-- The team slots of the scratchpad of `ways` ways (R25). -/
def Desc.areas (d : Desc) (ways : Nat) : Nat := if d.scratch = 0 then 0 else ways * 32768 / d.scratch

/-- T of R24. -/
def Desc.teamsPerCore (d : Desc) (ways : Nat) : Nat :=
  let n := d.groupLimit / Nat.max 1 d.groups
  if d.scratch = 0 then n else Nat.min n (d.areas ways)

/-- The groups resident on a core, with their slots. -/
def State.coreGroups (s : State) (c : Nat) : List (Nat × Group) := s.slots.filter fun p => slotCore p.1 == c

/-- The launch that a core's groups belong to (R23). -/
def State.occupant (s : State) (c : Nat) : Option Nat := (s.coreGroups c).head?.map (·.2.launch)

/-- Team slots in use on a core (R25). -/
def State.areasUsed (s : State) (c : Nat) : List Nat :=
  (s.teams.filter fun p => p.2.core == c && !p.2.slots.isEmpty).map (·.2.area)

/-- Whether a core is clocked: neither it nor its quadrant is off (R325). -/
def State.clocked (s : State) (c : Nat) : Bool :=
  (match (s.core c).power with
   | .gate | .off => false
   | _ => true) && s.sys.quadrants.find (c / 24) != some .off

/-- The ways of scratch that a launch finds on a core: its own where the core is empty (R203). -/
def State.waysOn (s : State) (l : Launch) (c : Nat) : Nat :=
  if (s.occupant c).isSome then (s.core c).scrways else l.scrways

/-- Whether of two saved clusters for which the same core has been freed the first goes first: that of the launch of
higher PRIO, then the one that was made earlier. No rule says which: the model's choice (log 32). -/
def State.claimsFirst (s : State) (a b : Nat × Cluster) : Bool :=
  let prio (x : Nat × Cluster) : Nat := ((s.launch x.2.launch).map (·.desc.prio)).getD 0
  decide (prio b < prio a ∨ (prio a = prio b ∧ a.1 < b.1))

/-- Whether a core has been freed for a saved cluster that goes before the one that asks: for any, unless it has been
freed for that one as well (R291). -/
def State.claimed (s : State) (who : Option Nat) (c : Nat) : Bool :=
  let mine := (who.bind fun w => (s.cluster w).map fun x => (w, x)).filter fun x => x.2.claim.contains c
  s.clusters.any fun p => some p.1 != who && p.2.claim.contains c && !mine.any fun m => s.claimsFirst m p

/-- The team slot that a team of a launch would take on a core, if the core has room for it (R23 to
R25, R304). `who` is the saved cluster that asks, if one does. A core whose teams have partly exited takes a further
team by the group slots, lanes and registers that have been freed, up to Gmax groups, as R42 frees them group by
group: that it need not stay at G × T groups (R24, R46) is the model's choice (log 39). -/
def State.room (s : State) (k : Nat) (l : Launch) (who : Option Nat) (c : Nat) : Option Nat :=
  let d := l.desc
  let mine := match s.occupant c with
    | some o => o == k
    | none => true
  if !d.elig.contains c || l.withheld.contains c || !mine || !s.clocked c || s.claimed who c ||
      (s.core c).ways.isSome ||
      decide (d.groupLimit < (s.coreGroups c).length + d.groups) then none
  else if d.scratch = 0 then some 0
  else (List.range (d.areas (s.waysOn l c))).find? fun j => !(s.areasUsed c).contains j

/-- The free group slots of a core. -/
def State.freeSlots (s : State) (c : Nat) : Nat := 128 - (s.coreGroups c).length

/-! ## Rectangles (R33) -/

/-- The cores of the rectangle whose top-left core is `c`, by rank, if it lies within the quadrant. -/
def rectangle (cx cy c : Nat) : Option (List Nat) :=
  if c % 6 + cx ≤ 6 ∧ c % 24 / 6 + cy ≤ 4 then
    some ((List.range (cx * cy)).map fun r => c + r % cx + 6 * (r / cx))
  else none

/-- The rectangles whose cores are all eligible, in ascending order. -/
def Desc.rectangles (d : Desc) : List (List Nat) :=
  ((List.range 384).filterMap (rectangle d.cx d.cy)).filter fun r => r.all d.elig.contains

/-- The best of some choices: the highest score, ties going to the first. -/
def bestOf {α : Type} (score : α → Nat) : List α → Option α
  | [] => none
  | x :: xs =>
    match bestOf score xs with
    | some y => if score x < score y then some y else some x
    | none => some x

/-- The team slots of a rectangle, if every core of it has room. -/
def State.roomIn (s : State) (k : Nat) (l : Launch) (who : Option Nat) (r : List Nat) : Option (List (Nat × Nat)) :=
  r.mapM fun c => (s.room k l who c).map fun j => (c, j)

/-- The seeded choice of R292 for index `t` among `n`. -/
def seeded (d : Desc) (t n : Nat) : Nat := (vmix d.seed (BitVec.ofNat 64 t)).toNat % Nat.max 1 n

/-- The team slots of the cores that have been freed for a saved cluster, once they have room (R291). -/
def State.claimSpot (s : State) (k : Nat) (l : Launch) (who : Option Nat) : Option (List (Nat × Nat)) :=
  match ((who.bind s.cluster).map (·.claim)).getD [] with
  | [] => none
  | claim => s.roomIn k l who claim

/-- Where a cluster goes: in deterministic operation to the rectangle that the seed picks, else for a saved cluster to
the cores freed for it, and otherwise to the rectangle with the most free group slots (R46, R291, R292). R292 seeds
over eligible cores: that a cluster of several teams is seeded over the rectangles of eligible cores, with the index
of its first team, and that a saved cluster of a deterministic launch is placed again like any other is the model's
choice (log 32). -/
def State.spot (s : State) (k : Nat) (l : Launch) (who pick : Option Nat) : Option (List (Nat × Nat)) :=
  let rs := l.desc.rectangles
  match pick with
  | some t => (rs[seeded l.desc t rs.length]?).bind (s.roomIn k l who)
  | none =>
    (s.claimSpot k l who).or
      (bestOf (fun (r : List (Nat × Nat)) => (r.map fun p => s.freeSlots p.1).sum) (rs.filterMap (s.roomIn k l who)))

/-! ## Starting groups -/

/-- A free slot of a core in the bay with the fewest resident groups (R46). That a group takes the lowest free
slot number of its bay is the model's choice (log 39). -/
def State.freeSlot (s : State) (c : Nat) : Nat :=
  let used := (s.coreGroups c).map (·.1)
  let count (b : Nat) : Nat := (used.filter fun k => k % 128 / 32 == b).length
  let bays := (List.range 4).filter fun b => decide (count b < 32)
  let bay := (bestOf (fun b => 32 - count b) bays).getD 0
  let slots := (List.range 32).map fun i => 128 * c + 32 * bay + i
  (slots.find? fun k => !used.contains k).getD (128 * c)

/-- Put groups into free slots of a core; the slots are answered in the groups' order. -/
def State.seat (s : State) (c : Nat) : List Group → List Nat × State
  | [] => ([], s)
  | g :: gs =>
    let k := s.freeSlot c
    let r := (s.setGroup k g).seat c gs
    (k :: r.1, r.2)

/-- The sectors that an L1 keeps when its ways for scratch change. Which sectors stand in ways that it loses is
not specified; what stays has tags: (16 − SCRWAYS) × 64 of them (R203, R251; log 9). -/
def keptWays (tick old new : Nat) (l : List L1Sector) : List L1Sector :=
  if new ≤ old then l
  else
    let l := l.filter fun e => Config.victim tick (regionBase e.addr) % 2 == 0
    let rs := l1Regions l
    let stay := rs.drop (rs.length - (16 - new) * 64)
    l.filter fun e => stay.contains (regionBase e.addr)

/-- A core comes to a launch: its ways, a fresh scratchpad, and the acquire before the first group of
the launch issues there (R203, R249). L1 loses only what stands in ways that join the scratchpad (R203, R251). -/
def State.enterCore (s : State) (k : Nat) (l : Launch) (c : Nat) : State :=
  let x := s.core c
  let s := if (s.occupant c).isNone && x.scrways != l.scrways then s.setCore c { x with
      scrways := l.scrways, l1 := keptWays s.time.tick x.scrways l.scrways x.l1 } else s
  if l.cores.contains c then s
  else { s.dropUntracked c with launches := s.launches.update k fun l => { l with cores := addOnce l.cores c } }

/-- Put a team's groups on a core. -/
def State.placeTeam (s : State) (key : Nat) (t : Team) (c area : Nat) (gs : List Group) : State :=
  let r := s.seat c gs
  { r.2 with teams := r.2.teams.put key (some { t with
      core := c, area := area, slots := r.1, saved := [], placed := r.2.time.clk }) }

/-- A team before any of its groups is resident. -/
def Team.fresh (launch index cluster rank : Nat) : Team :=
  { launch := launch, index := index, cluster := cluster, rank := rank, core := 0, area := 0, slots := [], saved := [],
    scratch := [], poison := [], bars := [], exited := [], begun := false, placed := 0 }

/-- Whether a port has recorded a job as cancelled (R287, R288). Agents 0 to 3 are the queue engines, 4 on
the ports of the cores. -/
def State.cancelledAt (s : State) (agent : Nat) (job : Word) : Bool := (s.cancels.get agent []).any fun p => p.1 == job
def portAgent (c : Nat) : Nat := 4 + c
def engineAgent (q : Nat) : Nat := q / 64

/-- Place a new cluster: one team on each core, by rank, with its groups (R33, R36, R46, R54). -/
def State.placeCluster (s : State) (k index : Nat) (l : Launch) (cores : List (Nat × Nat))
    (ident : Nat → Nat → Ident) (pc : VAddr) : State :=
  let s := cores.foldl (fun s p => s.enterCore k l p.1) s
  let (ck, s) := s.fresh
  let keys := (List.range cores.length).map fun r => s.ids + r
  let s := { s with ids := s.ids + cores.length }
  let s := ((cores.mapIdx fun r p => (r, p))).foldl (fun s x =>
    let key := keys.getD x.1 0
    let gs := (List.range l.desc.groups).map fun g =>
      let i := ident x.1 g
      let start := Group.start l.desc k key i pc s.time.clk s.ids
      { start with det := { start.det with can := s.cancelledAt (portAgent x.2.1) i.job } }
    s.placeTeam key (Team.fresh k (index * cores.length + x.1) ck x.1) x.2.1 x.2.2 gs) s
  { s with
    clusters := s.clusters.put ck (some {
      launch := k, index := index, teams := keys, bars := [], channels := startChannels l.desc, residence := .resident,
      timer := 0, immune := 0, claim := [] })
    launches := s.launches.update k fun l => { l with phase := .run } }.changed

/-- How the operations of a group name its slot while its team is saved. -/
def savedName (team grpid : Nat) : Nat := 2 ^ 32 + 64 * team + grpid

/-- The operations that are named by one slot take another slot and core. -/
def State.renameOps (s : State) (old new core : Nat) : State :=
  let move (o : Op) : Op := if o.slot == old then { o with slot := new, core := core } else o
  { s with mem := { s.mem with ops := s.mem.ops.map fun p => (p.1, move p.2) } }

/-- A wait for an operation that has completed while the group was saved is over. -/
def State.stillWaits (s : State) (b : Option Block) : Option Block :=
  match b with
  | some (.op id) => if (s.op id).isSome then b else none
  | b => b

/-- What a group sees when it is resident again: memory as it stands then, beside what it has learnt before
(R239, R248). -/
def View.restored (v : View) (shared : Sparse Nat) (ids : Nat) : View :=
  { v.acquire shared ids with since := ids, borrowed := 0 }

/-- A saved context as its group resumes on a core (R151, R248, R299, R305, R420). -/
def State.revive (s : State) (c : Nat) (g : Group) : Group :=
  let strand (u : Strand) : Strand :=
    { u with stalled := none, block := s.stillWaits u.block,
             record := u.record.map fun r => { r with block := s.stillWaits r.block } }
  let g := { g with
    mmar := none, strands := g.strands.map strand
    view := g.view.restored (s.core c).shared s.ids
    det := { g.det with can := s.cancelledAt (portAgent c) g.ident.job }
    sched := { g.sched with resident := s.time.clk, lastIssue := s.time.clk } }
  if g.monitor.sector.isSome then g.trigger else g

/-- Put a saved team on a core again. -/
def State.restoreTeam (s : State) (key c area : Nat) : State :=
  match s.team key with
  | none => s
  | some t =>
    let gs := t.saved.map (s.revive c)
    let s := s.placeTeam key t c area gs
    let slots := ((s.team key).map (·.slots)).getD []
    (gs.zip slots).foldl (fun s y => s.renameOps (savedName key y.1.ident.grpid) y.2 c) s

/-- Put a saved cluster on cores again: its contexts as they were saved, and the acquire of R248. Placed on the cores that
have been freed for it, it is no victim for 2^20 clk (R291). -/
def State.restoreCluster (s : State) (ck : Nat) (cl : Cluster) (l : Launch) (cores : List (Nat × Nat)) : State :=
  let s := cores.foldl (fun (s : State) (p : Nat × Nat) => (s.enterCore cl.launch l p.1).dropUntracked p.1) s
  let s := (cl.teams.zip cores).foldl (fun (s : State) x => s.restoreTeam x.1 x.2.1 x.2.2) s
  { s with clusters := s.clusters.update ck fun c => { c with
      residence := .resident, timer := 0, claim := []
      immune := if !c.claim.isEmpty && c.claim == cores.map Prod.fst then s.time.clk + 2 ^ 20 else c.immune } }.changed

end Sys2Proof.Machine
end

