-- ==== Sys2Proof/Machine/Tasks.lean ====
section
/-!
DEFINITION. Task queues (R280 to R282), TSPAWN, TSTAT, JCANCEL and QEND (R285 to R289, R377, R396,
R419, R420), joins (R290), and the retirement of groups (R42).
-/
namespace Sys2Proof.Machine

open Sys2Proof

/-! ## Physical accesses of engines, command processors and the host (R238, R315, R319) -/

/-- Bytes at an address in parts that lie each in one 512-byte region. -/
def regionParts (a : Nat) (bytes : List Byte) : List (Nat × List Byte) :=
  if bytes.isEmpty then []
  else (List.range ((a + bytes.length - 1) / 512 - a / 512 + 1)).map fun i =>
    let lo := Nat.max a ((a / 512 + i) * 512)
    (lo, (bytes.drop (lo - a)).take ((a / 512 + i + 1) * 512 - lo))

/-- The grain under which some core shares an address, 0 where none does (R196). -/
def State.sharedGrain (s : State) (a n : Nat) : Nat :=
  ((s.mem.dir.find? fun e => meets (e.1 / 4) e.2.size a n).map fun e => e.1 % 4).getD 0

/-- Whether an access of a block to bytes of one region gets there: it does not come to nothing, and lies
within the block's world (R26, R317, R319). -/
def State.arrives (s : State) (block a n : Nat) : Bool :=
  !s.lost (s.served a).1 && s.reaches block a n && s.reaches block (s.served a).1 n

/-- A write by physical address, performed at its home slices and forwarded to sharers (R315). What does not
arrive is discarded, and what is lost is logged (R26, R317). `holds` names words in whose pending lists the
write may rest (R226). -/
def State.writePhys (s : State) (block a : Nat) (bytes : List Byte) (holds : List (Nat × Nat)) : State :=
  (regionParts a bytes).foldl (fun s p =>
    let at' := s.served p.1
    let n := p.2.length
    if s.arrives block p.1 n then s.homeWrite at'.1 p.2 (if at'.2.isSome then 0 else s.sharedGrain p.1 n) [] [] holds
    else s.noteLost block [at'.1]) s

/-- A read by physical address of a command processor, of bytes that arrive, for part `key` of the work of the
operation `o`: it may pass earlier operators, and stand as LDs that later ones pass; then nothing yet (R223, R226,
R227). -/
def State.readPhys (s : State) (o : Op) (id key a n : Nat) : Option (List Byte) × State :=
  let runs := (regionParts a (List.replicate n 0)).map fun p => ((s.served p.1).1, p.2.length)
  let held := runs.flatMap fun r => s.freeHeld (r.1 % 2 ^ 16) r.1 r.2
  let r := s.lateRead o id key (s.freeKeeps 0) runs held
  (r.1.map (·.1), r.2)

/-- Whether a block may write some bytes. -/
def State.physReach (s : State) (block a n : Nat) : Bool :=
  (regionParts a (List.replicate n 0)).all fun p => s.arrives block p.1 p.2.length

/-- Whether some of the bytes are poisoned (R324). -/
def State.physPoison (s : State) (a n : Nat) : Bool :=
  (regionParts a (List.replicate n 0)).any fun p => s.mem.poisoned (s.served p.1).1 p.2.length

/-- Whether a block may read some bytes (R26, R317, R319, R324). -/
def State.physOk (s : State) (block a n : Nat) : Bool := s.physReach block a n && !s.physPoison a n

/-- Whether a handler runs on the region of some bytes: an access to them waits (R270). -/
def State.physHeld (s : State) (a n : Nat) : Bool :=
  (regionParts a (List.replicate n 0)).any fun p => s.regionHeld (s.served p.1).1 p.2.length

/-- Log the parts of an access that come to nothing (R26, R317). -/
def State.notePhys (s : State) (block a n : Nat) : State :=
  s.noteLost block ((regionParts a (List.replicate n 0)).map fun p => (s.served p.1).1)

/-! ## Queue entries (R280 to R282) -/

/-- The block of the command processor of a queue, as the log and the world table name it (R318, R323). -/
def queueBlock (q : Nat) : Nat := 576 + engineAgent q

namespace Queue

/-- The ring in units of 8 bytes. -/
def size (q : Queue) : Nat := 2 ^ q.rlog / 8

/-- The units in use. -/
def used (q : Queue) : Nat := (q.tail + q.size - q.head) % Nat.max 1 q.size

/-- Nothing is bound: the state that QBIND replaces. -/
def bind (header head tail ring rlog : Nat) (appends : List Append) : Queue :=
  { header := header, head := head, tail := tail, ring := ring, rlog := rlog, takeSeq := 0, nextSeq := 0,
    taken := none, last := none, faulted := false, appends := appends }

/-- The address of the `i`-th unit of the ring. -/
def unitAddr (q : Queue) (i : Nat) : Nat := q.ring + 8 * (i % Nat.max 1 q.size)

end Queue

/-- Whether a handler runs on a region of a queue's header or ring: its engine waits (R270). -/
def State.queueHeld (s : State) (q : Queue) : Bool := s.physHeld q.header 64 || s.physHeld q.ring (2 ^ q.rlog)

/-- The `i`-th unit of a queue's ring, none where its engine cannot read it (R317, R319, R324; log 30). The read stands
where `readTables` has placed it in the pending lists of its words (R223, R226; log 42). -/
def queueUnit (s : State) (k : Nat) (q : Queue) (i : Nat) : Option Dword :=
  if s.physOk (queueBlock k) (q.unitAddr i) 8 then
    some (BitVec.ofNat 64 (leNat (s.mem.read (s.served (q.unitAddr i)).1 8)))
  else none

/-- The fields of an entry over those of the entry before it. -/
def expandFields (unit : Nat → Option Dword) (mask : Nat) (prev : List Dword) : Nat → Nat → Option (List Dword)
  | _, 0 => some []
  | at', n + 1 =>
    let i := 7 - n
    if mask.testBit i then
      (unit at').bind fun x => (expandFields unit mask prev (at' + 1) n).map fun xs => x :: xs
    else (expandFields unit mask prev at' n).map fun xs => prev.getD i 0 :: xs

/-- The entry at a unit of the ring, with its length, if it can be read and keeps the rules of R282; at most
`avail` units belong to it. -/
def readQueueEntry (unit : Nat → Option Dword) (at' avail : Nat) (seq : BitVec 8) (prev : Option (List Dword)) :
    Option (List Dword × Nat) :=
  (unit at').bind fun h =>
    let mask := (h.extractLsb' 0 8).toNat
    let len := (h.extractLsb' 8 8).toNat
    if h.extractLsb' 24 40 == 0 && h.extractLsb' 16 8 == seq && len == 1 + Elem.popCount 8 mask &&
        decide (len ≤ avail) && (prev.isSome || mask == 255) then
      (expandFields unit mask (prev.getD []) (at' + 1) 8).map fun xs => (xs, len)
    else none

/-- Expand the entries of a ring: the last one and the next number, or the unit of one that is
malformed (R281). -/
def expandRing (unit : Nat → Option Dword) (q : Queue) :
    Nat → Nat → BitVec 8 → Option (List Dword) → Except Nat (Option (List Dword) × BitVec 8)
  | 0, _, seq, prev => .ok (prev, seq)
  | n + 1, at', seq, prev =>
    if at' % Nat.max 1 q.size = q.tail then .ok (prev, seq)
    else match readQueueEntry unit at' ((q.tail + q.size - at' % Nat.max 1 q.size) % Nat.max 1 q.size) seq prev with
      | some (fields, len) => expandRing unit q n (at' + len) (seq + 1) (some fields)
      | none => .error (at' % Nat.max 1 q.size)

/-- The fields that a new entry carries: those that differ from the last entry's (R282). -/
def entryMask (last : Option (List Dword)) (fields : List Dword) : Nat :=
  match last with
  | none => 255
  | some l => (List.range 8).foldl (fun m i => if l.getD i 0 == fields.getD i 0 then m else m + 2 ^ i) 0

/-- The units of a new entry. -/
def entryUnits (seq : BitVec 8) (mask : Nat) (fields : List Dword) : List Dword :=
  let present := (List.range 8).filter mask.testBit
  BitVec.ofNat 64 (mask + 2 ^ 8 * (1 + present.length) + 2 ^ 16 * seq.toNat) :: present.map fun i => fields.getD i 0

namespace State

def setQueue (s : State) (k : Nat) (q : Queue) : State := { s with queues := s.queues.put k (some q) }

/-- A record on its way to a queue's engine. -/
def sendRecord (s : State) (k : Nat) (a : Append) : State :=
  { s with queues := s.queues.update k fun q => { q with appends := q.appends ++ [a] } }

/-- Fault a queue at a unit: the engine takes nothing more from it (R282). -/
def faultQueue (s : State) (k : Nat) (q : Queue) (unit : Nat) : State :=
  ((s.notePhys (queueBlock k) (q.unitAddr unit) 8).setQueue k { q with faulted := true }).log (queueBlock k) [3, k, 8 * unit]

/-- Append a record as an entry, unless the ring is full (R280, R282). A queue that is faulted takes appends all the
same: R282 says of it only that nothing more is taken from it, and the rest is the model's choice (log 44). -/
def appendRecord (s : State) (k : Nat) (q : Queue) (fields : List Dword) : Option State :=
  let units := entryUnits q.nextSeq (entryMask q.last fields) fields
  if q.size ≤ q.used + units.length then none
  else
    let s := (units.mapIdx fun i u => (i, u)).foldl (fun s x =>
      s.writePhys (queueBlock k) (q.unitAddr (q.tail + x.1)) (leBytes 8 x.2.toNat) []) s
    let tail := (q.tail + units.length) % q.size
    let s := s.writePhys (queueBlock k) (q.header + 4) (leBytes 4 tail) []
    some (s.setQueue k { q with tail := tail, nextSeq := q.nextSeq + 1, last := some fields })

/-- The entry at the head of a queue: its fields and its length; malformed is an error (R282). -/
def headEntry (s : State) (k : Nat) (q : Queue) : Except Unit (Option (List Dword × Nat)) :=
  if q.faulted || q.used == 0 then .ok none
  else match readQueueEntry (queueUnit s k q) q.head q.used q.takeSeq q.taken with
    | some e => .ok (some e)
    | none => .error ()

/-- Take the head entry of a queue. -/
def takeEntry (s : State) (k : Nat) (q : Queue) (fields : List Dword) (len : Nat) : State :=
  let head := (q.head + len) % Nat.max 1 q.size
  (s.writePhys (queueBlock k) q.header (leBytes 4 head) []).setQueue k
    { q with head := head, takeSeq := q.takeSeq + 1, taken := some fields }

end State

/-- The job, the priority and the successor address of a record (R283). -/
def recJob (fields : List Dword) : Word := (fields.getD 4 0).setWidth 32
def recPrio (fields : List Dword) : Nat := ((fields.getD 4 0).extractLsb' 32 16).toNat
def recCounter (fields : List Dword) : Nat := (fields.getD 3 0).toNat
/-- Whether the zero bits of field 4 are zero (R283, R286). -/
def recOk (fields : List Dword) : Bool := (fields.getD 4 0).extractLsb' 48 16 == 0

/-- A record from its 64 bytes. -/
def readRecord (bytes : List Byte) : List Dword :=
  (List.range 8).map fun i => BitVec.ofNat 64 (leNat ((bytes.drop (8 * i)).take 8))

/-! ## Cancellations (R288) -/

/-- The entry of some cancellations that goes first: the lowest GTS, then the lowest job. -/
def oldestCancel : List (Word × Nat) → Option (Word × Nat)
  | [] => none
  | x :: xs =>
    match oldestCancel xs with
    | none => some x
    | some y => if x.2 < y.2 ∨ (x.2 = y.2 ∧ x.1.toNat ≤ y.1.toNat) then some x else some y

/-- The cancellations that an agent holds after one more: at most 64. (log 29) -/
def heldCancels (l : List (Word × Nat)) (x : Word × Nat) : List (Word × Nat) :=
  let l := l ++ [x]
  if 64 < l.length then match oldestCancel l with
    | some o => l.erase o
    | none => l
  else l

/-- An agent records a cancellation. -/
def State.recordCancel (s : State) (agent : Nat) (job : Word) (g : Nat) : State :=
  { s with cancels := s.cancels.put agent (some (heldCancels (s.cancels.get agent []) (job, g))) }

/-- Every queue engine and task port. -/
def cancelAgents : List Nat := List.range 388

/-! ## The instructions -/

/-- A task record at an address: what the group reads of it, and the state after it; nothing while words of it
stand as LDs in pending lists (R223). -/
def State.recordBytes (s : State) (c : Ctx) (pa : Nat) : Option (List Byte) × State :=
  if Gs.det c.g.modes.gs then (some ((s.detView c.g).read pa 64), s)
  else
    let r := s.lateRead (Op.start c .spawn none) 0 (2 ^ 30 + c.pc.toNat) (s.freeKeeps 0) [(pa, 64)] (s.freeHeld 0 pa 64)
    (r.1.map (·.1), if r.1.isSome then r.2.seeBytes c.slot pa 64 r.2.ids else r.2)

/-- Whether requests of a core are on their way to some bytes: a read of them at the home slice that must find its
group's own latest writes there waits (R239). -/
def State.ownRequests (s : State) (core a n : Nat) : Bool :=
  s.mem.reqs.any fun r => r.2.src == .core core && meets r.2.addr r.2.size a n

/-- TSPAWN (R286, R419): the record is read, once the group's own accesses to it have been performed, and checked; then
the release is made, and the record sent. While the release waits the word stalls, and the record is read again. -/
def execTspawn (d a : Reg) (s : State) : Out :=
  checked s (fun _ => Needs.regs [.one d, .two a]) fun c =>
    onceActive s c fun _ =>
      uniform s c [.one d, .two a] fun s c xs =>
        let h := (arg xs 0).toNat % 2 ^ 32
        let va := (arg xs 1).toNat % 2 ^ 52
        if 256 ≤ h ∨ (s.queues.find h).isNone then trapAll s c .illopnd
        else match checkOne s c.core (s.rootOf c.g.launch)
            { size := 64, rights := .read, deny := fun _ => false, bad := s.readPoison c.g 64, reach := true } va 0 with
          | .error e => trapAddr (s.noteFault c.core (s.rootOf c.g.launch) va 0 e) c e (c.g.execLanes c.gang) va
          | .ok p =>
            let det := Gs.det c.g.modes.gs
            if accessHeld s c || rejectedMeets s c [(p.pa, 64)] ||
                (!det && (s.regionHeld p.pa 64 || s.ownRequests c.core p.pa 64)) then stallHere s c
            else match s.recordBytes c p.pa with
              | (none, s) => stallHere s c
              | (some bytes, s) =>
                let fields := readRecord bytes
                if !recOk fields then trapAll s c .illopnd
                else withRelease s c (some .dev) fun _ =>
                  let o := { Op.start c .spawn none with data := bytes, aux := h }
                  if det then
                    let (id, s) := s.fresh
                    bufferItem c (.perform id) (completeOnly (s.putOp id (some o)) c)
                  else
                    let b := blockOn s c o
                    match b.2 with
                    | .next s => .next (s.sendRecord h { fields := fields, op := some b.1, task := none })
                    | x => x

/-- TSTAT (R287, R420). -/
def execTstat (d : Reg) (s : State) : Out :=
  checked s (fun _ => Needs.unguarded [.one d]) fun c =>
    let can := if Gs.det c.g.modes.gs then c.g.det.can else s.cancelledAt (portAgent c.core) c.g.ident.job
    let w := 256 * (c.g.ident.queue.getD 255) + (if c.g.ident.queue.isSome then 2 else 0) + (if can then 1 else 0)
    complete s c (c.g.writeLanes d.toNat 1 (BitVec.ofNat 64 w) (Group.gangLanes c.gang))

/-- The operation of a JCANCEL or CANCEL: the agents that have not recorded it, the job and its GTS. -/
def cancelOp (o : Op) (job : Word) (gts : Nat) : Op := { o with lanes := cancelAgents, data := wordBytes job, aux := gts }

/-- JCANCEL (R288, R377): the strand waits until every engine and port has recorded it. -/
def execJcancel (a : Reg) (s : State) : Out :=
  checked s (fun _ => Needs.regs [.one a]) fun c =>
    onceActive s c fun _ =>
      uniform s c [.one a] fun s c xs =>
        let r := blockOn s c (cancelOp (Op.start c .cancelJob none) ((arg xs 0).setWidth 32) s.time.gts)
        if Gs.det c.g.modes.gs then endEarly c (bufferItem c (.perform r.1) r.2) else r.2

/-- QEND (R396). -/
def execQend (s : State) : Out :=
  checked s (fun _ => Needs.regs []) fun c => onceActive s c fun _ => endEarly c (completeOnly s c)

/-! ## The end of a group (R42, R290, R356) -/

namespace State

/-- Whether nothing of a team is resident or saved, and all its groups have exited. -/
def teamOver (s : State) (t : Team) : Bool :=
  let groups := ((s.launch t.launch).map (·.desc.groups)).getD 1
  t.slots.isEmpty && t.saved.isEmpty && decide (groups ≤ t.exited.length)

/-- A group's slot and registers are freed; the last of a cluster takes the cluster's state with it,
and what its channels still held (R42, R267). -/
def freeGroup (s : State) (k : Nat) : State :=
  match s.group k with
  | none => s
  | some g =>
    let s := { s with
      slots := s.slots.put k none
      teams := s.teams.update g.teamKey fun t => { t with slots := t.slots.filter (· != k) } }
    match (s.team g.teamKey).bind fun t => (s.cluster t.cluster).map fun c => (t.cluster, c) with
    | none => s
    | some (ck, c) =>
      if (s.teamsOf c).all s.teamOver then
        { s with clusters := s.clusters.put ck none, teams := c.teams.foldl (fun m t => m.put t none) s.teams }
      else s

/-- A successor step begins (R289, R290). -/
def beginSuccessor (s : State) (slot : Option Nat) (launch core counter : Nat) : State :=
  if counter = 0 then s
  else
    let (id, s) := s.fresh
    { s with successors := s.successors.put id (some { slot := slot, launch := launch, core := core, counter := counter,
                                                                reached := false }) }

/-- The successor step has been made: a task's slot is freed (R290). -/
def endSuccessor (s : State) (id : Nat) : State :=
  match s.successors.find id with
  | none => s
  | some x =>
    let s := { s with successors := s.successors.put id none }
    match x.slot with
    | some k => s.freeGroup k
    | none => s

/-- The port finds a successor step unusable, and the steward logs it (R290). -/
def logSuccessor (s : State) (core counter : Nat) : State := s.log core [4, counter]

/-- How the operation of the reads of a successor step names its source. -/
def successorName (id : Nat) : Nat := 2 ^ 43 + id

/-- The checks of the counter of a successor step, as of an atomic of its port (R290, R333). -/
def successorPhys (s : State) (x : Successor) : Except Cause Phys :=
  if x.counter % 128 ≠ 0 then .error .align
  else if 2 ^ 52 ≤ x.counter then .error .page
  else checkOne s x.core (s.rootOf x.launch) { atomSpec .add .n32 4 true with reach := true } x.counter 0

/-- Whether a handler runs on a region of the counter's block: the step waits (R270). -/
def successorHeld (s : State) (x : Successor) : Bool := match successorPhys s x with
  | .ok p => s.regionHeld p.pa 128
  | .error _ => false

/-- The decrement of a successor step's counter, and whether it has reached 0 (R290). -/
def decrement (s : State) (x : Successor) : Bool × State :=
  match successorPhys s x with
  | .error e => (false, (s.noteFault x.core (s.rootOf x.launch) x.counter 0 e).logSuccessor x.core x.counter)
  | .ok p =>
    let r := (s.dropOwnCopy x.core p.pa p.grain).homeAtomic p.pa 4 p.grain .add .n32 0xFFFFFFFF 0 [x.core] []
    match r.1.map leNat with
    | none | some 0 => (false, r.2.logSuccessor x.core x.counter)
    | some 1 => (true, r.2.dropUntracked x.core)
    | some _ => (false, r.2)

/-- How the reads of a successor step end: they are still under way, there is nothing to append, or a record for a
queue. -/
inductive SuccessorRead where
  | wait
  | nothing
  | record (queue : Nat) (fields : List Dword)

/-- The queue and the record of a successor step whose counter has reached 0, at once, but for words that stand in
pending lists as LDs in operation that is not deterministic (R223, R226, R290). -/
def successorReads (s : State) (id : Nat) (x : Successor) (det : Bool) : SuccessorRead × State :=
  let root := s.rootOf x.launch
  let read (n : Nat) : AccSpec :=
    { size := n, rights := .read, deny := fun _ => false, bad := fun p => s.mem.poisoned p.pa n, reach := true }
  match checkOne s x.core root (read 4) (x.counter + 8) 1, checkOne s x.core root (read 64) (x.counter + 64) 2 with
  | .ok pq, .ok pr =>
    let held := if det then [] else s.freeHeld 1 pq.pa 4 ++ s.freeHeld 2 pr.pa 64
    let r := s.lateRead { Op.ofAgent with slot := successorName id, core := x.core } id 0 (if det then 0 else s.freeKeeps 1)
      [(pq.pa, 4), (pr.pa, 64)] held
    (match r.1 with
     | none => (.wait, r.2)
     | some b =>
       let queue := leNat (b.1.take 4)
       let fields := readRecord (b.1.drop 4)
       if queue < 256 ∧ (s.queues.find queue).isSome ∧ recOk fields then (.record queue fields, r.2)
       else (.nothing, r.2.logSuccessor x.core x.counter))
  | q, r =>
    let note (s : State) (va use : Nat) : Except Cause Phys → State
      | .error e => s.noteFault x.core root va use e
      | .ok _ => s
    (.nothing, (note (note s (x.counter + 8) 1 q) (x.counter + 64) 2 r).logSuccessor x.core x.counter)

/-- The port's part of a successor step: the counter's decrement, and the queue and record to append
where the counter was 1 (R290). -/
def makeSuccessor (s : State) (id : Nat) (x : Successor) (det : Bool) : SuccessorRead × State :=
  if x.reached then s.successorReads id x det
  else
    let r := s.decrement x
    if r.1 then r.2.successorReads id x det else (.nothing, r.2)

/-- A record reaches its engine: that of a cancelled job is retired there, else it is appended, unless
the ring is full (R286, R289, R290). -/
def acceptRecord (s : State) (k launch core : Nat) (fields : List Dword) : Option State :=
  match s.queues.find k with
  | none => none
  | some q =>
    if s.cancelledAt (engineAgent k) (recJob fields) then some (s.beginSuccessor none launch core (recCounter fields))
    else s.appendRecord k q fields

end State

/-- The launch of an operation's group, resident or saved. -/
def State.opLaunch (s : State) (o : Op) : Nat :=
  match s.group o.slot with
  | some g => g.launch
  | none => ((s.team ((o.slot - savedName 0 0) / 64)).map (·.launch)).getD 0

/-- Whether the exit of a deterministic group has not been entered yet, as no commit has come since (R292). -/
def State.exitUnmade (s : State) (g : Group) : Bool :=
  Gs.det g.modes.gs && (s.team g.teamKey).any fun t => !t.exited.contains g.ident.grpid

/-- GROUP_RETIRE (R42): every operation of the exited group has completed; a task's successor step comes
first, once the release of its atomic has nothing to wait for (R290). In deterministic operation the group stays until
a commit has made its exit and that step (R292). -/
def execGroupRetire (slot : Nat) (s : State) : Out :=
  match s.group slot with
  | none => .next s
  | some g =>
    let busy := !g.allExited || !(s.opsOf slot).isEmpty || !g.det.buffer.isEmpty || s.exitUnmade g ||
      s.successors.any fun p => p.2.slot == some slot
    if busy then .next s
    else if g.ident.successor = 0 then .next (s.freeGroup slot).changed
    else if Gs.det g.modes.gs || !s.releaseReady slot .dev then .next s
    else
      let s := s.modGroup slot fun g => { g with ident := { g.ident with successor := 0 } }
      .next (s.beginSuccessor (some slot) g.launch (slotCore slot) g.ident.successor).changed

/-- TASK_SUCCESSOR_STEP (R290): while reads of its stand in pending lists, the step goes on at a later turn. -/
def execTaskSuccessorStep (task : Nat) (s : State) : Out :=
  match s.successors.find task with
  | none => .next s
  | some x =>
    if (s.queues.any fun q => q.2.appends.any fun a => a.task == some task) || s.successorHeld x then .next s
    else
      let r := s.makeSuccessor task x false
      match r.1 with
      | .wait => .next { r.2 with successors := r.2.successors.put task (some { x with reached := true }) }
      | .nothing => .next (r.2.endSuccessor task).changed
      | .record k fields => .next (r.2.sendRecord k { fields := fields, op := none, task := some task }).changed

/-- QUEUE_APPEND (R286): the record that arrived first, once the ring has room. -/
def execQueueAppend (queue : Nat) (s : State) : Out :=
  match s.queues.find queue with
  | none => .next s
  | some q =>
    match (if s.queueHeld q then [] else q.appends) with
    | [] => .next s
    | a :: as =>
      let from' : Nat × Nat := match a.op.bind s.op, a.task.bind s.successors.find with
        | some o, _ => (s.opLaunch o, o.core)
        | none, some x => (x.launch, x.core)
        | none, none => (0, 0)
      let s := s.setQueue queue { q with appends := as }
      match s.acceptRecord queue from'.1 from'.2 a.fields with
      | none => .next (s.setQueue queue q)
      | some s =>
        let s := match a.op with
          | some id => s.finishOp id
          | none => s
        .next (match a.task with
          | some id => s.endSuccessor id
          | none => s).changed

end Sys2Proof.Machine
end

