-- ==== Sys2Proof/Machine/Commands.lean ====
section
/-!
DEFINITION. Command streams (R271 to R276), the buffer-handle table (R274), the launch descriptor and its
checks (R276, R277), and the commands LAUNCH, QBIND, TLBINV, SETWAYS, WAIT and CANCEL (R273).
-/
namespace Sys2Proof.Machine

open Sys2Proof

/-! ## Streams (R271) -/

/-- A stream that nothing has written (R322; log 4). -/
def Stream.empty : Stream := { sbase := 0, slog := 12, stail := 0, shead := 0 }

/-- The block of the command processor of a stream (R271, R323). -/
def streamBlock (k : Nat) : Nat := 576 + k / 16

namespace State

def stream (s : State) (k : Nat) : Stream := s.streams.get k Stream.empty

def setStream (s : State) (k : Nat) (x : Stream) : State := { s with streams := s.streams.put k (some x) }

/-- A register write that is ignored, logged with its stream (R271). -/
def ignoreWrite (s : State) (k off : Nat) : State := (s.log (streamBlock k) [5, k, off]).changed

end State

/-! ## Commands (R272, R273) -/

/-- Command codes. -/
def opLaunch : Nat := 1
def opQbind : Nat := 2
def opTlbinv : Nat := 3
def opSetways : Nat := 4
def opWait : Nat := 5
def opCancel : Nat := 6

/-- A field of some bytes, little-endian (R2). -/
def field (bytes : List Byte) (off n : Nat) : Nat := leNat ((bytes.drop off).take n)

/-- The handles that a command names for reading, and for writing (R272). -/
def cmdHandles (b : List Byte) : List Nat × List Nat :=
  let h (i : Nat) : Nat := field b (24 + 2 * i) 2
  let r := field b 1 1
  ((List.range r).map h, (List.range (field b 2 1)).map fun i => h (r + i))

/-- Whether a command breaks the rules of reason 1 (R273, R276; log 30). -/
def cmdMalformed (b : List Byte) : Bool :=
  let op := field b 0 1
  let hs := cmdHandles b
  op == 0 || decide (opCancel < op) || field b 3 5 != 0 || decide (16 < field b 1 1 + field b 2 1) ||
  (hs.1 ++ hs.2).any (fun h => decide (4095 < h)) || field b 8 8 % 32 != 0 ||
  ((op == opWait || op == opCancel) && field b 16 8 != 0) ||
  ((op == opLaunch || op == opTlbinv || op == opWait) && field b 56 8 != 0)

/-- The completion record of a command (R275). -/
def completionRecord (status detail tstart tend sig : Nat) : List Byte :=
  leBytes 4 status ++ leBytes 4 detail ++ leBytes 8 tstart ++ leBytes 8 tend ++ leBytes 8 sig

namespace State

/-- The end of a command: its record, or a log entry where it has none or its record does not arrive, and its
stream's vector (R26, R275, R317, R319). -/
def reportEnd (s : State) (c : Cmd) (status detail tstart sig : Nat) : State :=
  let b := streamBlock c.stream
  let s := if c.caddr = 0 ∨ c.caddr % 32 ≠ 0 ∨ !s.physReach b c.caddr 32 then s.log b [6, c.stream, c.offset, detail] else s
  let s := if c.caddr % 32 = 0 ∧ c.caddr ≠ 0 then
      s.writePhys b c.caddr (completionRecord status detail tstart s.time.gts sig) [] else s
  { s with sys := { s.sys with msix := s.sys.msix ++ [c.stream] } }

/-- A command that was taken ends. -/
def endCmd (s : State) (id : Nat) (status detail tstart sig : Nat) : State :=
  match s.cmds.find id with
  | none => s
  | some c => ({ s with cmds := s.cmds.put id none }.reportEnd c status detail tstart sig).changed

/-- A command that ends as its entry says, with no launch's times (R275). -/
def endPlain (s : State) (id : Nat) : State := s.endCmd id 0 0 (((s.cmds.find id).map (·.taken)).getD 0) 0

/-- A command that is rejected with a reason (R276). The record of a LAUNCH that is rejected in CHECK carries 0 as its SIG,
not that of the descriptor: R275 allows both readings, and this is the model's choice (log 44). -/
def rejectCmd (s : State) (id reason : Nat) : State := s.endCmd id 1 reason (((s.cmds.find id).map (·.taken)).getD 0) 0

/-- Whether a command has not ended. -/
def cmdLive (s : State) (id : Nat) : Bool := (s.cmds.find id).isSome

/-- The record of a handle. -/
def handle (s : State) (h : Nat) : Handle := s.handles.get h { writer := none, readers := [] }

/-- What a command waits for, as it is entered in the table (R274). -/
def cmdDeps (s : State) (hs : List Nat × List Nat) : List Nat :=
  ((hs.1.flatMap fun h => (s.handle h).writer.toList) ++
    hs.2.flatMap fun h => (s.handle h).writer.toList ++ (s.handle h).readers).eraseDups.filter s.cmdLive

/-- Enter a command in the table (R274). -/
def enterHandles (s : State) (id : Nat) (hs : List Nat × List Nat) : State :=
  let s := hs.1.foldl (fun s h => { s with handles := s.handles.put h (some { s.handle h with
    readers := addOnce (s.handle h).readers id }) }) s
  hs.2.foldl (fun s h => { s with handles := s.handles.put h (some { writer := some id, readers := [] }) }) s

/-- How the operation of a stream's reads of its ring names its source. -/
def streamName (k : Nat) : Nat := 2 ^ 41 + k

/-- The bytes of the next command of a stream; what cannot be read has no known OP. Nothing yet while words of them
stand in pending lists as LDs (R223, R226). -/
def nextCmdBytes (s : State) (k : Nat) : Option (List Byte) × State :=
  let x := s.stream k
  let a := x.sbase.toNat + x.shead.toNat
  if s.physOk (streamBlock k) a 64 then s.readPhys { Op.ofAgent with slot := streamName k } 0 0 a 64
  else (some (List.replicate 64 0), s.notePhys (streamBlock k) a 64)

/-- Whether a handler runs on the region of a command's record: the command does not end meanwhile (R270). -/
def recordHeld (s : State) (c : Cmd) : Bool := s.physHeld c.caddr 32

/-- A malformed command is rejected (R276) as it is taken, or later where its record has to wait: it stands in the
table as one that waits, with no operation code. -/
def rejectMalformed (s : State) (id : Nat) : State :=
  match s.cmds.find id with
  | some c =>
    if s.recordHeld c then { s with cmds := s.cmds.put id (some { c with op := 0, deps := [], state := .waiting }) }
    else s.rejectCmd id 1
  | none => s

/-- Take the next command of a stream, whose bytes have been read (R271, R274). -/
def enterCmd (s : State) (k : Nat) (b : List Byte) : State :=
  let x := s.stream k
  let s := s.setStream k { x with shead := BitVec.ofNat 32 ((x.shead.toNat + 64) % 2 ^ x.slog.toNat) }
  let (id, s) := s.fresh
  let hs := cmdHandles b
  let bad := cmdMalformed b
  let deps := if bad then [] else s.cmdDeps hs
  let s := if bad then s else s.enterHandles id hs
  let c : Cmd := { stream := k, offset := x.shead.toNat, op := field b 0 1, caddr := field b 8 8, ptr := field b 16 8,
                   imm := BitVec.ofNat 64 (field b 56 8), deps := deps, state := if deps.isEmpty then .ready else .waiting
                   taken := s.time.gts }
  let s := { s with cmds := s.cmds.put id (some c) }
  if bad then s.rejectMalformed id else s

/-- Take the next command of a stream, where its bytes can be had now. -/
def takeCmd (s : State) (k : Nat) : State :=
  match s.nextCmdBytes k with
  | (some b, s) => s.enterCmd k b
  | (none, s) => s

/-- Whether a stream may take a command now (R273, R322). -/
def mayTake (s : State) (k : Nat) : Bool :=
  let x := s.stream k
  s.sys.boot == .run && x.shead != x.stail && !(s.cmds.any fun c => c.2.stream == k && c.2.state == .waiting)

/-- Take the commands of a stream until one waits, or the ring is empty. -/
def takeCmds (s : State) (k : Nat) : Nat → State
  | 0 => s
  | n + 1 => if s.mayTake k then (s.takeCmd k).takeCmds k n else s

/-- The commands that stand in a stream's ring. -/
def ringLoad (s : State) (k : Nat) : Nat :=
  let x := s.stream k
  (x.stail.toNat + 2 ^ x.slog.toNat - x.shead.toNat) / 64 + 1

def takeAll (s : State) (k : Nat) : State := s.takeCmds k (s.ringLoad k)

end State

/-- Whether the host port takes accesses: the link is held down in QUARANTINE (R322). -/
def State.linkUp (s : State) : Bool := s.sys.boot != .quarantine

/-- STAIL (R271): checked, then the command processor takes commands. What the host has posted before is performed
(R249): its writes that rest in pending lists are applied, so that the launches of the stream see them. -/
def execStail (stream : BitVec 6) (value : Word) (s : State) : Out :=
  let k := stream.toNat
  let x := s.stream k
  if !s.linkUp then .next s
  else if value.toNat % 64 ≠ 0 ∨ 2 ^ x.slog.toNat ≤ value.toNat then .next (s.ignoreWrite k 12)
  else .next (((s.drainWhere Pending.posted).setStream k { x with stail := value }).takeAll k).changed

/-- REGISTER_WRITE (R271): SBASE in two halves, and SLOG; the other registers are read-only. STAIL has its
own row. -/
def execRegisterWrite (stream : BitVec 6) (offset : BitVec 16) (value : Word) (s : State) : Out :=
  let k := stream.toNat
  let x := s.stream k
  let busy := x.shead != x.stail
  let off := offset.toNat
  if !s.linkUp then .next s
  else if off = 0 then
    if busy || value.toNat % 4096 != 0 then .next (s.ignoreWrite k off)
    else .next (s.setStream k { x with sbase := x.sbase.extractLsb' 32 32 ++ value }).changed
  else if off = 4 then
    if busy then .next (s.ignoreWrite k off)
    else .next (s.setStream k { x with sbase := value ++ x.sbase.extractLsb' 0 32 }).changed
  else if off = 8 then
    if busy || decide (value.toNat < 12) || decide (24 < value.toNat) then .next (s.ignoreWrite k off)
    else .next (s.setStream k { x with slog := value }).changed
  else .next s

/-- COMMAND_DEPENDENCY_RELEASE (R274): every command that it waits for has ended. A malformed one that has waited for
its record is rejected now. -/
def execCommandDependencyRelease (cmd : Nat) (s : State) : Out :=
  match s.cmds.find cmd with
  | some c =>
    if c.state = .waiting ∧ !c.deps.any s.cmdLive then
      if c.op = 0 then
        .next (if s.recordHeld c then s else ((s.rejectMalformed cmd).takeAll c.stream).changed)
      else
        .next (({ s with cmds := s.cmds.put cmd (some { c with state := .ready, deps := [] }) }).takeAll c.stream).changed
    else .next s
  | none => .next s

/-! ## The launch descriptor (R277) -/

/-- The all-ones value of a 64-bit field. -/
def allOnes64 : Nat := 2 ^ 64 - 1

/-- The channels of a descriptor: word i for channel i (R96). -/
def descChannels (b : List Byte) : Sparse ChannelDecl :=
  (List.range 16).filterMap fun i =>
    let w := field b (0x60 + 4 * i) 4
    if w.testBit 31 then some (i, { source := w % 16, dest := w / 16 % 16, slots := w / 256 % 64 + 1 }) else none

/-- A descriptor from its 512 bytes. Bits [63:52] of KADDR and of HADDR are dropped, and a descriptor where they are not
zero is accepted: R277 gives both fields as byte addresses and names no check of these bits, and this is the model's
choice (log 44). -/
def readDescriptor (b : List Byte) : Desc where
  kaddr := BitVec.ofNat 52 (field b 0x000 8)
  haddr := if field b 0x008 8 = allOnes64 then none else some (BitVec.ofNat 52 (field b 0x008 8))
  root := field b 0x010 8
  spillBase := field b 0x018 8
  spillSize := field b 0x020 4
  nteams := field b 0x024 4
  width := field b 0x028 1
  nregs := field b 0x029 1
  spores := field b 0x02A 1
  scrways := field b 0x02B 1
  scratch := field b 0x02C 4
  groups := field b 0x030 2
  cx := field b 0x032 1
  cy := field b 0x033 1
  slot := if field b 0x034 1 = 255 then none else some (field b 0x034 1)
  det := field b 0x035 1 == 1
  lq := field b 0x036 1
  prio := field b 0x037 1
  job := BitVec.ofNat 32 (field b 0x038 4)
  queues := ((List.range 4).map fun i => field b (0x3C + i) 1).filter (· != 255)
  seed := BitVec.ofNat 64 (field b 0x040 8)
  sig := BitVec.ofNat 64 (field b 0x048 8)
  chbase := field b 0x050 8
  chslots := field b 0x058 4
  chans := descChannels b
  args := (List.range 8).map fun i => BitVec.ofNat 32 (field b (0xA0 + 4 * i) 4)
  elig := (List.range 384).filter (field b 0xC0 48).testBit
  tkimg := field b 0x0F0 8
  tksize := field b 0x0F8 4
  keys := (List.range 16).map fun i => BitVec.ofNat 64 (field b (0x100 + 8 * i) 8)

/-- Reason 2: alignment, zero fields and ranges (R276, R277). QN of a grid launch, which nothing reads, is not
checked: the model's choice (log 44). -/
def reason2 (b : List Byte) : Bool :=
  let chans := descChannels b
  let bad (off n al : Nat) : Bool := field b off n % al != 0
  let haddr := field b 0x008 8
  let slot := field b 0x034 1
  let tkimg := field b 0x0F0 8
  let tksz := field b 0x0F8 4
  let chslots := field b 0x058 4
  bad 0x000 8 256 || (haddr != allOnes64 && bad 0x008 8 4) || bad 0x010 8 8192 || bad 0x018 8 256 || bad 0x020 4 256 ||
  bad 0x02C 4 1024 || bad 0x050 8 16384 || bad 0x0F0 8 256 ||
  field b 0x05C 4 != 0 || field b 0x0FC 4 != 0 || field b 0x180 128 != 0 ||
  ((List.range 16).any fun i => field b (0x60 + 4 * i) 4 / 2 ^ 14 % 2 ^ 17 != 0) ||
  decide (16 ≤ slot ∧ slot ≤ 254) || decide (1 < field b 0x035 1) || decide (15 < field b 0x037 1) ||
  (if tkimg = 0 then tksz != 0 else decide (tksz < 256 ∨ 32768 < tksz)) ||
  (if chans.isEmpty then chslots != 0
   else decide (chslots < 1 ∨ 65536 < chslots ∨ 2 ^ 52 < field b 0x050 8 + chslots * 2 ^ 18))

/-- Reason 3: the limits of R32, the ranges of R89, and the shape of a task launch (R277). -/
def reason3 (d : Desc) : Bool :=
  !(d.width == 16 || d.width == 32 || d.width == 64) || d.nregs == 0 || d.groups == 0 || decide (64 < d.groups) ||
  decide (3072 < d.groups * d.width) || d.cx == 0 || decide (6 < d.cx) || d.cy == 0 || decide (4 < d.cy) ||
  decide (12 < d.cx * d.cy) || decide (32768 < d.cx * d.cy * d.groups * d.width) || decide (8 < d.spores) ||
  decide (458752 < d.scratch) ||
  (if d.nteams = 0 then d.groups != 1 || d.cx * d.cy != 1
   else decide (2 ^ 26 < d.nteams) || d.nteams % (d.cx * d.cy) != 0) ||
  d.chans.any fun p => p.2.source == p.2.dest || decide (d.cx * d.cy ≤ p.2.source) || decide (d.cx * d.cy ≤ p.2.dest)

/-- The lowest-numbered reason that rejects a launch (R276; log 30). R89 lists the range of SCRWAYS and that of LQ among
those that reason 3 speaks of, and R276 gives each a reason of its own: that SCRWAYS above 14 is reported with reason
5, and LQ outside 8 to 16 with DET = 1 with reason 7, is the model's choice (log 44). -/
def launchReason (s : State) (ptr : Nat) (b : List Byte) : Option Nat :=
  let d := readDescriptor b
  if ptr % 512 ≠ 0 ∨ reason2 b then some 2
  else if reason3 d then some 3
  else if d.spores ≠ 0 ∧ (d.nregs % 4 ≠ 0 ∨ d.nregs < 4 * d.spores) then some 4
  else if 14 < d.scrways ∨ d.scrways * 32768 < d.scratch then some 5
  else if d.elig.isEmpty ∨ d.teamsPerCore d.scrways = 0 then some 6
  else if d.det ∧ (d.lq < 8 ∨ 16 < d.lq) then some 7
  else if d.nteams = 0 ∧ d.queues.any (fun q => (s.queues.find q).isNone) then some 8
  else none

/-- Whether a command is ready to be performed as an operation code; not while a handler runs on the region of its
record (R270). -/
def State.readyCmd (s : State) (id op : Nat) : Option Cmd :=
  match s.cmds.find id with
  | some c => if c.op == op && c.state == .ready && !s.recordHeld c then some c else none
  | none => none

/-- How the cancellation of a CANCEL command, and the reads of a command, name their source. -/
def cancelName (cmd : Nat) : Nat := 2 ^ 40 + cmd

/-- The operation of a command that no group has issued. -/
def Op.ofCommand (cmd : Nat) : Op := { Op.ofAgent with slot := cancelName cmd }

/-- A launch in PLACE (R278). -/
def Launch.start (d : Desc) (ptr cmd : Nat) : Launch :=
  { desc := d, ptr := ptr, cmd := cmd, phase := .place, next := 0, tasks := 0, scrways := d.scrways, withheld := [],
    round := 0, terminated := false, imaged := false, firstIssue := none, cores := [], placing := d.det,
    committed := [], base := [] }

/-- LAUNCH (R276 to R278): the descriptor is read once, and the launch is rejected or waits to be placed. -/
def execLaunch (cmd : Nat) (s : State) : Out :=
  match s.readyCmd cmd opLaunch with
  | none => .next s
  | some c =>
    if !s.physOk (streamBlock c.stream) c.ptr 512 then
      .next ((s.notePhys (streamBlock c.stream) c.ptr 512).rejectCmd cmd 2)
    else if s.physHeld c.ptr 512 then .next s
    else
      match s.readPhys (Op.ofCommand cmd) cmd 0 c.ptr 512 with
      | (none, s) => .next s
      | (some b, s) =>
        match launchReason s c.ptr b with
        | some n => .next (s.rejectCmd cmd n)
        | none =>
          let (k, s) := s.fresh
          .next { s with
            cmds := s.cmds.put cmd (some { c with state := .running })
            launches := s.launches.put k (some (Launch.start (readDescriptor b) c.ptr cmd)) }.changed

/-! ## The other commands (R273) -/

/-- Whether a task launch that has not ended names a queue. -/
def State.queueInUse (s : State) (q : Nat) : Bool := s.launches.any fun l => l.2.desc.nteams == 0 && l.2.desc.queues.contains q

/-- A queue is bound: the entries of its ring, which its engine reads behind what is pending there, are expanded (R223,
R281). -/
def State.bindQueue (s : State) (k : Nat) (q : Queue) : State :=
  let s := (s.homeRead (s.served q.ring).1 (2 ^ q.rlog) (s.freeKeeps 0)).2
  match expandRing (queueUnit s k q) q (q.used + 1) q.head 0 none with
  | .ok (last, seq) => s.setQueue k { q with last := last, nextSeq := seq }
  | .error unit => s.faultQueue k q unit

/-- QBIND (R276, R281): the header is read, the queue bound, and its entries expanded. The spec leaves two points open
that are the model's choice (log 44): bits of IMM above the queue number are ignored, as those of SETWAYS and CANCEL
above their fields; and records that wait for room in the ring of a queue that is bound again are kept, and
appended to the new ring. -/
def execQbind (cmd : Nat) (s : State) : Out :=
  match s.readyCmd cmd opQbind with
  | none => .next s
  | some c =>
    let k := c.imm.toNat % 256
    if c.ptr % 64 ≠ 0 ∨ !s.physOk (queueBlock k) c.ptr 64 then
      .next ((s.notePhys (queueBlock k) c.ptr 64).rejectCmd cmd 2)
    else if s.queueInUse k then .next (s.rejectCmd cmd 8)
    else if s.physHeld c.ptr 64 then .next s
    else
      match s.readPhys (Op.ofCommand cmd) cmd 0 c.ptr 64 with
      | (none, s) => .next s
      | (some b, t) =>
        let rlog := field b 16 1
        if rlog < 12 ∨ 24 < rlog ∨ field b 8 8 % 4096 ≠ 0 ∨ field b 17 47 ≠ 0 then .next (t.rejectCmd cmd 10)
        else
          let n := 2 ^ rlog / 8
          let old := ((t.queues.find k).map (·.appends)).getD []
          let q := Queue.bind c.ptr (field b 0 4 % n) (field b 4 4 % n) (field b 8 8) rlog old
          if t.queueHeld q then .next s else .next ((t.bindQueue k q).endPlain cmd).changed

/-- TLBINV (R273): no TLB holds a translation through the root any more. A walk is made within one step,
so that none is under way. -/
def execTlbinv (cmd : Nat) (s : State) : Out :=
  match s.readyCmd cmd opTlbinv with
  | none => .next s
  | some c =>
    let keep (t : TlbEntry) : Bool := c.ptr != 0 && t.root != c.ptr
    .next ({ s with mem := { s.mem with tlb := s.mem.tlb.filter keep } }.endPlain cmd).changed

/-- Whether every core of a launch has applied its change of ways (R203). -/
def State.waysApplied (s : State) (k : Nat) : Bool :=
  !((List.range 384).any fun c => s.occupant c == some k && (s.core c).ways.isSome)

/-- Whether a SETWAYS has nothing left to wait for: its launch has applied the change on every core, or has ended
(R273). -/
def State.waysLaid (s : State) (c : Cmd) : Bool := match s.launches.find? fun l => l.2.ptr == c.ptr with
  | some l => s.waysApplied l.1
  | none => true

/-- A SETWAYS that runs ends, where it has nothing left to wait for and its record can be written. -/
def State.endSetways (s : State) (cmd : Nat) : State :=
  match s.cmds.find cmd with
  | some c => if c.op == opSetways && c.state == .running && s.waysLaid c && !s.recordHeld c then (s.endPlain cmd).changed else s
  | none => s

/-- SETWAYS (R203, R276): the launch that runs from the descriptor changes its ways on each of its cores. The spec
leaves two points open that are the model's choice (log 44): a launch that is in PLACE counts as running, and of
several launches from one descriptor the earliest is meant. -/
def execSetways (cmd : Nat) (s : State) : Out :=
  match s.readyCmd cmd opSetways with
  | none => .next (s.endSetways cmd)
  | some c =>
    let w := c.imm.toNat % 16
    let l := s.launches.find? fun p => p.2.ptr == c.ptr && p.2.phase != .ending && !p.2.terminated
    if 14 < w ∨ ((l.map fun p => decide (w * 32768 < p.2.desc.scratch)).getD false) then .next (s.rejectCmd cmd 5)
    else match l with
      | none => .next (s.rejectCmd cmd 9)
      | some (k, _) =>
        let s := { s with
          cmds := s.cmds.put cmd (some { c with state := .running })
          launches := s.launches.update k fun l => { l with scrways := w } }
        let s := (List.range 384).foldl (fun s i =>
          if s.occupant i == some k then s.setCore i { s.core i with ways := some w } else s) s
        .next (if s.waysApplied k then s.endPlain cmd else s).changed

/-- WAIT (R273). -/
def execWait (cmd : Nat) (s : State) : Out :=
  match s.readyCmd cmd opWait with
  | none => .next s
  | some c =>
    if s.cmds.any fun p => decide (p.1 < cmd) && p.2.stream == c.stream then .next s
    else .next (s.endPlain cmd)

/-- CANCEL (R273, R288; log 29). -/
def execCancel (cmd : Nat) (s : State) : Out :=
  match s.readyCmd cmd opCancel with
  | none => .next s
  | some c =>
    let (id, s) := s.fresh
    let s := { s with cmds := s.cmds.put cmd (some { c with state := .running }) }
    .next (s.putOp id (some (cancelOp (Op.ofCommand cmd) (c.imm.setWidth 32) s.time.gts))).changed

/-- CANCELLATION_RECORDED (R288): an agent records the message of the earliest JCANCEL or CANCEL of the job
that it has not recorded; the last agent completes it. -/
def execCancellationRecorded (agent job : Nat) (s : State) : Out :=
  let due (p : Nat × Op) : Bool :=
    p.2.kind == .cancelJob && p.2.lanes.contains agent && p.2.data == wordBytes (BitVec.ofNat 32 job) &&
    !s.awaitsCommit p.2.slot p.1 &&
    !(decide (cancelName 0 ≤ p.2.slot) && (s.cmds.find (p.2.slot - cancelName 0)).any s.recordHeld)
  match s.mem.ops.find? due with
  | none => .next s
  | some (id, o) =>
    let s := s.recordCancel agent (BitVec.ofNat 32 job) o.aux
    let left := o.lanes.filter (· != agent)
    if left.isEmpty then
      let s := s.finishOp id
      .next (if cancelName 0 ≤ o.slot then s.endPlain (o.slot - cancelName 0) else s).changed
    else .next (s.putOp id (some { o with lanes := left })).changed

end Sys2Proof.Machine
end

