-- ==== Sys2Proof/Machine/Sm3.lean ====
section
/-!
DEFINITION. SM3, the hash that the spec names for measurements and reports (R320, R321). Its definition
is taken from outside the spec (PRESUMED, log 12).
-/
namespace Sys2Proof.Machine

open Sys2Proof

namespace Sm3

def iv : List Word :=
  [0x7380166F, 0x4914B2B9, 0x172442D7, 0xDA8A0600, 0xA96F30BC, 0x163138AA, 0xE38DEE4D, 0xB0FB0E4E]

def p0 (x : Word) : Word := x ^^^ x.rotateLeft 9 ^^^ x.rotateLeft 17
def p1 (x : Word) : Word := x ^^^ x.rotateLeft 15 ^^^ x.rotateLeft 23

/-- The word `k` places before the end of a list kept newest first. -/
def back (w : List Word) (k : Nat) : Word := w.getD (k - 1) 0

/-- The next expanded word, in front of those so far. -/
def expand : Nat → List Word → List Word
  | 0, w => w
  | n + 1, w =>
    expand n ((p1 (back w 16 ^^^ back w 9 ^^^ (back w 3).rotateLeft 15) ^^^ (back w 13).rotateLeft 7 ^^^ back w 6) :: w)

/-- One round on the eight registers. -/
def round (j : Nat) (w w4 : Word) (v : List Word) : List Word :=
  let r (i : Nat) : Word := v.getD i 0
  let t : Word := if j < 16 then 0x79CC4519 else 0x7A879D8A
  let ss1 := ((r 0).rotateLeft 12 + r 4 + t.rotateLeft (j % 32)).rotateLeft 7
  let ss2 := ss1 ^^^ (r 0).rotateLeft 12
  let ff := if j < 16 then r 0 ^^^ r 1 ^^^ r 2 else (r 0 &&& r 1) ||| (r 0 &&& r 2) ||| (r 1 &&& r 2)
  let gg := if j < 16 then r 4 ^^^ r 5 ^^^ r 6 else (r 4 &&& r 5) ||| (~~~(r 4) &&& r 6)
  let tt1 := ff + r 3 + ss2 + (w ^^^ w4)
  let tt2 := gg + r 7 + ss1 + w
  [tt1, r 0, (r 1).rotateLeft 9, r 2, p0 tt2, r 4, (r 5).rotateLeft 19, r 6]

/-- The rounds on the expanded words, oldest first. -/
def rounds (ws : List Word) : Nat → List Word → List Word
  | 0, v => v
  | n + 1, v =>
    let j := 63 - n
    rounds ws n (round j (ws.getD j 0) (ws.getD (j + 4) 0) v)

/-- Compress one block of 16 words. -/
def compress (v block : List Word) : List Word :=
  let ws := (expand 52 block.reverse).reverse
  List.zipWith (· ^^^ ·) v (rounds ws 64 v)

/-- A word from four bytes, the most significant first. -/
def beWord (b : List Byte) : Word := b.foldl (fun w x => (w <<< 8) ||| x.setWidth 32) 0

/-- The padded message as blocks. -/
def blocks (msg : List Byte) : List (List Word) :=
  let n := msg.length
  let zeros := (119 - n % 64) % 64
  let m := msg ++ [0x80] ++ List.replicate zeros 0 ++ (leBytes 8 (8 * n)).reverse
  (List.range (m.length / 64)).map fun i => (List.range 16).map fun j => beWord ((m.drop (64 * i + 4 * j)).take 4)

/-- The 32 bytes of the hash of a message. -/
def hash (msg : List Byte) : List Byte :=
  ((blocks msg).foldl compress iv).flatMap fun w => (wordBytes w).reverse

end Sm3

end Sys2Proof.Machine
end

