-- ==== Sys2Proof/Machine/Sm2.lean ====
section
/-!
DEFINITION. SM2, the signature that the spec names for attestation (R320, R321): its curve, and a signature
over a digest. Curve and algorithm are taken from outside the spec, where they are public (PRESUMED, log 12).
-/
namespace Sys2Proof.Machine

open Sys2Proof

namespace Sm2

/-- The field, the coefficient a of the curve, and the order of its base point. -/
def p : Nat := 0xFFFFFFFEFFFFFFFFFFFFFFFFFFFFFFFFFFFFFFFF00000000FFFFFFFFFFFFFFFF
def a : Nat := p - 3
def n : Nat := 0xFFFFFFFEFFFFFFFFFFFFFFFFFFFFFFFF7203DF6B21C6052B53BBF40939D54123

/-- A point in Jacobian coordinates; `z = 0` is the point at infinity. -/
structure Point where
  x : Nat
  y : Nat
  z : Nat
  deriving DecidableEq, Repr

def infinity : Point := { x := 1, y := 1, z := 0 }

/-- The base point. -/
def base : Point :=
  { x := 0x32C4AE2C1F1981195F9904466A39C9948FE30BBFF2660BE1715A4589334C74C7
    y := 0xBC3736A2F4F6779C59BDCEE36B692153D0A9877CC62A474002DF32E52139F0A0
    z := 1 }

/-- The difference of two numbers below a modulus. -/
def minus (m x y : Nat) : Nat := (x + (m - y % m)) % m

def double (q : Point) : Point :=
  let yy := q.y * q.y % p
  let zz := q.z * q.z % p
  let s := 4 * q.x * yy % p
  let t := (3 * q.x * q.x + a * (zz * zz % p)) % p
  let x := minus p (t * t) (2 * s)
  { x := x, y := minus p (t * minus p s x) (8 * (yy * yy % p)), z := 2 * q.y * q.z % p }

def add (q r : Point) : Point :=
  if q.z = 0 then r
  else if r.z = 0 then q
  else
    let zq := q.z * q.z % p
    let zr := r.z * r.z % p
    let u := q.x * zr % p
    let s := q.y * r.z % p * zr % p
    let h := minus p (r.x * zq) u
    let w := minus p (r.y * q.z % p * zq) s
    if h = 0 then (if w = 0 then double q else infinity)
    else
      let hh := h * h % p
      let v := u * hh % p
      let x := minus p (w * w) (h * hh + 2 * v)
      { x := x, y := minus p (w * minus p v x) (s * (h * hh % p)), z := h * q.z % p * r.z % p }

/-- `k` times a point, for `k` below 2 to the number of bits. -/
def times (q : Point) : Nat → Nat → Point
  | 0, _ => infinity
  | bits + 1, k =>
    let d := double (times q bits (k / 2))
    if k % 2 = 1 then add d q else d

/-- A power modulo `m`. -/
def power (m x : Nat) : Nat → Nat → Nat
  | 0, _ => 1
  | bits + 1, e =>
    let h := power m x bits (e / 2)
    if e % 2 = 1 then h * h % m * x % m else h * h % m

/-- The inverse modulo a prime. -/
def inverse (m x : Nat) : Nat := power m (x % m) 256 (m - 2)

/-- The x coordinate of a point. -/
def Point.affineX (q : Point) : Nat := q.x * inverse p (q.z * q.z) % p

/-- The signature of a digest under a private key with a drawn number, unless that number must be drawn again. -/
def signWith (key digest k : Nat) : Option (Nat × Nat) :=
  let r := (digest + (times base 256 k).affineX) % n
  let s := inverse n (1 + key) * minus n k (r * key) % n
  if k = 0 ∨ r = 0 ∨ r + k = n ∨ s = 0 then none else some (r, s)

/-- Whether a pair is a signature of a digest under a public key. -/
def verifies (key : Nat × Nat) (digest r s : Nat) : Bool :=
  let t := (r + s) % n
  let q := add (times base 256 s) (times { x := key.1, y := key.2, z := 1 } 256 t)
  decide (0 < r ∧ r < n ∧ 0 < s ∧ s < n ∧ t ≠ 0 ∧ q.z ≠ 0) && decide ((digest + q.affineX) % n = r)

/-- The number whose bytes are given, the most significant first. -/
def beNat (b : List Byte) : Nat := leNat b.reverse

/-- Whether 64 bytes, r and s little-endian, are a signature over the SM3 hash of a message (R320). -/
def accepts (key : Nat × Nat) (signature msg : List Byte) : Bool :=
  signature.length == 64 &&
    verifies key (beNat (Sm3.hash msg)) (leNat (signature.take 32)) (leNat (signature.drop 32))

/-- The 64 bytes of a signature over the SM3 hash of a message, r and s little-endian (R321). Numbers are drawn
until one serves. -/
def sign (key : Nat) (draw : Nat → Nat) (msg : List Byte) : List Byte :=
  let e := beNat (Sm3.hash msg)
  let rs := ((List.range 64).findSome? fun i => signWith key e (draw i % n)).getD (0, 0)
  leBytes 32 rs.1 ++ leBytes 32 rs.2

end Sm2

end Sys2Proof.Machine
end

