-- ==== Sys2Proof/Machine/System.lean ====
section
/-!
DEFINITION. The system around the cores: host and peer accesses (R230, R315 to R317), worlds and regions
(R318, R319), attestation (R321), start-up (R322), errors (R324), power and temperature (R325), and the
events of the network that change timing only (R260).
-/
namespace Sys2Proof.Machine

open Sys2Proof

/-- The blocks of the host port, of the sexton and of the steward's first management core (R320, R323). -/
def hostBlock : Nat := 612
def sextonBlock : Nat := 613
def stewardBlock : Nat := 614
/-- The block of the scale-up port that serves an address (R316). -/
def portBlock (a : Nat) : Nat := 580 + homeSlice a % 32

/-- What the steward or the sexton logs of an event of its own. -/
def State.logged (s : State) (source : Nat) (what : List Nat) : State := (s.log source what).changed

/-! ## Host and peers -/

/-- What comes back through the port of a block. -/
def State.answer (s : State) (r : Reply) : State := { s with sys := { s.sys with replies := s.sys.replies ++ [r] } }

/-- The error response that an access through a port receives (R319). -/
def State.answerError (s : State) (block a : Nat) : State :=
  s.answer { block := block, addr := a, bytes := [], poison := false, error := true }

/-- How the operation of a read through the port of a block names the port. -/
def portSlot (block : Nat) : Nat := 2 ^ 20 + block

/-- A read through a port: its place is at the home slice, and its data go back, poison marked (R315); but words
that `input.values` names may stand in pending lists as LDs, and then they go back once those have left them
(R223, R226). -/
def State.answerRead (s : State) (block a n : Nat) : State :=
  let runs := (regionParts a (List.replicate n 0)).map fun p => ((s.served p.1).1, p.2.length)
  let o := { Op.ofAgent with slot := portSlot block, data := leBytes 8 a }
  let r := s.lateRead o s.ids n (s.freeKeeps 0) runs (wordPairs s.input.values)
  match r.1 with
  | some x => r.2.answer { block := block, addr := a, bytes := x.1, poison := x.2, error := false }
  | none => r.2

/-- The data of a read through a port go back, once no word of it stands in a pending list, or the old value of an
atomic in two halves (R226, R231, R315); and a command processor goes on, once a read of its ring has its bytes. -/
def State.portReply (s : State) (id : Nat) : State :=
  match s.op id with
  | some o =>
    if o.kind != .engineRead || !o.pieces.all Piece.over then s
    else if portSlot 0 ≤ o.slot ∧ o.slot < portSlot (2 ^ 20) then
      ((s.putOp id none).answer {
        block := o.slot - portSlot 0, addr := leNat o.data, bytes := o.pieces.flatMap fun q => q.data.getD []
        poison := o.pieces.any (·.poison), error := false }).changed
    else if streamName 0 ≤ o.slot ∧ o.slot < streamName 64 then (s.takeAll (o.slot - streamName 0)).changed
    else s
  | none => s

/-- HOST_HDM_ACCESS (R315): a write of some bytes, or a read of the 64-byte line that holds an address. A
non-secure access to a secure granule receives an error (R319). `input.values` names words in whose pending lists
a write may rest (R226; log 33). -/
def execHostHdmAccess (addr : Nat) (data : Option (List Byte)) (s : State) : Out :=
  let a := if data.isSome then addr else addr / 64 * 64
  let n := (data.map List.length).getD 64
  if s.sys.boot ≠ .run ∨ n = 0 ∨ hbmSize < a + n ∨ s.regionHeld a n then .next s
  else if !s.reaches hostBlock a n then .next ((s.answerError hostBlock a).logged hostBlock [7, addr])
  else match data with
    | some bytes => .next (s.writePhys hostBlock a bytes (wordPairs s.input.values)).changed
    | none => .next (s.answerRead hostBlock a n).changed

/-- An atomic's function by its code (R332). -/
def peerAtom (code : BitVec 3) : AtomFn :=
  match code.toNat with
  | 0 => .add
  | 1 => .min
  | 2 => .max
  | 3 => .and
  | 4 => .or
  | 5 => .xor
  | 6 => .xchg
  | _ => .cas

/-- The bytes that a peer's access covers. -/
def peerSize : PeerAccess → Nat
  | .read n => n
  | .write d => d.length
  | .atomic _ et .. => wordSize et
  | .operator _ et .. => wordSize et

/-- An atomic of a peer in its parts, a request for each: a bf16x2 word is two halves, and no unit (R231). -/
def State.sendPeerAtomic (s : State) (a : Nat) (fn : AtomFn) (et : ElemType) (x cmp : Nat) (parts : List (Nat × Nat)) : State :=
  let (id, s) := s.fresh
  let at' (p : Nat × Nat) : Phys := { pa := a + p.1, grain := 0, efmt := 0, geo := 0, page := 0, via := none }
  let o : Op := { Op.ofAgent with
    slot := portSlot (portBlock a), kind := .engineRead, data := leBytes 8 a
    pieces := parts.map fun p => Piece.start { lane := 0, va := 0, phys := at' p } p.2 [] }
  (s.putOp id (some o)).sendAll (parts.mapIdx fun i p =>
    { src := .peer, slice := 0, addr := a + p.1, size := p.2, grain := s.sharedGrain (a + p.1) p.2
      kind := .atomic fn et (p.2 == 2) (x / 2 ^ (8 * p.1) % 2 ^ (8 * p.2)) cmp true
      op := id, piece := i, admitted := false })

/-- A peer's access at the home slice of its local offset (R195, R230): what it reads, or the old value of its
atomic or MOPR, goes back, poison marked; its operator cuts the word's list and is applied with what its device
attached. -/
def State.performPeer (s : State) (a : Nat) : PeerAccess → State
  | .read n => s.answerRead (portBlock a) a n
  | .write d => s.writePhys (portBlock a) a d (wordPairs s.input.values)
  | .atomic code et x cmp =>
    let n := wordSize et
    let parts := atomParts (peerAtom code) et n
    if 1 < parts.length then s.sendPeerAtomic a (peerAtom code) et x.toNat cmp.toNat parts
    else
    let r := s.homeAtomic a n (s.sharedGrain a n) (peerAtom code) et x.toNat cmp.toNat [] []
    r.2.answer { block := portBlock a, addr := a, bytes := r.1.getD [], poison := r.1.isNone, error := false }
  | .operator fn et rm x ret =>
    let n := wordSize et
    let d : ClassDesc := { valid := true, inv := 0, rm := (RMode.ofCodeNat rm.toNat).getD .rne, et := et, fn := fn }
    let s := s.cut a n
    let old : Reply :=
      { block := portBlock a, addr := a, bytes := if s.mem.poisoned a n then [] else s.mem.read a n
        poison := s.mem.poisoned a n, error := false }
    let s := applyPending s (.mop a 0 d (0, 0) x.toNat none [] [] (s.sharedGrain a n))
    if ret then s.answer old else s

/-- Whether a request that a peer has sent before is still on its way to some bytes (R261). -/
def State.peerHeld (s : State) (a n : Nat) : Bool := s.mem.reqs.any fun r => r.2.src == .peer && meets r.2.addr r.2.size a n

/-- PEER_ACCESS_ARRIVAL (R230, R316): through a port that is up, at an address of local HBM. -/
def execPeerAccessArrival (addr : Nat) (access : PeerAccess) (s : State) : Out :=
  let n := peerSize access
  if s.sys.boot ≠ .run ∨ n = 0 ∨ hbmSize < addr + n ∨ s.regionHeld addr n ∨ s.peerHeld addr n ∨
    s.sys.portsDown.contains (homeSlice addr % 32) then .next s
  else if !s.reaches (portBlock addr) addr n then
    .next ((s.answerError (portBlock addr) addr).logged (portBlock addr) [8, addr])
  else .next (s.performPeer addr access).changed

/-- PORT_DOWN (R317). -/
def execPortDown (port : Nat) (s : State) : Out :=
  .next ({ s with sys := { s.sys with portsDown := addOnce s.sys.portsDown (port % 32) } }.logged (580 + port % 32) [9])

/-- LINK_TRAINING (R316): the device's number, and the devices that the domain holds. -/
def execLinkTraining (s : State) : Out :=
  match s.input.values with
  | [] => .next s
  | n :: ps =>
    .next { s with sys := { s.sys with device := BitVec.ofNat 8 n, peers := ps.map (· % 256), portsDown := [] } }.changed

/-- INJECTION_STARVATION_TIMEOUT (R260; log 37): it changes timing only. -/
def execInjectionStarvationTimeout (s : State) : Out := .next s

/-- LINK_ERROR_RETRY (R260): the flits are sent again in order; the corrected error is logged (R324). The
source is the number of the port or block that found it (R323). -/
def execLinkErrorRetry (s : State) : Out := .next (s.logged (s.input.values.headD 580) [10])

/-! ## Worlds (R318, R319) -/

/-- The block that writes a table: the first of `input.values`, or the sexton's (R318). -/
def State.writer (s : State) : Nat := s.input.values.headD sextonBlock

/-- WORLD_TABLE_WRITE (R318): a write of a block that is not in the secure world is ignored and logged. -/
def execWorldTableWrite (block : Nat) (secure : Bool) (s : State) : Out :=
  if s.secureBlock s.writer then
    let others := s.sys.worlds.filter (· != block)
    .next { s with sys := { s.sys with worlds := if secure then others ++ [block] else others } }.changed
  else .next (s.logged s.writer [11, block])

/-- The bits of a region entry that are not zero by rule (R318). -/
def regionMask : BitVec 128 := 0x1000FFFFFFFFFFFFF

/-- REGION_TABLE_WRITE (R318). -/
def execRegionTableWrite (index : BitVec 6) (entry : BitVec 128) (s : State) : Out :=
  if s.secureBlock s.writer then
    .next { s with sys := { s.sys with regions := s.sys.regions.put index.toNat (some (entry &&& regionMask)) } }.changed
  else .next (s.logged s.writer [12, index.toNat])

/-! ## Attestation (R321) -/

/-- The report up to its signature (R321). -/
def reportBody (s : State) (nonce : BitVec 256) : List Byte :=
  leBytes 4 0x54534541 ++ leBytes 4 192 ++ leBytes 8 s.time.gts ++ leBytes 32 nonce.toNat ++
  leBytes 32 s.sys.measured.toNat ++ (List.range 16).map Config.fuseId ++ leBytes 4 s.sys.start ++ List.replicate 28 0

/-- The sexton signs some bytes with the device identity key (R320, R321); the numbers that it draws are free
(log 12). -/
def State.signature (s : State) (msg : List Byte) : List Byte :=
  Sm2.sign s.sys.sexton.key (Config.sm2Nonce s.time.tick) msg

/-- ATTESTATION_REQUEST (R321). -/
def execAttestationRequest (nonce : BitVec 256) (s : State) : Out :=
  if s.sys.boot ≠ .run then .next s
  else
    let body := reportBody s nonce
    .next { s with sys := { s.sys with report := body ++ s.signature body } }.changed

/-! ## Start-up (R322) -/

/-- The measurement of an image (R321). -/
def measure (m : BitVec 256) (image : List Byte) : BitVec 256 :=
  BitVec.ofNat 256 (leNat (Sm3.hash (leBytes 32 m.toNat ++ Sm3.hash image)))

namespace State

def setBoot (s : State) (b : Boot) : State := { s with sys := { s.sys with boot := b } }

/-- The device at the start of a cold or warm start: its log is kept, what has gone out through its ports, and
the sexton's ROM; a warm start, with power held, keeps the sexton's other stores, the always-on registers and
the cached digest as well. Host and peer memory are not its own (R320, R322; log 12). -/
def restart (s : State) (warm : Bool) : State :=
  { State.reset with
    time := s.time, agenda := s.agenda, ids := s.ids
    mem := { State.reset.mem with bytes := s.mem.bytes.filter fun p => decide (hbmSize ≤ p.1) }
    sys := { State.reset.sys with
      warm := warm, start := if warm then 1 else 0, log := s.sys.log, msix := s.sys.msix, replies := s.sys.replies
      retained := if warm then s.sys.retained else none
      digest := if warm then s.sys.digest else none
      sexton := if warm then s.sys.sexton else { rom := s.sys.sexton.rom, sram := [], key := 0, imageKey := (0, 0) } } }.changed

/-- A start-up step fails: three failures lead to RECOVER (R322). -/
def retry (s : State) : State :=
  let n := s.sys.failures + 1
  { s with sys := { s.sys with failures := n, boot := if n < 3 then .fuse else .recover } }.changed

/-- RUN: HBM is zeroed, and streams may be taken (R322). -/
def enterRun (s : State) : State :=
  let s := { s with
    mem := { s.mem with bytes := s.mem.bytes.filter (fun p => decide (hbmSize ≤ p.1)), dirty := [], queue := [], poison := [] } }
  ((s.setBoot .run).streams.foldl (fun (s : State) p => s.takeAll p.1) (s.setBoot .run)).changed

/-- A step of start-up that the table takes only in one state: its success, or a retry (R322). -/
def bootStep (s : State) (at' : Boot) (good : State) : State :=
  if s.sys.boot = at' then (if s.input.ok then good else s.retry) else s

/-- The signed image that a step brings: the 64 bytes of its signature, and the image (log 12). -/
def signedImage (s : State) : List Byte × List Byte :=
  let bytes := s.input.values.map (BitVec.ofNat 8)
  (bytes.take 64, bytes.drop 64)

/-- Whether the image that a step brings verifies: an SM2 signature over its SM3 digest (R320, R322). -/
def imageVerifies (s : State) : Bool := Sm2.accepts s.sys.sexton.imageKey s.signedImage.1 s.signedImage.2

/-- The image that a step brings is measured, and its digest cached (R321, R322). -/
def measured (s : State) : State :=
  let image := s.signedImage.2
  { s with sys := { s.sys with
    measured := measure s.sys.measured image, digest := some (BitVec.ofNat 256 (leNat (Sm3.hash image))) } }

/-- Fuses are sensed: at a cold start the identity key is derived from them, and the key that verifies images is
taken (R320, R322; log 12). -/
def sensed (s : State) : State :=
  if s.sys.warm then s.setBoot .retain
  else { s with sys := { s.sys with boot := .bist, sexton := { s.sys.sexton with
    key := Config.deviceKey, imageKey := Config.imageKey } } }

/-- FUSE and RETAIN, which no row of the table ends (R322). RETAIN finds parameters that a TRAIN has stored, and
a digest that a VERIFY has cached. -/
def startUp (s : State) (ok cached : Bool) : State :=
  match s.sys.boot with
  | .fuse => (if ok then s.sensed else s.setBoot .quarantine).changed
  | .retain =>
    (if ok && s.sys.retained.isSome then s.setBoot (if cached && s.sys.digest.isSome then .verify else .fetch)
     else s.setBoot .train).changed
  | _ => s

end State

/-- COLD_START (R322). -/
def execColdStart (s : State) : Out := .next (s.restart false)
/-- WARM_START (R322). -/
def execWarmStart (s : State) : Out := .next (s.restart true)
/-- BIST_DONE (R322). -/
def execBistDone (s : State) : Out := .next (s.bootStep .bist (s.setBoot .train).changed)
/-- TRAIN_DONE (R322): the parameters that the stacks have been trained to are stored. -/
def execTrainDone (s : State) : Out :=
  .next (s.bootStep .train
    { s with sys := { s.sys with boot := .fetch, retained := some s.input.values } }.changed)
/-- FETCH_DONE (R322). -/
def execFetchDone (s : State) : Out := .next (s.bootStep .fetch (s.setBoot .verify).changed)
/-- VERIFY_DONE (R320 to R322): `input.values` are the bytes of the signed steward image; one that does not verify
fails the step. -/
def execVerifyDone (s : State) : Out :=
  .next (s.bootStep .verify (if s.imageVerifies then s.measured.enterRun else s.retry))

/-- RECOVER_DONE (R320, R322): START becomes 2; a recovery image that does not verify leads to QUARANTINE. -/
def execRecoverDone (s : State) : Out :=
  if s.sys.boot ≠ .recover then .next s
  else if s.input.ok && s.imageVerifies then
    let s := s.measured
    .next { s with sys := { s.sys with start := 2 } }.enterRun
  else .next (s.setBoot .quarantine).changed

/-- STARTUP_STEP_TIMEOUT (R322): the step fails. -/
def execStartupStepTimeout (s : State) : Out :=
  match s.sys.boot with
  | .fuse | .recover => .next (s.setBoot .quarantine).changed
  | .retain => .next (s.setBoot .train).changed
  | .bist | .train | .fetch | .verify => .next s.retry
  | .run | .quarantine => .next s

/-! ## Errors (R324) -/

/-- The source number of an error (R323). -/
def errorSource : ErrorSite → Nat
  | .hbm a => 617 + a / 4096 % 12
  | .l2 a => 384 + homeSlice a
  | .l1 c _ => c
  | .scratch c _ => c
  | .registers slot => slotCore slot
  | .link p => 580 + p % 32

/-- Poison the scratch sector of the team whose area holds an offset of the scratchpad (R25, R324). -/
def State.poisonScratch (s : State) (core off : Nat) : State :=
  let hit (p : Nat × Team) : Bool :=
    let size := ((s.launch p.2.launch).map (·.desc.scratch)).getD 0
    p.2.core == core && !p.2.slots.isEmpty && decide (p.2.area * size ≤ off ∧ off < (p.2.area + 1) * size)
  match s.teams.find? hit with
  | some (k, t) =>
    let size := ((s.launch t.launch).map (·.desc.scratch)).getD 0
    s.modTeam k fun t => { t with poison := addOnce t.poison (sectorOf (off - t.area * size)) }
  | none => s

/-- Every group of a team halts, and its launch ends with STATUS 2 (R275, R324). -/
def State.haltTeam (s : State) (slot : Nat) : State :=
  match s.group slot with
  | none => s
  | some g =>
    { s with
      slots := s.slots.map fun p => (p.1, if p.2.teamKey == g.teamKey then { p.2 with halted := true } else p.2)
      launches := s.launches.update g.launch fun l => { l with terminated := true } }

/-- UNCORRECTABLE_ERROR (R324). -/
def execUncorrectableError (site : ErrorSite) (s : State) : Out :=
  let s := s.logged (errorSource site) [13]
  match site with
  | .hbm a | .l2 a => .next (if a < hbmSize then { s with mem := s.mem.addPoison (sectorOf a) } else s)
  | .l1 c a =>
    let x := s.core c
    .next (s.setCore c { x with l1 := x.l1.map fun e => if e.addr == sectorOf a then { e with poison := true } else e })
  | .scratch c off => .next (s.poisonScratch c off)
  | .registers slot => .next (s.haltTeam slot)
  | .link _ => .next s

/-- CORRECTED_ERROR (R324): it changes no value and is logged. -/
def execCorrectedError (site : ErrorSite) (s : State) : Out := .next (s.logged (errorSource site) [14])

/-! ## Power and temperature (R325) -/

/-- Whether a power state is one of a core, and allowed there now (R325). -/
def corePowerOk (s : State) (c : Nat) : PowerState → Bool
  | .on => s.sys.quadrants.find (c / 24) != some .off
  | .gate => !(s.slots.any fun p => slotCore p.1 == c)
  | _ => false

/-- Whether a power state is one of a quadrant, and allowed there now: OFF once its cores are GATE. -/
def quadrantPowerOk (s : State) (q : Nat) : PowerState → Bool
  | .on => true
  | .throt n => decide (1 ≤ n ∧ n ≤ 7)
  | .off => (List.range 24).all fun i => (s.core (24 * q + i)).power == .gate
  | .gate => false

/-- POWER_STATE_CHANGE (R325; log 33): a change that is not allowed is not made. -/
def execPowerStateChange (quadrant : Nat) (core : Option Nat) (state : PowerState) (s : State) : Out :=
  match core with
  | some c => if corePowerOk s c state then .next (s.setCore c { s.core c with power := state }).changed else .next s
  | none =>
    if quadrantPowerOk s quadrant state then
      .next { s with sys := { s.sys with quadrants := s.sys.quadrants.put quadrant (some state) } }.changed
    else .next s

/-- THERMAL_SAMPLE (R325): the sensors' readings, stamped with GTS. -/
def execThermalSample (s : State) : Out :=
  .next { s with sys := { s.sys with telemetry := s.sys.telemetry ++ [(s.time.gts, s.input.values)] } }.changed

/-- THERMAL_TRIP (R325): the hardware throttles the quadrant that `input.values` names to THROT 1. -/
def execThermalTrip (s : State) : Out :=
  match s.input.values with
  | q :: _ =>
    let s := s.logged stewardBlock [15, q]
    .next (if s.sys.quadrants.find (q % 16) = some .off then s
      else { s with sys := { s.sys with quadrants := s.sys.quadrants.put (q % 16) (some (.throt 1)) } })
  | [] => .next s

/-! ## Words that no table assigns -/

/-- UNASSIGNED_OPCODE (R108): the group traps with ILLEGAL. -/
def execUnassignedOpcode (_w : Word) (s : State) : Out := issuing s fun c => trapAll s c .illegal

end Sys2Proof.Machine
end

