-- ==== Sys2Proof/Machine/Matrix.lean ====
section
/-!
DEFINITION. Matrix products: MM0 (R65, R146, R149), the summation shapes (R141, R142), residues in the
array (R137 to R140), triangular masking (R150), fragments (R147, R148), MMA and MMAR (R149, R151).
-/
namespace Sys2Proof.Machine

open Sys2Proof

/-! ## MM0 (R65) -/

namespace Mm0
def nc (m : Word) : Nat := (m.extractLsb' 0 6).toNat
def mc (m : Word) : Nat := (m.extractLsb' 6 2).toNat
def ss (m : Word) : Nat := (m.extractLsb' 8 3).toNat
def aType (m : Word) : Nat := (m.extractLsb' 11 4).toNat
def ct (m : Word) : Nat := (m.extractLsb' 16 3).toNat
def tri (m : Word) : Bool := m.getLsbD 19
def tck (m : Word) : Nat := (m.extractLsb' 20 2).toNat
def tdg (m : Word) : Int := (m.extractLsb' 22 10).toInt
/-- Whether A and B hold residues. -/
def residue (m : Word) : Bool := aType m == 3 || aType m == 4
/-- The fields that a product reads are not reserved (R149, R159). -/
def productOk (m : Word) : Bool :=
  decide (aType m ≤ 4 ∧ ct m ≤ 1) && (ct m == 0 || residue m) && (residue m || decide (ss m ≤ 3))
/-- The fields that MMA reads are not reserved (R149). -/
def ok (m : Word) : Bool := productOk m && mc m != 3 && nc m != 0
def rows (m : Word) : Nat := 16 * 2 ^ mc m
def cols (m : Word) : Nat := 16 * nc m
/-- The packing factor P (R146). -/
def pack (m : Word) : Nat := match aType m with
  | 2 => 1
  | 4 => 4
  | _ => 2
/-- K (R146). -/
def inner (m : Word) : Nat := 8 * pack m
end Mm0

/-! ## One output element -/

namespace Dot

/-- The floating format of an AT code. -/
def fmt (at' : Nat) : FFmt := match at' with
  | 0 => .bf16
  | 1 => .f16
  | _ => .f32

def ofF32 (n : Nat) : FVal := FVal.ofBits .f32 false n

/-- Round of an exact sum: f32, RNE (R141). -/
def roundSum (l : List FVal) : Nat × Flags := Fp.finish .exact .f32 (FVal.sum .rne l)

/-- SEQ (R141). -/
def seq (c : Nat) (ps : List FVal) : Nat × Flags :=
  ps.foldl (fun s p => let r := roundSum [ofF32 s.1, p]; (r.1, s.2 ||| r.2)) (c, 0)

/-- One level of TREE (R141). -/
def pairs : List FVal → List FVal × Flags
  | a :: b :: r =>
    let s := roundSum [a, b]
    let t := pairs r
    (ofF32 s.1 :: t.1, s.2 ||| t.2)
  | l => (l, 0)

/-- TREE (R141). -/
def tree (c : Nat) : Nat → List FVal → Nat × Flags
  | 0, _ => (c, 0)
  | fuel + 1, ps =>
    match ps with
    | [] => (c, 0)
    | [t] => roundSum [ofF32 c, t]
    | ps =>
      let l := pairs ps
      let r := tree c fuel l.1
      (r.1, l.2 ||| r.2)

/-- BLK4 (R141). -/
def blocks (c : Nat) : Nat → List FVal → Nat × Flags
  | 0, _ => (c, 0)
  | fuel + 1, ps =>
    match ps with
    | [] => (c, 0)
    | ps =>
      let run := roundSum (ps.take 4)
      let s := roundSum [ofF32 c, ofF32 run.1]
      let r := blocks s.1 fuel (ps.drop 4)
      (r.1, run.2 ||| s.2 ||| r.2)

/-- A floating dot product added to C under a summation shape (R141, R142). -/
def float (ss : Nat) (f : FFmt) (c : Nat) (as bs : List Nat) : Nat × Flags :=
  let ps := (as.zip bs).map fun x => FVal.mul (FVal.ofBits f false x.1) (FVal.ofBits f false x.2)
  let vs := ps.map (·.1)
  let r := match ss with
    | 0 => roundSum (ofF32 c :: vs)
    | 1 => seq c vs
    | 2 => tree c (vs.length + 1) vs
    | _ => blocks c (vs.length + 1) vs
  (r.1, ps.foldl (fun fl p => fl ||| p.2) r.2)

/-- M5, the product of channels 32, 31, 37, 41 and 43 (R138). -/
def m5 : Int := 64709152

/-- The value that the array reconstructs from a true sum, and whether channel 47 disagrees (R138). -/
def reconstruct (s : Int) : Int × Bool :=
  let r := s % m5
  let v := if r < m5 / 2 then r else r - m5
  (v, v % 47 != s % 47)

/-- The sum of the products of decoded residues; none where one is poisoned (R140). -/
def residueSum (rn16 : Bool) : List Nat → List Nat → Option Int
  | a :: as, b :: bs =>
    match Residue.dec rn16 a, Residue.dec rn16 b, residueSum rn16 as bs with
    | some x, some y, some s => some (x * y + s)
    | _, _, _ => none
  | _, _ => some 0

/-- A residue dot product (R137 to R140). That the integer 0 counts as +0 where the sign of an exact zero result
hangs on it is the model's choice (R139; log 43). -/
def residue (rn16 : Bool) (ct mm2 c : Nat) (as bs : List Nat) : Nat × Flags :=
  match residueSum rn16 as bs with
  | none => (if ct = 0 then FFmt.f32.nanBits else 2 ^ 31, Flags.poison)
  | some s =>
    if ct = 0 then
      let r := reconstruct s
      let p := FVal.mul (Fp.ofInt r.1) (ofF32 mm2)
      let t := FVal.sum .rne [p.1, ofF32 c]
      let q := Fp.finish .exact .f32 (t.1, t.2 ||| p.2)
      (q.1, q.2 ||| Flags.when r.2 Flags.rno)
    else
      let r := reconstruct (s + Elem.value true 32 c)
      (Elem.wrap 32 r.1, Flags.when r.2 Flags.rno)

/-- Masked (R150). -/
def masked (mm0 : Word) (mm1 c : Nat) : Nat :=
  match Mm0.tck mm0 with
  | 0 => c
  | 1 => 0
  | 2 => if Mm0.ct mm0 = 0 then 0xFF800000 else 2 ^ 31
  | _ => mm1

/-- Element (i, j) of a product: from row i of A, column j of B and C(i, j) (R149). -/
def element (mm0 mm1 mm2 : Word) (i j c : Nat) (as bs : List Nat) : Nat × Flags :=
  if Mm0.tri mm0 && decide (Mm0.tdg mm0 < (j : Int) - i) then (masked mm0 mm1.toNat c, 0)
  else if Mm0.residue mm0 then residue (Mm0.aType mm0 == 3) (Mm0.ct mm0) mm2.toNat c as bs
  else float (Mm0.ss mm0) (fmt (Mm0.aType mm0)) c as bs

end Dot

/-! ## Fragments (R147, R148) -/

/-- The registers of the C, A and B fragments: base and count. -/
structure Fragments where
  c : Nat × Nat
  a : Nat × Nat
  b : Nat × Nat

def fragments (w : Nat) (m : Word) (d a b : Reg) : Fragments where
  c := (d.toNat, Mm0.rows m * Mm0.cols m / w)
  a := (a.toNat, 8 * Mm0.rows m / w)
  b := (b.toNat, 8 * Mm0.cols m / w)

/-- Whether two ranges of registers share one. -/
def shareReg (x y : Nat × Nat) : Bool := decide (x.1 < y.1 + y.2 ∧ y.1 < x.1 + x.2)

/-- The rules of R148. -/
def Fragments.ok (f : Fragments) (nregs : Nat) : Bool :=
  decide (f.c.2 ≤ 128 ∧ f.c.1 + f.c.2 ≤ nregs ∧ f.a.1 + f.a.2 ≤ nregs ∧ f.b.1 + f.b.2 ≤ nregs) &&
  !shareReg f.c f.a && !shareReg f.c f.b && !shareReg f.a f.b

/-- Element `t` of packed index `p` of a fragment with a base (R147). -/
def Group.packed (g : Group) (m : Word) (base p t : Nat) : Nat :=
  let bits := 32 / Mm0.pack m
  (g.reg (base + p / g.width) (p % g.width)).toNat / 2 ^ (bits * t) % 2 ^ bits

/-- The K elements of row (or column) `i` of a packed fragment. -/
def Group.packedRow (g : Group) (m : Word) (base i : Nat) : List Nat :=
  (List.range (Mm0.inner m)).map fun k => g.packed m base (8 * i + k / Mm0.pack m) (k % Mm0.pack m)

/-- The new C fragment: register, lane, value and flags of each element in order (R147, R149). -/
def Group.product (g : Group) (m : Word) (f : Fragments) : List (Nat × Nat × Nat × Flags) :=
  let n := Mm0.cols m
  (List.range (Mm0.rows m * n)).map fun e =>
    let i := e / n
    let j := e % n
    let r := f.c.1 + e / g.width
    let l := e % g.width
    let x := Dot.element m g.modes.mm1 g.modes.mm2 i j (g.reg r l).toNat (g.packedRow m f.a.1 i) (g.packedRow m f.b.1 j)
    (r, l, x.1, x.2)

/-- MMA and MMAR (R149, R383); `keep` says that the A fragment stays latched (R151). A product whose A is
latched does not read it again, so that a load under way into A does not hold it (R384); the registers
are read as they stood at the latch, since a write of one of them drops it. -/
def matrix (keep : Bool) (d a b : Reg) (s : State) : Out :=
  checked s (fun _ => Needs.regs []) fun c =>
    let m := c.g.modes.mm0
    let f := fragments c.g.width m d a b
    let idle := (List.range c.g.width).filter fun l => !c.lanes.contains l
    let latched := c.g.mmar == some f.a
    let busy (o : Op) : Bool :=
      o.writes f.c.1 f.c.2 || (!latched && o.writes f.a.1 f.a.2) || o.writes f.b.1 f.b.2
    if !Mm0.ok m || !f.ok c.g.nregs then trapAll s c .illopnd
    else if !idle.isEmpty then trapLanes s c .illconv idle
    else if (s.opsOf c.slot).any fun p => busy p.2 then stallOn s c busy
    else
      let outs := c.g.product m f
      let fl := outs.foldl (fun (x : Flags) o => x ||| o.2.2.2) 0
      withFlags s c (c.lanes.map fun l => (l, fl)) fun s g =>
        let g := outs.foldl (fun g o => g.setReg o.1 o.2.1 (BitVec.ofNat 32 o.2.2.1)) g
        complete s c { g with mmar := if keep then some f.a else none }

/-- MMA (R149). -/
def execMma (d a b : Reg) (s : State) : Out := matrix false d a b s

/-- MMAR (R151). -/
def execMmar (d a b : Reg) (s : State) : Out := matrix true d a b s

end Sys2Proof.Machine
end

