-- ==== Sys2Proof/Machine/TileValue.lean ====
section
/-!
DEFINITION. What the elements of tile nodes are (R156 to R160): their values from the values of leaves, the
granules that a demand needs (R157, R163), and the conversions of TSTORE (R162).
-/
namespace Sys2Proof.Machine

open Sys2Proof

/-! ## Values (R158, R162) -/

namespace TileFmt

/-- The floating format of a floating tile format. -/
def ffmt : TileFmt → FFmt
  | .bf16 => .bf16
  | .f16 => .f16
  | _ => .f32

/-- The value of a code: exact, or a NaN with RNO for a poisoned residue (R158, R162). -/
def value (f : TileFmt) (code : Nat) : FVal × Flags :=
  match f with
  | .bf16 | .f16 | .f32 => (FVal.ofBits f.ffmt false code, 0)
  | .rn16 | .rn8 => match Residue.dec (f == .rn16) code with
    | some v => (Fp.ofInt v, 0)
    | none => (.nan false, Flags.poison)
  | .i32 => (Fp.ofInt (Elem.value true 32 code), 0)

/-- An input element as f32 (R158). -/
def asF32 (f : TileFmt) (code : Nat) : FVal × Flags :=
  match f with
  | .i32 =>
    let r := (Fp.ofInt (Elem.value true 32 code)).round .f32 .rne false
    (FVal.ofBits .f32 false r.1, r.2)
  | f => f.value code

/-- The element type that has a format's codes. -/
def elemType : TileFmt → ElemType
  | .bf16 => .bf16x2
  | .f16 => .f16x2
  | .f32 => .f32
  | .rn16 => .rn16
  | .rn8 => .rn8
  | .i32 => .i32

/-- A demanded element of format `f` converted to format `dst` (R162). -/
def convert (f dst : TileFmt) (code : Nat) : Nat × Flags :=
  let v := f.value code
  let r := Convert.ofFloat .exact true dst.elemType v.1
  (r.1, r.2 ||| v.2)

end TileFmt

/-- The f32 bits of a value that f32 holds exactly; a signalling NaN stays one. -/
def f32Bits (v : FVal) : Nat :=
  match v with
  | .nan s => if s then 0x7F800001 else FFmt.f32.nanBits
  | v => (v.round .f32 .rne false).1

/-- The functions of TMAP on one f32 value (R158). -/
def tileFn (fn : TileFn) (x : FVal) : Nat × Flags :=
  let special (f : Special.Fn) : Nat × Flags := Special.eval f .exact .f32 (f32Bits x)
  let plain (y : FVal) : Nat × Flags := Fp.finish .exact .f32 (y, Flags.when x.isSignalling Flags.iv)
  match fn with
  | .identity => plain x
  | .relu => if x.isNan then plain x else if FVal.lt (.fin false 0 0) x then plain x else (0, 0)
  | .negate => plain x.negate
  | .absolute => plain (match x with
    | .fin _ m e => .fin false m e
    | .inf _ => .inf false
    | x => x)
  | .exp2 => special .ex2
  | .log2 => special .lg2
  | .tanh => special .tnh
  | .reciprocal => special .rcp
  | .squareRoot => special .sqrt

/-- The reductions of TRED over the values of a row or column (R158). -/
def tileRed (op : TileRed) (xs : List FVal) : Nat × Flags :=
  match xs with
  | [] => (0, 0)
  | x :: r =>
    let start := Fp.finish .exact .f32 (x, Flags.when x.isSignalling Flags.iv)
    r.foldl (fun acc y =>
      let z := match op with
        | .sum => Fp.add .exact .f32 acc.1 (f32Bits y)
        | .max => Fp.minmax true .exact .f32 acc.1 (f32Bits y)
        | .min => Fp.minmax false .exact .f32 acc.1 (f32Bits y)
      (z.1, z.2 ||| acc.2)) start

/-! ## Nodes -/

/-- The key of element (i, j) of an entry in the cache of a demand. -/
def elemKey (e i j : Nat) : Nat := e * 2 ^ 24 + i * 2 ^ 12 + j

/-- Whether a node's elements are read from memory: a leaf or a forced node (R163, R165). -/
def Node.stored (n : Node) : Bool := n.forced.isSome || (match n.op with
  | .desc _ => true
  | _ => false)

/-- Element (i, j) of an entry as its node defines it, and the flags of that one definition; stored
elements come from the cache (R157, R159, R160). -/
def elemAt (t : ThunkTable) (cache : Sparse Nat) : Nat → Nat → Nat → Nat → Nat × Flags
  | 0, _, _, _ => (0, 0)
  | fuel + 1, e, i, j =>
    match t.nodes.find e with
    | none => (0, 0)
    | some n =>
      if n.stored then (cache.get (elemKey e i j) 0, 0)
      else
        let at' (x i j : Nat) : Nat := (elemAt t cache fuel x i j).1
        let fmt (x : Nat) : TileFmt := ((t.nodes.find x).map (·.fmt)).getD .f32
        let size (x : Nat) : Nat × Nat := ((t.nodes.find x).map fun m => (m.rows, m.cols)).getD (0, 0)
        let f32 (x i j : Nat) : FVal × Flags := (fmt x).asF32 (at' x i j)
        match n.op with
        | .desc _ => (0, 0)
        | .view r m => let p := m.apply i j; (at' r p.1 p.2, 0)
        | .mul a b mm0 mm1 mm2 =>
          let ks := List.range (size a).2
          Dot.element mm0 mm1 mm2 i j 0 (ks.map fun k => at' a i k) (ks.map fun k => at' b k j)
        | .add a b =>
          let x := f32 a i j
          let y := f32 b i j
          let r := Fp.finish .exact .f32 (FVal.sum .rne [x.1, y.1])
          (r.1, r.2 ||| x.2 ||| y.2)
        | .map a fn =>
          let x := f32 a i j
          let r := tileFn fn x.1
          (r.1, r.2 ||| x.2)
        | .scl a sc =>
          let x := f32 a i j
          let r := Fp.finish .exact .f32 (FVal.mul x.1 (Dot.ofF32 sc.toNat))
          (r.1, r.2 ||| x.2)
        | .red a col op =>
          let xs := if col then (List.range (size a).1).map fun k => f32 a k j
            else (List.range (size a).2).map fun k => f32 a i k
          let r := tileRed op (xs.map (·.1))
          (r.1, xs.foldl (fun fl x => fl ||| x.2) r.2)

/-- A rectangle of elements: rows from r0 below r1, columns from c0 below c1. -/
structure Rect where
  r0 : Nat
  r1 : Nat
  c0 : Nat
  c1 : Nat
  deriving DecidableEq, Repr

/-- The granule (gi, gj) of a node (R163). -/
def Node.granule (n : Node) (gi gj : Nat) : Rect :=
  { r0 := 32 * gi, r1 := Nat.min n.rows (32 * gi + 32), c0 := 32 * gj, c1 := Nat.min n.cols (32 * gj + 32) }

/-- The granules that a rectangle meets. -/
def Rect.granules (r : Rect) : List (Nat × Nat) :=
  if r.r1 ≤ r.r0 ∨ r.c1 ≤ r.c0 then []
  else (List.range ((r.r1 - 1) / 32 + 1 - r.r0 / 32)).flatMap fun a =>
    (List.range ((r.c1 - 1) / 32 + 1 - r.c0 / 32)).map fun b => (r.r0 / 32 + a, r.c0 / 32 + b)

/-- The elements of a rectangle, row by row. -/
def Rect.elems (r : Rect) : List (Nat × Nat) :=
  (List.range (r.r1 - r.r0)).flatMap fun a => (List.range (r.c1 - r.c0)).map fun b => (r.r0 + a, r.c0 + b)

/-- The rectangle of the root that a view's rectangle reads (R160). -/
def IndexMap.rect (m : IndexMap) (r : Rect) : Rect :=
  let lo := m.apply r.r0 r.c0
  let hi := m.apply (r.r1 - 1) (r.c1 - 1)
  { r0 := lo.1, r1 := hi.1 + 1, c0 := lo.2, c1 := hi.2 + 1 }

/-- What a granule of a node needs of its inputs (R157). -/
def Node.needs (n : Node) (size : Nat → Nat × Nat) (g : Rect) : List (Nat × Rect) :=
  if n.stored then []
  else match n.op with
    | .desc _ => []
    | .view r m => [(r, m.rect g)]
    | .mul a b .. => [(a, { g with c0 := 0, c1 := (size a).2 }), (b, { g with r0 := 0, r1 := (size b).1 })]
    | .add a b => [(a, g), (b, g)]
    | .map a _ => [(a, g)]
    | .scl a _ => [(a, g)]
    | .red a col _ => [(a, if col then { g with r0 := 0, r1 := (size a).1 } else { g with c0 := 0, c1 := (size a).2 })]

/-- The granules that a demand of a rectangle of an entry computes or reads (R163): entry and granule. -/
def demandGranules (t : ThunkTable) : Nat → Nat → Rect → List (Nat × Nat × Nat)
  | 0, _, _ => []
  | fuel + 1, e, r =>
    match t.nodes.find e with
    | none => []
    | some n =>
      let size (x : Nat) : Nat × Nat := ((t.nodes.find x).map fun m => (m.rows, m.cols)).getD (0, 0)
      if n.isView && n.forced.isNone then
        (n.needs size r).flatMap fun p => demandGranules t fuel p.1 p.2
      else
        (r.granules.flatMap fun g =>
          (e, g.1, g.2) :: (n.needs size (n.granule g.1 g.2)).flatMap fun p => demandGranules t fuel p.1 p.2).eraseDups

/-- How deep a thunk table can be. -/
def tableDepth : Nat := 33

end Sys2Proof.Machine
end

