-- ==== Sys2Proof/Machine/Tiles.lean ====
section
/-!
DEFINITION. The tile instructions (R152 to R172, R413 to R417, R421, R422): creating, dropping, storing and
forcing nodes, the progress of a demand granule by granule, and its completion.
-/
namespace Sys2Proof.Machine

open Sys2Proof

/-! ## Creating nodes (R154 to R160, R414, R415) -/

/-- A handle operand: the entry that it names (R154). -/
def Group.entry (g : Group) (h : Dword) : Option Nat := g.thunks.entryOf (h.setWidth 32)

/-- The node of an entry. -/
def Group.node (g : Group) (e : Nat) : Option Node := g.thunks.nodes.find e

/-- Allocate a node and write its handle into every lane of the gang, or trap with THKFULL (R154, R155,
R414). -/
def createNode (s : State) (c : Ctx) (d : Reg) (n : Option Node) : Out :=
  match n with
  | none => trapAll s c .illopnd
  | some n =>
    match c.g.thunks.alloc n with
    | none => trapAll s c .thkfull
    | some (e, t) =>
      let g := { c.g with thunks := t }
      complete s c (g.writeLanes d.toNat 1 ((handleOf (t.gen e) e).setWidth 64) (Group.gangLanes c.gang))

/-- The form of the node-creating instructions: uniform reads of some registers, once where a lane is
active, and the node that the values give. -/
def creates (d : Reg) (opnds : List Opnd) (regs : List Nat) (mk : Ctx → List Dword → Option Node) (s : State) : Out :=
  checked s (fun _ => Needs.regs (.one d :: opnds)) fun c =>
    onceActive s c fun _ =>
      uniform s c (regs.map fun r => ⟨r, 1⟩) fun s c xs => createNode s c d (mk c xs)

/-- A node as it is created. -/
def Node.create (op : NodeOp) (rows cols : Nat) (fmt : TileFmt) (pc : VAddr) : Node :=
  { op := op, rows := rows, cols := cols, fmt := fmt, pc := pc, dropped := false, forced := none }

/-- The registers of a quad. -/
def quadRegs (a : Reg) : List Nat := (List.range 4).map (a.toNat + ·)

/-- The words of a quad among some uniform values. -/
def quadAt (xs : List Dword) (k : Nat) : List Word := (List.range 4).map fun i => (arg xs (k + i)).setWidth 32

/-- TDESC (R152, R153, R157). -/
def execTdesc (d a : Reg) (s : State) : Out :=
  creates d [.four a] (quadRegs a) (fun c xs =>
    (readTileDesc (quadAt xs 0)).map fun t => Node.create (.desc t) t.rows t.cols t.fmt c.pc) s

/-- Whether a node may be an input of TMUL (R159). -/
def mulInput (mm0 : Word) (n : Node) : Bool :=
  match Mm0.aType mm0 with
  | 0 => n.fmt == .bf16
  | 1 => n.fmt == .f16
  | 2 => n.fmt == .f32
  | 3 => n.fmt == .rn16
  | 4 => n.fmt == .rn8
  | _ => false

/-- TMUL (R157, R159). -/
def execTmul (d a b : Reg) (s : State) : Out :=
  creates d [.one a, .one b] [a.toNat, b.toNat] (fun c xs =>
    match c.g.entry (arg xs 0), c.g.entry (arg xs 1) with
    | some x, some y =>
      match c.g.node x, c.g.node y with
      | some n, some m =>
        let mm := c.g.modes
        if n.cols = m.rows ∧ mulInput mm.mm0 n ∧ mulInput mm.mm0 m ∧ Mm0.productOk mm.mm0 then
          some (Node.create (.mul x y mm.mm0 mm.mm1 mm.mm2) n.rows m.cols (if Mm0.ct mm.mm0 = 0 then .f32 else .i32) c.pc)
        else none
      | _, _ => none
    | _, _ => none) s

/-- TADD (R157). -/
def execTadd (d a b : Reg) (s : State) : Out :=
  creates d [.one a, .one b] [a.toNat, b.toNat] (fun c xs =>
    match c.g.entry (arg xs 0), c.g.entry (arg xs 1) with
    | some x, some y =>
      match c.g.node x, c.g.node y with
      | some n, some m =>
        if n.rows = m.rows ∧ n.cols = m.cols then some (Node.create (.add x y) n.rows n.cols .f32 c.pc) else none
      | _, _ => none
    | _, _ => none) s

/-- A node with one input: from the input's entry and node. -/
def Group.unary (g : Group) (h : Dword) (k : Nat → Node → Option Node) : Option Node :=
  (g.entry h).bind fun e => (g.node e).bind fun n => k e n

/-- TMAP (R157). -/
def execTmap (d a : Reg) (fn : TileFn) (s : State) : Out :=
  creates d [.one a] [a.toNat] (fun c xs => c.g.unary (arg xs 0) fun e n =>
    some (Node.create (.map e fn) n.rows n.cols .f32 c.pc)) s

/-- TSCL (R415). -/
def execTscl (d a b : Reg) (s : State) : Out :=
  creates d [.one a, .one b] [a.toNat, b.toNat] (fun c xs => c.g.unary (arg xs 0) fun e n =>
    some (Node.create (.scl e ((arg xs 1).setWidth 32)) n.rows n.cols .f32 c.pc)) s

/-- TRED (R157). -/
def execTred (d a : Reg) (col : Bool) (op : TileRed) (s : State) : Out :=
  creates d [.one a] [a.toNat] (fun c xs => c.g.unary (arg xs 0) fun e n =>
    some (Node.create (.red e col op) (if col then 1 else n.rows) (if col then n.cols else 1) .f32 c.pc)) s

/-- A view of a node: the map into its root (R160). -/
def Group.mapped (g : Group) (e rows cols : Nat) (n : Node) (m : IndexMap) (pc : VAddr) : Node :=
  let r := g.thunks.root e
  Node.create (.view r.1 (r.2.after m)) rows cols n.fmt pc

/-- TTRN (R157, R160). -/
def execTtrn (d a : Reg) (s : State) : Out :=
  creates d [.one a] [a.toNat] (fun c xs => c.g.unary (arg xs 0) fun e n =>
    some (c.g.mapped e n.cols n.rows n { m00 := 0, m01 := 1, o0 := 0, m10 := 1, m11 := 0, o1 := 0 } c.pc)) s

/-- A word with nothing above bit 11. -/
def low12 (w : Word) : Option Nat := if w.extractLsb' 12 20 = 0 then some w.toNat else none

/-- TSLC (R157, R160). -/
def execTslc (d a b : Reg) (s : State) : Out :=
  creates d [.one a, .four b] (a.toNat :: quadRegs b) (fun c xs => c.g.unary (arg xs 0) fun e n =>
    let q := quadAt xs 1
    match low12 (q.getD 0 0), low12 (q.getD 1 0), quadShape (q.getD 2 0) with
    | some r0, some c0, some (rows, cols) =>
      if q.getD 3 0 = 0 ∧ r0 + rows ≤ n.rows ∧ c0 + cols ≤ n.cols then
        some (c.g.mapped e rows cols n { m00 := 1, m01 := 0, o0 := r0, m10 := 0, m11 := 1, o1 := c0 } c.pc)
      else none
    | _, _, _ => none) s

/-- TBCAST (R157, R160). -/
def execTbcast (d a b : Reg) (s : State) : Out :=
  creates d [.one a, .four b] (a.toNat :: quadRegs b) (fun c xs => c.g.unary (arg xs 0) fun e n =>
    let q := quadAt xs 1
    match quadShape (q.getD 2 0) with
    | some (rows, cols) =>
      if q.getD 0 0 = 0 ∧ q.getD 1 0 = 0 ∧ q.getD 3 0 = 0 ∧
          (n.rows = rows ∨ n.rows = 1) ∧ (n.cols = cols ∨ n.cols = 1) then
        let m : IndexMap := { m00 := if 1 < n.rows then 1 else 0, m01 := 0, o0 := 0,
                              m10 := 0, m11 := if 1 < n.cols then 1 else 0, o1 := 0 }
        some (c.g.mapped e rows cols n m c.pc)
      else none
    | none => none) s

/-- TDROP (R161, R416). -/
def execTdrop (a : Reg) (s : State) : Out :=
  checked s (fun _ => Needs.regs [.one a]) fun c =>
    onceActive s c fun _ =>
      uniform s c [.one a] fun s c xs =>
        match c.g.entry (arg xs 0) with
        | none => trapAll s c .illopnd
        | some e =>
          let t := { c.g.thunks with nodes := c.g.thunks.nodes.update e fun n => { n with dropped := true } }
          completeOnly ((s.setGroup c.slot { c.g with thunks := t }).sweep c.slot) c

/-! ## Demands -/

/-- The control word of a TSTORE: bits [31:5] zero, an assigned scope, at most TEAM for scratch (R162). -/
def storeScope (ctl : Word) (scr : Bool) : Option Scope :=
  if ctl.extractLsb' 5 27 ≠ 0 then none
  else (Scope.ofCode (ctl.extractLsb' 0 3)).filter fun sc => !(scr && wideScope sc)

/-- TSTORE (R162, R166 to R168, R421). -/
def execTstore (a b v : Reg) (s : State) : Out :=
  checked s (fun _ => Needs.regs [.one a, .four b, .one v]) fun c =>
    onceActive s c fun _ =>
      uniform s c ((a.toNat :: (quadRegs b ++ [v.toNat])).map fun r => ⟨r, 1⟩) fun s c xs =>
        let ctl : Word := (arg xs 5).setWidth 32
        match c.g.entry (arg xs 0), readTileDesc (quadAt xs 1) with
        | some e, some t =>
          match c.g.node e, storeScope ctl t.scr with
          | some n, some sc =>
            let det := Gs.det c.g.modes.gs
            if t.stride < t.cols ∨ t.rows ≠ n.rows ∨ t.cols ≠ n.cols then trapAll s c .illopnd
            else if accessHeld s c || (t.scr && scratchHeld s c) ||
                scratchBehind s c.slot (sourceRanges c.g.thunks e) || (!det && ctl.getLsbD 3 && !s.readsFixed c.slot) then
              stallHere s c
            else withAliases s c [{ scr := t.scr, addr := t.base, len := t.span }] fun _ =>
              let s := if !det && ctl.getLsbD 3 then s.acquire c.slot sc else s
              let (id, s) := s.fresh
              completeOnly (s.putOp id (some { Op.start c .tstore c.flagB with
                rel := if ctl.getLsbD 4 then some sc else none
                tile := some { entry := e, dest := some t, spill := none, ctl := ctl, forStore := false, done := 0,
                               cache := [], flags := 0, begun := 0 } })) c
          | _, _ => trapAll s c .illopnd
        | _, _ => trapAll s c .illopnd

/-- TFORCE: of a node that is forced, done at once; of one whose force is under way, done with it; else
a new force of the node or its root (R165, R417). -/
def execTforce (a : Reg) (s : State) : Out :=
  checked s (fun _ => Needs.regs [.one a]) fun c =>
    onceActive s c fun _ =>
      uniform s c [.one a] fun s c xs =>
        match c.g.entry (arg xs 0) with
        | none => trapAll s c .illopnd
        | some h =>
          let e := (c.g.thunks.root h).1
          match c.g.node e with
          | none => trapAll s c .illopnd
          | some n =>
            if n.forced.isSome then completeOnly s c
            else if accessHeld s c || scratchBehind s c.slot (sourceRanges c.g.thunks e) then stallHere s c
            else if s.forcing c.slot e then
              let (id, s) := s.fresh
              let o := forceOp (Op.start c .tforce c.flagB) e 0 false
              completeOnly (s.putOp id (some { o with tile := o.tile.map fun j => { j with spill := none } })) c
            else match s.startForce c.slot (Op.start c .tforce c.flagB) false e with
              | some s => completeOnly s c
              | none =>
                .next (s.raise c.slot { TrapInfo.at c.pc c.gang .thkfull (c.g.execLanes c.gang) with
                  node := handleOf (c.g.thunks.gen e) e })

/-! ## The progress of a demand (R163 to R165) -/

/-- The descriptor that a stored node is read through: its own, or that of its spill copy (R165). -/
def storedDesc (l : Desc) (g : Group) (n : Node) : Option TileDesc :=
  match n.forced with
  | some off => some { base := spillBase l g + off, scr := false, stride := n.cols, rows := n.rows, cols := n.cols,
                       fmt := n.fmt }
  | none => match n.op with
    | .desc t => some t
    | _ => none

/-- Where a demand writes: its destination, or the spill space of the node it forces (R162, R165). -/
def demandDesc (l : Desc) (g : Group) (j : TileJob) (n : Node) : Option TileDesc :=
  match j.dest with
  | some t => some t
  | none => j.spill.map fun off =>
      { base := spillBase l g + off, scr := false, stride := n.cols, rows := n.rows, cols := n.cols, fmt := n.fmt }

/-- The place of element (i, j) of a descriptor, or its fault: translation, the page's format and whether its
address can be reached, or the scratch bound (R145, R153, R169, R317). -/
def tileLoc (s : State) (o : Op) (g : Group) (t : TileDesc) (acc : Access) (use i j : Nat) : Except (Cause × Nat) Loc :=
  let a := t.addr i j
  if t.scr && decide (s.scratchBound g < a + t.fmt.size) then .error (.illopnd, a)
  else match engineLoc s o g t.scr true (fun f => f == 0 || t.fmt.efmt == some f) acc a use with
    | .error e => .error (e, a)
    | .ok l => .ok l

/-- Whether an element at a place is poisoned (R324). -/
def elemPoison (s : State) (g : Group) (m : ReadMode) (n : Nat) (l : Loc) : Bool :=
  if l.scr then s.scratchPoison g l.addr n
  else (if m.view then s.detView g else s.mem).poisoned l.addr n

/-- The size of the page that an element of a descriptor lies on; 64 KiB where nothing translates it, and the
element alone in scratch. -/
def pageOf (s : State) (o : Op) (g : Group) (t : TileDesc) (use a : Nat) : Nat :=
  if t.scr then t.fmt.size
  else match translateVa s o.core (s.rootOf g.launch) (a % 2 ^ 52) use with
    | .ok x => leafSize x.level
    | .error _ => 2 ^ 16

/-- Keep the fault with the lower address. -/
def EngineFault.lower (a b : EngineFault) : EngineFault := if b.va < a.va then b else a

/-- The places of some elements of a granule, or the first fault by address: it reports the lowest address among
those elements `es` of the granule that lie on the failing page, whether or not they would have passed (R310).
`reads` is how a read reads, none for a write. -/
def tileLocs (s : State) (o : Op) (g : Group) (t : TileDesc) (reads : Option ReadMode) (es todo : List (Nat × Nat)) :
    Except EngineFault (List Loc) :=
  let fault (cause : Cause) (a k : Nat) : Except EngineFault Loc := .error { cause := cause, addr := a, va := a, use := k }
  let all := todo.mapIdx fun k e =>
    match tileLoc s o g t (if reads.isSome then .read else .write) k e.1 e.2 with
    | .ok l => if reads.any fun m => elemPoison s g m t.fmt.size l then fault .memerr (t.addr e.1 e.2) k else .ok l
    | .error f => fault f.1 f.2 k
  let bad : List EngineFault := all.filterMap fun r => match r with
    | .error f => some f
    | .ok _ => none
  match bad with
  | f :: fs =>
    let low := fs.foldl EngineFault.lower f
    let page := pageOf s o g t low.use low.va
    let same := (es.map fun e => t.addr e.1 e.2).filter fun a => a / page == low.va / page
    .error { low with addr := same.foldl Nat.min low.va }
  | [] => .ok (all.filterMap Except.toOption)

/-- Those of some elements that a turn works on: all of them, or one. -/
def pickElems {α : Type} (elem : Option Nat) (xs : List α) : List α :=
  match elem with
  | none => xs
  | some k => (xs[k % Nat.max 1 xs.length]?).toList

/-- How the tile engine reads the elements of a stored node (R166, R417). -/
def Group.tileMode (g : Group) (n : Node) (keeps reads : Nat) : ReadMode :=
  { view := Gs.det g.modes.gs && n.forced.isNone, keeps := keeps, reads := reads }

/-- Read one element of a stored node into the cache of a demand (R163, R223); nothing where it is read already. -/
def State.readElem (s : State) (id : Nat) (g : Group) (e : Nat) (t : TileDesc) (m : ReadMode)
    (p : (Nat × Nat) × Loc) : State :=
  let key := elemKey e p.1.1 p.1.2
  match s.op id with
  | some o => (match o.tile with
    | some j =>
      let s := if t.scr then s else s.misuse g.launch [t.addr p.1.1 p.1.2]
      match engineRead s id key o g m [(p.2, t.fmt.size)] with
      | (none, s) => s
      | (some r, s) =>
        let bytes := if t.scr then r.1 else s.seenBytes g.launch (t.addr p.1.1 p.1.2) r.1
        (s.putOp id (some { o with tile := some { j with cache := j.cache.put key (some (leNat bytes)) } })).changed
    | none => s)
  | none => s

/-- A granule of a demand is no longer in progress. -/
def TileJob.ended (j : TileJob) (k : Nat) : TileJob :=
  { j with begun := if j.begun.testBit k then j.begun - 2 ^ k else j.begun }

/-- A granule of a demand meets a fault: it goes no further, and the demand is suspended (R169). -/
def State.stopGranule (s : State) (id k : Nat) (o : Op) (f : EngineFault) (npc : VAddr) (node : Word) : State :=
  s.suspend id { o with tile := o.tile.map (·.ended k) } f.cause f.addr npc node

/-- Read elements that granule `k` of a demand needs of a granule of a stored node, or suspend the demand (R163,
R169). -/
def State.readGranule (s : State) (id k : Nat) (o : Op) (j : TileJob) (g : Group) (e : Nat) (n : Node) (t : TileDesc)
    (r : Rect) (elem : Option Nat) (keeps reads : Nat) : State :=
  let m := g.tileMode n keeps reads
  let todo := pickElems elem (r.elems.filter fun p => (j.cache.find (elemKey e p.1 p.2)).isNone)
  match tileLocs s o g t (some m) r.elems todo with
  | .error f => (s.noteLostOf o g t.scr f).stopGranule id k o f n.pc (handleOf (g.thunks.gen e) e)
  | .ok ls =>
    if s.engineBehind id o g false ls || (!m.view && s.locsHeld ls) then s
    else (todo.zip ls).foldl (fun s p => s.readElem id g e t m p) s

/-- The bit of an element of a node in what a demand has done. -/
def Node.elemBit (n : Node) (p : Nat × Nat) : Nat := p.1 * n.cols + p.2

/-- Every element of a node. -/
def Node.whole (n : Node) : Rect := { r0 := 0, r1 := n.rows, c0 := 0, c1 := n.cols }

/-- The elements of a node that a granule of its root supplies, where `m` maps it into the root (R160, R163). -/
def Node.targets (n : Node) (m : IndexMap) (r : Rect) : List (Nat × Nat) :=
  n.whole.elems.filter fun p =>
    let q := m.apply p.1 p.2
    decide (r.r0 ≤ q.1 ∧ q.1 < r.r1 ∧ r.c0 ≤ q.2 ∧ q.2 < r.c1)

/-- Whether a demand has written every one of some elements. -/
def TileJob.wrote (j : TileJob) (n : Node) (targets : List (Nat × Nat)) : Bool :=
  targets.all fun p => j.done.testBit (n.elemBit p)

/-- Compute a granule of the demanded node, or of its root, and write elements that it supplies, each as one
write of its own (R162, R163, R422): the flags are those of every granule computed for it, and of the
conversions. A TFORCE moves the code of a leaf to its spill copy as it is, a poisoned residue code too, and that
raises no RNO: it is a copy of memory (R417), and no arithmetic meets the poison. The spec names no flag there, which
R135 and R164 leave to what uses the code: the model's choice (log 40). -/
def State.writeGranule (s : State) (id k : Nat) (o : Op) (j : TileJob) (g : Group) (n : Node) (t : TileDesc)
    (targets : List (Nat × Nat)) (elem : Option Nat) (computed : List (Nat × Nat × Nat)) (holds : Nat) : State :=
  let todo := pickElems elem (targets.filter fun p => !j.done.testBit (n.elemBit p))
  let buffered := Gs.det g.modes.gs && j.dest.isSome
  match tileLocs s o g t none targets todo with
  | .error f =>
    let e := (g.thunks.root j.entry).1
    (s.noteLostOf o g t.scr f).stopGranule id k o f (((g.node e).map (·.pc)).getD n.pc) (handleOf (g.thunks.gen e) e)
  | .ok ls =>
    if (!buffered && s.locsHeld ls) || s.engineBehind id o g true ls then s else
    let s := if t.scr then s else s.misuse g.launch (todo.map fun e => t.addr e.1 e.2)
    let vals := todo.map fun p =>
      let x := elemAt g.thunks j.cache tableDepth j.entry p.1 p.2
      if j.dest.isSome then n.fmt.convert t.fmt x.1 else (x.1, 0)
    let fl := computed.foldl (fun (fl : Flags) q => match g.node q.1 with
      | some m => (m.granule q.2.1 q.2.2).elems.foldl (fun fl p => fl ||| (elemAt g.thunks j.cache tableDepth q.1 p.1 p.2).2) fl
      | none => fl) j.flags
    let fl := vals.foldl (fun fl v => fl ||| v.2) fl
    let s := (ls.zip vals).foldl (fun s p => writeRun s id o buffered false holds p.1 (leBytes t.fmt.size p.2.1)) s
    let j := { j with done := todo.foldl (fun d p => d ||| 2 ^ n.elemBit p) j.done, flags := fl }
    let j := if j.wrote n targets then j.ended k else j
    { s with mem := { s.mem with ops := s.mem.ops.update id fun o => { o with tile := some j } } }.changed

/-- The granules of a demand: those of the node, or of its root that the view meets (R163). -/
def ThunkTable.demandSteps (t : ThunkTable) (e : Nat) (n : Node) : List (Nat × Nat) :=
  ((t.root e).2.rect n.whole).granules

/-- Whether a demand has written every element. -/
def demandDone (j : TileJob) (n : Node) : Bool :=
  if j.dest.isNone && j.spill.isNone then n.forced.isSome
  else j.done + 1 == 2 ^ (n.rows * n.cols)

/-- The elements of a demand that its `k`-th granule supplies (R163). -/
def Group.granuleTargets (g : Group) (j : TileJob) (n : Node) (k : Nat) : List (Nat × Nat) :=
  let root := g.thunks.root j.entry
  match g.node root.1, (g.thunks.demandSteps j.entry n)[k]? with
  | some rn, some step => n.targets root.2 (rn.granule step.1 step.2)
  | _, _ => []

/-- Whether a granule may be worked on: it is not done, and where the demand is suspended it is in progress, as
granules in progress finish and no other is started (R169). -/
def Op.mayWork (o : Op) (g : Group) (j : TileJob) (n : Node) (k : Nat) : Bool :=
  !(demandDone j n || j.wrote n (g.granuleTargets j n k)) && (o.suspended.isNone || j.begun.testBit k)

/-- Read what a granule needs, or compute and write its own elements (R163). -/
def State.workGranule (s : State) (id k : Nat) (o : Op) (j : TileJob) (g : Group) (n : Node) (l : Desc)
    (elem : Option Nat) (keeps reads holds : Nat) : State :=
  let root := g.thunks.root j.entry
  match demandDesc l g j n, g.node root.1, (g.thunks.demandSteps j.entry n)[k]? with
  | some t, some rn, some step =>
    let all := demandGranules g.thunks tableDepth root.1 (rn.granule step.1 step.2)
    let missing := all.find? fun q => match g.node q.1 with
      | some m => m.stored && (m.granule q.2.1 q.2.2).elems.any fun p => (j.cache.find (elemKey q.1 p.1 p.2)).isNone
      | none => false
    match missing with
    | some q =>
      match g.node q.1 with
      | some m => match storedDesc l g m with
        | some t' => s.readGranule id k o j g q.1 m t' (m.granule q.2.1 q.2.2) elem keeps reads
        | none => s
      | none => s
    | none => s.writeGranule id k o j g n t (g.granuleTargets j n k) elem all holds
  | _, _, _ => s

/-- One piece of progress of a demand on one of its granules, of which only some elements are worked on where the
turn names one: elements that the granule needs are read, or its own are computed and written (R163; log 23). The
granule is then in progress, until it is done or meets a fault (R169). -/
def State.stepDemand (s : State) (id k : Nat) (elem : Option Nat) (keeps reads holds : Nat) : State :=
  match s.op id with
  | some o =>
    match o.tile, s.group o.slot with
    | some j, some g =>
      match g.node j.entry, s.launch g.launch with
      | some n, some l =>
        if o.mayWork g j n k then
          let j := { j with begun := j.begun ||| 2 ^ k }
          let o := { o with tile := some j }
          let s' := (s.putOp id (some o)).workGranule id k o j g n l.desc elem keeps reads holds
          if s'.time.changes = s.time.changes then s else s'
        else s
      | _, _ => s
    | _, _ => s
  | none => s

/-- The first granule of a demand that may be worked on. -/
def State.nextGranule (s : State) (o : Op) (j : TileJob) : Nat :=
  match (s.group o.slot).bind fun g => (g.node j.entry).map fun n => (g, n) with
  | some (g, n) => ((List.range (g.thunks.demandSteps j.entry n).length).find? (o.mayWork g j n)).getD 0
  | none => 0

/-- A granule of a demand is worked on until it is done or suspended. -/
def State.granuleWhole (s : State) (id k : Nat) : Nat → State
  | 0 => s
  | fuel + 1 =>
    let s' := s.stepDemand id k none 0 0 0
    if s'.time.changes = s.time.changes then s else s'.granuleWhole id k fuel

/-- A demand of a deterministic group is carried out whole at once, in ascending order, up to a fault, so that
what loads of the group find does not differ between runs (R13, R166, R417; log 23). -/
def State.demandWhole (s : State) (o : Op) (id : Nat) (j : TileJob) : State :=
  match (s.group o.slot).bind fun g => (g.node j.entry).map fun n => (g, n) with
  | some (g, n) =>
    (List.range (g.thunks.demandSteps j.entry n).length).foldl (fun s k => s.granuleWhole id k (2 ^ 20)) s
  | none => s

/-- Whether a demand has nothing left to do: a TFORCE that waits for another's force is done with it, also
where that one has ended without forcing the node (R172). -/
def State.demandOver (s : State) (o : Op) (j : TileJob) (n : Node) : Bool :=
  demandDone j n || (j.dest.isNone && j.spill.isNone && !s.forcing o.slot j.entry)

/-- DEMAND_COMPLETE (R166): every write has been performed; the flags reach GS (R132), a forced node reads
from its spill copy and lets go of its inputs (R165), and what nothing refers to is freed (R161). The flags reach GS
here, when the TSTORE or TFORCE completes, as R132 has it, and not when the group observes the completion, of which
R397 and R417 speak: the model's choice (log 40). -/
def execDemandComplete (op : Nat) (s : State) : Out :=
  match s.op op with
  | some o =>
    match o.tile, s.group o.slot with
    | some j, some g =>
      match g.node j.entry with
      | some n =>
        if s.demandOver o j n && o.suspended.isNone && !s.inFlight op && s.engineReleased op o then
          let s := s.modGroup o.slot fun g =>
            let g := g.raiseFlags j.flags
            match j.spill with
            | some off => { g with thunks := { g.thunks with
                nodes := g.thunks.nodes.update j.entry fun n => { n with forced := some off } } }
            | none => g
          .next ((s.engineDone op o).sweep o.slot).changed
        else .next s
      | none => .next ((s.dropReads op).finishOp op).changed
    | _, _ => .next s
  | none => .next s

end Sys2Proof.Machine
end

