-- ==== Sys2Proof/Machine/Background.lean ====
section
/-!
DEFINITION. Progress that no row of the table stands for: copies and demands, operators that arrive at
their slices, L2 (R194, R199), TLBs (R215), tinkers (R270), memory outside the device, and start-up (R322).
-/
namespace Sys2Proof.Machine

open Sys2Proof

namespace State

/-- An operator arrives at its home slice in its turn (R226, R261), unless its way has gone (R317). -/
def operatorArrives (s : State) (req : Nat) : State :=
  match s.servable req with
  | some r =>
    (match r.kind with
     | .mop .. => if s.deliverable r.addr then ((s.dropReq req).mopArrive r true).changed else s.failReq req r
     | _ => s)
  | none => s


/-- The oldest queued write-back reaches HBM (R194). -/
def landWriteBack (s : State) : State :=
  match s.mem.queue with
  | [] => s
  | w :: ws => { s with mem := { s.mem with
      bytes := w.2.foldl (fun b x => Sparse.set b x.1 0 x.2) s.mem.bytes, queue := ws } }

/-- L2 evicts a region (R199), once its invalidations can arrive. -/
def evictL2 (s : State) (region : Nat) : State := if s.invalArrives region then s.dropL2 region else s

/-- A walk of a block fills a TLB with the leaf of an address (R215). -/
def fillTlb (s : State) (block root va : Nat) : State :=
  match walk s block root va with
  | .ok (level, leaf, _) =>
    let e : TlbEntry := { secure := s.secureBlock block, root := root, level := level, page := va / leafSize level, leaf := leaf }
    if s.mem.tlb.contains e then s else { s with mem := { s.mem with tlb := s.mem.tlb ++ [e] } }
  | .error _ => s

/-- A TLB replaces its oldest entry (R215). -/
def dropTlb (s : State) : State := { s with mem := { s.mem with tlb := s.mem.tlb.drop 1 } }

/-- The host or a peer writes memory outside the device (R26). -/
def writeOutside (s : State) (addr : Nat) (bytes : List Byte) : State :=
  let outside (a : Nat) : Bool := match regionOf a with
    | .host => true
    | .peer d _ => d != s.sys.device.toNat
    | _ => false
  if (List.range bytes.length).all fun i => outside (addr + i) then { s with mem := s.mem.write addr bytes } else s

/-- The steward sets PREEMPT_DEFER within its range (R306). -/
def setDefer (s : State) (clk : Nat) : State :=
  if 4096 ≤ clk ∧ clk ≤ 2 ^ 24 then { s with sys := { s.sys with defer := clk } } else s

/-- The numbers of the debug registers (R77, R307, R308). -/
def isDebugReg (num : Nat) : Bool := decide (0x40 ≤ num ∧ num ≤ 0x48 ∨ 0x50 ≤ num ∧ num ≤ 0x54)

/-- The steward sets a debug register of a group in its saved context (R307). -/
def setDebug (s : State) (team grpid num : Nat) (x : Word) : State :=
  if isDebugReg num then
    { s with teams := s.teams.update team fun t => { t with
        saved := t.saved.map fun g => if g.ident.grpid == grpid then { g with dbg := g.dbg.set num x } else g } }
  else s

/-- One turn of such progress. -/
def progress (s : State) : Background → State
  | .copyBytes op chunk keeps reads holds => s.copyChunk op chunk keeps reads holds
  | .granule op granule elem keeps reads holds => s.stepDemand op granule elem keeps reads holds
  | .mopArrive req => s.operatorArrives req
  | .portReply op => s.portReply op
  | .queueWriteBack sector => s.queueWriteBack sector
  | .landWriteBack => s.landWriteBack
  | .evictL2 region => s.evictL2 region
  | .fillTlb block root va => s.fillTlb block root va
  | .dropTlb => s.dropTlb
  | .tinkerStep slice => s.stepTinker slice
  | .outside addr bytes => s.writeOutside addr bytes
  | .startUp ok cached => s.startUp ok cached
  | .setDefer clk => s.setDefer clk
  | .setDebug team grpid num x => s.setDebug team grpid num x

end State

end Sys2Proof.Machine
end

