-- ==== Sys2Proof/Machine/Barriers.lean ====
section
/-!
DEFINITION. BAR and BARC (R300, R301, R336): the checks of their masks and the arrival of strands. The
arrival of a group and the completion of a phase are in Sync.
-/
namespace Sys2Proof.Machine

open Sys2Proof

/-- The barrier that a wait names, of the group's team or cluster. -/
def State.barrierOf (s : State) (g : Group) : Block → Barrier
  | .bar i => s.teamBarrier g i.toNat
  | .barc i => (((s.team g.teamKey).bind fun t => s.cluster t.cluster).map fun c =>
      c.bars.get i.toNat Barrier.closed).getD Barrier.closed
  | _ => Barrier.closed

def State.setBarrier (s : State) (g : Group) (w : Block) (b : Barrier) : State :=
  match w with
  | .bar i => { s with teams := s.teams.update g.teamKey fun t => { t with bars := t.bars.put i.toNat (some b) } }
  | .barc i =>
    match s.team g.teamKey with
    | some t => { s with clusters := s.clusters.update t.cluster fun c => { c with bars := c.bars.put i.toNat (some b) } }
    | none => s
  | _ => s

/-- A phase opened with a mask (R301). -/
def Barrier.opened (b : Barrier) (mask : Dword) : Barrier :=
  { b with isOpen := true, arr := 0, arrived := [], mask := mask, low := mask.extractLsb' 0 16 }

/-- A barrier after strands with a mask have arrived (R301). -/
def Barrier.joined (b : Barrier) (mask : Dword) : Barrier := if b.isOpen then b else b.opened mask

/-- The checks of R300: a mask outside its range or without the issuer's own bit, a mask that differs
from that of an open phase, and another strand of the group that waits at another barrier. (log 28) -/
def barFault (s : State) (g : Group) (gang : List Nat) (w : Block) (limit own : Nat) (mask : Dword) : Option Cause :=
  if 2 ^ limit ≤ mask.toNat || !mask.getLsbD own then some .illopnd
  else
    let b := s.barrierOf g w
    if b.isOpen && b.mask != mask then some .barmask
    else if g.allStrands.any fun i => !gang.contains i && (match (g.strand i).block with
        | some (.bar j) => w != .bar j
        | some (.barc j) => w != .barc j
        | _ => false) then some .barmask
    else none

/-- The gang's strands wait, one word further. -/
def Group.waitAt (g : Group) (gang : List Nat) (w : Block) : Group :=
  g.modStrands gang fun _ t => { t.advance with block := some w }

/-- BAR and BARC: `n` registers hold the mask. In deterministic operation the arrival is made at the
commit (R292). -/
def barrier (a : Reg) (n : Nat) (w : Block) (limit own : State → Group → Nat) (s : State) : Out :=
  checked s (fun _ => Needs.unguarded [⟨a.toNat, n⟩]) fun c =>
    uniform s c [⟨a.toNat, n⟩] fun s c xs =>
      let mask := arg xs 0
      match barFault s c.g c.gang w (limit s c.g) (own s c.g) mask with
      | some cause => trapAll s c cause
      | none =>
        let g := c.g.waitAt c.gang w
        if Gs.det g.modes.gs then
          endEarly c (retire (s.setGroup c.slot { g with det := { g.det with buffer := g.det.buffer ++ [.arrive w mask] } }) c)
        else
          retire (((s.setGroup c.slot g).setBarrier g w ((s.barrierOf g w).joined mask)).settle c.slot) c

/-- BAR (R300, R301). -/
def execBar (a : Reg) (id : BitVec 4) (s : State) : Out :=
  barrier a 2 (.bar id) (fun s g => ((s.launch g.launch).map (·.desc.groups)).getD 1) (fun _ g => g.ident.grpid) s

/-- BARC (R300, R301). -/
def execBarc (a : Reg) (id : BitVec 4) (s : State) : Out :=
  barrier a 1 (.barc id) (fun s g => ((s.launch g.launch).map fun l => l.desc.cx * l.desc.cy).getD 1)
    (fun _ g => g.ident.rank) s

/-- Strands that stand past a barrier go back to it, and it traps: they do not arrive (R300). -/
def State.refuseArrival (s : State) (k : Nat) (g : Group) (w : Block) : State :=
  let waiting := g.allStrands.filter fun i => (g.strand i).block == some w
  let g' := g.modStrands waiting fun _ t => { t with pc := t.pc - 4, block := none }
  match waiting with
  | [] => s
  | i :: _ =>
    let pc := (g'.strand i).pc
    let gang := waiting.filter fun j => (g'.strand j).pc == pc
    (s.setGroup k g').raise k (TrapInfo.at pc gang .barmask (g'.execLanes gang))

/-- The arrival of a deterministic group's strands at a commit (R292): a mask that has become
different from the phase mask is BARMASK there (log 31). -/
def State.commitArrival (s : State) (k : Nat) (w : Block) (mask : Dword) : State :=
  match s.group k with
  | none => s
  | some g =>
    let b := s.barrierOf g w
    if !g.waits w then s
    else if b.isOpen && b.mask != mask then s.refuseArrival k g w
    else s.setBarrier g w (b.joined mask)

end Sys2Proof.Machine
end

