-- ==== Sys2Proof/Machine/Channels.lean ====
section
/-!
DEFINITION. Dataflow channels (R264 to R267, R346): CHSEND, CHRECV and CHPOLL, the write of a slot and
the landing of a received one.
-/
namespace Sys2Proof.Machine

open Sys2Proof

/-! ## Endpoints -/

/-- A channel instance as a group finds it: its cluster, its declaration and its counts. -/
structure Endpoint where
  cluster : Nat
  index   : Nat
  decl    : ChannelDecl
  chan    : Channel

/-- The instance of a channel in a group's cluster, if its launch declares the channel (R264). -/
def State.endpoint (s : State) (g : Group) (i : Nat) : Option Endpoint :=
  (s.launch g.launch).bind fun l => (l.desc.chans.find i).bind fun d =>
    (s.team g.teamKey).bind fun t => (s.cluster t.cluster).bind fun c =>
      (c.channels.find i).map fun x => { cluster := t.cluster, index := c.index, decl := d, chan := x }

def State.modChannel (s : State) (cluster i : Nat) (f : Channel → Channel) : State :=
  { s with clusters := s.clusters.update cluster fun c => { c with channels := c.channels.update i f } }


/-- The virtual address of the area of channel `i` for the `k`-th cluster (R264). -/
def channelArea (d : Desc) (k i : Nat) : Nat := d.chbase + (16 * (k % Nat.max 1 d.chslots) + i) * 16384

/-- The slot that the `n`-th send or receive of a channel uses (R266). -/
def slotOf (d : ChannelDecl) (n : Nat) : Nat := n % Nat.max 1 d.slots

/-- The area of a channel, checked at one of its slots: local HBM with RD and WR, or the faulting
address (R264, R267, R430). R267 names translation and permission faults; that a FORMAT fault of a page of the
area traps with CHAN too is the model's choice (log 27). -/
def State.channelPhys (s : State) (c : Ctx) (e : Endpoint) (i n : Nat) : Except (Cause × Nat) Phys :=
  match s.launch c.g.launch with
  | none => .error (.perm, 0)
  | some l =>
    let va := channelArea l.desc e.index i + 256 * slotOf e.decl n
    match checkAccess s c.core l.desc.root va .both (fun pa => regionOf pa != .hbm) 0 with
    | .ok p => .ok { p with pa := p.pa - 256 * slotOf e.decl n }
    | .error e => .error (e, va)

/-- The checks 1 to 3 of R267, for a group of a team that may use the channel so. Their traps name the lanes in exec
of the gang in XLM, which R267 does not say: the model's choice (log 38). -/
def withChannel (os : List Opnd) (ch : BitVec 4) (role : ChannelDecl → Nat → Bool) (s : State)
    (k : Ctx → Endpoint → Out) : Out :=
  checked s (fun _ => Needs.regs os) fun c =>
    onceActive s c fun _ =>
      match s.endpoint c.g ch.toNat with
      | none => trapAll s c .chan
      | some e =>
        if !role e.decl c.g.ident.rank || c.g.liveStrands.any (fun i => !c.gang.contains i) then trapAll s c .chan
        else k c e

/-- The trap of a fault on the backing area (R267); an access that comes to nothing is logged (R26, R317). -/
def chanFault (s : State) (c : Ctx) (at' : Cause × Nat) : Out :=
  trapAddr (s.noteFault c.core (s.rootOf c.g.launch) at'.2 0 at'.1) c .chan (c.g.execLanes c.gang) at'.2

/-- The number of a channel, and that of the send or receive, of an operation. -/
def Op.chan (o : Op) : Nat × Nat := o.channel.getD (0, 0)

/-- The operation of a CHSEND or CHRECV: the area's address, and the number of its slot where it is
taken at issue; a deterministic group's is taken at its commit, and `aux` says whether it has been. `count` is the
launch's round at issue, by which sends that wait for a slot go on in order. -/
def channelOp (c : Ctx) (kind : OpKind) (flag : FlagSel) (i n round : Nat) (e : Endpoint) (l : Desc) (p : Phys) : Op :=
  { Op.start c kind flag with
    count := round
    channel := some (i, n), aux := if Gs.det c.g.modes.gs then 0 else 1
    pieces := [Piece.start { lane := 0, va := channelArea l e.index i, phys := p } (4 * c.g.width) []] }

/-! ## The instructions -/

/-- Whether an operation is a send that has not taken its slot, as one of a deterministic group before its commit. -/
def Op.unsent (o : Op) (i : Nat) : Bool := o.kind == .send && o.aux == 0 && o.chan.1 == i

/-- The free count of a channel as a group finds it: for a deterministic group that of the last commit, less its own
sends since then, so that what other groups do in the round does not show (R13, R250, R267; log 27). -/
def State.freeSeen (s : State) (slot : Nat) (g : Group) (e : Endpoint) (i : Nat) : Nat :=
  if Gs.det g.modes.gs then e.chan.free - ((s.opsOf slot).filter fun p => p.2.unsent i).length else e.chan.free

/-- CHSEND: with no free slot it traps or stalls; the send takes the next slot, after its release. It does not
wait for earlier receives, which what it sends may be the condition of (R266, R267, R346; log 27). In
deterministic operation it takes the slot, and the free count falls, at the commit (R267, R292; log 27). -/
def execChsend (a : Reg) (ch : BitVec 4) (s : State) : Out :=
  withChannel [.one a] ch (fun d r => d.source == r) s fun c e =>
    let i := ch.toNat
    if s.freeSeen c.slot c.g e i = 0 then
      if s.rankExited e.cluster e.decl.dest then trapAll s c .chan else blockHere s c
    else match s.channelPhys c e i e.chan.nextSend, s.launch c.g.launch with
      | .error f, _ => chanFault s c f
      | .ok p, some l =>
        if heldBut (fun o => o.kind == .receive) s c then stallHere s c
        else withRelease s c (some .clu) fun _ =>
          let det := Gs.det c.g.modes.gs
          let s := if det then s
            else s.modChannel e.cluster i fun x => { x with free := x.free - 1, nextSend := x.nextSend + 1 }
          let (id, s) := s.fresh
          let s := s.putOp id (some { channelOp c .send none i e.chan.nextSend l.round e l.desc p with
            data := (List.range c.g.width).flatMap fun l => wordBytes (c.g.reg a.toNat l) })
          let r := completeOnly s c
          if det then bufferItem c (.perform id) r else r
      | .ok _, none => trapAll s c .chan

/-- Whether no send can fill a slot (R267, case 5). -/
def State.neverFills (s : State) (cluster i rank n : Nat) (x : Channel) : Bool :=
  s.rankExited cluster rank && decide (x.nextSend ≤ n) &&
  !(s.mem.ops.any fun p => p.2.unsent i && (match s.group p.2.slot with
    | some g => (s.team g.teamKey).map (·.cluster) == some cluster
    | none => false))

/-- CHRECV: it claims the next slot at issue, and lands when that is full (R266, R267, R346; log 27). -/
def execChrecv (d : Reg) (ch : BitVec 4) (s : State) : Out :=
  withChannel [.one d] ch (fun x r => x.dest == r) s fun c e =>
    let i := ch.toNat
    let n := e.chan.nextRecv
    if s.neverFills e.cluster i e.decl.source n e.chan then trapAll s c .chan
    else match s.channelPhys c e i n, s.launch c.g.launch with
      | .error f, _ => chanFault s c f
      | .ok p, some l =>
        let det := Gs.det c.g.modes.gs
        let s := if det then s else s.modChannel e.cluster i fun x => { x with nextRecv := x.nextRecv + 1 }
        let (id, s) := s.fresh
        let s := s.putOp id (some { channelOp c .receive c.flagA i n l.round e l.desc p with
          dst := some d, count := 1, lanes := Group.gangLanes c.gang, acq := some .clu })
        let r := completeOnly s c
        if det then endEarly c (bufferItem c (.perform id) r) else r
      | .ok _, none => trapAll s c .chan

/-- CHPOLL: both counts, and whose channel it is, into every lane of the gang (R266, R346); in deterministic operation
as the group finds them (log 27). -/
def execChpoll (d : Reg) (ch : BitVec 4) (s : State) : Out :=
  withChannel [.one d] ch (fun x r => x.source == r || x.dest == r) s fun c e =>
    let bit (b : Bool) (n : Nat) : Nat := if b then 2 ^ n else 0
    let w := e.chan.full % 128 + 256 * (s.freeSeen c.slot c.g e ch.toNat % 128) +
      bit (e.decl.source == c.g.ident.rank) 16 + bit (e.decl.dest == c.g.ident.rank) 17
    complete s c (c.g.writeLanes d.toNat 1 (BitVec.ofNat 64 w) (Group.gangLanes c.gang))

/-! ## Their events -/

/-- The endpoint of an operation's group. -/
def State.opEndpoint (s : State) (o : Op) : Option Endpoint :=
  (s.group o.slot).bind fun g => s.endpoint g o.chan.1

/-- The physical address of the slot that an operation uses. -/
def Op.slotAddr (o : Op) (e : Endpoint) : Nat := ((o.pieces.head?.map (·.addr)).getD 0) + 256 * slotOf e.decl o.chan.2

/-- The slot write of a CHSEND is performed, and the full count rises (R266); where the destination team has
exited the slot is discarded at once (R267). -/
def State.fillSlot (s : State) (id : Nat) (o : Op) (e : Endpoint) : State :=
  let grain := (o.pieces.head?.map (·.grain)).getD 0
  let s := s.homeWrite (o.slotAddr e) o.data grain [] [] []
  let s := s.modChannel e.cluster o.chan.1 fun x =>
    { x with full := x.full + 1, written := x.written.put o.chan.2 (some o.data) }
  ((s.discardSlots e.cluster).finishOp id).changed

/-- CHANNEL_SLOT_FILL (R266): slots of one region are written in order, as one source's requests to it
arrive (R261). -/
def execChannelSlotFill (op : Nat) (s : State) : Out :=
  match s.op op with
  | some o =>
    match s.opEndpoint o with
    | some e =>
      let a := o.slotAddr e
      let earlier := s.mem.ops.any fun p => decide (p.1 < op) && p.2.kind == .send && p.2.core == o.core && p.2.aux == 1 &&
        (match s.opEndpoint p.2 with
         | some e' => regionBase (p.2.slotAddr e') == regionBase a
         | none => false)
      if o.kind = .send ∧ o.aux = 1 ∧ !earlier ∧ !s.regionHeld a o.data.length then .next (s.fillSlot op o e)
      else .next s
    | none => .next s
  | none => .next s

/-- What a received slot holds: the bytes that were sent, or free bytes where a program has accessed the
area, or memory holds other bytes (R264; log 10). -/
def receivedBytes (s : State) (misused : Bool) (a : Nat) (sent : List Byte) : List Byte :=
  if !misused && s.mem.read a sent.length = sent then sent
  else (List.range sent.length).map (Config.freeByte s.time.tick)

/-- Write every lane its word of a received slot. -/
def Group.landWords (g : Group) (d : Reg) (bytes : List Byte) (lanes : List Nat) : Group :=
  lanes.foldl (fun g l => g.setReg d.toNat l (BitVec.ofNat 32 (leNat ((bytes.drop (4 * l)).take 4)))) g

/-- A full slot lands: the words, the acquire at CLU, and the credit (R266). A poisoned slot leaves the
register and brings MEMERR (R324). -/
def State.landSlot (s : State) (id : Nat) (o : Op) (e : Endpoint) (sent : List Byte) : State :=
  let a := o.slotAddr e
  let bad := s.mem.poisoned a sent.length
  let bytes := receivedBytes s e.chan.misused a sent
  let s := match o.dst with
    | some d => if bad then s else s.modGroup o.slot fun g => g.landWords d bytes o.lanes
    | none => s
  let s := (s.acquire o.slot .clu).modChannel e.cluster o.chan.1 fun x =>
    { x with full := x.full - 1, free := x.free + 1, written := x.written.put o.chan.2 none }
  let ps := o.pieces.map fun q => { q with
    poison := bad, lanes := o.lanes, vaddr := q.vaddr + 256 * slotOf e.decl o.chan.2 }
  ((s.finishOp id).poisonTrap o ps).changed

/-- A receive goes on: it lands, or it traps where its slot can never fill (R266, R267). This late trap names every
lane of the gang in XLM, where the other traps of R267 name the lanes in exec: the model's choice (log 27). -/
def State.receive (s : State) (id : Nat) (o : Op) (e : Endpoint) : State :=
  match e.chan.written.find o.chan.2 with
  | some sent => s.landSlot id o e sent
  | none =>
    if s.neverFills e.cluster o.chan.1 e.decl.source o.chan.2 e.chan then
      (s.finishOp id).raise o.slot { TrapInfo.at o.pc [] .chan [] with lanes := laneMask o.lanes }
    else s

/-- CHANNEL_RECEIVE_LAND (R266): in deterministic operation receives land at commits only (R292). -/
def execChannelReceiveLand (op : Nat) (s : State) : Out :=
  match s.op op with
  | some o =>
    match s.opEndpoint o, s.group o.slot with
    | some e, some g =>
      if o.kind = .receive ∧ o.aux = 1 ∧ !Gs.det g.modes.gs ∧ !s.regionHeld (o.slotAddr e) (4 * g.width) then
        .next (s.receive op o e)
      else .next s
    | _, _ => .next s
  | none => .next s

/-! ## Their part of a commit (R250, R292) -/

/-- The place of a send or receive in the order of its channel, taken at a commit (R292). -/
def State.takeTurn (s : State) (id : Nat) (o : Op) (e : Endpoint) : Op × State :=
  let n := if o.kind = .send then e.chan.nextSend else e.chan.nextRecv
  let o := { o with channel := some (o.chan.1, n), aux := 1 }
  (o, (s.putOp id (some o)).modChannel e.cluster o.chan.1 fun x =>
    if o.kind = .send then { x with nextSend := n + 1, free := x.free - 1 } else { x with nextRecv := n + 1 })

/-- Where a send of a deterministic group stands in the order of its channel: by the round of its issue, the group, and
the order of the group's own (R266, R292; log 27). -/
def State.sendOrder (s : State) (id : Nat) (o : Op) : Nat × Nat × Nat :=
  (o.count, ((s.group o.slot).map (·.ident.global)).getD 0, id)

/-- Whether a place in that order comes before another. -/
def sendsBefore (a b : Nat × Nat × Nat) : Bool :=
  decide (a.1 < b.1 ∨ (a.1 = b.1 ∧ (a.2.1 < b.2.1 ∨ (a.2.1 = b.2.1 ∧ a.2.2 < b.2.2))))

/-- Whether a send must wait for room at a commit: its channel has no free slot, or an earlier send of the channel
waits for one (R266; log 27). -/
def State.sendWaits (s : State) (id : Nat) (o : Op) (e : Endpoint) : Bool :=
  e.chan.free == 0 || s.mem.ops.any fun p => p.1 != id && p.2.unsent o.chan.1 &&
    (s.opEndpoint p.2).any (fun f => f.cluster == e.cluster) && sendsBefore (s.sendOrder p.1 p.2) (s.sendOrder id o)

/-- A send's part of a commit: it takes the next slot and fills it; it waits while there is no room, and is discarded
where the destination team has exited (R266, R267, R292; log 27). -/
def State.commitSend (s : State) (id : Nat) (o : Op) (e : Endpoint) : State :=
  if s.rankExited e.cluster e.decl.dest then (s.finishOp id).changed
  else if s.sendWaits id o e then s
  else
    let r := s.takeTurn id o e
    match r.2.opEndpoint r.1 with
    | none => r.2
    | some e => r.2.fillSlot id r.1 e

/-- A receive's part of a commit: it takes its place, and lands if its slot is full (R250, R292). -/
def State.commitReceive (s : State) (id : Nat) (o : Op) (e : Endpoint) : State :=
  let r := if o.aux = 0 then s.takeTurn id o e else (o, s)
  match r.2.opEndpoint r.1 with
  | none => r.2
  | some e => r.2.receive id r.1 e

/-- A channel operation's part of a commit. -/
def State.commitChannel (s : State) (id : Nat) (o : Op) : State :=
  match s.opEndpoint o with
  | none => s
  | some e => if o.kind = .send then s.commitSend id o e else s.commitReceive id o e

end Sys2Proof.Machine
end

