-- ==== Sys2Proof/Machine/Distribute.lean ====
section
/-!
DEFINITION. The distributor and the task ports: who is placed next (R46, R278, R284, R292), the start of
tasks, the handler image (R268), the change of SCRWAYS (R203), pre-emption (R304 to R306), re-residence
(R291), and the end of launches (R249, R278).
-/
namespace Sys2Proof.Machine

open Sys2Proof

/-! ## What a launch would place next -/

namespace State

/-- Whether the placement step of a deterministic round may go on: the groups that exited have left
(R292), but for those with a send that waits for a slot, which a later commit makes. -/
def roundReady (s : State) (k : Nat) (l : Launch) : Bool :=
  l.placing && !(s.slots.any fun p => p.2.launch == k && p.2.allExited && !(s.opsOf p.1).any fun o => o.2.kind == .send) &&
  !(s.successors.any fun p => p.2.launch == k) &&
  !(s.clusters.any fun p => p.2.launch == k && (match p.2.residence with
    | .stopping _ | .draining _ => true
    | _ => false))

/-- The saved clusters of a launch. -/
def savedClusters (s : State) (k : Nat) : List (Nat × Cluster) :=
  s.clusters.filter fun p => p.2.launch == k && (match p.2.residence with
    | .saved _ => true
    | _ => false)

/-- The saved cluster of a launch that goes first: one for which cores have been freed, once they have room,
else the one with the lowest index (R46, R291, R304). -/
def savedHead (s : State) (k : Nat) (l : Launch) : Option (Nat × Cluster) :=
  let saved := s.savedClusters k
  (saved.find? fun p => (s.claimSpot k l (some p.1)).isSome).or
    (saved.foldl (fun (m : Option (Nat × Cluster)) p => match m with
      | some q => if p.2.index < q.2.index then some p else m
      | none => some p) none)

/-- Whether channel areas keep a new cluster waiting (R264). -/
def areaLive (s : State) (k : Nat) (d : Desc) (index : Nat) : Bool :=
  !d.chans.isEmpty && s.clusters.any fun p => p.2.launch == k && p.2.index % Nat.max 1 d.chslots == index % Nat.max 1 d.chslots

/-- The head of a grid launch's order and where it fits: a saved cluster, or the next one (R46). That a saved
cluster of a deterministic launch is placed where there is most room, and not by the seed, which R292 gives for
what has not been placed yet, is the model's choice (log 32). -/
def gridHead (s : State) (k : Nat) (l : Launch) : Option (Option (Nat × Cluster) × List (Nat × Nat)) :=
  match s.savedHead k l with
  | some (ck, c) => (s.spot k l (some ck) none).map fun r => (some (ck, c), r)
  | none =>
    let size := l.desc.cx * l.desc.cy
    if l.next * size < l.desc.nteams ∧ !s.areaLive k l.desc l.next then
      (s.spot k l none (if l.desc.det then some (l.next * size) else none)).map fun r => (none, r)
    else none

/-- The core where a task would start: the waiting port with the most free group slots, or in
deterministic operation the seed's (R284, R292). -/
def taskCore (s : State) (k : Nat) (l : Launch) : Option (Nat × Nat) :=
  let fits (c : Nat) : Option (Nat × Nat) := (s.room k l none c).map fun j => (c, j)
  if l.desc.det then (l.desc.elig[seeded l.desc l.tasks l.desc.elig.length]?).bind fits
  else bestOf (fun p => s.freeSlots p.1) (l.desc.elig.filterMap fits)

/-- The heads of a launch's queues, in QN order. -/
def heads (s : State) (l : Launch) : List (Nat × Queue × Except Unit (Option (List Dword × Nat))) :=
  l.desc.queues.filterMap fun q => (s.queues.find q).map fun x => (q, x, s.headEntry q x)

/-- The entry that the engines give next: the highest priority, or in deterministic operation the first
queue's (R284, R292). -/
def nextEntry (s : State) (l : Launch) : Option (Nat × Queue × List Dword × Nat) :=
  let es := (s.heads l).filterMap fun h => match h.2.2 with
    | .ok (some (fields, len)) => some (h.1, h.2.1, fields, len)
    | _ => none
  if l.desc.det then es.head? else bestOf (fun e => recPrio e.2.2.1) es

/-- A queue of a launch whose head entry is malformed (R282). -/
def badHead (s : State) (l : Launch) : Option (Nat × Queue) :=
  (s.heads l).findSome? fun h => match h.2.2 with
    | .error _ => some (h.1, h.2.1)
    | .ok _ => none

/-- Whether a launch could place a team, cluster or task now. -/
def wants (s : State) (k : Nat) (l : Launch) : Bool :=
  s.sys.boot == .run && !l.terminated && l.phase != .ending && (l.desc.tkimg == 0 || l.imaged) &&
  (!l.desc.det || s.roundReady k l) &&
  (if l.desc.nteams = 0 then
     match s.savedHead k l with
     | some (ck, _) => (s.spot k l (some ck) none).isSome
     | none => (s.taskCore k l).isSome && ((s.badHead l).isSome || (s.nextEntry l).isSome)
   else (s.gridHead k l).isSome)

/-- The launch that is considered first among those that could place something: the highest PRIO, then
the command taken earliest (R278). -/
def firstWanting (s : State) : Option (Nat × Launch) :=
  (s.launches.filter fun p => s.wants p.1 p.2).foldl (fun (m : Option (Nat × Launch)) p => match m with
    | some q => if q.2.desc.prio < p.2.desc.prio ∨ (q.2.desc.prio = p.2.desc.prio ∧ p.2.cmd < q.2.cmd) then some p else m
    | none => some p) none

end State

/-! ## Placement -/

/-- Place what heads a launch's order. -/
def State.placeNext (s : State) (k : Nat) (l : Launch) : State :=
  match s.gridHead k l with
  | some (some (ck, c), r) => s.restoreCluster ck c l r
  | some (none, r) =>
    let size := l.desc.cx * l.desc.cy
    let i := l.next
    let s := { s with launches := s.launches.update k fun l => { l with next := i + 1 } }
    s.placeCluster k i l r (fun rank g => gridIdent l.desc (i * size + rank) g) l.desc.kaddr
  | none => s

/-- Memory as the home slices see it, the bytes that are not zero. -/
def Mem.flat (m : Mem) : Sparse Byte :=
  let laid (b : Sparse Byte) (xs : List (Nat × Byte)) : Sparse Byte := xs.foldl (fun b x => b.set x.1 0 x.2) b
  laid (m.queue.foldl (fun b w => laid b w.2) m.bytes) m.dirty

/-- The placement step of a deterministic round ends, and its quanta begin on memory as it stands behind every
operation that is pending (R226, R250, R292). -/
def State.beginQuanta (s : State) (k : Nat) : State :=
  let s := s.drainWhere fun _ => true
  { s with launches := s.launches.update k fun l => { l with placing := false, base := s.mem.flat } }.changed

/-- TEAM_PLACEMENT (R46): the launch's turn in the order of R278; a deterministic round's placement
step ends when nothing more can be placed in it (R292). -/
def execTeamPlacement (launch : Nat) (s : State) : Out :=
  match s.launch launch with
  | none => .next s
  | some l =>
    if (s.firstWanting.map (·.1)) = some launch then
      (if l.desc.nteams = 0 then
        match s.savedHead launch l with
        | some (ck, c) =>
          (match s.spot launch l (some ck) none with
           | some r => .next (s.restoreCluster ck c l r)
           | none => .next s)
        | none => .next s
      else .next (s.placeNext launch l))
    else if l.desc.det && s.roundReady launch l && !s.wants launch l then
      .next (s.beginQuanta launch)
    else .next s

/-- A task of a record starts on a core (R283, R284): an acquire at DEV precedes its first issue. Bits [63:52] of field 0
and [63:48] of field 4 of a record that the host has written are dropped where they are not zero, and the task
starts: R283 gives them as zero and names no check, and this is the model's choice (log 44). -/
def State.startTask (s : State) (k : Nat) (l : Launch) (spot : Nat × Nat) (q : Nat) (fields : List Dword) : State :=
  let i := l.tasks
  let s := { s with launches := s.launches.update k fun l => { l with tasks := i + 1 } }
  (s.dropUntracked spot.1).placeCluster k i l [spot] (fun _ _ => taskIdent fields i q) ((fields.getD 0 0).setWidth 52)

/-- TASK_START (R284): the port of a core takes the entry that its engine gives it. An entry of a
cancelled job, or past the 2^26th task, is retired (R283, R289); a malformed one faults its queue. That taking an
entry that is retired, of which no group starts, moves its launch to RUN as the first placement does (R278) is the
model's choice (log 44). -/
def execTaskStart (core : Nat) (s : State) : Out :=
  match s.firstWanting with
  | none => .next s
  | some (k, l) =>
    match (if l.desc.nteams = 0 ∧ (s.savedHead k l).isNone then s.taskCore k l else none) with
    | none => .next s
    | some spot =>
      if spot.1 ≠ core ∨ (l.desc.queues.filterMap s.queues.find).any s.queueHeld then .next s
      else match s.badHead l with
        | some (q, x) => .next (s.faultQueue q x x.head).changed
        | none =>
          match s.nextEntry l with
          | none => .next s
          | some (q, x, fields, len) =>
            let s := s.takeEntry q x fields len
            if s.cancelledAt (engineAgent q) (recJob fields) || decide (2 ^ 26 ≤ l.tasks) then
              let s := { s with launches := s.launches.update k fun l => { l with phase := .run } }
              .next (s.beginSuccessor none k core (recCounter fields)).changed
            else .next (s.startTask k l spot q fields).changed

/-! ## The handler image (R268) -/

/-- The block of the steward's cores (R323; log 6). -/
def imageBlock : Nat := 614

/-- How the operation of the reads of a launch's image names their source. -/
def imageName (launch : Nat) : Nat := 2 ^ 42 + launch

/-- The operation of the reads of a launch's image: a piece for each sector. -/
def imageOp (launch : Nat) (l : Launch) : Op := { Op.ofAgent with
  slot := imageName launch, core := imageBlock, kind := .engineRead
  pieces := (List.range ((l.desc.tksize + 31) / 32)).map fun i =>
    let at' : Phys := { pa := 0, grain := 0, efmt := 0, geo := 0, page := 0, via := none }
    Piece.start { lane := 0, va := l.desc.tkimg + 32 * i, phys := at' } (Nat.min 32 (l.desc.tksize - 32 * i)) [] }

/-- A sector of a launch's image as its tables map it is read at its home slice, at once or, where words of it stand as
LDs in pending lists, once they have left them (R223, R226). What cannot be read, as no page gives it, it is poisoned
or it comes to nothing, is marked, and the steward logs it (R26, R317). -/
def State.readSector (s : State) (id i : Nat) (l : Launch) : State :=
  let va := l.desc.tkimg + 32 * i
  let n := Nat.min 32 (l.desc.tksize - 32 * i)
  let lost (s : State) : State := (s.spoilPiece id i).log imageBlock [17, va]
  match checkAccess s imageBlock l.desc.root va .read (fun _ => false) i with
  | .ok p =>
    if !s.deliverable p.pa then lost (s.noteLost imageBlock [p.pa])
    else if s.mem.poisoned p.pa n then lost s
    else
      let free := !l.desc.det
      (s.modPiece id i fun q => { q with addr := p.pa }).readInto id i p.pa n (if free then s.freeKeeps i else 0)
        (if free then s.freeHeld i p.pa n else [])
  | .error e => lost (s.noteFault imageBlock l.desc.root va i e)

/-- What the reads of a launch's image bring: free bytes of a sector that cannot be read (log 11). -/
def Op.imageBytes (o : Op) (tick : Nat) : List Byte :=
  (o.pieces.mapIdx fun i q =>
    if q.poison then (List.range q.size).map fun k => Config.freeByte tick (32 * i + k) else q.data.getD []).flatten

/-- The reads of a launch's image, begun if they are not, and what they have brought once the last of them is over
(R268). -/
def State.imageRead (s : State) (launch : Nat) (l : Launch) : Option (List Byte) × State :=
  let r : Nat × State := match s.mem.ops.find? fun p => p.2.kind == .engineRead && p.2.slot == imageName launch with
    | some p => (p.1, s)
    | none =>
      let (id, s) := s.fresh
      let s := s.putOp id (some (imageOp launch l))
      (id, ((List.range ((l.desc.tksize + 31) / 32)).foldl (fun s i => s.readSector id i l) s).changed)
  match r.2.op r.1 with
  | some o =>
    if o.pieces.all Piece.over then (some (o.imageBytes s.time.tick), r.2.putOp r.1 none)
    else (none, r.2)
  | none => (none, r.2)

/-- Some bytes from an offset as a finite map that reads as zero elsewhere. -/
def sparseFrom (off : Nat) : List Byte → Sparse Byte
  | [] => []
  | b :: bs => if b = 0 then sparseFrom (off + 1) bs else (off, b) :: sparseFrom (off + 1) bs

/-- TINKER_IMAGE_INSTALL (R268): once no other launch with an image runs, the image goes into every tinker,
from offset 0, and the rest of its memory is zeroed. -/
def execTinkerImageInstall (launch : Nat) (s : State) : Out :=
  match s.launch launch with
  | none => .next s
  | some l =>
    let other := s.launches.any fun p => p.1 != launch && p.2.imaged
    if l.desc.tkimg = 0 ∨ l.imaged ∨ l.terminated ∨ other then .next s
    else
      match s.imageRead launch l with
      | (none, s) => .next s
      | (some bytes, s) =>
        let ts := (List.range 192).map fun i => (i, { s.tinker i with mem := sparseFrom 0 bytes })
        .next { s with
          mem := { s.mem with tinkers := ts, image := some launch }
          launches := s.launches.update launch fun l => { l with imaged := true } }.changed

/-! ## Changing SCRWAYS (R203) -/

/-- Whether an operation of a group that is resident still touches the scratch of a core: what has been issued has to
land or complete, and a copy suspended by a late fault counts as completed. What a saved team takes with it touches
no core. -/
def touchesScratch (s : State) (c : Nat) (o : Op) : Bool :=
  o.core == c && (s.group o.slot).isSome && (match o.kind with
    | .scratchLoad => true
    | .copy => o.suspended.isNone && (match o.copy with
        | some j => j.srcScr || j.dstScr
        | none => false)
    | _ => false)

/-- Stop a resident cluster (R304). -/
def State.stopCluster (s : State) (ck : Nat) : State :=
  { s with clusters := s.clusters.update ck fun c => match c.residence with
      | .resident => { c with residence := .stopping s.time.clk }
      | _ => c }

/-- The SETWAYS commands that have nothing left to wait for, and whose records can be written. -/
def State.endedSetways (s : State) : List Nat :=
  (s.cmds.filter fun c => c.2.op == opSetways && c.2.state == .running && s.waysLaid c.2 && !s.recordHeld c.2).map (·.1)

/-- Whether a launch's groups may be moved now: those of a deterministic launch only between rounds (R292). -/
def State.mayMove (s : State) (k : Nat) : Bool :=
  match s.launch k with
  | some l => !l.desc.det || l.placing
  | none => true

/-- SCRWAYS_CHANGE_APPLY (R203; log 33): teams whose slots no longer fit are saved first; then the ways move. In
deterministic operation the change is made between rounds (log 20). -/
def execScrwaysChangeApply (core : Nat) (s : State) : Out :=
  let x := s.core core
  match x.ways with
  | none => .next s
  | some w =>
    if (s.mem.ops.any fun p => touchesScratch s core p.2) || !((s.occupant core).map s.mayMove).getD true then .next s
    else
      let size := ((s.occupant core).bind fun k => (s.launch k).map (·.desc.scratch)).getD 0
      let out := s.teams.filter fun p => p.2.core == core && !p.2.slots.isEmpty && decide (w * 32768 < (p.2.area + 1) * size)
      let late := out.filter fun p => match s.cluster p.2.cluster with
        | some c => c.residence == .resident
        | none => false
      if !late.isEmpty then .next (late.foldl (fun s p => s.stopCluster p.2.cluster) s).changed
      else if !out.isEmpty then .next s
      else
        let s := s.setCore core { x with ways := none, scrways := w, l1 := keptWays s.time.tick x.scrways w x.l1 }
        .next (s.endedSetways.foldl State.endPlain s).changed

/-! ## Pre-emption (R304 to R306) -/

/-- The cores that hold groups of a launch. -/
def State.coresOf (s : State) (k : Nat) : List Nat := (List.range 384).filter fun c => s.occupant c == some k

/-- The clusters with a team on some cores. -/
def State.clustersOn (s : State) (cores : List Nat) : List Nat :=
  ((s.teams.filter fun p => cores.contains p.2.core && !p.2.slots.isEmpty).map (·.2.cluster)).eraseDups

/-- PREEMPT_REQUEST (R304): the highest-numbered cores of a launch are withheld, and every cluster with a
team on them stops; that of a deterministic launch stops at the end of the round (R292). -/
def execPreemptRequest (cores : List Nat) (s : State) : Out :=
  match cores.head?.bind s.occupant with
  | none => .next s
  | some k =>
    match s.launch k with
    | none => .next s
    | some _ =>
      let mine := s.coresOf k
      let top := mine.drop (mine.length - cores.eraseDups.length)
      if cores.any fun c => !top.contains c then .next s
      else
        let s := { s with launches := s.launches.update k fun l => { l with withheld := cores.foldl addOnce l.withheld } }
        .next ((s.clustersOn cores).foldl State.stopCluster s).changed

/-- The resident groups of a cluster, with their slots. -/
def State.clusterGroups (s : State) (c : Cluster) : List (Nat × Group) :=
  (s.teamsOf c).flatMap fun t => t.slots.filterMap fun k => (s.group k).map fun g => (k, g)

/-- Whether an operation may stay in a saved context: a claim of a slot that is not full, a deterministic group's send
that waits for one, a suspended copy or demand with no granule in progress, and a spawn that its engine has not
appended; at the drain bound any copy or demand (R304, R305). A read under way of an instruction or a command is given
up then, and made again. -/
def maySave (bound : Bool) (o : Op) : Bool :=
  match o.kind with
  | .receive | .spawn | .engineRead => true
  | .send => o.aux == 0
  | .copy | .tstore | .tforce => bound || (o.suspended.isSome && !o.inProgress)
  | _ => false

/-- Since when a cluster drains: its groups in their handlers first leave them (R306), and those of a
deterministic launch end the round (R292). -/
def State.drainStart (s : State) (c : Cluster) : Option Nat :=
  if !s.mayMove c.launch then none else match c.residence with
  | .draining t => some t
  | .stopping t =>
    let gs := s.clusterGroups c
    if gs.any fun p => p.2.handling t then none else some (gs.foldl (fun m p => Nat.max m p.2.sched.lastIssue) t)
  | _ => none

/-- Whether another group's store that a group has read from its core's write buffer has not been acknowledged
(R239, R248). -/
def State.borrows (s : State) (k : Nat) (g : Group) : Bool :=
  s.mem.ops.any fun o => o.2.kind == .store && o.2.core == slotCore k && o.2.slot != k && decide (o.1 ≤ g.view.borrowed)

/-- Whether everything that a cluster's groups have in flight may be saved, and the release of R248 has
nothing to wait for. -/
def State.drained (s : State) (bound : Bool) (c : Cluster) : Bool :=
  (s.clusterGroups c).all fun p =>
    (s.opsOf p.1).all (fun o => maySave bound o.2) && !(s.successors.any fun x => x.2.slot == some p.1) &&
    s.releaseReady p.1 .dev && !s.borrows p.1 p.2

/-- A copy or demand that is saved before it has completed is done again from its start; one that is suspended stays
so, and its granules in progress go no further. -/
def savedOp (o : Op) : Op :=
  match o.kind with
  | .copy | .tstore | .tforce =>
    if o.suspended.isSome then { o with tile := o.tile.map fun j => { j with begun := 0 } } else o.restart
  | _ => o

/-- Save the groups of a team (R304, R305). -/
def State.saveTeam (s : State) (key : Nat) : State :=
  match s.team key with
  | none => s
  | some t =>
    let gs : List (Nat × Group) := t.slots.filterMap fun k => (s.group k).map fun g => (k, g)
    let s : State := gs.foldl (fun (s : State) p =>
      let s := s.renameOps p.1 (savedName key p.2.ident.grpid) t.core
      { s with slots := s.slots.put p.1 none }) s
    let mine (o : Op) : Bool := gs.any fun p => o.slot == savedName key p.2.ident.grpid
    let kept : Sparse Op := s.mem.ops.filter fun p => !(p.2.kind == .engineRead && mine p.2)
    let ops : Sparse Op := kept.map fun p => (p.1, if mine p.2 then savedOp p.2 else p.2)
    let s := { s with mem := { s.mem with ops := ops } }
    { s with teams := s.teams.put key (some { t with slots := [], saved := gs.map (·.2) }) }

/-- Save a cluster: its cores are free, and its re-residence timer runs (R291, R304). -/
def State.saveCluster (s : State) (ck : Nat) (c : Cluster) : State :=
  let s := c.teams.foldl State.saveTeam s
  { s with clusters := s.clusters.put ck (some { c with
      residence := .saved s.time.clk, timer := s.time.clk + 2 ^ 20 }) }.changed

/-- PREEMPT_DRAIN_END (R304). -/
def execPreemptDrainEnd (cluster : Nat) (s : State) : Out :=
  match s.cluster cluster with
  | some c => if (s.drainStart c).isSome && s.drained false c then .next (s.saveCluster cluster c) else .next s
  | none => .next s

/-- PREEMPT_DRAIN_TIMEOUT (R304): 2^18 clk after the drain began. -/
def execPreemptDrainTimeout (cluster : Nat) (s : State) : Out :=
  match s.cluster cluster with
  | some c =>
    (match s.drainStart c with
     | some t => if t + 2 ^ 18 ≤ s.time.clk ∧ s.drained true c then .next (s.saveCluster cluster c) else .next s
     | none => .next s)
  | none => .next s

/-- PREEMPT_DEFER_EXPIRY (R306): a group that is still in its handler stops there, and is saved with TM set. -/
def execPreemptDeferExpiry (slot : Nat) (s : State) : Out :=
  match (s.group slot).bind fun g => (s.team g.teamKey).bind fun t => (s.cluster t.cluster).map fun c => (g, t.cluster, c) with
  | some (g, ck, c) =>
    (match c.residence with
     | .stopping t =>
       if g.handling t && s.mayMove c.launch && decide (t + s.sys.defer ≤ s.time.clk) then
         .next { s with clusters := s.clusters.put ck (some { c with residence := .draining s.time.clk }) }.changed
       else .next s
     | _ => .next s)
  | none => .next s

/-! ## Re-residence (R291) -/

/-- Whether a core qualifies: its teams belong to launches of PRIO equal to or lower. A core that is withheld from the
launch or has no clock takes no team, and so is not considered. That a core has been freed for another saved cluster
does not count here (log 32). -/
def State.qualifies (s : State) (l : Launch) (core : Nat) : Bool :=
  !l.withheld.contains core && s.clocked core &&
  (match (s.occupant core).bind s.launch with
   | some o => decide (o.desc.prio ≤ l.desc.prio)
   | none => true)

/-- Whether a team is no victim now, as it has been placed by this rule lately. -/
def State.immune (s : State) (t : Team) : Bool := match s.cluster t.cluster with
  | some c => decide (s.time.clk < c.immune)
  | none => false

/-- The teams of the saved team's own launch that must leave a core: in the reverse of their placement
order until a team fits, `kept` being those passed over as no victims. -/
def ownVictims (s : State) (l : Launch) (core : Nat) (kept : List (Nat × Team)) : List (Nat × Team) → List Nat
  | [] => []
  | v :: vs =>
    let left := kept ++ v :: vs
    let groups := (left.map fun p => p.2.slots.length).sum
    if groups + l.desc.groups ≤ l.desc.groupLimit ∧ (l.desc.scratch = 0 ∨ left.length < l.desc.areas (s.waysOn l core)) then []
    else if s.immune v.2 then ownVictims s l core (kept ++ [v]) vs
    else v.2.cluster :: ownVictims s l core kept vs

/-- Insert a team behind those placed later. -/
def insertTeam (t : Nat × Team) : List (Nat × Team) → List (Nat × Team)
  | [] => [t]
  | u :: us => if u.2.placed ≤ t.2.placed then t :: u :: us else u :: insertTeam t us

/-- The clusters that are pre-empted on a core. A team that is no victim now stays, and no other rule of R291
passes its core over (log 32). -/
def State.victims (s : State) (k : Nat) (l : Launch) (core : Nat) : List Nat :=
  let ts := s.teams.filter fun p => p.2.core == core && !p.2.slots.isEmpty
  if s.occupant core = some k then ownVictims s l core [] (ts.foldr insertTeam [])
  else ((ts.filter fun p => !s.immune p.2).map (·.2.cluster)).eraseDups

/-- RERESIDENCE_TIMEOUT (R291): cores are freed for a begun team that is saved, and the timer starts again: at its
next expiry the cores that qualify then are considered anew, whatever has been freed before. -/
def execReresidenceTimeout (cluster : Nat) (s : State) : Out :=
  match (s.cluster cluster).bind fun c => (s.launch c.launch).map fun l => (c, l) with
  | none => .next s
  | some (c, l) =>
    let saved := match c.residence with
      | .saved _ => true
      | _ => false
    if !saved || s.time.clk < c.timer || !(s.teamsOf c).any (·.begun) then .next s
    else
      let rs := l.desc.rectangles.filter fun r => r.all (s.qualifies l)
      match bestOf (fun r => 128 * r.length - (r.map fun x => (s.coreGroups x).length).sum) rs with
      | none => .next { s with clusters := s.clusters.put cluster (some { c with
          claim := [], timer := s.time.clk + 2 ^ 20 }) }.changed
      | some r =>
        let s := { s with clusters := s.clusters.put cluster (some { c with claim := r, timer := s.time.clk + 2 ^ 20 }) }
        .next ((r.flatMap fun core => s.victims c.launch l core).foldl State.stopCluster s).changed

/-! ## The end of a launch (R249, R278) -/

/-- Whether a launch has nothing left to run (R278). -/
def State.launchOver (s : State) (k : Nat) (l : Launch) : Bool :=
  !(s.clusters.any fun p => p.2.launch == k) && !(s.successors.any fun p => p.2.launch == k) &&
  (if l.desc.nteams = 0 then
     l.phase == .run && l.desc.queues.all fun q => match s.queues.find q with
       | some x => x.used == 0 && x.appends.isEmpty
       | none => true
   else l.desc.nteams ≤ l.next * (l.desc.cx * l.desc.cy))

/-- Whether a launch that the steward has terminated may be taken away: its groups' operations have
completed, but for those that wait for something that no longer comes, a commit among them (R295). -/
def State.launchStopped (s : State) (k : Nat) : Bool :=
  s.slots.all fun p => p.2.launch != k || (s.opsOf p.1).all fun o =>
    maySave false o.2 || (Gs.det p.2.modes.gs && o.2.commitOnly) || s.awaitsCommit p.1 o.1

/-- Take away what is left of a launch. -/
def State.removeLaunch (s : State) (k : Nat) : State :=
  let gone := s.teams.filter fun p => p.2.launch == k
  let names := (s.slots.filter fun p => p.2.launch == k).map (·.1) ++
    (gone.flatMap fun p => p.2.saved.map fun g => savedName p.1 g.ident.grpid) ++ [imageName k] ++
    (s.successors.filter fun p => p.2.launch == k).map fun p => successorName p.1
  { s with
    slots := s.slots.filter fun p => p.2.launch != k
    teams := s.teams.filter fun p => p.2.launch != k
    clusters := s.clusters.filter fun p => p.2.launch != k
    successors := s.successors.filter fun p => p.2.launch != k
    launches := s.launches.put k none
    mem := { s.mem with
      ops := s.mem.ops.filter fun p => !names.contains p.2.slot
      image := if s.mem.image = some k then none else s.mem.image } }

/-- LAUNCH_END (R275, R278): the completion record, with STATUS 2 where the steward has terminated the
launch. Every write of the launch has been acknowledged, so that the release at SYS has nothing to
wait for; a record on whose region a handler runs waits for it (R270). -/
def execLaunchEnd (launch : Nat) (s : State) : Out :=
  match s.launch launch with
  | none => .next s
  | some l =>
    if (if l.terminated then s.launchStopped launch else s.launchOver launch l) && !(s.cmds.find l.cmd).any s.recordHeld then
      let taken := ((s.cmds.find l.cmd).map (·.taken)).getD 0
      let s := s.removeLaunch launch
      .next (s.endCmd l.cmd (if l.terminated then 2 else 0) 0 (l.firstIssue.getD taken) l.desc.sig.toNat).changed
    else .next s

end Sys2Proof.Machine
end

