-- ==== Sys2Proof/Machine/Commit.lean ====
section
/-!
DEFINITION. Deterministic operation (R250, R292): the end of a quantum, and the commit of a round.
-/
namespace Sys2Proof.Machine

open Sys2Proof

/-- QUANTUM_EXPIRY (R292): a group that has retired Q instructions ends its quantum. -/
def execQuantumExpiry (slot : Nat) (s : State) : Out :=
  match s.group slot with
  | none => .next s
  | some g =>
    if Gs.det g.modes.gs && !g.det.ended && decide (g.quantum.toNat ≤ g.det.used) then
      .next (s.modGroup slot Group.endQuantum).changed
    else .next s

/-! ## The items of a buffer -/

namespace State

/-- The core's own copy of a CG-0 sector after a committed write: it takes the bytes (R198), or leaves where a
write of another launch's group of the core to the sector is still on its way, since that one comes later. -/
def commitL1 (s : State) (core a : Nat) (bytes : List Byte) : State :=
  if s.mem.reqs.any fun r => r.2.src == .core core && meets r.2.addr r.2.size (sectorOf a) 32 then
    s.l1Keep core fun e => e.addr != sectorOf a
  else (s.mapL1 core fun e => if e.addr == sectorOf a then e.lay a bytes else e).mapFills core fun q =>
    if !q.parts.isEmpty && sectorOf q.addr == sectorOf a then { q with laid := overBytes q.laid a bytes } else q

/-- Bytes that a deterministic group has buffered are written (R198, R250): the arrival sequence is the commit order,
without a rewrite step, so that nothing of it rests in a pending list (R232). -/
def commitWrite (s : State) (core a grain : Nat) (bytes : List Byte) (cores ops : List Nat) : State :=
  (if grain = 0 then s.commitL1 core a bytes else s.dropTwin core a grain).writeNow a bytes grain cores ops

/-- A buffered request takes effect at its home slice (R250, R269). -/
def commitRequest (s : State) (core : Nat) (r : Req) : State :=
  match r.kind with
  | .write bytes => s.commitWrite core r.addr r.grain bytes r.src.cores [r.op]
  | .atomic .. => s.doAtomic r
  | .mop .. => s.mopArrive r false
  | .message target hix p0 p1 gid image =>
    let slice := homeSlice target
    let s := s.startHandler r.op target hix p0 p1 gid image
    if (s.tinker slice).running = some r.op then s.runHandler slice handlerSteps else s
  | _ => s

/-- An operation that a group performs at its commit; none while the ring that it appends to is full (R292,
R419), while an earlier install to its slot is under way (R219), or while the invalidations of a DISCARD would
overtake updates (R261, R262). -/
def commitOp (s : State) (id : Nat) (o : Op) : Option State :=
  match o.kind with
  | .clean | .discard => if s.maintenanceWaits id o then none else some ((s.performMaintenance id o).finishOp id)
  | .install =>
    if s.mem.installs.any fun p => p.2.1 == o.aux then none
    else
      let v := s.mem.versions + 1
      let s := { s with mem := { s.mem with versions := v } }
      some (((List.range 192).foldl (fun s i => s.placeTable i o.aux (readTable o.data v)) s).finishOp id)
  | .send | .receive => some (s.commitChannel id o)
  | .spawn => (s.acceptRecord o.aux (s.opLaunch o) o.core (readRecord o.data)).map fun s => s.finishOp id
  | .cancelJob =>
    some ((cancelAgents.foldl (fun s a => s.recordCancel a (BitVec.ofNat 32 (leNat o.data)) s.time.gts) s).finishOp id)
  | _ => some s

/-- One item of the buffer of the group in a slot. (log 20) -/
def commitItem (s : State) (slot : Nat) (g : Group) : DetItem → Option State
  | .write a grain bytes => some (s.commitWrite (slotCore slot) a grain bytes [] [])
  | .scratch off bytes => some (s.changeScratch g.teamKey fun t => t.write off bytes)
  | .poison true sector => some (s.modTeam g.teamKey fun t => { t with poison := addOnce t.poison sector })
  | .poison false sector => some (s.movePoison sector)
  | .barrier fn off v => some (s.changeScratch g.teamKey fun t => { t with scratch := barrierUpdate t.scratch fn off v.toNat })
  | .request r => some (s.commitRequest (slotCore slot) r)
  | .perform id =>
    match s.op id with
    | some o => s.commitOp id o
    | none => some s
  | .arrive w mask => some (s.commitArrival slot w mask)

/-- Whether an item is a CLEAN or a DISCARD, which comes after all that its group has buffered (R348, R354). -/
def isMaintenance (s : State) : DetItem → Bool
  | .perform id => (match s.op id with
    | some o => o.kind == .clean || o.kind == .discard
    | none => false)
  | _ => false

/-- Whether an item is the instruction that ended its group's quantum, which is performed after all that the
group has buffered (R292): an atomic or operator that returns, a message, an install, a receive, a JCANCEL, or an
arrival at a barrier. -/
def endsQuantum (s : State) : DetItem → Bool
  | .request r => (match r.kind with
    | .atomic _ _ _ _ _ ret => ret
    | .mop _ _ _ _ ret _ => ret
    | .message .. => true
    | _ => false)
  | .perform id => (match s.op id with
    | some o => o.kind == .install || o.kind == .receive || o.kind == .cancelJob
    | none => false)
  | .arrive .. => true
  | _ => false

/-- The items of a buffer as they are applied: in program order, but CLEAN and DISCARD after the group's writes,
and what ended its quantum last. -/
def commitOrder (s : State) (is : List DetItem) : List DetItem :=
  (is.filter fun i => !s.isMaintenance i && !s.endsQuantum i) ++ is.filter s.isMaintenance ++ is.filter s.endsQuantum

/-- A group's buffer holds what is left of it. -/
def setBuffer (s : State) (slot : Nat) (is : List DetItem) : State :=
  s.modGroup slot fun g => { g with det := { g.det with buffer := is } }

/-- Apply items of a group's buffer in order, and say whether all of them could be applied. -/
def commitItems (s : State) (slot : Nat) (g : Group) : List DetItem → State × Bool
  | [] => (s.setBuffer slot [], true)
  | i :: is =>
    match (s.setBuffer slot is).commitItem slot g i with
    | some s => s.commitItems slot g is
    | none => (s.setBuffer slot (i :: is), false)

/-- What a group's operations bring it at its commit: old values, replies, and received slots. -/
def commitLanding (s : State) (id : Nat) (o : Op) : State :=
  match o.kind with
  | .atomic | .mopr => if o.pieces.all fun q => q.data.isSome || q.poison then s.landOp id o else s
  | .message =>
    match o.pieces with
    | [q] => if q.data.isSome then s.landReply id o q else s
    | _ => s
  | .receive => if o.aux = 1 then s.commitChannel id o else s
  | _ => s

/-- The exit of a group is entered, and what it leaves to others follows; of another group what is left of its waits
is looked at (R267, R292, R301). -/
def commitWaits (s : State) (slot : Nat) : State :=
  match s.group slot with
  | none => s
  | some g => if g.allExited then s.noteExit g else s.arrivals slot

/-- The successor step of a task that has ended (R290): a record that must wait for room stays as a
spawn in the buffer. -/
def commitSuccessor (s : State) (slot : Nat) : State × Bool :=
  match s.group slot with
  | none => (s, true)
  | some g =>
    if !g.allExited || g.ident.successor = 0 then (s, true)
    else
      let core := slotCore slot
      let s := s.modGroup slot fun g => { g with ident := { g.ident with successor := 0 } }
      let x : Successor := { slot := some slot, launch := g.launch, core := core, counter := g.ident.successor, reached := false }
      let r := s.makeSuccessor 0 x true
      match r.1 with
      | .wait | .nothing => (r.2, true)
      | .record q fields =>
        match r.2.acceptRecord q g.launch core fields with
        | some s => (s, true)
        | none =>
          let (id, s) := r.2.fresh
          let o : Op := { Op.ofCommand 0 with
            slot := slot, core := core, kind := .spawn, aux := q, data := fields.flatMap fun x => leBytes 8 x.toNat }
          ((s.putOp id (some o)).modGroup slot fun g => { g with det := { g.det with buffer := [.perform id] } }, false)

/-- One group's part of a commit, and whether it could be made whole. -/
def commitGroup (s : State) (slot : Nat) : State × Bool :=
  match s.group slot with
  | none => (s, true)
  | some g =>
    let r := s.commitItems slot g (s.commitOrder g.det.buffer)
    if r.2 then
      let s := (r.1.opsOf slot).foldl (fun s p => match s.op p.1 with
        | some o => s.commitLanding p.1 o
        | none => s) r.1
      (s.commitWaits slot).commitSuccessor slot
    else r

end State

/-! ## The round -/

/-- Whether a group's quantum is over: it has ended it, exited or halted, or every strand waits (R292). -/
def Group.roundOver (g : Group) : Bool :=
  g.halted || g.quantumOver || g.strands.all fun t => t.exited || t.block.isSome || t.waitsAt.isSome

/-- Whether an operation completes without a commit, and has not (R292). -/
def openInRound (o : Op) : Bool :=
  match o.kind with
  | .load | .scratchLoad | .reveal | .copy | .tstore | .tforce | .inval => o.suspended.isNone
  | _ => false

/-- The groups of a launch with their slots, in ascending global group id (R34). -/
def State.inOrder (s : State) (k : Nat) : List (Nat × Group) :=
  (s.slots.filter fun p => p.2.launch == k).foldr insertGroup []
where
  /-- Insert a group by its global id. -/
  insertGroup (p : Nat × Group) : List (Nat × Group) → List (Nat × Group)
    | [] => [p]
    | q :: qs => if p.2.ident.global ≤ q.2.ident.global then p :: q :: qs else q :: insertGroup p qs

/-- Commit groups in order until one must wait. -/
def State.commitAll (s : State) (k : Nat) : List (Nat × Group) → State × Bool
  | [] => (s, true)
  | p :: ps =>
    let r := s.commitGroup p.1
    if r.2 then
      let s := { r.1 with launches := r.1.launches.update k fun l => { l with committed := addOnce l.committed p.2.ident.global } }
      s.commitAll k ps
    else r

/-- Receives whose slots have been filled in a commit land at its end, in the order of the groups (R266, R292;
log 20). -/
def State.landReceives (s : State) (gs : List (Nat × Group)) : State :=
  gs.foldl (fun s p => (s.opsOf p.1).foldl (fun s o => match s.op o.1 with
    | some x => if x.kind = .receive ∧ x.aux = 1 then s.commitChannel o.1 x else s
    | none => s) s) s

/-- Insert a send into a list by the order of its channel. -/
def insertSend (s : State) (p : Nat × Op) : List (Nat × Op) → List (Nat × Op)
  | [] => [p]
  | q :: qs => if sendsBefore (s.sendOrder p.1 p.2) (s.sendOrder q.1 q.2) then p :: q :: qs else q :: insertSend s p qs

/-- Sends that wait for a slot go on at the end of a commit, where the receives have made room (R266, R292; log 27). -/
def State.goOnSending (s : State) (gs : List (Nat × Group)) : State :=
  let waiting := (gs.flatMap fun p => (s.opsOf p.1).filter fun o => o.2.kind == .send && o.2.aux == 0).foldr (insertSend s) []
  waiting.foldl (fun s p => match s.op p.1 with
    | some o => s.commitChannel p.1 o
    | none => s) s

/-- A group at the start of a round. -/
def State.newRound (s : State) (slot : Nat) (g : Group) : Group :=
  { g with det := { g.det with
      used := 0, ended := false, can := s.cancelledAt (portAgent (slotCore slot)) g.ident.job } }

/-- The next round of a launch begins with its placement step (R292). -/
def State.nextRound (s : State) (k : Nat) : State :=
  { s with
    slots := s.slots.map fun p => (p.1, if p.2.launch == k then s.newRound p.1 p.2 else p.2)
    launches := s.launches.update k fun l => { l with round := l.round + 1, placing := true, committed := [] } }

/-- DET_COMMIT (R292): once every group of the launch has ended its quantum, and what completes without a
commit has completed. A commit that waits for room in a ring goes on at the next one (R419). -/
def execDetCommit (launch : Nat) (s : State) : Out :=
  match s.launch launch with
  | none => .next s
  | some l =>
    let gs := s.inOrder launch
    let ready := l.desc.det && l.phase == .run && !l.terminated && !l.placing && gs.all (fun p => p.2.roundOver) &&
      gs.all (fun p => (s.opsOf p.1).all fun o => !openInRound o.2 && !(p.2.allExited && o.2.suspended.isSome)) &&
      !(s.mem.tinkers.any fun t => t.2.running.isSome)
    if ready then
      let r := s.commitAll launch (gs.filter fun p => !l.committed.contains p.2.ident.global)
      .next (if r.2 then ((r.1.landReceives gs).goOnSending gs).nextRound launch else r.1).changed
    else .next s

end Sys2Proof.Machine
end

