-- ==== Sys2Proof/Machine/Dispatch.lean ====
section
/-!
DEFINITION. The meaning of every instruction: one arm per constructor of `Instr`.
-/
namespace Sys2Proof.Machine

open Sys2Proof

def exec (i : Instr) (s : State) : Host.Outcome State Fault Refusal :=
  match i with
  | .add d a b => Sys2Proof.Machine.execAdd d a b s
  | .addS d a b => Sys2Proof.Machine.execAddS d a b s
  | .sub d a b => Sys2Proof.Machine.execSub d a b s
  | .subS d a b => Sys2Proof.Machine.execSubS d a b s
  | .mul d a b => Sys2Proof.Machine.execMul d a b s
  | .mulS d a b => Sys2Proof.Machine.execMulS d a b s
  | .mulhi d a b => Sys2Proof.Machine.execMulhi d a b s
  | .mulhiS d a b => Sys2Proof.Machine.execMulhiS d a b s
  | .madlo d a b => Sys2Proof.Machine.execMadlo d a b s
  | .madloS d a b => Sys2Proof.Machine.execMadloS d a b s
  | .min d a b => Sys2Proof.Machine.execMin d a b s
  | .minS d a b => Sys2Proof.Machine.execMinS d a b s
  | .max d a b => Sys2Proof.Machine.execMax d a b s
  | .maxS d a b => Sys2Proof.Machine.execMaxS d a b s
  | .and d a b => Sys2Proof.Machine.execAnd d a b s
  | .andS d a b => Sys2Proof.Machine.execAndS d a b s
  | .or d a b => Sys2Proof.Machine.execOr d a b s
  | .orS d a b => Sys2Proof.Machine.execOrS d a b s
  | .xor d a b => Sys2Proof.Machine.execXor d a b s
  | .xorS d a b => Sys2Proof.Machine.execXorS d a b s
  | .shl d a b => Sys2Proof.Machine.execShl d a b s
  | .shlS d a b => Sys2Proof.Machine.execShlS d a b s
  | .shr d a b => Sys2Proof.Machine.execShr d a b s
  | .shrS d a b => Sys2Proof.Machine.execShrS d a b s
  | .sha d a b => Sys2Proof.Machine.execSha d a b s
  | .shaS d a b => Sys2Proof.Machine.execShaS d a b s
  | .rol d a b => Sys2Proof.Machine.execRol d a b s
  | .rolS d a b => Sys2Proof.Machine.execRolS d a b s
  | .cmpEq d a b => Sys2Proof.Machine.execCmpEq d a b s
  | .cmpEqS d a b => Sys2Proof.Machine.execCmpEqS d a b s
  | .cmpNe d a b => Sys2Proof.Machine.execCmpNe d a b s
  | .cmpNeS d a b => Sys2Proof.Machine.execCmpNeS d a b s
  | .cmpLt d a b => Sys2Proof.Machine.execCmpLt d a b s
  | .cmpLtS d a b => Sys2Proof.Machine.execCmpLtS d a b s
  | .cmpLe d a b => Sys2Proof.Machine.execCmpLe d a b s
  | .cmpLeS d a b => Sys2Proof.Machine.execCmpLeS d a b s
  | .sel d a b => Sys2Proof.Machine.execSel d a b s
  | .selS d a b => Sys2Proof.Machine.execSelS d a b s
  | .bfx d a b => Sys2Proof.Machine.execBfx d a b s
  | .bfxS d a b => Sys2Proof.Machine.execBfxS d a b s
  | .bfi d a b => Sys2Proof.Machine.execBfi d a b s
  | .bfiS d a b => Sys2Proof.Machine.execBfiS d a b s
  | .fadd d a b => Sys2Proof.Machine.execFadd d a b s
  | .faddS d a b => Sys2Proof.Machine.execFaddS d a b s
  | .fsub d a b => Sys2Proof.Machine.execFsub d a b s
  | .fsubS d a b => Sys2Proof.Machine.execFsubS d a b s
  | .fmul d a b => Sys2Proof.Machine.execFmul d a b s
  | .fmulS d a b => Sys2Proof.Machine.execFmulS d a b s
  | .fma d a b => Sys2Proof.Machine.execFma d a b s
  | .fmaS d a b => Sys2Proof.Machine.execFmaS d a b s
  | .fmin d a b => Sys2Proof.Machine.execFmin d a b s
  | .fmax d a b => Sys2Proof.Machine.execFmax d a b s
  | .fcmpEq d a b => Sys2Proof.Machine.execFcmpEq d a b s
  | .fcmpLt d a b => Sys2Proof.Machine.execFcmpLt d a b s
  | .fcmpLe d a b => Sys2Proof.Machine.execFcmpLe d a b s
  | .fcmpUn d a b => Sys2Proof.Machine.execFcmpUn d a b s
  | .mov d a => Sys2Proof.Machine.execMov d a s
  | .movS d a => Sys2Proof.Machine.execMovS d a s
  | .movp d a => Sys2Proof.Machine.execMovp d a s
  | .movpS d a => Sys2Proof.Machine.execMovpS d a s
  | .movi d imm => Sys2Proof.Machine.execMovi d imm s
  | .moviS d imm => Sys2Proof.Machine.execMoviS d imm s
  | .movhi d imm => Sys2Proof.Machine.execMovhi d imm s
  | .movhiS d imm => Sys2Proof.Machine.execMovhiS d imm s
  | .addi d imm => Sys2Proof.Machine.execAddi d imm s
  | .addiS d imm => Sys2Proof.Machine.execAddiS d imm s
  | .bra off => Sys2Proof.Machine.execBra off s
  | .brc c off => Sys2Proof.Machine.execBrc c off s
  | .brv c off => Sys2Proof.Machine.execBrv c off s
  | .call c off => Sys2Proof.Machine.execCall c off s
  | .ret a => Sys2Proof.Machine.execRet a s
  | .jmpr a => Sys2Proof.Machine.execJmpr a s
  | .modeT imm => Sys2Proof.Machine.execModeT imm s
  | .modeG imm => Sys2Proof.Machine.execModeG imm s
  | .mxmode half imm => Sys2Proof.Machine.execMxmode half imm s
  | .waitf mask => Sys2Proof.Machine.execWaitf mask s
  | .trap imm => Sys2Proof.Machine.execTrap imm s
  | .brk imm => Sys2Proof.Machine.execBrk imm s
  | .ld d a ctl => Sys2Proof.Machine.execLd d a ctl s
  | .ldb d a ctl => Sys2Proof.Machine.execLdb d a ctl s
  | .st d a ctl => Sys2Proof.Machine.execSt d a ctl s
  | .lds d a ctl => Sys2Proof.Machine.execLds d a ctl s
  | .sts d a ctl => Sys2Proof.Machine.execSts d a ctl s
  | .atomAdd d a ctl => Sys2Proof.Machine.execAtomAdd d a ctl s
  | .atomMin d a ctl => Sys2Proof.Machine.execAtomMin d a ctl s
  | .atomMax d a ctl => Sys2Proof.Machine.execAtomMax d a ctl s
  | .atomAnd d a ctl => Sys2Proof.Machine.execAtomAnd d a ctl s
  | .atomOr d a ctl => Sys2Proof.Machine.execAtomOr d a ctl s
  | .atomXor d a ctl => Sys2Proof.Machine.execAtomXor d a ctl s
  | .atomXchg d a ctl => Sys2Proof.Machine.execAtomXchg d a ctl s
  | .atomnAdd d a ctl => Sys2Proof.Machine.execAtomnAdd d a ctl s
  | .atomnMin d a ctl => Sys2Proof.Machine.execAtomnMin d a ctl s
  | .atomnMax d a ctl => Sys2Proof.Machine.execAtomnMax d a ctl s
  | .atomnAnd d a ctl => Sys2Proof.Machine.execAtomnAnd d a ctl s
  | .atomnOr d a ctl => Sys2Proof.Machine.execAtomnOr d a ctl s
  | .atomnXor d a ctl => Sys2Proof.Machine.execAtomnXor d a ctl s
  | .cas d a ctl => Sys2Proof.Machine.execCas d a ctl s
  | .mop d a cls sc => Sys2Proof.Machine.execMop d a cls sc s
  | .mopr d a cls sc => Sys2Proof.Machine.execMopr d a cls sc s
  | .fence sc od => Sys2Proof.Machine.execFence sc od s
  | .clean a b => Sys2Proof.Machine.execClean a b s
  | .inval a b => Sys2Proof.Machine.execInval a b s
  | .discard a b => Sys2Proof.Machine.execDiscard a b s
  | .pref a b => Sys2Proof.Machine.execPref a b s
  | .aszload a b => Sys2Proof.Machine.execAszload a b s
  | .monitor a => Sys2Proof.Machine.execMonitor a s
  | .mwait a => Sys2Proof.Machine.execMwait a s
  | .shflIdx d a b => Sys2Proof.Machine.execShflIdx d a b s
  | .shflXor d a b => Sys2Proof.Machine.execShflXor d a b s
  | .shflUp d a b => Sys2Proof.Machine.execShflUp d a b s
  | .shflDn d a b => Sys2Proof.Machine.execShflDn d a b s
  | .bcast d a b => Sys2Proof.Machine.execBcast d a b s
  | .vote d a => Sys2Proof.Machine.execVote d a s
  | .elect d => Sys2Proof.Machine.execElect d s
  | .cvt d a src => Sys2Proof.Machine.execCvt d a src s
  | .rnenc d a => Sys2Proof.Machine.execRnenc d a s
  | .rndec d a => Sys2Proof.Machine.execRndec d a s
  | .getx d => Sys2Proof.Machine.execGetx d s
  | .setx a => Sys2Proof.Machine.execSetx a s
  | .rdsr d num => Sys2Proof.Machine.execRdsr d num s
  | .wrsr a num => Sys2Proof.Machine.execWrsr a num s
  | .mma d a b => Sys2Proof.Machine.execMma d a b s
  | .mmar d a b => Sys2Proof.Machine.execMmar d a b s
  | .tdesc d a => Sys2Proof.Machine.execTdesc d a s
  | .tmul d a b => Sys2Proof.Machine.execTmul d a b s
  | .tadd d a b => Sys2Proof.Machine.execTadd d a b s
  | .tmap d a fn => Sys2Proof.Machine.execTmap d a fn s
  | .tscl d a b => Sys2Proof.Machine.execTscl d a b s
  | .ttrn d a => Sys2Proof.Machine.execTtrn d a s
  | .tslc d a b => Sys2Proof.Machine.execTslc d a b s
  | .tbcast d a b => Sys2Proof.Machine.execTbcast d a b s
  | .tred d a col op => Sys2Proof.Machine.execTred d a col op s
  | .tstore a b c => Sys2Proof.Machine.execTstore a b c s
  | .tforce a => Sys2Proof.Machine.execTforce a s
  | .tdrop a => Sys2Proof.Machine.execTdrop a s
  | .spseed k a b => Sys2Proof.Machine.execSpseed k a b s
  | .spnext k => Sys2Proof.Machine.execSpnext k s
  | .splt d k b => Sys2Proof.Machine.execSplt d k b s
  | .spcmp d k k' => Sys2Proof.Machine.execSpcmp d k k' s
  | .spidx d k b => Sys2Proof.Machine.execSpidx d k b s
  | .spval d k => Sys2Proof.Machine.execSpval d k s
  | .splen d k => Sys2Proof.Machine.execSplen d k s
  | .cpy d a b => Sys2Proof.Machine.execCpy d a b s
  | .cpclose d => Sys2Proof.Machine.execCpclose d s
  | .waitb a => Sys2Proof.Machine.execWaitb a s
  | .bcinit a b => Sys2Proof.Machine.execBcinit a b s
  | .bcexp a b => Sys2Proof.Machine.execBcexp a b s
  | .bcarr a b => Sys2Proof.Machine.execBcarr a b s
  | .bcwait a b => Sys2Proof.Machine.execBcwait a b s
  | .amsg d a b => Sys2Proof.Machine.execAmsg d a b s
  | .abs d a => Sys2Proof.Machine.execAbs d a s
  | .absS d a => Sys2Proof.Machine.execAbsS d a s
  | .neg d a => Sys2Proof.Machine.execNeg d a s
  | .negS d a => Sys2Proof.Machine.execNegS d a s
  | .not d a => Sys2Proof.Machine.execNot d a s
  | .notS d a => Sys2Proof.Machine.execNotS d a s
  | .clz d a => Sys2Proof.Machine.execClz d a s
  | .clzS d a => Sys2Proof.Machine.execClzS d a s
  | .popc d a => Sys2Proof.Machine.execPopc d a s
  | .popcS d a => Sys2Proof.Machine.execPopcS d a s
  | .brev d a => Sys2Proof.Machine.execBrev d a s
  | .brevS d a => Sys2Proof.Machine.execBrevS d a s
  | .frcp d a => Sys2Proof.Machine.execFrcp d a s
  | .frsq d a => Sys2Proof.Machine.execFrsq d a s
  | .fsqrt d a => Sys2Proof.Machine.execFsqrt d a s
  | .fex2 d a => Sys2Proof.Machine.execFex2 d a s
  | .flg2 d a => Sys2Proof.Machine.execFlg2 d a s
  | .fsin d a => Sys2Proof.Machine.execFsin d a s
  | .fcos d a => Sys2Proof.Machine.execFcos d a s
  | .ftnh d a => Sys2Proof.Machine.execFtnh d a s
  | .fclass d a => Sys2Proof.Machine.execFclass d a s
  | .reduce d a op => Sys2Proof.Machine.execReduce d a op s
  | .scan d a excl op => Sys2Proof.Machine.execScan d a excl op s
  | .chsend a ch => Sys2Proof.Machine.execChsend a ch s
  | .chrecv d ch => Sys2Proof.Machine.execChrecv d ch s
  | .chpoll d ch => Sys2Proof.Machine.execChpoll d ch s
  | .bar a id => Sys2Proof.Machine.execBar a id s
  | .barc a id => Sys2Proof.Machine.execBarc a id s
  | .tspawn d a => Sys2Proof.Machine.execTspawn d a s
  | .tstat d => Sys2Proof.Machine.execTstat d s
  | .jcancel a => Sys2Proof.Machine.execJcancel a s
  | .clause wait flagA flagB len => Sys2Proof.Machine.execClause wait flagA flagB len s
  | .loadLanding op => Sys2Proof.Machine.execLoadLanding op s
  | .atomReturn op => Sys2Proof.Machine.execAtomReturn op s
  | .moprReturn op => Sys2Proof.Machine.execMoprReturn op s
  | .sporeRevealLanding op => Sys2Proof.Machine.execSporeRevealLanding op s
  | .storeAck op => Sys2Proof.Machine.execStoreAck op s
  | .sliceRead req keeps => Sys2Proof.Machine.execSliceRead req keeps s
  | .sliceWrite req => Sys2Proof.Machine.execSliceWrite req s
  | .sliceAtomic req => Sys2Proof.Machine.execSliceAtomic req s
  | .sliceMopApply addr step => Sys2Proof.Machine.execSliceMopApply addr step s
  | .updateApply upd core => Sys2Proof.Machine.execUpdateApply upd core s
  | .updateAck upd station => Sys2Proof.Machine.execUpdateAck upd station s
  | .dropNotice core unit => Sys2Proof.Machine.execDropNotice core unit s
  | .l1MissReplay core => Sys2Proof.Machine.execL1MissReplay core s
  | .sliceIngressAdmit slice => Sys2Proof.Machine.execSliceIngressAdmit slice s
  | .monitorRegistered slot => Sys2Proof.Machine.execMonitorRegistered slot s
  | .mtimeout slot => Sys2Proof.Machine.execMtimeout slot s
  | .copyComplete op => Sys2Proof.Machine.execCopyComplete op s
  | .demandComplete op => Sys2Proof.Machine.execDemandComplete op s
  | .lateFault op => Sys2Proof.Machine.execLateFault op s
  | .channelSlotFill op => Sys2Proof.Machine.execChannelSlotFill op s
  | .channelReceiveLand op => Sys2Proof.Machine.execChannelReceiveLand op s
  | .tinkerHandler req => Sys2Proof.Machine.execTinkerHandler req s
  | .tinkerHandlerEnd slice => Sys2Proof.Machine.execTinkerHandlerEnd slice s
  | .handlerInstructionLimit slice => Sys2Proof.Machine.execHandlerInstructionLimit slice s
  | .amsgReply op => Sys2Proof.Machine.execAmsgReply op s
  | .groupRetire slot => Sys2Proof.Machine.execGroupRetire slot s
  | .quantumExpiry slot => Sys2Proof.Machine.execQuantumExpiry slot s
  | .detCommit launch => Sys2Proof.Machine.execDetCommit launch s
  | .stail stream value => Sys2Proof.Machine.execStail stream value s
  | .registerWrite stream offset value => Sys2Proof.Machine.execRegisterWrite stream offset value s
  | .launch cmd => Sys2Proof.Machine.execLaunch cmd s
  | .qbind cmd => Sys2Proof.Machine.execQbind cmd s
  | .tlbinv cmd => Sys2Proof.Machine.execTlbinv cmd s
  | .setways cmd => Sys2Proof.Machine.execSetways cmd s
  | .scrwaysChangeApply core => Sys2Proof.Machine.execScrwaysChangeApply core s
  | .wait cmd => Sys2Proof.Machine.execWait cmd s
  | .cancel cmd => Sys2Proof.Machine.execCancel cmd s
  | .commandDependencyRelease cmd => Sys2Proof.Machine.execCommandDependencyRelease cmd s
  | .launchEnd launch => Sys2Proof.Machine.execLaunchEnd launch s
  | .tinkerImageInstall launch => Sys2Proof.Machine.execTinkerImageInstall launch s
  | .teamPlacement launch => Sys2Proof.Machine.execTeamPlacement launch s
  | .taskStart core => Sys2Proof.Machine.execTaskStart core s
  | .queueAppend queue => Sys2Proof.Machine.execQueueAppend queue s
  | .taskSuccessorStep task => Sys2Proof.Machine.execTaskSuccessorStep task s
  | .reresidenceTimeout cluster => Sys2Proof.Machine.execReresidenceTimeout cluster s
  | .preemptRequest cores => Sys2Proof.Machine.execPreemptRequest cores s
  | .preemptDrainEnd cluster => Sys2Proof.Machine.execPreemptDrainEnd cluster s
  | .preemptDrainTimeout cluster => Sys2Proof.Machine.execPreemptDrainTimeout cluster s
  | .preemptDeferExpiry slot => Sys2Proof.Machine.execPreemptDeferExpiry slot s
  | .hostHdmAccess addr data => Sys2Proof.Machine.execHostHdmAccess addr data s
  | .peerAccessArrival addr access => Sys2Proof.Machine.execPeerAccessArrival addr access s
  | .attestationRequest nonce => Sys2Proof.Machine.execAttestationRequest nonce s
  | .worldTableWrite block secure => Sys2Proof.Machine.execWorldTableWrite block secure s
  | .regionTableWrite index entry => Sys2Proof.Machine.execRegionTableWrite index entry s
  | .uncorrectableError site => Sys2Proof.Machine.execUncorrectableError site s
  | .powerStateChange quadrant core state => Sys2Proof.Machine.execPowerStateChange quadrant core state s
  | .unassignedOpcode w => Sys2Proof.Machine.execUnassignedOpcode w s
  | .portDown port => Sys2Proof.Machine.execPortDown port s
  | .correctedError site => Sys2Proof.Machine.execCorrectedError site s
  | .cancellationRecorded agent job => Sys2Proof.Machine.execCancellationRecorded agent job s
  | .maintenanceComplete op => Sys2Proof.Machine.execMaintenanceComplete op s
  | .tableInstall slice => Sys2Proof.Machine.execTableInstall slice s
  | .regang => Sys2Proof.Machine.execRegang s
  | .exit => Sys2Proof.Machine.execExit s
  | .nop => Sys2Proof.Machine.execNop s
  | .rtt => Sys2Proof.Machine.execRtt s
  | .yield => Sys2Proof.Machine.execYield s
  | .qend => Sys2Proof.Machine.execQend s
  | .injectionStarvationTimeout => Sys2Proof.Machine.execInjectionStarvationTimeout s
  | .linkErrorRetry => Sys2Proof.Machine.execLinkErrorRetry s
  | .linkTraining => Sys2Proof.Machine.execLinkTraining s
  | .coldStart => Sys2Proof.Machine.execColdStart s
  | .warmStart => Sys2Proof.Machine.execWarmStart s
  | .bistDone => Sys2Proof.Machine.execBistDone s
  | .trainDone => Sys2Proof.Machine.execTrainDone s
  | .fetchDone => Sys2Proof.Machine.execFetchDone s
  | .verifyDone => Sys2Proof.Machine.execVerifyDone s
  | .recoverDone => Sys2Proof.Machine.execRecoverDone s
  | .startupStepTimeout => Sys2Proof.Machine.execStartupStepTimeout s
  | .thermalSample => Sys2Proof.Machine.execThermalSample s
  | .thermalTrip => Sys2Proof.Machine.execThermalTrip s

end Sys2Proof.Machine
end

