-- ==== Sys2Proof/Machine/Issue.lean ====
section
/-!
DEFINITION. Issue: which groups may issue (R47, R292, R304, R306), breakpoints (R307), the fetch of
a word (R98) and its execution, and the choice that a bay makes (R47, R48).
-/
namespace Sys2Proof.Machine

open Sys2Proof

/-- The residence of the cluster that a group belongs to (R304). -/
def State.residence (s : State) (g : Group) : Residence :=
  (((s.team g.teamKey).bind fun t => s.cluster t.cluster).map (·.residence)).getD .gone

/-- Whether a group issues at all: resident, or stopping while it is in the handler that it was in at the STOP or,
in deterministic operation, until the round ends (R292, R304, R306); not halted (R295), its quantum not over (R292), its
launch neither terminated nor in the placement step of a round (R292). -/
def State.mayIssue (s : State) (g : Group) : Bool :=
  !g.halted && !g.quantumOver && !(((s.launch g.launch).map fun l => l.terminated || l.placing).getD true) &&
  match s.residence g with
  | .resident => true
  | .stopping since => g.handling since || Gs.det g.modes.gs
  | _ => false

/-! ## Breakpoints (R307) -/

namespace Debug
/-- The PC that a breakpoint names, bits [51:2] (R307). -/
def breakPc (a h : Word) : Nat := (h.extractLsb' 0 20).toNat * 2 ^ 32 + (a.extractLsb' 2 30).toNat * 4
def breaks (d : Debug) : List (Word × Word) := [(d.bka0, d.bkh0), (d.bka1, d.bkh1), (d.bka2, d.bkh2), (d.bka3, d.bkh3)]
end Debug

/-- The first breakpoint that fires for some lanes at a PC, with its lanes (R307). -/
def Group.breakHit (g : Group) (pc : VAddr) (lanes : List Nat) : Option (Nat × List Nat) :=
  let hits := g.dbg.breaks.mapIdx fun i b =>
    let lo := (b.2.extractLsb' 20 6).toNat
    let hi := (b.2.extractLsb' 26 6).toNat
    (i, if g.dbg.bkm.getLsbD i && Debug.breakPc b.1 b.2 == pc.toNat / 4 * 4 then
      lanes.filter fun l => decide (lo ≤ l ∧ l ≤ hi) else [])
  hits.find? fun h => !h.2.isEmpty

/-! ## Issue -/

/-- The meaning of a fetched word, or of an illegal one. -/
def runWord (w : Word) (s : State) : Out :=
  match decode w with
  | .ok i => exec i s
  | .error _ => exec (.unassignedOpcode w) s

/-- Whether some strands of the group in a slot are marked as stalled. -/
def Out.stalls (slot : Nat) (gang : List Nat) : Out → Bool
  | .next s => (match s.group slot with
    | some g => gang.any fun i => (g.strand i).stalled.isSome
    | none => false)
  | _ => false

/-- Run a fetched word for the gang at a PC: a breakpoint, an illegal word, or its meaning. A word that stalls is
not about to issue: a breakpoint fires when it no longer does (R69, R307). -/
def issueWord (s : State) (slot : Nat) (pc : VAddr) (g : Group) (gang : List Nat) (w : Word) : Out :=
  let s := { s with issue := { slot := slot, pc := pc } }
  let header := w.extractLsb' 28 4 == 15
  let tested := gang.filter fun i => !g.sched.noBreak.contains i
  let lanes := if header then g.execLanes tested else g.activeLanes tested
  let hit := if g.tm then none else g.breakHit pc lanes
  match hit with
  | some (i, ls) =>
    let r := runWord w (s.modGroup slot fun g => g.modStrands gang fun _ t => { t with stalled := none })
    if Out.stalls slot gang r then r
    else .next (s.raise slot { TrapInfo.at pc gang .break ls with sub := BitVec.ofNat 32 i })
  | none => runWord w s

/-- The gang at a PC of the group in a slot fetches its word and issues it; where no strand can
issue there nothing happens. -/
def issueTurn (s : State) (slot : Nat) (pc : VAddr) : Out :=
  match s.group slot with
  | none => .next s
  | some g =>
    let gang := g.gang pc
    if gang.isEmpty || !s.mayIssue g then .next s
    else
      match fetchWord s slot g pc with
      | .trap cause =>
        .next ((s.noteFault (slotCore slot) (s.rootOf g.launch) pc.toNat fetchUse cause).raise slot
          (TrapInfo.atAddr pc gang cause (g.execLanes gang) pc.toNat))
      | .wait s => .next (s.stall slot gang)
      | .word w s => issueWord s slot pc g gang w

/-! ## The choice of a bay (R47, R48) -/

/-- The strands that can be tried: in RUN, not waiting, and not known to be stalled. -/
def Group.tryable (s : State) (g : Group) : List Nat :=
  g.allStrands.filter fun i =>
    let t := g.strand i
    t.run == .run && t.block.isNone && t.stalled != some s.time.changes

/-- Groups that are ready, with their slots. -/
def State.readyGroups (s : State) : List (Nat × Group) :=
  s.slots.filter fun p => s.mayIssue p.2 && !(p.2.tryable s).isEmpty

/-- The better of two candidates: one that has waited 256 clk or more, and longest; else the older
one; ties go to the lower slot (R47). -/
def betterGroup (s : State) (a b : Nat × Group) : Nat × Group :=
  let late (x : Nat × Group) : Bool := decide (x.2.sched.lastIssue + 256 ≤ s.time.clk)
  if late a && late b then (if b.2.sched.lastIssue < a.2.sched.lastIssue then b else a)
  else if late a then a
  else if late b then b
  else if b.2.sched.resident < a.2.sched.resident then b else a

/-- The lowest strands of the gangs that can be tried, in ascending order (R37, R48). -/
def Group.readyGangs (s : State) (g : Group) : List Nat :=
  (g.tryable s).filter fun i => !(g.tryable s).any fun j => decide (j < i) && (g.strand j).pc == (g.strand i).pc

/-- The next gang round-robin after the one issued last, which its lowest strand names, wrapping round
(R48). -/
def nextGang (last : Option Nat) (gangs : List Nat) : Option Nat :=
  match last with
  | none => gangs.head?
  | some p => (gangs.find? fun i => decide (p < i)).or gangs.head?

/-- Whether a group that has yielded still stands back: for 64 clk, or until every other ready group
of its bay has issued since (R429). -/
def standsBack (s : State) (ready : List (Nat × Group)) (p : Nat × Group) : Bool :=
  p.2.sched.yielded && decide (s.time.clk < p.2.sched.lastIssue + 64) &&
  ready.any fun q => q.1 != p.1 && decide (q.2.sched.lastIssue ≤ p.2.sched.lastIssue)

/-- The bay of a slot (R23). -/
def slotBay (slot : Nat) : Nat := slot / 32

/-- When a bay last issued, as its groups remember it. -/
def State.bayIssued (s : State) (bay : Nat) : Nat :=
  s.slots.foldl (fun n p => if slotBay p.1 = bay then Nat.max n p.2.sched.lastIssue else n) 0

/-- The group that a bay picks among its ready groups (R47, R429). -/
def State.bayChoice (s : State) (ready : List (Nat × Group)) : Option (Nat × Group) :=
  let keen := ready.filter fun p => !standsBack s ready p
  match (if keen.isEmpty then ready else keen) with
  | [] => none
  | p :: ps => some (ps.foldl (betterGroup s) p)

/-- The issue of the model's own order (log 1): among the bays with a ready group, the one that issued
longest ago; it picks the group by R47 and the execution by R48. -/
def State.issueChoice (s : State) : Option (Nat × VAddr) :=
  let ready := s.readyGroups
  let bays := (ready.map fun p => slotBay p.1).eraseDups
  match bays with
  | [] => none
  | b :: bs =>
    let bay := bs.foldl (fun m x => if s.bayIssued x < s.bayIssued m then x else m) b
    (s.bayChoice (ready.filter fun p => slotBay p.1 == bay)).bind fun best =>
      (nextGang best.2.sched.lastGang (best.2.readyGangs s)).map fun i => (best.1, (best.2.strand i).pc)

end Sys2Proof.Machine
end

