-- ==== Sys2Proof/Machine/Schedule.lean ====
section
/-!
DEFINITION. Who moves next: time, the turns of the agenda, and the model's own order of turns where
the agenda names none (log 1).
-/
namespace Sys2Proof.Machine

open Sys2Proof

/-- Time passes: one step of the model, some GTS ticks, and the next number for free values (R28). -/
def State.advanceTime (s : State) : State :=
  { s with time := { s.time with clk := s.time.clk + 1, tick := s.time.tick + 1,
                                 gts := s.time.gts + Config.gtsElapse s.time.tick } }

/-- What is not an issue comes later than what caused it, since messages take more than the difference of two
readers of GTS (R323; log 2). -/
def State.later (s : State) : State := { s with time := { s.time with gts := s.time.gts + 1 } }

/-- An issue comes later than what has been logged, which may have been its cause (R323; log 2). -/
def State.afterLogged (s : State) : State := if s.sys.log.any fun e => decide (s.time.gts ≤ e.gts) then s.later else s

/-! ## What a deterministic group's word brings at once (R13) -/

/-- The state after an outcome; the state before it where there is none. -/
def Out.after (s : State) : Out → State
  | .next s' => s'
  | _ => s

/-- What an operation of a deterministic group does without a commit is done at once: a copy or a demand is carried
out whole, and completes or raises its late fault, and what was read lands. So nothing that the group sees, its
flags among it, differs between runs (R13, R250, R351; log 20). -/
def State.carryOut (s : State) (id : Nat) : State :=
  match s.op id with
  | some o =>
    let late (s : State) : State := (execLateFault id s).after s
    match o.kind with
    | .load | .scratchLoad => (execLoadLanding id s).after s
    | .reveal => (execSporeRevealLanding id s).after s
    | .inval => (execMaintenanceComplete id s).after s
    | .copy => (match o.copy with
      | some j => let s := late (s.copyWhole id j); (execCopyComplete id s).after s
      | none => s)
    | .tstore | .tforce => (match o.tile with
      | some j => let s := late (s.demandWhole o id j); (execDemandComplete id s).after s
      | none => s)
    | _ => s
  | none => s

/-- The same for all that a deterministic group has asked for, in the order of issue. -/
def State.runEngines (s : State) (slot : Nat) : State :=
  if s.isDet slot then (s.opsOf slot).foldl (fun s p => s.carryOut p.1) s else s

/-- What a word has asked for is carried out with it in deterministic operation (R13, R351). -/
def withEngines (slot : Nat) : Out → Out
  | .next s => .next (s.runEngines slot)
  | r => r

/-- Whether an instruction is an event that an agent brings about: a row of the table without bits,
but for the issue of a word with an unassigned opcode. -/
def isEvent : Instr → Bool
  | .unassignedOpcode _ => false
  | i => !i.isWord

/-! ## Reads of tables and rings (R211, R223, R226) -/

/-- A read of some bytes stands behind the pending operations of their words, but for those that the tables let a
read pass: they are applied first (R223, R226). -/
def State.readThrough (s : State) (a n : Nat) (det : Bool) : State :=
  (s.homeRead (s.served a).1 n (if det then 0 else s.freeKeeps a)).2

/-- The tables that a walk can reach from a table, `n` levels further down. -/
def State.tablesFrom (s : State) : Nat → Nat → List Nat
  | 0, table => [table]
  | n + 1, table => table :: (List.range 1024).flatMap fun i =>
      let e : Dword := BitVec.ofNat 64 (leNat (s.mem.read (s.served (table + 8 * i)).1 8))
      if tableOk e then s.tablesFrom n ((e.extractLsb' 13 39).toNat * 2 ^ 13) else []

/-- The root tables that the walks of a turn start from. -/
def Turn.roots (s : State) : Turn → List Nat
  | .issue slot _ => ((s.group slot).map fun g => s.rootOf g.launch).toList
  | .background (.copyBytes op ..) | .background (.granule op ..) =>
    (((s.op op).bind fun o => s.group o.slot).map fun g => s.rootOf g.launch).toList
  | .background (.fillTlb _ root _) => [root]
  | .occur (.taskSuccessorStep id) _ => ((s.successors.find id).map fun x => s.rootOf x.launch).toList
  | .occur (.tinkerImageInstall k) _ | .occur (.detCommit k) _ => [s.rootOf k]
  | _ => []

/-- The ranges that a turn reads at the home slices as a page walk or a queue engine does: tables of 8 KiB, and the
rings of the queues. -/
def Turn.reads (s : State) (t : Turn) : List (Nat × Nat) :=
  ((t.roots s).flatMap fun r => (s.tablesFrom 3 r).map fun a => (a, 8192)) ++
  (match t with
   | .occur (.taskStart _) _ | .occur (.teamPlacement _) _ => s.queues.map fun q => (q.2.ring, 2 ^ q.2.rlog)
   | _ => [])

/-- Before a turn whose walks, or whose queue engines, read memory: their reads are LDs of the words that they cover, and
stand at one moment, that of the turn. Nothing is to be done where no operation is pending. As a table entry may be
what a pending operation writes, this is done level by level. -/
def State.readTables (s : State) (t : Turn) : State :=
  if s.mem.pending.isEmpty then s
  else
    let det := (t.roots s).any fun r => s.launches.any fun l => l.2.desc.det && l.2.desc.root == r
    let pass (s : State) : State := (t.reads s).foldl (fun s r => s.readThrough r.1 r.2 det) s
    pass (pass (pass (pass s)))

/-- Where no operation is pending, a turn's walks and ring reads have nothing to wait for. -/
theorem readTables_quiet {s : State} (h : s.mem.pending = []) (t : Turn) : s.readTables t = s := by
  simp [State.readTables, h]

/-- A turn whose reads of tables and rings have been made. -/
def turnNow (s : State) : Turn → Out
  | .issue slot pc => withEngines slot (issueTurn s.afterLogged slot pc)
  | .occur i input => if isEvent i then exec i { s.later with input := input } else .next s
  | .background b => .next (s.later.progress b)

/-- One turn. -/
def runTurn (s : State) (t : Turn) : Out := turnNow (s.readTables t) t

/-! ## The model's own order (log 1) -/

/-- An event that needs nothing from outside. -/
def event (i : Instr) : Turn := .occur i { ok := true, values := [] }

/-- What may happen to a request. -/
def reqTurns (p : Nat × Req) : List Turn :=
  if p.2.admitted then
    match p.2.kind with
    | .read _ => [event (.sliceRead p.1 0)]
    | .write _ => [event (.sliceWrite p.1)]
    | .atomic .. => [event (.sliceAtomic p.1)]
    | .mop .. => [.background (.mopArrive p.1)]
    | .message .. => [event (.tinkerHandler p.1)]
    | .monitor => []
  else [event (.sliceIngressAdmit p.2.slice)]

/-- What may happen to an update. -/
def updateTurns (p : Nat × Update) : List Turn :=
  (p.2.cores.map fun c => event (.updateApply p.1 c)) ++ p.2.stations.map fun k => event (.updateAck p.1 k)

/-- The first sector of a copy that has not been written. -/
def nextChunk (j : CopyJob) : Nat :=
  ((List.range j.chunks).find? fun k => !(j.done.testBit k && j.arrived.testBit k)).getD 0

/-- What may happen to an operation. -/
def opTurns (s : State) (p : Nat × Op) : List Turn :=
  match p.2.kind with
  | .load | .scratchLoad => [event (.loadLanding p.1)]
  | .store | .atomicNoReturn | .mop => [event (.storeAck p.1)]
  | .atomic => [event (.atomReturn p.1)]
  | .mopr => [event (.moprReturn p.1)]
  | .reveal => [event (.sporeRevealLanding p.1)]
  | .send => [event (.channelSlotFill p.1)]
  | .receive => [event (.channelReceiveLand p.1)]
  | .copy => [event (.copyComplete p.1), event (.lateFault p.1),
      .background (.copyBytes p.1 ((p.2.copy.map nextChunk).getD 0) 0 0 0)]
  | .tstore | .tforce => [event (.demandComplete p.1), event (.lateFault p.1),
      .background (.granule p.1 ((p.2.tile.map (s.nextGranule p.2)).getD 0) none 0 0 0)]
  | .engineRead => [.background (.portReply p.1)]
  | .message => [event (.amsgReply p.1)]
  | .monitor => [event (.monitorRegistered p.2.slot)]
  | .clean | .inval | .discard => [event (.maintenanceComplete p.1)]
  | .install => []
  | .spawn => [event (.queueAppend p.2.aux)]
  | .cancelJob => p.2.lanes.head?.toList.map fun a => event (.cancellationRecorded a (leNat p.2.data))

/-- What may happen at a tinker. -/
def tinkerTurns (p : Nat × Tinker) : List Turn :=
  if p.2.running.isSome then
    [event (.tinkerHandlerEnd p.1), event (.handlerInstructionLimit p.1), .background (.tinkerStep p.1)]
  else []

/-- What may happen to a group, a cluster, a launch or a command. -/
def groupTurns (k : Nat) : List Turn :=
  [event (.mtimeout k), event (.quantumExpiry k), event (.groupRetire k), event (.preemptDeferExpiry k)]
def clusterTurns (k : Nat) : List Turn :=
  [event (.preemptDrainEnd k), event (.preemptDrainTimeout k), event (.reresidenceTimeout k)]
def launchTurns (s : State) (p : Nat × Launch) : List Turn :=
  [event (.tinkerImageInstall p.1), event (.teamPlacement p.1)] ++
  ((if p.2.desc.nteams = 0 then s.taskCore p.1 p.2 else none).toList.map fun c => event (.taskStart c.1)) ++
  [event (.detCommit p.1), event (.launchEnd p.1)]
def cmdTurns (p : Nat × Cmd) : List Turn :=
  [event (.commandDependencyRelease p.1), event (.launch p.1), event (.qbind p.1), event (.tlbinv p.1), event (.setways p.1),
   event (.wait p.1), event (.cancel p.1)]

/-- Turns that agents of the device may take, in the model's own order. -/
def State.deviceTurns (s : State) : List Turn :=
  s.mem.reqs.flatMap reqTurns ++ s.mem.updates.flatMap updateTurns ++ s.mem.ops.flatMap (opTurns s) ++
  (s.mem.pending.map fun p => event (.sliceMopApply p.addr .head)) ++
  ((s.mem.installs.head?.bind fun p => p.2.2.2.head?).toList.map fun k => event (.tableInstall k)) ++
  s.mem.tinkers.flatMap tinkerTurns ++
  (s.cores.flatMap fun p => [event (.l1MissReplay p.1), event (.scrwaysChangeApply p.1)]) ++
  (s.slots.flatMap fun p => groupTurns p.1) ++ (s.queues.map fun p => event (.queueAppend p.1)) ++
  (s.successors.map fun p => event (.taskSuccessorStep p.1)) ++ (s.clusters.flatMap fun p => clusterTurns p.1) ++
  s.launches.flatMap (launchTurns s) ++ s.cmds.flatMap cmdTurns

/-- Whether a turn changes something (R47). -/
def State.moves (s : State) (t : Turn) : Bool :=
  match runTurn s t with
  | .next s' => s'.time.changes != s.time.changes
  | _ => false

/-- The turns in the order in which they are tried at a time: the list turns with the time, so that no
agent waits for ever behind the others. -/
def turned (l : List Turn) (t : Nat) : List Turn :=
  let k := t % Nat.max 1 l.length
  l.drop k ++ l.take k

/-- The turn the model takes where the agenda names none: a bay's issue and the device's other agents
alternate. -/
def State.ownTurn (s : State) : Option Turn :=
  let issue := s.issueChoice.map fun p => Turn.issue p.1 p.2
  if s.time.clk % 2 = 1 ∧ issue.isSome then issue
  else ((turned s.deviceTurns (s.time.clk / 2)).find? s.moves).or issue

/-- The next turn: the head of the agenda, or the model's own choice. -/
def State.nextTurn (s : State) : Option Turn × State :=
  match s.agenda with
  | t :: ts => (some t, { s with agenda := ts })
  | [] => (s.ownTurn, s)

end Sys2Proof.Machine
end

