-- ==== Sys2Proof/Machine/Step.lean ====
section
/-!
DEFINITION. One step of the machine, and the placing of an instruction where the next step fetches.
-/
namespace Sys2Proof.Machine

open Sys2Proof

/-- One step: time passes and the agent whose turn it is moves. -/
def step (s : State) : Out :=
  let r := s.advanceTime.nextTurn
  match r.1 with
  | some t => runTurn r.2 t
  | none => .next r.2

/-! ## Placing an instruction (log 13) -/

namespace Place

/-- The page tables of the placed program, and its page: root, levels 1 to 3, and the leaf that maps
VA 0 to PA 0x1_0000 with every right, non-secure (R211, R212). -/
def tables : List (Nat × Nat) :=
  [(0x2000, 0x4001), (0x4000, 0x6001), (0x6000, 0x8001), (0x8000, 0x1003F)]

/-- Write an 8-byte entry. -/
def entry (m : Mem) (e : Nat × Nat) : Mem := m.write e.1 (leBytes 8 e.2)

/-- The address of the clause header and of its one body word. -/
def header : VAddr := 0x100
def body : VAddr := 0x104

/-- The launch that the placed program belongs to. -/
def desc : Desc where
  kaddr := header
  haddr := some 0x200
  root := 0x2000
  spillBase := 0x8000
  spillSize := 0x1000
  nteams := 1
  width := 16
  nregs := 252
  spores := 8
  scrways := 8
  scratch := 1024
  groups := 1
  cx := 1
  cy := 1
  slot := some 0
  det := false
  lq := 8
  prio := 0
  job := 0
  queues := []
  seed := 0
  sig := 0
  chbase := 0x4000
  chslots := 1
  chans := [(0, { source := 0, dest := 0, slots := 1 })]
  args := List.replicate 8 0
  elig := [0]
  tkimg := 0
  tksize := 0
  keys := List.replicate 16 0

/-- The placed program's launch, team and cluster, running. -/
def launch : Launch :=
  { desc := desc, ptr := 0, cmd := 0, phase := .run, next := 1, tasks := 0, scrways := 8,
    withheld := [], round := 0, terminated := false, imaged := false, firstIssue := none,
    cores := [0], placing := false, committed := [], base := [] }

def team : Team :=
  { launch := 0, index := 0, cluster := 0, rank := 0, core := 0, area := 0, slots := [0], saved := [],
    scratch := [], poison := [], bars := [], exited := [], begun := false, placed := 0 }

def cluster : Cluster :=
  { launch := 0, index := 0, teams := [0], bars := [], channels := startChannels desc,
    residence := .resident, timer := 0, immune := 0, claim := [] }

/-- The group, its strands before a header, or before the one body word of a clause. -/
def group (isHeader : Bool) : Group :=
  let g := Group.start desc 0 0 (gridIdent desc 0 0) (if isHeader then header else body) 0 0
  if isHeader then g
  else { g with strands := g.strands.map fun t =>
    { t with clause := some { hdr := header, len := 1, flagA := none, flagB := none } } }

end Place

/-- The state with an instruction stored where the next step fetches: a running launch of one group
in slot 0, whose page tables, page and word stand in memory, and the turn to issue it (log 13). -/
def State.withFetchWord (s : State) (nbits w : Nat) : State :=
  let word : Word := BitVec.ofNat 32 (w % 2 ^ nbits)
  let isHeader := word.extractLsb' 28 4 == 15
  let m := Place.tables.foldl Place.entry { s.mem with poison := [], pending := [], tlb := [] }
  let at' : VAddr := if isHeader then Place.header else Place.body
  let m := m.write (0x10000 + at'.toNat) (wordBytes word)
  { s with
    ids := Nat.max s.ids 1
    agenda := [.issue 0 at']
    slots := s.slots.put 0 (some (Place.group isHeader))
    teams := s.teams.put 0 (some Place.team)
    clusters := s.clusters.put 0 (some Place.cluster)
    launches := s.launches.put 0 (some Place.launch)
    cores := s.cores.put 0 (some { l1 := [], rejected := [], scrways := 8, ways := none, power := .on, shared := [] })
    mem := m
    sys := { s.sys with boot := .run, regions := [] } }

end Sys2Proof.Machine
end

