-- ==== Sys2Proof/Safety.lean ====
section
/-!
DEFINITION. The terms in which claims are stated: canonical form, when a word issues, what a retired word
leaves behind and what it leaves unchanged, and the form of each lane-wise instruction.
-/
namespace Sys2Proof.Machine

open Sys2Proof

/-! ## Canonical form -/

/-- Memory in canonical form: addresses rise strictly, no byte of HBM, host or peer memory is listed that equals
what an unlisted one reads as, and only bytes of local HBM are dirty in L2 or on their way to HBM (R194). -/
def Memory.wf (m : Mem) : Bool :=
  Sparse.sortedFrom 0 m.bytes && m.bytes.all (fun p => p.2 != 0) &&
  Sparse.sortedFrom 0 m.dirty && m.dirty.all (fun p => decide (p.1 < hbmSize)) &&
  m.queue.all fun w => Sparse.sortedFrom 0 w.2 && w.2.all fun p => decide (p.1 < hbmSize)

/-! ## When a word issues (R37, R47, R69, R118) -/

/-- The execution that stands ready to issue: the group in the issuing slot and its gang at the issuing
PC (R37). -/
def issuer (s : State) : Option Ctx :=
  (s.group s.issue.slot).map fun g => { slot := s.issue.slot, pc := s.issue.pc, g := g, gang := g.gang s.issue.pc }

/-- The execution `c` stands ready to issue in a group that runs: neither halted nor past its quantum. -/
abbrev Stands (s : State) (c : Ctx) : Prop :=
  issuer s = some c ∧ c.gang ≠ [] ∧ c.g.halted = false ∧ c.g.quantumOver = false

/-- The execution `c` issues in state `s` a word with the needs `n`: it stands ready, steps 1, 4 and 5 of
R118 pass, and no operation of the group is still to write an operand (R69). -/
abbrev Issues (s : State) (c : Ctx) (n : Needs) : Prop :=
  Stands s c ∧ firstFault c n = none ∧ ∀ p ∈ s.opsOf c.slot, hazard c n p.2 = false

/-- No STEP follows the execution (R309). -/
abbrev NoStep (c : Ctx) : Prop := Gs.ss c.g.modes.gs = false ∨ c.g.tm = true

/-- None of the flags of some lanes is enabled as a trap, or TM is set (R67). -/
abbrev NoTrap (g : Group) (outs : List (Nat × Flags)) : Prop := flagTrap g outs = none

/-! ## What a retired word leaves behind -/

/-- The group with its gang moved to the next word. -/
def Ctx.past (c : Ctx) (g : Group) : Group := g.modStrands c.gang fun _ t => t.advance

/-- `t` is `s` after the execution `c` has retired and left its group as `h`: the execution is counted
(R77), and no other group, no team and no launch changes. -/
structure Retires (s : State) (c : Ctx) (h : Group) (t : State) : Prop where
  here     : t.group c.slot = some (h.retired s.time.clk c.gang)
  others   : ∀ k, k ≠ c.slot → t.group k = s.group k
  teams    : t.teams = s.teams
  launches : t.launches = s.launches
  time     : t.time = { s.time with changes := s.time.changes + 1 }

/-- Everything outside groups, teams, launches, time and memory is the same. -/
structure SameDevice (s t : State) : Prop where
  agenda     : t.agenda = s.agenda
  issue      : t.issue = s.issue
  input      : t.input = s.input
  clusters   : t.clusters = s.clusters
  streams    : t.streams = s.streams
  cmds       : t.cmds = s.cmds
  handles    : t.handles = s.handles
  queues     : t.queues = s.queues
  successors : t.successors = s.successors
  cancels    : t.cancels = s.cancels
  sys        : t.sys = s.sys

/-- The same, and memory, L1 and the operations in flight are the same too. -/
structure SameMachine (s t : State) : Prop extends SameDevice s t where
  ids   : t.ids = s.ids
  cores : t.cores = s.cores
  mem   : t.mem = s.mem

/-- Every byte of memory reads as before. -/
def SameBytes (s t : State) : Prop := ∀ a, t.mem.byte a = s.mem.byte a

/-! ## Registers -/

/-- What an operand of `n` registers holds of a 64-bit value (R55). -/
def fitted (n : Nat) (x : Dword) : Dword := if n = 1 then (x.setWidth 32).setWidth 64 else x

/-- The MMAR latch after a write of an operand: gone where a register of it is in the range (R151). -/
def latchPast (m : Option (Nat × Nat)) (o : Opnd) : Option (Nat × Nat) :=
  match m with
  | some (a, n) => if (List.range o.count).any fun i => decide (a ≤ o.reg + i ∧ o.reg + i < a + n) then none else some (a, n)
  | none => none

/-- `g` is the group of `c` where the operand `o` of each of some lanes holds its own value, every other
register of every lane is as before, and nothing else but the flags in GS and the latch of MMAR may
differ. -/
structure Writes (c : Ctx) (o : Opnd) (lanes : List Nat) (val : Nat → Dword) (g : Group) : Prop where
  written : ∀ l ∈ lanes, g.read o.reg o.count l = fitted o.count (val l)
  kept    : ∀ r l, ¬ (l ∈ lanes ∧ o.reg ≤ r ∧ r < o.reg + o.count) → g.reg r l = c.g.reg r l
  latch   : g.mmar = if lanes = [] then c.g.mmar else latchPast c.g.mmar o
  rest    : g = { c.g with regs := g.regs, mmar := g.mmar, modes := g.modes }

/-- Sticky flags are recorded in GS and no other mode changes (R9). -/
def Flagged (c : Ctx) (f : Flags) (g : Group) : Prop :=
  g.modes = { c.g.modes with gs := c.g.modes.gs ||| f.sticky }

/-! ## Scalar reads and strands (R35, R58, R120) -/

/-- What an execution reads through a uniform operand (R58). -/
def Ctx.uniform (c : Ctx) (o : Opnd) : Dword := c.g.read o.reg o.count (c.g.uniformLane c.gang)

/-- The NUR flags of some uniform operands, as each lane in exec of the gang raises them (R58). -/
def Ctx.nur (c : Ctx) (os : List Opnd) : List (Nat × Flags) :=
  (c.g.execLanes c.gang).map fun l =>
    (l, (os.map fun o => c.g.scalarOpnd c.gang o.reg o.count).foldl (fun a x => a ||| x.2) 0)

/-- The group after its scalar reads: GS has recorded their flags (R58). -/
def Ctx.after (c : Ctx) (os : List Opnd) : Group := c.g.raiseFlags (allFlags (c.nur os))

/-- The execution issues with some uniform operands, no STEP follows it, and NUREAD is not enabled where they
differ. -/
abbrev IssuesUniform (s : State) (c : Ctx) (n : Needs) (os : List Opnd) : Prop :=
  Issues s c n ∧ NoStep c ∧ NoTrap c.g (c.nur os)

/-- The group with its gang moved to a target (R120). -/
def Ctx.jumped (c : Ctx) (g : Group) (target : VAddr) : Group :=
  g.modStrands c.gang fun _ t => { t with pc := target, clause := none, stalled := none, aliasing := none }

/-- The execution retires, its group is left as `h`, and nothing else changes. -/
def Leaves (s : State) (c : Ctx) (h : Group) (r : Out) : Prop :=
  ∃ t, r = .next t ∧ Retires s c h t ∧ SameMachine s t

/-- The strands of a group become what a relation gives, and nothing else of it changes. -/
structure Strands (g h : Group) (rel : Nat → Strand → Strand → Prop) : Prop where
  each : ∀ i < g.strands.length, rel i (g.strand i) (h.strand i)
  same : h.strands.length = g.strands.length
  rest : h = { g with strands := h.strands }

/-- A mask names the lanes of strand `i` in a list. -/
def MaskOf (i : Nat) (ls : List Nat) (m : BitVec 4) : Prop := ∀ j < 4, m.getLsbD j = ls.contains (4 * i + j)

/-- What R41 leaves of strands that have come to be as `after` says: where every one that has not exited waits
at a REGANG, each goes on past its own; else each stays. -/
def Released (g : Group) (after : Nat → Strand) (h : Group) : Prop :=
  let every := ∀ i < g.strands.length, (after i).exited = false → (after i).waitsAt.isSome = true
  Strands g h fun i _ u =>
    (¬ every → u = after i) ∧ (every → (after i).waitsAt = none → u = after i) ∧
    (every → ∀ p, (after i).waitsAt = some p →
      u = { after i with run := .run, pc := p + 4, stalled := none, aliasing := none })

/-- The gang cannot issue its word yet: its strands are marked as stalled there, and where the group waits for a
commit its quantum ends; nothing else changes (R47, R292). -/
def Stalls (s : State) (c : Ctx) (r : Out) : Prop :=
  r = .next (s.stall c.slot c.gang) ∨ r = .next ((s.stall c.slot c.gang).modGroup c.slot Group.endQuantum)

/-- No strand of the group waits at a barrier (R301). -/
abbrev NoWait (g : Group) : Prop := ∀ i, g.waits (.bar i) = false ∧ g.waits (.barc i) = false

/-! ## The forms of the lane-wise instructions (R7, R57, R109) -/

/-- The operands of each lane-wise vector instruction and the function of one lane. -/
def vectorForm : Instr → Option (Word → Form)
  | .add d a b => some (intForm2 Elem.add d a b)
  | .sub d a b => some (intForm2 Elem.sub d a b)
  | .mul d a b => some (intForm2 Elem.mul d a b)
  | .mulhi d a b => some (intForm2 (fun t _ => Elem.mulhi t) d a b)
  | .madlo d a b => some (intForm3 Elem.madlo d a b)
  | .min d a b => some (intForm2 (fun t _ => Elem.min t) d a b)
  | .max d a b => some (intForm2 (fun t _ => Elem.max t) d a b)
  | .and d a b => some (bitForm2 (· &&& ·) d a b)
  | .or d a b => some (bitForm2 (· ||| ·) d a b)
  | .xor d a b => some (bitForm2 (· ^^^ ·) d a b)
  | .shl d a b => some (shiftForm Elem.shl d a b)
  | .shr d a b => some (shiftForm Elem.shr d a b)
  | .sha d a b => some (shiftForm Elem.sha d a b)
  | .rol d a b => some (shiftForm Elem.rol d a b)
  | .cmpEq d a b => some (cmpForm .eq d a b)
  | .cmpNe d a b => some (cmpForm .ne d a b)
  | .cmpLt d a b => some (cmpForm .lt d a b)
  | .cmpLe d a b => some (cmpForm .le d a b)
  | .sel d a b => some (selForm d a b)
  | .bfx d a b => some (bfxForm d a b)
  | .bfi d a b => some (bfiForm d a b)
  | .mov d a => some (movForm d a)
  | .movp d a => some (movpForm d a)
  | .movi d imm => some (moviForm d imm)
  | .movhi d imm => some (movhiForm d imm)
  | .addi d imm => some (addiForm d imm)
  | .abs d a => some (intForm1 Elem.abs d a)
  | .neg d a => some (intForm1 Elem.neg d a)
  | .not d a => some (notForm d a)
  | .clz d a => some (intForm1 (fun t _ => Elem.clz t) d a)
  | .popc d a => some (intForm1 (fun t _ => Elem.popc t) d a)
  | .brev d a => some (intForm1 (fun t _ => Elem.brev t) d a)
  | .fadd d a b => some (fpForm2 Fp.add d a b)
  | .fsub d a b => some (fpForm2 Fp.sub d a b)
  | .fmul d a b => some (fpForm2 Fp.mul d a b)
  | .fma d a b => some (fmaForm d a b)
  | .fmin d a b => some (minmaxForm false d a b)
  | .fmax d a b => some (minmaxForm true d a b)
  | .fcmpEq d a b => some (fcmpForm .eq d a b)
  | .fcmpLt d a b => some (fcmpForm .lt d a b)
  | .fcmpLe d a b => some (fcmpForm .le d a b)
  | .fcmpUn d a b => some (fcmpForm .un d a b)
  | .frcp d a => some (specialForm .rcp d a)
  | .frsq d a => some (specialForm .rsq d a)
  | .fsqrt d a => some (specialForm .sqrt d a)
  | .fex2 d a => some (specialForm .ex2 d a)
  | .flg2 d a => some (specialForm .lg2 d a)
  | .fsin d a => some (specialForm .sin d a)
  | .fcos d a => some (specialForm .cos d a)
  | .ftnh d a => some (specialForm .tnh d a)
  | .fclass d a => some (fclassForm d a)
  | .cvt d a src => some (cvtForm d a src)
  | .rnenc d a => some (rnencForm d a)
  | .rndec d a => some (rndecForm d a)
  | _ => none

/-- The vector instruction that each scalar twin repeats (R57). -/
def twinOf : Instr → Option Instr
  | .addS d a b => some (.add d a b)
  | .subS d a b => some (.sub d a b)
  | .mulS d a b => some (.mul d a b)
  | .mulhiS d a b => some (.mulhi d a b)
  | .madloS d a b => some (.madlo d a b)
  | .minS d a b => some (.min d a b)
  | .maxS d a b => some (.max d a b)
  | .andS d a b => some (.and d a b)
  | .orS d a b => some (.or d a b)
  | .xorS d a b => some (.xor d a b)
  | .shlS d a b => some (.shl d a b)
  | .shrS d a b => some (.shr d a b)
  | .shaS d a b => some (.sha d a b)
  | .rolS d a b => some (.rol d a b)
  | .cmpEqS d a b => some (.cmpEq d a b)
  | .cmpNeS d a b => some (.cmpNe d a b)
  | .cmpLtS d a b => some (.cmpLt d a b)
  | .cmpLeS d a b => some (.cmpLe d a b)
  | .selS d a b => some (.sel d a b)
  | .bfxS d a b => some (.bfx d a b)
  | .bfiS d a b => some (.bfi d a b)
  | .movS d a => some (.mov d a)
  | .movpS d a => some (.movp d a)
  | .moviS d imm => some (.movi d imm)
  | .movhiS d imm => some (.movhi d imm)
  | .addiS d imm => some (.addi d imm)
  | .absS d a => some (.abs d a)
  | .negS d a => some (.neg d a)
  | .notS d a => some (.not d a)
  | .clzS d a => some (.clz d a)
  | .popcS d a => some (.popc d a)
  | .brevS d a => some (.brev d a)
  | .faddS d a b => some (.fadd d a b)
  | .fsubS d a b => some (.fsub d a b)
  | .fmulS d a b => some (.fmul d a b)
  | .fmaS d a b => some (.fma d a b)
  | _ => none

/-- What a scalar twin reads: its sources once for the gang, and their NUR flags (R57, R58). -/
def twinReads (f : Form) (c : Ctx) : List (Dword × Flags) := f.srcs.map fun o => c.g.scalarOpnd c.gang o.reg o.count

/-- The value that a scalar twin writes, and all its flags (R57). -/
def twinResult (f : Form) (c : Ctx) : Dword × Flags :=
  let r := f.fn ((twinReads f c).map (·.1))
  (r.1, (twinReads f c).foldl (fun a x => a ||| x.2) r.2)

/-! ## Values of elements (R122 to R124) -/

/-- elem_k(x): element `k` of an operand read in an element type (R326). -/
def elemOf (t : ElemType) (k : Nat) (x : Dword) : Int := Elem.value t.signed t.bits (Elem.raw t.bits k x)

/-- Bit `j` of element `k`. -/
def elemBit (t : ElemType) (k j : Nat) (x : Dword) : Bool := x.getLsbD (t.bits * k + j)

/-- Fit (R124): an element holds an exact integer modulo 2^b, or with SAT the nearest value in the range. -/
def Fits (t : ElemType) (sat : Bool) (exact got : Int) : Prop :=
  if sat then got = Elem.clamp (Elem.lowest t.signed t.bits) (Elem.highest t.signed t.bits) exact
  else (got - exact) % 2 ^ t.bits = 0

/-- An instruction completes lane by lane under the modes that hold: every active lane's destination is
related to the registers as they were, every other register stays, and so does everything else but the PC,
the counters and the latch of MMAR (R7). -/
def LaneWise (i : Instr) (dst : Opnd) (srcs : List Opnd) (okModes : Word → Prop)
    (rel : Group → Nat → Dword → Prop) : Prop :=
  ∀ (s : State) (c : Ctx), okModes c.g.modes.gm → Issues s c (Needs.regs (dst :: srcs)) → NoStep c →
    ∃ t g, exec i s = .next t ∧ Retires s c (c.past g) t ∧ SameMachine s t ∧
      (∀ l ∈ c.lanes, rel c.g l (g.read dst.reg dst.count l)) ∧
      (∀ r l, ¬ (l ∈ c.lanes ∧ dst.reg ≤ r ∧ r < dst.reg + dst.count) → g.reg r l = c.g.reg r l) ∧
      g = { c.g with regs := g.regs, mmar := g.mmar }

/-- An operand that is a pair under a 64-bit element type, else one register (R109). -/
def opndOf (t : ElemType) (r : Reg) : Opnd := if t.wide then .two r else .one r

/-- What a lane reads through an operand. -/
def readOf (g : Group) (o : Opnd) (l : Nat) : Dword := g.read o.reg o.count l

/-- An instruction computes lane by lane as `LaneWise` says, with none of the conditions in `quiet` enabled to trap
and only their sticky bits raised in GS (R9, R67). -/
def Computes (quiet : List Nat) (i : Instr) (dst : Opnd) (srcs : List Opnd) (okModes : Word → Prop)
    (rel : Group → Nat → Dword → Prop) : Prop :=
  ∀ (s : State) (c : Ctx), okModes c.g.modes.gm → (∀ j ∈ quiet, c.g.modes.xen.getLsbD j = false) →
    Issues s c (Needs.regs (dst :: srcs)) → NoStep c →
    ∃ t g, exec i s = .next t ∧ Retires s c (c.past g) t ∧ SameMachine s t ∧
      (∀ l ∈ c.lanes, rel c.g l (g.read dst.reg dst.count l)) ∧
      (∀ r l, ¬ (l ∈ c.lanes ∧ dst.reg ≤ r ∧ r < dst.reg + dst.count) → g.reg r l = c.g.reg r l) ∧
      g = { c.g with regs := g.regs, mmar := g.mmar, modes := { c.g.modes with gs := g.modes.gs } } ∧
      ∀ j, (j ∉ quiet → g.modes.gs.getLsbD j = c.g.modes.gs.getLsbD j) ∧
        (c.g.modes.gs.getLsbD j = true → g.modes.gs.getLsbD j = true)

/-! ## Values of the floating formats (R8, R127) -/

/-- The precision of a floating element type (R127). -/
def precOf : ElemType → Nat
  | .f64 => 53
  | .f16x2 => 11
  | .bf16x2 => 8
  | _ => 24

/-- The smallest positive value of a floating element type is 2 to the minus this; it is the type's unit (R127). -/
def unitOf : ElemType → Nat
  | .f64 => 1074
  | .f16x2 => 24
  | .bf16x2 => 133
  | _ => 149

/-- The patterns of infinity, of the canonical NaN and of one, and the bit of the sign (R127, R130). -/
def infOf (t : ElemType) : Nat := 2 ^ (t.bits - 1) - 2 ^ (precOf t - 1)
def nanOf (t : ElemType) : Nat := infOf t + 2 ^ (precOf t - 2)
def oneOf (t : ElemType) : Nat := (2 ^ (t.bits - precOf t - 1) - 1) * 2 ^ (precOf t - 1)
def signOf (t : ElemType) (neg : Bool) : Nat := if neg then 2 ^ (t.bits - 1) else 0

/-- A pattern without its sign, and its sign. -/
def lowOf (t : ElemType) (n : Nat) : Nat := n % 2 ^ (t.bits - 1)
def negOf (t : ElemType) (n : Nat) : Bool := n.testBit (t.bits - 1)

/-- The magnitude of a pattern without its sign, in units; the pattern of infinity counts as the value that would
follow the largest finite one (R127). -/
def magOf (t : ElemType) (n : Nat) : Nat :=
  let p := 2 ^ (precOf t - 1)
  if n < p then n else (n % p + p) * 2 ^ (n / p - 1)

/-- The value of a pattern that is no NaN, in units. -/
def valOf (t : ElemType) (n : Nat) : Int := if negOf t n then -(magOf t (lowOf t n) : Int) else magOf t (lowOf t n)

abbrev FiniteIn (t : ElemType) (n : Nat) : Prop := lowOf t n < infOf t
abbrev NanIn (t : ElemType) (n : Nat) : Prop := infOf t < lowOf t n

/-- What an instruction reads of a pattern: with `ftz`, a subnormal of a type other than f64 is a zero of its sign
(R129). -/
def flushed (t : ElemType) (ftz : Bool) (n : Nat) : Nat :=
  if ftz = true ∧ t ≠ .f64 ∧ lowOf t n < 2 ^ (precOf t - 1) then signOf t (negOf t n) else n

/-- Round (R8): `n` is the pattern, its sign left out, that the mode gives for a positive magnitude, of which `than`
tells how it compares with a number of quarter units. -/
def RoundsTo (t : ElemType) (rm : RMode) (neg : Bool) (than : Nat → Ordering) (n : Nat) : Prop :=
  let w := magOf t
  let inf := infOf t
  let down := n < inf ∧ than (4 * w n) ≠ .lt ∧ (n + 1 = inf ∨ than (4 * w (n + 1)) = .lt)
  let away := n ≤ inf ∧ (n = inf ∨ than (4 * w n) ≠ .gt) ∧ (n = 0 ∨ than (4 * w (n - 1)) = .gt)
  let mid (i : Nat) : Nat := 2 * (w i + w (i + 1))
  match rm with
  | .rtz => down
  | .rup => if neg then down else away
  | .rdn => if neg then away else down
  | .rne => n ≤ inf ∧ (n = 0 ∨ than (mid (n - 1)) = .gt ∨ (than (mid (n - 1)) = .eq ∧ n % 2 = 0)) ∧
      (n = inf ∨ than (mid n) = .lt ∨ (than (mid n) = .eq ∧ n % 2 = 0))
  | .rna => n ≤ inf ∧ (n = 0 ∨ than (mid (n - 1)) ≠ .lt) ∧ (n = inf ∨ than (mid n) = .lt)

/-- Whether a mode rounds towards zero for a sign (R8). -/
def towardsZero (rm : RMode) (neg : Bool) : Bool :=
  match rm with
  | .rtz => true
  | .rup => neg
  | .rdn => !neg
  | _ => false

/-- Whether a mode rounds away from zero for a sign (R8). -/
def awayFromZero (rm : RMode) (neg : Bool) : Bool :=
  match rm with
  | .rup => !neg
  | .rdn => neg
  | _ => false

/-- Whether a magnitude is tiny: rounded with an unbounded exponent it lies below the smallest normal, and just below
that neighbouring values are half a unit apart (R8). -/
def TinyIn (t : ElemType) (rm : RMode) (neg : Bool) (than : Nat → Ordering) : Prop :=
  let normal := 4 * 2 ^ (precOf t - 1)
  if towardsZero rm neg then than normal = .lt
  else if awayFromZero rm neg then than (normal - 2) ≠ .gt
  else than (normal - 1) = .lt

/-- A whole pattern is that of a sign and a rounded magnitude; with `ftz`, a tiny one of a type other than f64 is zero
(R8, R129). -/
def Rounded (t : ElemType) (rm : RMode) (ftz neg : Bool) (than : Nat → Ordering) (w : Nat) : Prop :=
  let flush := ftz = true ∧ t ≠ .f64 ∧ TinyIn t rm neg than
  negOf t w = neg ∧ (flush → lowOf t w = 0) ∧ (¬ flush → RoundsTo t rm neg than (lowOf t w))

/-- A whole pattern is the rounding of an exact value that is not zero, in squares of a unit (R8). -/
def RoundedSum (t : ElemType) (rm : RMode) (ftz : Bool) (exact : Int) (w : Nat) : Prop :=
  Rounded t rm ftz (decide (exact < 0)) (fun y => compare exact.natAbs (y * 2 ^ (unitOf t - 2))) w

/-- A whole pattern is the rounding of a value less in magnitude than that of the pattern `n` by next to nothing; with
`ftz`, one that comes to a subnormal of a type other than f64 is zero (R8, R129). -/
def JustBelow (t : ElemType) (rm : RMode) (ftz neg : Bool) (n w : Nat) : Prop :=
  w = flushed t ftz (signOf t neg + (n - if towardsZero rm neg then 1 else 0))

/-- The value of an f32 pattern in squares of its unit, and none of an infinity or a NaN. -/
def exactOf (w : Nat) : Option Int := if FiniteIn .f32 w then some (valOf .f32 w * 2 ^ 149) else none

/-- A pattern is the f32 rounding of the exact sum of some values, where all of them are finite (R141). -/
def Totals (xs : List (Option Int)) (w : Nat) : Prop := ∀ vs : List Int, xs = vs.map some →
  (vs.sum = 0 → lowOf .f32 w = 0) ∧ (vs.sum ≠ 0 → RoundedSum .f32 .rne false vs.sum w)

/-- One level of TREE over another: neighbours are added and rounded, and an odd last entry passes up (R141). -/
def LevelTo : List (Option Int) → List (Option Int) → Prop
  | a :: b :: r, l => ∃ w l', Totals [a, b] w ∧ l = exactOf w :: l' ∧ LevelTo r l'
  | r, l => l = r

/-- A pattern is the sum of C and exact products under a summation shape: FUSED, SEQ, TREE or BLK4 (R141). -/
def Shaped (ss c : Nat) (ps : List Int) (w : Nat) : Prop :=
  let xs := ps.map some
  match ss with
  | 0 => Totals (exactOf c :: xs) w
  | 1 => ∃ s : Nat → Nat, s 0 = c ∧ (∀ i < ps.length, Totals [exactOf (s i), some (ps.getD i 0)] (s (i + 1))) ∧
      w = s ps.length
  | 2 => ∃ (level : Nat → List (Option Int)) (n : Nat) (t : Option Int), level 0 = xs ∧
      (∀ i < n, LevelTo (level i) (level (i + 1))) ∧ level n = [t] ∧ Totals [exactOf c, t] w
  | _ => ∃ s : Nat → Nat, s 0 = c ∧ (∀ i, 4 * i < ps.length → ∃ run,
      Totals ((xs.drop (4 * i)).take 4) run ∧ Totals [exactOf (s i), exactOf run] (s (i + 1))) ∧
      w = s ((ps.length + 3) / 4)

/-- An integer is the rounding of a value of `x` parts, of which `one` make one (R8, R133). -/
def RoundsInt (rm : RMode) (x : Int) (one : Nat) (n : Int) : Prop :=
  let floor := n * one ≤ x ∧ x < (n + 1) * one
  let ceiling := (n - 1) * one < x ∧ x ≤ n * one
  let off := 2 * (x - n * one).natAbs
  match rm with
  | .rtz => if 0 ≤ x then floor else ceiling
  | .rup => ceiling
  | .rdn => floor
  | .rne => off < one ∨ (off = one ∧ n % 2 = 0)
  | .rna => off < one ∨ (off = one ∧ x.natAbs < (n * one).natAbs)

/-- The new value `r` of a word of value `o` under a class function and an operand `a` (R222, R332). -/
def NewValue (fn : Nat) (t : ElemType) (rm : RMode) (o a r : Nat) : Prop :=
  let v (n : Nat) : Int := Elem.value t.signed t.bits n
  let el (n k : Nat) : Nat := Elem.raw t.bits k (BitVec.ofNat 64 n)
  let key (x : Nat) : Int := if negOf t x then -(lowOf t x : Int) - 1 else lowOf t x
  let each (ok : Nat → Nat → Nat → Prop) : Prop := r < 2 ^ 32 ∧ ∀ k < t.count, ok (el o k) (el a k) (el r k)
  let exact (of : Int → Int → Int) : Prop := each fun x y z =>
    (NanIn t x ∨ NanIn t y → z = nanOf t) ∧ (FiniteIn t x → FiniteIn t y → of (valOf t x) (valOf t y) ≠ 0 →
      RoundedSum t rm false (of (valOf t x) (valOf t y)) z)
  match fn with
  | 0 => r < 2 ^ t.bits ∧ (v r - (v o + v a)) % 2 ^ t.bits = 0
  | 1 => r = if v a < v o then a else o
  | 2 => r = if v o < v a then a else o
  | 3 => r = o &&& a
  | 4 => r = o ||| a
  | 5 => r = o ^^^ a
  | 6 => exact fun x y => (x + y) * 2 ^ unitOf t
  | 7 => exact fun x y => (y - x) * 2 ^ unitOf t
  | 8 => each fun x y z => z = if NanIn t x ∨ NanIn t y then nanOf t else if key y < key x then y else x
  | 9 => each fun x y z => z = if NanIn t x ∨ NanIn t y then nanOf t else if key x < key y then y else x
  | _ => exact fun x y => x * y

/-! ## Residues (R134 to R136) -/

/-- The moduli of a residue type with the fields that a code holds for them (R134). -/
def residuesOf (t : ElemType) (code : Nat) : List (Nat × Nat) :=
  if t = .rn16 then [(31, code % 32), (32, code / 32 % 32), (33, code / 1024)]
  else [(4, code % 4), (5, code / 4 % 8), (7, code / 32)]

/-- A code holds the residues of an integer; a code is poison (R135). -/
def Holds (t : ElemType) (code : Nat) (v : Int) : Prop := ∀ f ∈ residuesOf t code, v % f.1 = f.2
def Poison (t : ElemType) (code : Nat) : Prop := ∃ f ∈ residuesOf t code, f.1 ≤ f.2

/-- The value range of a residue type (R134), and ResEnc: the integer whose residues are written (R136). -/
def loOf (t : ElemType) : Int := if t = .rn16 then -16368 else -70
def hiOf (t : ElemType) : Int := if t = .rn16 then 16367 else 69
def resFit (t : ElemType) (sat : Bool) (v : Int) : Int := if sat then Elem.clamp (loOf t) (hiOf t) v else v

/-! ## Taking a trap (R293, R294) -/

/-- The trap registers tell of a trap (R293, R294, R296). -/
structure TellsOf (alive : List Nat) (t : TrapInfo) (r : TrapRegs) : Prop where
  cause : r.xcause = BitVec.ofNat 32 t.cause.code
  sub   : r.xsub = t.sub
  pc    : r.xpch ++ r.xpcl = t.pc.setWidth 64
  npc   : r.xnpch ++ r.xnpcl = t.npc.setWidth 64
  addr  : r.xaddrh ++ r.xaddrl = BitVec.ofNat 64 t.addr
  node  : r.xnode = t.node
  lanes : r.xlm1 ++ r.xlm0 = t.lanes
  live  : ∀ i < 16, r.xstr.getLsbD (16 + i) = alive.contains i
  gang  : ∀ i < 16, r.xstr.getLsbD i = (alive.contains i && t.gang.contains i)

/-- A strand that has not exited enters the handler with a resume record (R293). -/
def entered (h : VAddr) (t : Strand) : Strand :=
  { t with exec := t.live, run := .run, pc := h, clause := none, block := none, stalled := none, aliasing := none
           record := some { pc := t.pc, clause := t.clause, exec := t.exec, kept := t.exec,
                            depth := t.stack.length, run := t.run, block := t.block } }

/-- The group enters its handler: its trap registers tell of the trap, TM is set, every strand that is not
EXITED starts at HADDR, and no register and no other mode changes (R293); when it did so is noted (R306). -/
structure EntersHandler (g : Group) (h : VAddr) (t : TrapInfo) (g' : Group) : Prop where
  told    : TellsOf g.liveStrands t g'.trap
  modes   : g'.modes = { g.modes with gs := g.modes.gs ||| 0x200 }
  strands : g'.strands = g.strands.map fun u => if u.exited then u else entered h u
  rest    : g' = { g with trap := g'.trap, modes := g'.modes, strands := g'.strands, fencing := none,
                          entered := g'.entered }

/-- `u` is `s` after the group `g` at slot `k` has taken a trap (R293). -/
structure TakesTrap (s : State) (k : Nat) (g : Group) (h : VAddr) (t : TrapInfo) (u : State) : Prop where
  here     : ∃ g', u.group k = some g' ∧ EntersHandler g h t g'
  others   : ∀ j, j ≠ k → u.group j = s.group j
  teams    : u.teams = s.teams
  launches : u.launches = s.launches
  machine  : SameMachine s u

/-- The group at a slot can take a trap: a strand of it lives, TM is clear, and its launch has a handler. -/
abbrev CanTrap (s : State) (g : Group) (h : VAddr) : Prop :=
  g.liveStrands ≠ [] ∧ g.tm = false ∧ ((s.launch g.launch).bind (·.desc.haddr)) = some h

/-- The word traps for its gang, whose group has become `g` by then, wherever that group can take a trap. -/
def TrapsWith (s : State) (c : Ctx) (g : Group) (t : TrapInfo) (r : Out) : Prop :=
  ∀ h, CanTrap s g h → ∃ u, r = .next u ∧ TakesTrap s c.slot g h t u

/-- `t` has logged an event that `s` had not, with its source of 12 bits and what it says, at the time of `s`; the log
keeps what it held, and the host has been told (R314, R323). -/
def Logs (s t : State) (source : Nat) (what : List Nat) : Prop :=
  t.sys.log = insertLog { gts := s.time.gts, device := s.sys.device.toNat, source := source % 2 ^ 12, what := what } s.sys.log ∧
  t.sys.msix = s.sys.msix ++ [64]

/-- The cause `t` halts the group of `c`, whose trap registers are as `tr` says: the steward logs the cause, its PC and
its lanes with them, and terminates the launch (R295). -/
def Halts (s : State) (c : Ctx) (t : TrapInfo) (tr : TrapRegs → Prop) (r : Out) : Prop :=
  ∃ u h, r = .next u ∧ u.group c.slot = some h ∧ h = { c.g with halted := true, trap := h.trap } ∧ tr h.trap ∧
    (∀ k, k ≠ c.slot → u.group k = s.group k) ∧ u.mem = s.mem ∧ u.teams = s.teams ∧
    (∀ l, s.launch c.g.launch = some l → u.launch c.g.launch = some { l with terminated := true }) ∧
    Logs s u c.core ([0, t.cause.code, t.pc.toNat, t.lanes.toNat] ++ h.trap.words.map BitVec.toNat) ∧
    u.sys = { s.sys with log := u.sys.log, msix := u.sys.msix }

/-! ## Observing engine commands (R246) -/

/-- In `u` the group of `c` has become `h`: it has observed those of its completed engine commands that satisfy `p`.
It has seen what they wrote, and a copy of a CG-0 sector in its core's L1 that was older than such a write has the
bytes that stand in memory now, but for those that the core's own stores will write (the model's own account of R246,
log 18). With none there nothing changes. -/
structure Observes (s u : State) (c : Ctx) (p : Done → Bool) (h : Group) : Prop where
  none   : c.g.done.filter p = [] → u = s
  here   : u.group c.slot = some h
  others : ∀ k, k ≠ c.slot → u.group k = s.group k
  cores  : ∀ k, k ≠ c.core → u.core k = s.core k
  rest   : u = { s with slots := u.slots, cores := u.cores, mem := { s.mem with ops := u.mem.ops } }
  ops    : u.mem.ops.map (fun o => (o.1, { o.2 with pieces := [] })) = s.mem.ops.map fun o => (o.1, { o.2 with pieces := [] })
  group  : h = { c.g with done := c.g.done.filter fun d => !p d, view := h.view }
  saw    : ∀ d ∈ c.g.done, p d = true → ∀ w ∈ d.writes, ∀ i < w.2.1, w.2.2 ≤ h.view.floor (w.1 + i)
  fresh  : ∀ d ∈ c.g.done, p d = true → ∀ w ∈ d.writes, ∀ e ∈ (u.core c.core).l1, e.grain = 0 → e.since < w.2.2 →
    ∀ i b, e.bytes[i]? = some b → sectorOf (e.addr + i) = e.addr → w.1 ≤ e.addr + i → e.addr + i < w.1 + w.2.1 →
    b = s.mem.byte (e.addr + i) ∨ s.ownStore c.core (e.addr + i) = true

/-! ## Accesses and operations (R11, R69, R308) -/

/-- The active lanes of the execution, one at least, all pass the checks of R11 for the addresses in a pair, with
the accesses `accs`; no watchpoint meets them, and nothing holds them back. -/
structure Accessing (s : State) (c : Ctx) (a : Reg) (sp : AccSpec) (w : Watch) (accs : List LaneAcc) : Prop where
  lanes  : accs.map (·.lane) = c.lanes
  some   : accs ≠ []
  passes : ∀ x ∈ accs, x.va = c.g.address a x.lane ∧ checkOne s c.core (s.rootOf c.g.launch) sp x.va x.lane = .ok x.phys
  quiet  : watchHit c.g w sp.size accs = none
  free   : accessHeld s c = false ∧ rejectedMeets s c (accs.map fun x => (x.phys.pa, sp.size)) = false

/-- The word traps as `TrapsWith` says, where the steward may first have logged accesses that come to nothing
(R26, R317); with `clean` it has not. -/
def TrapsNoting (s : State) (c : Ctx) (g : Group) (t : TrapInfo) (clean : Prop) (r : Out) : Prop :=
  ∀ h, CanTrap s g h → ∃ u log msix, r = .next u ∧ (∀ e ∈ s.sys.log, e ∈ log) ∧
    (clean → log = s.sys.log ∧ msix = s.sys.msix) ∧
    TakesTrap { s with sys := { s.sys with log := log, msix := msix } } c.slot g h t u

/-- A lane that fails a check of R11 makes the word trap, with the lowest cause, the lanes that reached it and the
address of the lowest of them; a cause above that of a watchpoint only where none is enabled (R10, R308). -/
def LaneFaults (s : State) (c : Ctx) (a : Reg) (sp : AccSpec) (w : Watch) (r : Out) : Prop :=
  let out (l : Nat) := checkOne s c.core (s.rootOf c.g.launch) sp (c.g.address a l) l
  ∀ cause ls low, (∀ l, l ∈ ls ↔ l ∈ c.lanes ∧ out l = .error cause) → low ∈ ls → (∀ l ∈ ls, low ≤ l) →
    (∀ l ∈ c.lanes, ∀ e, out l = .error e → cause.code ≤ e.code) →
    (cause.code < Cause.watch.code ∨ ∀ i < 2, ∀ l, c.g.dbg.watches i w l = false) →
    TrapsNoting s c c.g (TrapInfo.atAddr c.pc c.gang cause ls (c.g.address a low))
      (∀ l ∈ c.lanes, out l ≠ .error .perm ∧ out l ≠ .error .memerr) r

/-- A store to some bytes has no copy, TSTORE or thunk of its group to wait for (R167, R168, R206). -/
abbrev Unaliased (s : State) (c : Ctx) (spans : List Span) : Prop :=
  engineBusy s c.slot spans = false ∧ unforcedOf c.g.thunks ((c.g.aliasing c.gang).getD (aliasSet c.g.thunks spans)) = []

/-- The requests on their way in `u` are those of `s` and new ones of the operation `o`, one at most for each of its
pieces, of which `ok` holds. -/
def NewRequests (s u : State) (o : Op) (ok : Req → Piece → Prop) : Prop :=
  (∀ m ∈ u.mem.reqs, m ∈ s.mem.reqs ∨ (m.2.op = s.ids ∧
    ∃ q, o.pieces[m.2.piece]? = some q ∧ m.2.addr = q.addr ∧ m.2.size = q.size ∧ ok m.2 q)) ∧
  ∀ m ∈ u.mem.reqs, ∀ m' ∈ u.mem.reqs, m ∉ s.mem.reqs → m' ∉ s.mem.reqs → m.2.piece = m'.2.piece → m = m'

/-- Piece `i` of the operation that `s` names next has a request on its way in `u`, of which `ok` holds. -/
def Requested (s u : State) (i : Nat) (q : Piece) (ok : Req → Prop) : Prop :=
  ∃ m ∈ u.mem.reqs, m.2.op = s.ids ∧ m.2.piece = i ∧ m.2.addr = q.addr ∧ m.2.size = q.size ∧ ok m.2

/-- What the completion of an operation may do to a group besides landing it: strands leave their waits, and an
acquire is noted (R41, R301). -/
def Woken (g h : Group) : Prop :=
  h = { g with strands := h.strands, view := h.view, held := h.held, det := h.det }

/-- `u` is `s` but for teams and for groups that have left their waits (R208, R301). The execution's own group `g` has
become `h`: only strands outside the gang have left a wait, and resume records. -/
structure OnlyTeams (s u : State) (c : Ctx) (g h : Group) : Prop where
  rest   : u = { s with slots := u.slots, teams := u.teams }
  here   : u.group c.slot = some h
  woken  : Woken g h
  gang   : ∀ i ∈ c.gang, h.strand i = { g.strand i with record := (h.strand i).record }
  others : ∀ k g, k ≠ c.slot → s.group k = some g → ∃ h, u.group k = some h ∧ Woken g h
  absent : ∀ k, s.group k = none → u.group k = none
  teams  : ∀ k, k ≠ c.g.teamKey → u.team k = s.team k

/-- An operation belongs to the execution `c` and serves its active lanes. -/
structure OpOf (c : Ctx) (o : Op) (kind : OpKind) (flag : FlagSel) (dst : Option Reg) : Prop where
  slot    : o.slot = c.slot
  core    : o.core = c.core
  pc      : o.pc = c.pc
  kind    : o.kind = kind
  flag    : o.flag = flag
  dst     : o.dst = dst
  lanes   : o.lanes = c.lanes
  strands : o.strands = c.gang

/-- The group runs outside deterministic operation. -/
abbrev Plain (g : Group) : Prop := Gs.det g.modes.gs = false

/-- `u` is `s` but for the execution's own group, which is `h`, and what is on its way in memory, caches and the
log: memory holds the same bytes, and no other group, team, launch, command or queue differs. -/
structure Beside (s u : State) (c : Ctx) (h : Group) : Prop where
  here       : u.group c.slot = some h
  others     : ∀ k, k ≠ c.slot → u.group k = s.group k
  bytes      : SameBytes s u
  teams      : u.teams = s.teams
  launches   : u.launches = s.launches
  time       : u.time = s.time
  agenda     : u.agenda = s.agenda
  streams    : u.streams = s.streams
  cmds       : u.cmds = s.cmds
  handles    : u.handles = s.handles
  queues     : u.queues = s.queues
  successors : u.successors = s.successors
  cancels    : u.cancels = s.cancels

/-- The state after the release, where an instruction makes one: the core hands on what the group has seen, and
the group notes what it has issued before (R243, log 18). -/
def released (c : Ctx) (sc : Option Scope) (t : State) : State :=
  match sc with
  | some sc => t.markRelease c.slot sc
  | none => t

/-- The word sends an operation and its execution retires with no register changed; the group may note that it
has read another's store early (log 18), and a release follows where the word makes one. -/
def Begins (s : State) (c : Ctx) (kind : OpKind) (flag : FlagSel) (dst : Option Reg) (sc : Option Scope)
    (p : State → Op → Prop) (r : Out) : Prop :=
  ∃ u h o t, Leaves u c (c.past h) (.next t) ∧ Beside s u c h ∧ h = { c.g with view := h.view } ∧
    u.op s.ids = some o ∧ OpOf c o kind flag dst ∧ p u o ∧ r = .next (released c sc t)

/-- The group with its gang's strands waiting for an operation. -/
def Ctx.blocked (c : Ctx) (g : Group) (b : Block) : Group := g.modStrands c.gang fun _ t => { t with block := some b }

/-- The word starts an operation of some kind that its gang's strands wait for, and goes one word further; `x` is
done to the state at its end. -/
def Blocks (s : State) (c : Ctx) (g : Group) (kind : OpKind) (p : Op → Prop) (x : State → State) (r : Out) : Prop :=
  ∃ u h t o, h = { g with view := h.view } ∧ Leaves u c (c.past (c.blocked h (.op s.ids))) (.next t) ∧
    Beside s u c (c.blocked h (.op s.ids)) ∧ u.op s.ids = some o ∧ o.slot = c.slot ∧ o.core = c.core ∧ o.kind = kind ∧
    p o ∧ r = .next (x t)

/-- The word reads its uniform operands and starts a command of its gang that goes on beside it (R204): the
execution retires, and its group has only recorded flags and, for an acquire, that it acquired. -/
def Commands (s : State) (c : Ctx) (os : List Opnd) (kind : OpKind) (p : Op → Prop) (r : Out) : Prop :=
  ∃ u h o, Leaves u c (c.past h) r ∧ Beside s u c h ∧ h = { c.after os with view := h.view } ∧
    u.op s.ids = some o ∧ OpOf c o kind c.flagB none ∧ p o

/-- The uniform words of a quad. -/
def Ctx.quad (c : Ctx) (a : Reg) : List Word := (List.range 4).map fun i => (c.uniform ⟨a.toNat + i, 1⟩).setWidth 32

/-- The operands that read a quad word by word (R58). -/
def quadOpnds (a : Reg) : List Opnd := (List.range 4).map fun i => ⟨a.toNat + i, 1⟩

/-- The word allocates the lowest free entry of the thunk table for a node and writes its handle, with the entry's
next generation, into register d of every lane of the gang; with no free entry it traps with THKFULL (R154, R155). -/
def Allocates (s : State) (c : Ctx) (os : List Opnd) (d : Reg) (n : Node) (r : Out) : Prop :=
  let old := c.g.thunks
  (∀ e < 32, old.nodes.find e = none → (∀ k < e, old.nodes.find k ≠ none) → ∃ g, Leaves s c (c.past g) r ∧
    g = { c.after os with regs := g.regs, mmar := g.mmar, thunks := g.thunks } ∧
    g.thunks.nodes.find e = some n ∧ g.thunks.gen e = (old.gen e + 1) % 256 ∧
    (∀ k, k ≠ e → g.thunks.nodes.find k = old.nodes.find k ∧ g.thunks.gen k = old.gen k) ∧
    (∀ l ∈ Group.gangLanes c.gang, g.reg d.toNat l = handleOf ((old.gen e + 1) % 256) e) ∧
    ∀ k l, ¬ (l ∈ Group.gangLanes c.gang ∧ k = d.toNat) → g.reg k l = c.g.reg k l) ∧
  ((∀ e < 32, old.nodes.find e ≠ none) →
    TrapsWith s c (c.after os) (TrapInfo.at c.pc c.gang .thkfull (c.g.execLanes c.gang)) r)

/-- A deterministic group's word only adds items to its buffer: the execution retires, the quantum ends where
`ends` says, and no byte of memory and no other group changes (R250, R292). -/
def Buffers (s : State) (c : Ctx) (ends : Bool) (items : List DetItem → Prop) (r : Out) : Prop :=
  ∃ t h more, r = .next t ∧ items more ∧ t.group c.slot = some h ∧ (∀ k, k ≠ c.slot → t.group k = s.group k) ∧
    SameBytes s t ∧ t.teams = s.teams ∧ h.det.buffer = c.g.det.buffer ++ more ∧ (ends = true → h.det.ended = true) ∧
    h.regs = c.g.regs ∧ h.modes = c.g.modes ∧ h.strands = (c.past c.g).strands ∧
    h.count.retired = c.g.count.retired + 1

/-- The operation `id` has completed and left; memory holds the same bytes, every other operation is still there,
but perhaps reads that an engine or a group had under way, and every group but perhaps the one at `but` is as it was but
for its waits. -/
structure Completes (s t : State) (id : Nat) (but : Option Nat) : Prop where
  gone   : t.op id = none
  others : ∀ j, j ≠ id → (∀ o, s.op j = some o → o.kind ≠ .engineRead) →
    (t.op j).map (fun o => (o.kind, o.slot, o.dst, o.lanes)) = (s.op j).map fun o => (o.kind, o.slot, o.dst, o.lanes)
  bytes  : SameBytes s t
  groups : ∀ k g, some k ≠ but → s.group k = some g → ∃ h, t.group k = some h ∧ Woken g h

/-- The group at `k` in `t`, which is `g` before, has noted at the time `now` that the engine command `o` has completed, for
it to observe; in deterministic operation that orders nothing, and it notes nothing (R246, R250; the note is the model's
own, log 18). -/
def NotesDone (t : State) (now : Nat) (g : Group) (o : Op) : Prop :=
  ∃ h d, t.group o.slot = some h ∧ (Plain g → h.done = g.done ++ [d]) ∧ (Gs.det g.modes.gs = true → h.done = g.done) ∧
    d.flag = o.flag ∧ d.batch = o.copy.map (·.batch) ∧ d.rel = o.rel ∧
    d.writes = o.pieces.map fun q => (q.addr, q.size, if q.sent then now else q.read)

/-- In `u` the operation `id` is suspended at a late fault (R169): LATE with the fault's own code in XSUB, its address,
the command's PC, the PC of the node that failed, and its handle. -/
def Suspended (u : State) (id : Nat) (o : Op) (cause : Cause) (addr : Nat) (npc : VAddr) (node : Word) : Prop :=
  ∃ t, u.op id = some { o with suspended := some t } ∧ t.cause = .late ∧ t.sub = BitVec.ofNat 32 cause.code ∧
    t.addr = addr ∧ t.pc = o.pc ∧ t.npc = npc ∧ t.node = node

/-- No table lets a read stand in a pending list, and none is under way: reads of agents are made at once (R223,
R226). -/
abbrev ReadsAtOnce (s : State) : Prop :=
  (∀ a n ws, s.holdable 16 a n ws = []) ∧ ∀ q ∈ s.mem.ops, q.2.kind ≠ .engineRead

/-- Bytes that are served where they are addressed: none is a peer address that names this device (R195). -/
abbrev Direct (s : State) (a n : Nat) : Prop := ∀ i < n, (s.served (a + i)).1 = a + i

/-- Memory of `t` is that of `s` with some bytes written at an address. -/
def Stored (s t : State) (a : Nat) (bytes : List Byte) : Prop :=
  ∀ x, t.mem.byte x = if a ≤ x ∧ x < a + bytes.length then bytes.getD (x - a) 0 else s.mem.byte x

/-- A command has ended (R275): it is gone, its stream's vector is raised, and its completion record stands at its
address; with no record, or none that its processor may write, the end is logged. -/
structure Ends (s t : State) (cmd : Nat) (c : Cmd) (status detail tstart sig : Nat) : Prop where
  gone   : t.cmds.find cmd = none
  vector : ∃ more, t.sys.msix = s.sys.msix ++ more ++ [c.stream] ∧ ∀ v ∈ more, v = 64
  record : c.caddr ≠ 0 → c.caddr % 32 = 0 → s.physReach (streamBlock c.stream) c.caddr 32 = true →
    Stored s t (s.served c.caddr).1 (completionRecord status detail tstart s.time.gts sig)
  logged : c.caddr = 0 ∨ c.caddr % 32 ≠ 0 ∨ s.physReach (streamBlock c.stream) c.caddr 32 = false →
    SameBytes s t ∧ (∀ e ∈ s.sys.log, e ∈ t.sys.log) ∧
    ∃ e ∈ t.sys.log, e.source = streamBlock c.stream % 2 ^ 12 ∧ e.what = [6, c.stream, c.offset, detail]

/-- The atomics: function, destination, address, control field and whether old values return (R109, R333). -/
def atomForm : Instr → Option (AtomFn × Reg × Reg × Ctl × Bool)
  | .atomAdd d a ctl => some (.add, d, a, ctl, true)
  | .atomMin d a ctl => some (.min, d, a, ctl, true)
  | .atomMax d a ctl => some (.max, d, a, ctl, true)
  | .atomAnd d a ctl => some (.and, d, a, ctl, true)
  | .atomOr d a ctl => some (.or, d, a, ctl, true)
  | .atomXor d a ctl => some (.xor, d, a, ctl, true)
  | .atomXchg d a ctl => some (.xchg, d, a, ctl, true)
  | .cas d a ctl => some (.cas, d, a, ctl, true)
  | .atomnAdd d a ctl => some (.add, d, a, ctl, false)
  | .atomnMin d a ctl => some (.min, d, a, ctl, false)
  | .atomnMax d a ctl => some (.max, d, a, ctl, false)
  | .atomnAnd d a ctl => some (.and, d, a, ctl, false)
  | .atomnOr d a ctl => some (.or, d, a, ctl, false)
  | .atomnXor d a ctl => some (.xor, d, a, ctl, false)
  | _ => none

/-! ## A step that issues (R47, R98, R307) -/

/-- No breakpoint stops the issue of a word (R307). -/
abbrev BreakFree (g : Group) (pc : VAddr) (w : Word) : Prop :=
  g.tm = true ∨ g.breakHit pc
    (if w.extractLsb' 28 4 == 15 then g.execLanes ((g.gang pc).filter fun i => !g.sched.noBreak.contains i)
     else g.activeLanes ((g.gang pc).filter fun i => !g.sched.noBreak.contains i)) = none

end Sys2Proof.Machine
end

