-- ==== Sys2Proof/Certificates/Slice0/Obligations.lean ====
section
/-!
DEFINITION. The statements for the provers.
-/
open Sys2Proof Sys2Proof.Machine

/-! ## Reset, steps and encodings -/

/-- Right after reset the device is in FUSE of a cold start, no stream is being taken from, every stream is
empty, every assize slot is invalid, no cancellation is held, and nothing is placed (R322). That fields the
spec gives no value hold zero is the model's choice (log 4). -/
def Obligations.ResetIsAColdStart : Prop :=
  State.reset.sys.boot = .fuse ∧ State.reset.sys.warm = false ∧ State.reset.sys.start = 0 ∧
  (∀ k, (State.reset.stream k).shead = (State.reset.stream k).stail) ∧
  (∀ slice slot, State.reset.table slice slot = none) ∧
  (∀ agent job, State.reset.cancelledAt agent job = false) ∧
  (∀ k, State.reset.mayTake k = false) ∧
  State.reset.slots = [] ∧ State.reset.launches = [] ∧ (∀ a, State.reset.mem.byte a = 0)

/-- Memory is in canonical form right after reset (the form is the model's own, log 5). -/
def Obligations.ResetMemoryIsCanonical : Prop := Memory.wf State.reset.mem = true

/-- A step whose turn is a gang's issue fetches the word at the gang's PC and runs the instruction that it
decodes to, with time advanced and the turn taken off the agenda; a word that step 3 of R118 refuses runs as
one with an unassigned opcode (both trap with ILLEGAL). Only in deterministic operation does more follow: what the
word has asked for without a commit is carried out (R13; log 20). A step whose turn is an event runs the event, one GTS
tick later. Where operations are pending, the reads of page tables and rings that the turn may make are placed first; where
none is, that changes nothing (how they are placed is log 42). That a step takes its turn from the agenda is the model's
choice (log 1), and so is how far it advances time (log 2). -/
def Obligations.StepRunsTheDecodedWord : Prop :=
  (∀ (s : State) (rest : List Turn) (slot : Nat) (pc : VAddr) (g : Group) (w : Word) (u : State),
    let v := (({ s.advanceTime with agenda := rest } : State).readTables (.issue slot pc)).afterLogged
    s.agenda = .issue slot pc :: rest → v.group slot = some g → g.gang pc ≠ [] → v.mayIssue g = true →
    fetchWord v slot g pc = .word w u → BreakFree g pc w →
    let runs (i : Instr) : Prop := step s = withEngines slot (exec i { u with issue := { slot := slot, pc := pc } })
    (∀ i, decode w = .ok i → runs i) ∧ (∀ e, decode w = .error e → runs (.unassignedOpcode w))) ∧
  (∀ (slot : Nat) (u : State), u.isDet slot = false → withEngines slot (.next u) = .next u) ∧
  (∀ (s : State) (rest : List Turn) (i : Instr) (input : Input),
    s.agenda = .occur i input :: rest → i.isWord = false →
    step s = exec i { (({ s.advanceTime with agenda := rest } : State).readTables (.occur i input)).later with input := input }) ∧
  (∀ (s : State) (t : Turn), s.mem.pending = [] → s.readTables t = s)

/-- Words written out from the encodings of R99 to R117 decode to their instructions. -/
def Obligations.SampleWordsDecode : Prop :=
  decode 0x00030102#32 = .ok (.add 3 1 2) ∧ decode 0x5004_0203#32 = .ok (.cmpLtS 4 2 3) ∧
  decode 0x3202FFFF#32 = .ok (.addi 2 0xFFFF) ∧ decode 0x8104FFFD#32 = .ok (.brc 4 0xFFFD) ∧
  decode 0x9B06026B#32 = .ok (.atomXchg 6 2 { width := .b64, scope := .clu, order := .acqRel }) ∧
  decode 0xC0103038#32 = .ok (.mma 16 48 56) ∧ decode 0xDE030806#32 = .ok (.amsg 3 8 6) ∧
  decode 0x8C000007#32 = .ok (.trap 7) ∧ decode 0x8D000000#32 = .ok .rtt ∧ decode 0x88000000#32 = .ok .nop

/-- Decoding the encoding of any well-formed instruction that has a word gives the instruction back, with
every operand at every value that the encoding admits (R99 to R117). -/
def Obligations.DecodeOfEncode : Prop :=
  ∀ (i : Instr) (w : Word), i.wellFormed = true → encode i = some w → decode w = .ok i

/-- A word that decodes is the encoding of what it decodes to, which is well formed: each word has one
meaning, and no bit of it is ignored (R99 to R117). -/
def Obligations.EncodeOfDecode : Prop :=
  ∀ (w : Word) (i : Instr), decode w = .ok i → encode i = some w ∧ i.wellFormed = true

/-! ## Lane-wise instructions -/

/-- A lane-wise vector instruction, under modes that it admits and with no enabled flag trap, completes: every
active lane's destination holds the instruction's function of that lane's sources as they were before any
write, every other register of every lane is kept, and its flags are recorded in GS (R7, R9, R55). -/
def Obligations.VectorWritesActiveLanes : Prop :=
  ∀ (i : Instr) (mk : Word → Form) (s : State) (c : Ctx), vectorForm i = some mk →
    let f := mk c.g.modes.gm
    let outs := c.lanes.map fun l => (l, (f.eval c.g l).2)
    Issues s c { Needs.regs (f.dst :: f.srcs) with mode := f.ok } → NoStep c → NoTrap c.g outs →
    ∃ t g, exec i s = .next t ∧ Retires s c (c.past g) t ∧ SameMachine s t ∧
      Writes c f.dst c.lanes (fun l => (f.eval c.g l).1) g ∧ Flagged c (allFlags outs) g

/-- A scalar twin computes one result from scalar reads with the function of its base instruction, and writes
it into every lane of every strand of the gang, whatever exec and the guard say; its flags are evaluated once
(R57, R58). -/
def Obligations.TwinWritesWholeGang : Prop :=
  ∀ (i j : Instr) (mk : Word → Form) (s : State) (c : Ctx), twinOf i = some j → vectorForm j = some mk →
    let f := mk c.g.modes.gm
    let r := twinResult f c
    let lanes := Group.gangLanes c.gang
    let outs := lanes.map fun l => (l, r.2)
    Issues s c { Needs.unguarded (f.dst :: f.srcs) with mode := f.ok } → NoStep c → NoTrap c.g outs →
    ∃ t g, exec i s = .next t ∧ Retires s c (c.past g) t ∧ SameMachine s t ∧
      Writes c f.dst lanes (fun _ => r.1) g ∧ Flagged c (allFlags outs) g

/-- An enabled flag of a lane-wise vector instruction traps: no register changes, GS keeps the sticky flags,
and the trap names the lowest cause and the lanes that reached it. A scalar twin traps so for every lane of the
gang: on the NUR flags of its reads before it computes, and else on the flags of its one result (R9, R10, R57,
R58, R67). -/
def Obligations.EnabledFlagTraps : Prop :=
  (∀ (i : Instr) (mk : Word → Form) (s : State) (c : Ctx) (cause : Cause) (lanes : List Nat) (h : VAddr),
    vectorForm i = some mk →
    let f := mk c.g.modes.gm
    let outs := c.lanes.map fun l => (l, (f.eval c.g l).2)
    Issues s c { Needs.regs (f.dst :: f.srcs) with mode := f.ok } → CanTrap s c.g h →
    flagTrap c.g outs = some (cause, lanes) →
    (∀ o ∈ outs, ∀ x ∈ o.2.causes c.g.modes.xen, cause.code ≤ x.code) ∧
    (∀ l, l ∈ lanes ↔ ∃ o ∈ outs, o.1 = l ∧ cause ∈ o.2.causes c.g.modes.xen) ∧
    ∃ t, exec i s = .next t ∧
      TakesTrap s c.slot (c.g.raiseFlags (allFlags outs)) h (TrapInfo.at c.pc c.gang cause lanes) t) ∧
  (∀ (i j : Instr) (mk : Word → Form) (s : State) (c : Ctx) (cause : Cause) (h : VAddr),
    twinOf i = some j → vectorForm j = some mk →
    let f := mk c.g.modes.gm
    let reads := twinReads f c
    let nur := reads.foldl (fun a x => a ||| x.2) (0 : Flags)
    let own := (f.fn (reads.map (·.1))).2
    let lowest (x : Flags) : Prop := cause ∈ x.causes c.g.modes.xen ∧ ∀ y ∈ x.causes c.g.modes.xen, cause.code ≤ y.code
    let traps (g : Group) : Prop := ∃ t, exec i s = .next t ∧
      TakesTrap s c.slot g h (TrapInfo.at c.pc c.gang cause (Group.gangLanes c.gang)) t
    Issues s c { Needs.unguarded (f.dst :: f.srcs) with mode := f.ok } → CanTrap s c.g h →
    (lowest nur → traps (c.g.raiseFlags nur)) ∧
    (nur.causes c.g.modes.xen = [] → lowest own → traps ((c.g.raiseFlags nur).raiseFlags own)))

/-- A lane-wise instruction or a scalar twin whose register operand lies outside the allocation or breaks the
alignment of pairs, or whose element type or rounding mode is not admitted, and a lane-wise instruction whose guard
register lies outside the allocation, traps with ILLOPND for every lane in exec, whether or not a lane is active, and
changes nothing else (R54, R55, R57, R62, R118). -/
def Obligations.BadOperandTraps : Prop :=
  ∀ (i j : Instr) (mk : Word → Form) (s : State) (c : Ctx) (h : VAddr),
    (i = j ∨ twinOf i = some j) → vectorForm j = some mk →
    let f := mk c.g.modes.gm
    Stands s c → CanTrap s c.g h →
    (∀ k ∈ c.gang, (c.g.strand k).inBody = true) →
    (f.ok = false ∨ (∃ o ∈ f.dst :: f.srcs, c.g.nregs < o.reg + o.count ∨ o.reg % o.count ≠ 0) ∨
      (i = j ∧ Gm.gen c.g.modes.gm = true ∧ c.g.nregs ≤ Gm.greg c.g.modes.gm)) →
    ∃ t, exec i s = .next t ∧
      TakesTrap s c.slot c.g h (TrapInfo.at c.pc c.gang .illopnd (c.g.execLanes c.gang)) t

/-! ## Values of the integer instructions -/

/-- ADD, SUB, ADDI, ABS, NEG, MUL and MADLO write each element of each active lane's destination with the exact
result fitted to the element type: modulo 2^b, or saturated with SAT. ADDI adds its immediate as a signed integer
whatever the signedness of ET. MULHI gives bits [2b-1:b] of the exact product, and MIN and MAX the lesser and the
greater element, none of them with saturation (R124, R126, R327, R328, R329, R382, R412). -/
def Obligations.IntegerArithmetic : Prop :=
  (∀ (t : ElemType) (sat : Bool) (d a b : Reg) (imm : BitVec 16), t.isInt = true →
    let e (g : Group) (r : Reg) (l k : Nat) : Int := elemOf t k (readOf g (opndOf t r) l)
    let rule (i : Instr) (srcs : List Reg) (exact : Group → Nat → Nat → Int) : Prop :=
      LaneWise i (opndOf t d) (srcs.map (opndOf t)) (fun gm => Gm.et gm = some t ∧ Gm.sat gm = sat)
        fun g l x => ∀ k < t.count, Fits t sat (exact g l k) (elemOf t k x)
    rule (.add d a b) [a, b] (fun g l k => e g a l k + e g b l k) ∧
    rule (.sub d a b) [a, b] (fun g l k => e g a l k - e g b l k) ∧
    rule (.addi d imm) [d] (fun g l k => e g d l k + imm.toInt) ∧
    rule (.abs d a) [a] (fun g l k => if e g a l k < 0 then - e g a l k else e g a l k) ∧
    rule (.neg d a) [a] (fun g l k => - e g a l k)) ∧
  (∀ (t : ElemType) (sat : Bool) (d a b : Reg), t.isInt = true →
    let e (g : Group) (r : Reg) (l k : Nat) : Int := elemOf t k (readOf g (opndOf t r) l)
    let rule (i : Instr) (srcs : List Reg) (ok : Group → Nat → Nat → Int → Prop) : Prop :=
      LaneWise i (opndOf t d) (srcs.map (opndOf t)) (fun gm => Gm.et gm = some t ∧ Gm.sat gm = sat)
        fun g l x => ∀ k < t.count, ok g l k (elemOf t k x)
    rule (.mul d a b) [a, b] (fun g l k x => Fits t sat (e g a l k * e g b l k) x) ∧
    rule (.madlo d a b) [d, a, b] (fun g l k x => Fits t sat (e g d l k + e g a l k * e g b l k) x) ∧
    rule (.mulhi d a b) [a, b] (fun g l k x => x = e g a l k * e g b l k / 2 ^ t.bits) ∧
    rule (.min d a b) [a, b] (fun g l k x => x = if e g b l k < e g a l k then e g b l k else e g a l k) ∧
    rule (.max d a b) [a, b] (fun g l k x => x = if e g a l k < e g b l k then e g b l k else e g a l k))

/-- SHL, SHR, SHA and ROL bit by bit, with the count of each element of a packed type, or the whole register b:
a count of the width or more shifts everything out, SHR fills with zeros and SHA with the sign bit whatever the
signedness of ET, and ROL rotates by the count modulo the width. CLZ counts the zero bits above the highest set bit of
each element, b for zero; POPC counts its set bits; and BREV reverses its bits (R125, R341, R349, R392, R402). -/
def Obligations.ShiftsAndBits : Prop :=
  (∀ (t : ElemType) (d a b : Reg), t.isInt = true →
    let bit (g : Group) (l k j : Nat) : Bool := elemBit t k j (readOf g (opndOf t a) l)
    let count (g : Group) (l k : Nat) : Nat :=
      if t.count = 1 then (g.reg b.toNat l).toNat else Elem.raw t.bits k (readOf g (.one b) l)
    let rule (i : Instr) (ok : Group → Nat → Nat → Nat → Bool → Prop) : Prop :=
      LaneWise i (opndOf t d) [opndOf t a, .one b] (fun gm => Gm.et gm = some t)
        fun g l x => ∀ k < t.count, ∀ j < t.bits, ok g l k j (elemBit t k j x)
    rule (.shl d a b) (fun g l k j x => x = (decide (count g l k ≤ j) && bit g l k (j - count g l k))) ∧
    rule (.shr d a b) (fun g l k j x => x = (decide (j + count g l k < t.bits) && bit g l k (j + count g l k))) ∧
    rule (.sha d a b) (fun g l k j x =>
      x = if j + count g l k < t.bits then bit g l k (j + count g l k) else bit g l k (t.bits - 1)) ∧
    rule (.rol d a b) (fun g l k j x => x = bit g l k ((j + (t.bits - count g l k % t.bits)) % t.bits))) ∧
  (∀ (t : ElemType) (d a : Reg), t.isInt = true →
    let bit (g : Group) (l k j : Nat) : Bool := elemBit t k j (readOf g (opndOf t a) l)
    let rule (i : Instr) (ok : Group → Nat → Nat → Dword → Prop) : Prop :=
      LaneWise i (opndOf t d) [opndOf t a] (fun gm => Gm.et gm = some t) fun g l x => ∀ k < t.count, ok g l k x
    rule (.clz d a) (fun g l k x =>
      let n := Elem.raw t.bits k x
      n ≤ t.bits ∧ (∀ j < n, bit g l k (t.bits - 1 - j) = false) ∧ (n < t.bits → bit g l k (t.bits - 1 - n) = true)) ∧
    rule (.popc d a) (fun g l k x => Elem.raw t.bits k x = ((List.range t.bits).filter (bit g l k)).length) ∧
    rule (.brev d a) (fun g l k x => ∀ j < t.bits, elemBit t k j x = bit g l k (t.bits - 1 - j)))

/-- AND, OR, XOR and NOT act on 64 bits of each pair under i64, n64 and f64 and on 32 bits under any other ET;
MOV and SEL copy as many; MOVP copies a pair under any modes; MOVI writes its immediate extended by its sign,
and MOVHI writes the high half and keeps the low one (R331, R388, R389, R392, R394, R404, R428). -/
def Obligations.BitwiseAndMoves : Prop :=
  (∀ (t : ElemType) (d a b : Reg),
    let w (r : Reg) : Opnd := opndOf t r
    let et (gm : Word) : Prop := Gm.et gm = some t
    LaneWise (.and d a b) (w d) [w a, w b] et (fun g l x => x = readOf g (w a) l &&& readOf g (w b) l) ∧
    LaneWise (.or d a b) (w d) [w a, w b] et (fun g l x => x = readOf g (w a) l ||| readOf g (w b) l) ∧
    LaneWise (.xor d a b) (w d) [w a, w b] et (fun g l x => x = readOf g (w a) l ^^^ readOf g (w b) l) ∧
    LaneWise (.not d a) (w d) [w a] et (fun g l x => x = fitted (w d).count (~~~ readOf g (w a) l)) ∧
    LaneWise (.mov d a) (w d) [w a] et (fun g l x => x = readOf g (w a) l) ∧
    LaneWise (.sel d a b) (w d) [w d, w a, w b] et
      (fun g l x => x = if (g.reg d.toNat l).getLsbD 0 then readOf g (w a) l else readOf g (w b) l)) ∧
  (∀ (d a : Reg), LaneWise (.movp d a) (.two d) [.two a] (fun _ => True) fun g l x => x = readOf g (.two a) l) ∧
  (∀ (d : Reg) (imm : BitVec 16),
    LaneWise (.movi d imm) (.one d) [] (fun _ => True) (fun _ _ x => x = (imm.signExtend 32).setWidth 64) ∧
    LaneWise (.movhi d imm) (.one d) [.one d] (fun _ => True)
      (fun g l x => x = (imm ++ (g.reg d.toNat l).extractLsb' 0 16).setWidth 64))

/-- CMP writes 1 where the relation holds between the elements read in ET and 0 elsewhere, into one register.
BFX extracts the field of the specifier b, extended by its sign under a signed ET, with the bits at or above the
width clipped, and BFI replaces that field and keeps every other bit (R339, R350). -/
def Obligations.ComparesAndFields : Prop :=
  ∀ (t : ElemType) (d a b : Reg), t.isInt = true → t.count = 1 →
    let et (gm : Word) : Prop := Gm.et gm = some t
    let v (g : Group) (r : Reg) (l : Nat) : Int := elemOf t 0 (readOf g (opndOf t r) l)
    let cmp (i : Instr) (holds : Int → Int → Bool) : Prop :=
      LaneWise i (.one d) [opndOf t a, opndOf t b] et fun g l x => x = if holds (v g a l) (v g b l) then 1 else 0
    let pos (g : Group) (l : Nat) : Nat := ((g.reg b.toNat l).extractLsb' 0 8).toNat
    let stop (g : Group) (l : Nat) : Nat := Nat.min (pos g l + ((g.reg b.toNat l).extractLsb' 8 8).toNat) t.bits
    let bit (g : Group) (r : Reg) (l j : Nat) : Bool := (readOf g (opndOf t r) l).getLsbD j
    cmp (.cmpEq d a b) (fun x y => decide (x = y)) ∧ cmp (.cmpNe d a b) (fun x y => decide (x ≠ y)) ∧
    cmp (.cmpLt d a b) (fun x y => decide (x < y)) ∧ cmp (.cmpLe d a b) (fun x y => decide (x ≤ y)) ∧
    LaneWise (.bfx d a b) (opndOf t d) [opndOf t a, .one b] et (fun g l x => ∀ j < t.bits, x.getLsbD j =
      if pos g l < stop g l then
        (if pos g l + j < stop g l then bit g a l (pos g l + j) else t.signed && bit g a l (stop g l - 1))
      else false) ∧
    LaneWise (.bfi d a b) (opndOf t d) [opndOf t d, opndOf t a, .one b] et (fun g l x => ∀ j < t.bits, x.getLsbD j =
      if pos g l ≤ j ∧ j < stop g l then bit g a l (j - pos g l) else bit g d l j)

/-- In every floating type, with none of their conditions enabled to trap. FADD, FSUB, FMUL and FMA give
the exact result of finite operands, where it is not zero, rounded once under RM, and the canonical NaN where an
operand is a NaN. FMIN and FMAX give the lesser and the greater operand, with -0 below +0, or the canonical NaN. FCMP
writes whether its relation holds, which of eq, lt and le none does where an operand is a NaN. FCLASS writes the class.
The special functions follow the table of R361; FRCP, FRSQ and FSQRT round the exact value, as FEX2 does of an integer,
FLG2 of a power of two, and FSIN, FCOS and FTNH of a magnitude below 2^-40 (FTNH of 64 or more too). CVT rounds integers
and residues to a floating type, a floating value to another, and a floating value to an integer or a residue, or
saturates; it takes an integer modulo 2^b and encodes it as a residue. With FTZ every subnormal f32, bf16 or f16 input
is read as a zero of its sign, but by FCLASS, and a result that is tiny after rounding becomes one. RNENC encodes an
integer, within the range with SAT and else modulo M, and RNDEC decodes it, or gives the most negative element for
poison (R8, R129, R130, R133 to R136, R352, R353, R358 to R374, R401). -/
def Obligations.FloatingValues : Prop :=
  (∀ (t : ElemType) (rm : RMode) (ftz : Bool) (d a b : Reg), t.isFloat = true →
    let el (g : Group) (r : Reg) (l k : Nat) : Nat := Elem.raw t.bits k (readOf g (opndOf t r) l)
    let modes (gm : Word) : Prop := Gm.et gm = some t ∧ Gm.rm gm = some rm ∧ Gm.ftz gm = ftz
    let rule (i : Instr) (srcs : List Reg) (ok : (Reg → Nat) → Nat → Prop) : Prop :=
      Computes (List.range 5) i (opndOf t d) (srcs.map (opndOf t)) modes fun g l x =>
        ∀ k < t.count, ok (fun r => flushed t ftz (el g r l k)) (Elem.raw t.bits k x)
    let one : Reg → Opnd := .one
    let u := unitOf t
    let arith (i : Instr) (srcs : List Reg) (exact : (Reg → Nat) → Int) : Prop := rule i srcs fun x w =>
      ((∀ r ∈ srcs, FiniteIn t (x r)) → exact x ≠ 0 → RoundedSum t rm ftz (exact x) w) ∧
      ((∃ r ∈ srcs, NanIn t (x r)) → w = nanOf t)
    let key (x : Nat) : Int := if negOf t x then -(lowOf t x : Int) - 1 else lowOf t x
    let pick (i : Instr) (of : Nat → Nat → Nat) : Prop := rule i [a, b] fun x w =>
      w = if NanIn t (x a) ∨ NanIn t (x b) then nanOf t else of (x a) (x b)
    let cmp (i : Instr) (holds : Nat → Nat → Prop) : Prop :=
      Computes (List.range 5) i (one d) [opndOf t a, opndOf t b] modes fun g l x =>
        let v (r : Reg) : Nat := flushed t ftz (el g r l 0)
        (holds (v a) (v b) → x = 1) ∧ (¬ holds (v a) (v b) → x = 0)
    let ordered (x y : Nat) : Prop := ¬ NanIn t x ∧ ¬ NanIn t y
    let minus := signOf t true
    let row (i : Instr) (ninf nz pz pinf : Nat) (fin : Nat → Nat → Prop) : Prop := rule i [a] fun x w =>
      (NanIn t (x a) → w = nanOf t) ∧ (lowOf t (x a) = infOf t → w = if negOf t (x a) then ninf else pinf) ∧
      (lowOf t (x a) = 0 → w = if negOf t (x a) then nz else pz) ∧
      (FiniteIn t (x a) → lowOf t (x a) ≠ 0 → fin (x a) w)
    let mag (x : Nat) : Nat := magOf t (lowOf t x)
    let small (x : Nat) : Prop := mag x * 2 ^ 40 < 2 ^ u
    arith (.fadd d a b) [a, b] (fun x => (valOf t (x a) + valOf t (x b)) * 2 ^ u) ∧
    arith (.fsub d a b) [a, b] (fun x => (valOf t (x a) - valOf t (x b)) * 2 ^ u) ∧
    arith (.fmul d a b) [a, b] (fun x => valOf t (x a) * valOf t (x b)) ∧
    arith (.fma d a b) [d, a, b] (fun x => valOf t (x a) * valOf t (x b) + valOf t (x d) * 2 ^ u) ∧
    pick (.fmin d a b) (fun x y => if key y < key x then y else x) ∧
    pick (.fmax d a b) (fun x y => if key x < key y then y else x) ∧
    (t.count = 1 → cmp (.fcmpEq d a b) (fun x y => ordered x y ∧ valOf t x = valOf t y) ∧
      cmp (.fcmpLt d a b) (fun x y => ordered x y ∧ valOf t x < valOf t y) ∧
      cmp (.fcmpLe d a b) (fun x y => ordered x y ∧ valOf t x ≤ valOf t y) ∧
      cmp (.fcmpUn d a b) (fun x y => ¬ ordered x y)) ∧
    Computes [] (.fclass d a) (one d) [opndOf t a] modes (fun g l x => ∀ k < t.count,
      let n := lowOf t (el g a l k)
      let neg := negOf t (el g a l k)
      Elem.raw t.bits k x = if infOf t < n then (if n.testBit (precOf t - 2) then 2 ^ 9 else 2 ^ 8)
        else if n = infOf t then (if neg then 1 else 2 ^ 7) else if n = 0 then (if neg then 2 ^ 3 else 2 ^ 4)
        else if n < 2 ^ (precOf t - 1) then (if neg then 2 ^ 2 else 2 ^ 5) else (if neg then 2 else 2 ^ 6)) ∧
    row (.frcp d a) minus (minus + infOf t) (infOf t) 0 (fun x w =>
      Rounded t rm ftz (negOf t x) (fun y => compare (2 ^ (2 * u + 2)) (y * mag x)) w) ∧
    row (.fsqrt d a) (nanOf t) minus 0 (infOf t) (fun x w => if negOf t x then w = nanOf t
      else Rounded t rm ftz false (fun y => compare (mag x * 2 ^ (u + 4)) (y * y)) w) ∧
    (t ≠ .f64 →
      row (.frsq d a) (nanOf t) (minus + infOf t) (infOf t) 0 (fun x w => if negOf t x then w = nanOf t
        else Rounded t rm ftz false (fun y => compare (2 ^ (3 * u + 4)) (y * y * mag x)) w) ∧
      row (.fex2 d a) 0 (oneOf t) (oneOf t) (infOf t) (fun x w => ∀ k : Int, valOf t x = k * 2 ^ u →
        Rounded t rm ftz false (fun y => compare (2 ^ (k + u + 2).toNat) (y * 2 ^ (-(k + u + 2)).toNat)) w) ∧
      row (.flg2 d a) (nanOf t) (minus + infOf t) (minus + infOf t) (infOf t) (fun x w => if negOf t x then w = nanOf t
        else ∀ i : Nat, mag x = 2 ^ i → FiniteIn t w ∧ valOf t w = ((i : Int) - u) * 2 ^ u ∧ (i = u → w = 0)) ∧
      row (.fsin d a) (nanOf t) minus 0 (nanOf t) (fun x w => small x → JustBelow t rm ftz (negOf t x) (lowOf t x) w) ∧
      row (.fcos d a) (nanOf t) (oneOf t) (oneOf t) (nanOf t) (fun x w => small x → JustBelow t rm ftz false (oneOf t) w) ∧
      row (.ftnh d a) (minus + oneOf t) minus 0 (oneOf t) (fun x w =>
        (small x → JustBelow t rm ftz (negOf t x) (lowOf t x) w) ∧
        (2 ^ (u + 6) ≤ mag x → JustBelow t rm ftz (negOf t x) (oneOf t) w)))) ∧
  (∀ (t src : ElemType) (rm : RMode) (sat ftz : Bool) (d a : Reg),
    let from' (g : Group) (l k : Nat) : Nat := Elem.raw src.bits k (readOf g (opndOf src a) l)
    let read (g : Group) (l k : Nat) : Nat := flushed src ftz (from' g l k)
    let whole (g : Group) (l k : Nat) : Int := Elem.value src.signed src.bits (from' g l k)
    let cvt (ok : Group → Nat → Nat → Nat → Prop) : Prop :=
      Computes [0, 1, 2, 3, 4, 7, 9] (.cvt d a src) (opndOf t d) [opndOf src a]
        (fun gm => Gm.et gm = some t ∧ Gm.rm gm = some rm ∧ Gm.ftz gm = ftz ∧ Gm.sat gm = sat) fun g l x =>
        ∀ k < t.count, if k < src.count then ok g l k (Elem.raw t.bits k x) else Elem.raw t.bits k x = 0
    let decoded (code : Nat) (v : Int) : Prop := loOf src ≤ v ∧ v ≤ hiOf src ∧ Holds src code v
    let rounds (v : Int) (w : Nat) : Prop := (v = 0 → w = 0) ∧ (v ≠ 0 → RoundedSum t rm ftz (v * 2 ^ (2 * unitOf t)) w)
    let int (w : Nat) : Int := Elem.value t.signed t.bits w
    let modulo (v : Int) (w : Nat) : Prop := (int w - v) % 2 ^ t.bits = 0
    let encoded (v : Int) (w : Nat) : Prop := Holds t w (resFit t sat v)
    (t.isFloat = true →
      (src.isInt = true → cvt fun g l k w => rounds (whole g l k) w) ∧
      (src.isResidue = true → cvt fun g l k w => (Poison src (from' g l k) → w = nanOf t) ∧
        ∀ v, ¬ Poison src (from' g l k) → decoded (from' g l k) v → rounds v w) ∧
      (src.isFloat = true → cvt fun g l k w =>
        let x := read g l k
        (NanIn src x → w = nanOf t) ∧ (lowOf src x = infOf src → w = signOf t (negOf src x) + infOf t) ∧
        (lowOf src x = 0 → w = signOf t (negOf src x)) ∧
        (FiniteIn src x → lowOf src x ≠ 0 → Rounded t rm ftz (negOf src x)
          (fun y => compare (magOf src (lowOf src x) * 2 ^ (unitOf t + 2)) (y * 2 ^ unitOf src)) w))) ∧
    (t.isInt = true →
      (src.isInt = true → cvt fun g l k w => modulo (whole g l k) w) ∧
      (src.isResidue = true → cvt fun g l k w =>
        (Poison src (from' g l k) → w = if t.signed then 2 ^ (t.bits - 1) else 0) ∧
        ∀ v, ¬ Poison src (from' g l k) → decoded (from' g l k) v → modulo v w) ∧
      (src.isFloat = true → cvt fun g l k w =>
        let x := read g l k
        let lo := Elem.lowest t.signed t.bits
        let hi := Elem.highest t.signed t.bits
        (NanIn src x → w = 0) ∧ (lowOf src x = infOf src → int w = if negOf src x then lo else hi) ∧
        (FiniteIn src x → ∀ n, RoundsInt rm (valOf src x) (2 ^ unitOf src) n → int w = Elem.clamp lo hi n))) ∧
    (t.isResidue = true →
      (src.isInt = true → cvt fun g l k w => encoded (whole g l k) w) ∧
      (src.isResidue = true → cvt fun g l k w => (Poison src (from' g l k) → w = 0) ∧
        ∀ v, ¬ Poison src (from' g l k) → decoded (from' g l k) v → encoded v w) ∧
      (src.isFloat = true → cvt fun g l k w =>
        let x := read g l k
        (NanIn src x → w = 0) ∧ (lowOf src x = infOf src → Holds t w (if negOf src x then loOf t else hiOf t)) ∧
        (FiniteIn src x → ∀ n, RoundsInt rm (valOf src x) (2 ^ unitOf src) n → encoded n w)) ∧
      Computes [7] (.rnenc d a) (.one d) [.one a] (fun gm => Gm.et gm = some t ∧ Gm.sat gm = sat) (fun g l x =>
        ∀ k < t.count, encoded (Elem.value true t.bits (Elem.raw t.bits k (readOf g (.one a) l))) (Elem.raw t.bits k x)) ∧
      Computes [7, 9] (.rndec d a) (.one d) [.one a] (fun gm => Gm.et gm = some t) (fun g l x => ∀ k < t.count,
        let code := Elem.raw t.bits k (readOf g (.one a) l)
        (Poison t code → Elem.raw t.bits k x = 2 ^ (t.bits - 1)) ∧
        ∀ v, ¬ Poison t code → loOf t ≤ v → v ≤ hiOf t → Holds t code v → Elem.value true t.bits (Elem.raw t.bits k x) = v)))

/-! ## Cross-lane instructions -/

/-- SHFL gives each active lane the value of its source lane, active or not, and 0 where that lane's strand is
not in the issuing gang; every source is read before any write. BCAST gives every active lane the value of one
uniform source lane so; a source lane of W or more traps with ILLOPND for the active lanes, and without an active
lane BCAST only moves on (R44, R58, R338, R406). -/
def Obligations.ShufflesReadSourceLanes : Prop :=
  (∀ (s : State) (c : Ctx) (d a b : Reg), Issues s c (Needs.regs [.one d, .one a, .one b]) → NoStep c →
    let rule (i : Instr) (src : Nat → Nat → Nat) : Prop := ∃ g, Leaves s c (c.past g) (exec i s) ∧ Flagged c 0 g ∧
      Writes c (.one d) c.lanes (fun l =>
        let m := src l (c.g.reg b.toNat l).toNat
        if m / 4 ∈ c.gang then c.g.read a.toNat 1 m else 0) g
    rule (.shflIdx d a b) (fun _ t => t % c.g.width) ∧
    rule (.shflXor d a b) (fun l t => l ^^^ (t % c.g.width)) ∧
    rule (.shflUp d a b) (fun l t => if t ≤ l then l - t else l) ∧
    rule (.shflDn d a b) (fun l t => if l + t < c.g.width then l + t else l)) ∧
  (∀ (s : State) (c : Ctx) (d a b : Reg), IssuesUniform s c (Needs.regs [.one d, .one a, .one b]) [.one b] →
    let m := (c.uniform (.one b)).toNat
    (c.lanes = [] → Leaves s c (c.past c.g) (exec (.bcast d a b) s)) ∧
    (c.lanes ≠ [] → m < c.g.width → ∃ g, Leaves s c (c.past g) (exec (.bcast d a b) s) ∧
      Flagged c (allFlags (c.nur [.one b])) g ∧
      Writes c (.one d) c.lanes (fun _ => if m / 4 ∈ c.gang then c.g.read a.toNat 1 m else 0) g) ∧
    (c.lanes ≠ [] → c.g.width ≤ m →
      TrapsWith s c (c.after [.one b]) (TrapInfo.at c.pc c.gang .illopnd c.lanes) (exec (.bcast d a b) s)))

/-- VOTE writes a mask of the active lanes whose predicate is 1, and GETX one of the lanes in exec whatever the
guard, into the pair d of every lane of the gang; ELECT writes 1 into the lowest active lane and 0 into the
others (R355, R375, R423). -/
def Obligations.LaneMasks : Prop :=
  ∀ (s : State) (c : Ctx) (d a : Reg), NoStep c →
    (Issues s c (Needs.regs [.two d, .one a]) → ∃ g m, Leaves s c (c.past g) (exec (.vote d a) s) ∧ Flagged c 0 g ∧
      (∀ l < 64, BitVec.getLsbD m l = decide (l ∈ c.lanes ∧ (c.g.reg a.toNat l).getLsbD 0)) ∧
      Writes c (.two d) (Group.gangLanes c.gang) (fun _ => m) g) ∧
    (Issues s c (Needs.unguarded [.two d]) → ∃ g m, Leaves s c (c.past g) (exec (.getx d) s) ∧ Flagged c 0 g ∧
      (∀ l < 64, BitVec.getLsbD m l = decide (l ∈ c.g.execLanes c.gang)) ∧
      Writes c (.two d) (Group.gangLanes c.gang) (fun _ => m) g) ∧
    (Issues s c (Needs.regs [.one d]) → ∃ g, Leaves s c (c.past g) (exec (.elect d) s) ∧ Flagged c 0 g ∧
      Writes c (.one d) c.lanes (fun l => if ∀ k ∈ c.lanes, l ≤ k then 1 else 0) g)

/-- An integer REDUCE or SCAN gives each active lane the combination, element by element, of the active lanes
that its form takes: all of them, those up to its own, or those below its own; an exclusive SCAN gives the
first the identity. The floating operations combine one lane after the other in ascending order, with none of their
conditions enabled to trap: FADD rounds each sum once, FMIN and FMAX give the lesser and the greater operand, and a NaN
gives the canonical NaN; with FTZ subnormal inputs of f32, bf16 and f16 are zeros of their sign, and so are tiny sums.
Without an active lane every lane of the gang receives the identity and EMP is set (R8, R53, R129, R398). -/
def Obligations.ReductionsCombineLanes : Prop :=
  (∀ (s : State) (c : Ctx) (d a : Reg) (op : RedOp) (t : ElemType), Gm.et c.g.modes.gm = some t → t.isInt = true →
    op ∉ [RedOp.fadd, .fmin, .fmax] → Issues s c (Needs.regs [opndOf t d, opndOf t a]) → NoStep c →
    let v (k l : Nat) : Int := elemOf t k (readOf c.g (opndOf t a) l)
    let bit (k j l : Nat) : Bool := elemBit t k j (readOf c.g (opndOf t a) l)
    let combined (ls : List Nat) (x : Dword) : Prop := ∀ k < t.count,
      match op with
      | .add => (elemOf t k x - (ls.map (v k)).sum) % 2 ^ t.bits = 0
      | .min => (∀ l ∈ ls, elemOf t k x ≤ v k l) ∧
          if ls = [] then elemOf t k x = Elem.highest t.signed t.bits else ∃ l ∈ ls, elemOf t k x = v k l
      | .max => (∀ l ∈ ls, v k l ≤ elemOf t k x) ∧
          if ls = [] then elemOf t k x = Elem.lowest t.signed t.bits else ∃ l ∈ ls, elemOf t k x = v k l
      | .and => ∀ j < t.bits, elemBit t k j x = ls.all (bit k j)
      | .or => ∀ j < t.bits, elemBit t k j x = ls.any (bit k j)
      | _ => ∀ j < t.bits, elemBit t k j x = decide ((ls.filter (bit k j)).length % 2 = 1)
    let rule (i : Instr) (takes : Nat → List Nat) : Prop :=
      ∃ g, Leaves s c (c.past g) (exec i s) ∧
        Flagged c (if c.lanes = [] then Flags.emp else 0) g ∧
        ∃ val, Writes c (opndOf t d) (if c.lanes = [] then Group.gangLanes c.gang else c.lanes) val g ∧
          (c.lanes = [] → ∀ l, combined [] (val l)) ∧ (∀ l ∈ c.lanes, combined (takes l) (val l))
    rule (.reduce d a op) (fun _ => c.lanes) ∧
    rule (.scan d a false op) (fun l => c.lanes.filter (· ≤ l)) ∧
    rule (.scan d a true op) (fun l => c.lanes.filter (· < l))) ∧
  (∀ (s : State) (c : Ctx) (d a : Reg) (op : RedOp) (t : ElemType) (rm : RMode) (ftz : Bool), Gm.et c.g.modes.gm = some t →
    t.isFloat = true → op ∈ [RedOp.fadd, .fmin, .fmax] → (op = .fadd → Gm.rm c.g.modes.gm = some rm) →
    Gm.ftz c.g.modes.gm = ftz → (∀ j < 5, c.g.modes.xen.getLsbD j = false) →
    Issues s c (Needs.regs [opndOf t d, opndOf t a]) → NoStep c →
    let x (k n : Nat) : Nat := flushed t ftz (Elem.raw t.bits k (readOf c.g (opndOf t a) (c.lanes.getD n 0)))
    let key (y : Nat) : Int := if negOf t y then -(lowOf t y : Int) - 1 else lowOf t y
    let identity : Nat := match op with
      | .fadd => signOf t true
      | .fmin => infOf t
      | _ => signOf t true + infOf t
    let step (y z w : Nat) : Prop := (NanIn t y ∨ NanIn t z → w = nanOf t) ∧ (¬ NanIn t y → ¬ NanIn t z → match op with
      | .fadd => FiniteIn t y → FiniteIn t z → (valOf t y + valOf t z) * 2 ^ unitOf t ≠ 0 →
          RoundedSum t rm ftz ((valOf t y + valOf t z) * 2 ^ unitOf t) w
      | .fmin => w = if key z < key y then z else y
      | _ => w = if key y < key z then z else y)
    let chain (k : Nat) (ps : List Nat) : Prop := ps.length = c.lanes.length ∧
      ps.getD 0 0 = (if NanIn t (x k 0) then nanOf t else x k 0) ∧
      ∀ n, n + 1 < c.lanes.length → step (ps.getD n 0) (x k (n + 1)) (ps.getD (n + 1) 0)
    let rule (i : Instr) (out : List Nat → Nat → Nat) : Prop :=
      ∃ g fl, Leaves s c (c.past g) (exec i s) ∧ Flagged c fl g ∧ (c.lanes = [] → fl = Flags.emp) ∧
        (c.lanes ≠ [] → ∀ j, 5 ≤ j → fl.getLsbD j = false) ∧
        ∃ val, Writes c (opndOf t d) (if c.lanes = [] then Group.gangLanes c.gang else c.lanes) val g ∧
          ∀ k < t.count, (c.lanes = [] → ∀ l, Elem.raw t.bits k (val l) = identity) ∧
            (c.lanes ≠ [] → ∃ ps, chain k ps ∧ ∀ n < c.lanes.length, Elem.raw t.bits k (val (c.lanes.getD n 0)) = out ps n)
    rule (.reduce d a op) (fun ps _ => ps.getLastD 0) ∧
    rule (.scan d a false op) (fun ps n => ps.getD n 0) ∧
    rule (.scan d a true op) (fun ps n => if n = 0 then identity else ps.getD (n - 1) 0))

/-! ## Control -/

/-- A branch moves every strand of its gang whole to its target, where no clause is open: BRA and CALL always,
BRC where its uniform predicate is 1, and else to the next word; CALL writes p + 4 into the pair of every lane
of the gang; JMPR and RET go to the low 52 bits of a uniform pair, or trap with ALIGN where the target is not a
multiple of 4 (R119, R120, R340, R342, R378, R400). That this trap names the lanes in exec of the gang is the model's
choice (log 38). -/
def Obligations.BranchesMoveTheGang : Prop :=
  ∀ (s : State) (c : Ctx) (p : Reg) (off : BitVec 16),
    let target : VAddr := BitVec.ofInt 52 (c.pc.toNat + 4 * off.toInt)
    (Issues s c (Needs.ending []) → NoStep c → Leaves s c (c.jumped c.g target) (exec (.bra off) s)) ∧
    (IssuesUniform s c (Needs.ending [.one p]) [.one p] →
      Leaves s c (c.jumped (c.after [.one p]) (if (c.uniform (.one p)).getLsbD 0 then target else c.pc + 4))
        (exec (.brc p off) s)) ∧
    (Issues s c (Needs.ending [.two p]) → NoStep c → ∃ g, Leaves s c (c.jumped g target) (exec (.call p off) s) ∧
      Flagged c 0 g ∧ Writes c (.two p) (Group.gangLanes c.gang) (fun _ => (c.pc + 4).setWidth 64) g) ∧
    (∀ i, i = Instr.jmpr p ∨ i = .ret p → IssuesUniform s c (Needs.ending [.two p]) [.two p] →
      let goal : VAddr := (c.uniform (.two p)).setWidth 52
      (goal.toNat % 4 = 0 → Leaves s c (c.jumped (c.after [.two p]) goal) (exec i s)) ∧
      (goal.toNat % 4 ≠ 0 → TrapsWith s c (c.after [.two p])
        (TrapInfo.atAddr c.pc c.gang .align (c.g.execLanes c.gang) goal.toNat) (exec i s)))

/-- BRV moves each strand whose active lanes all take it to the target, leaves each strand of which none does to
go on, and parts the others: they go on, and the lanes that take it are pushed as a PATH. A strand with 16
entries that would be parted makes the whole instruction trap with DIVSTK, naming those lanes of it (R39). -/
def Obligations.BrvPartsStrands : Prop :=
  ∀ (s : State) (c : Ctx) (p : Reg) (off : BitVec 16),
    Issues s c { Needs.ending [.one p] with guard := true } →
    let target : VAddr := BitVec.ofInt 52 (c.pc.toNat + 4 * off.toInt)
    let tk := c.lanes.filter fun l => (c.g.reg p.toNat l).getLsbD 0
    let parted (i : Nat) : Prop := (∃ l ∈ tk, l / 4 = i) ∧ ∃ l ∈ c.lanes, l / 4 = i ∧ l ∉ tk
    let full (i : Nat) : Prop := i ∈ c.gang ∧ parted i ∧ 16 ≤ (c.g.strand i).stack.length
    ((∀ i, ¬ full i) → NoStep c → ∃ h, Leaves s c h (exec (.brv p off) s) ∧ Strands c.g h fun i t u =>
      (i ∉ c.gang → u = t) ∧
      (i ∈ c.gang → (∃ l ∈ tk, l / 4 = i) → ¬ parted i → u = t.jump target) ∧
      (i ∈ c.gang → (¬ ∃ l ∈ tk, l / 4 = i) → u = t.jump (c.pc + 4)) ∧
      (i ∈ c.gang → parted i → ∃ m, MaskOf i tk m ∧
        u = { t.jump (c.pc + 4) with exec := t.exec &&& ~~~m, stack := t.stack ++ [.path target m] })) ∧
    ((∃ i, full i) → ∃ ls, (∀ l, l ∈ ls ↔ l ∈ tk ∧ full (l / 4)) ∧
      TrapsWith s c c.g (TrapInfo.at c.pc c.gang .divstk ls) (exec (.brv p off) s))

/-- SETX parts each strand of the gang in which the uniform mask keeps some lanes in exec and clears others: the
kept ones go on and the cleared ones are pushed as a PATH to the next word. Any other strand goes on whole, and a
full stack traps with DIVSTK (R405). -/
def Obligations.SetxPartsStrands : Prop :=
  ∀ (s : State) (c : Ctx) (a : Reg), IssuesUniform s c (Needs.ending [.two a]) [.two a] →
    let keeps (l : Nat) : Bool := (c.uniform (.two a)).getLsbD l && decide (l < 32 ∨ 32 < c.g.width)
    let lanes (i : Nat) : List Nat := c.g.execLanes [i]
    let parted (i : Nat) : Prop := (∃ l ∈ lanes i, keeps l) ∧ ∃ l ∈ lanes i, ¬ keeps l
    let full (i : Nat) : Prop := i ∈ c.gang ∧ parted i ∧ 16 ≤ (c.g.strand i).stack.length
    ((∀ i, ¬ full i) → ∃ h, Leaves s c h (exec (.setx a) s) ∧ Strands (c.after [.two a]) h fun i t u =>
      (i ∉ c.gang → u = t) ∧ (i ∈ c.gang → ¬ parted i → u = t.jump (c.pc + 4)) ∧
      (i ∈ c.gang → parted i → ∃ k m, MaskOf i ((lanes i).filter keeps) k ∧ MaskOf i ((lanes i).filter (!keeps ·)) m ∧
        u = { t.jump (c.pc + 4) with exec := k, stack := t.stack ++ [.path (c.pc + 4) m] })) ∧
    ((∃ i, full i) → ∃ ls, (∀ l, l ∈ ls ↔ ¬ keeps l ∧ full (l / 4) ∧ l ∈ lanes (l / 4)) ∧
      TrapsWith s c (c.after [.two a]) (TrapInfo.at c.pc c.gang .divstk ls) (exec (.setx a) s))

/-- REGANG of one strand outside a handler: on an empty stack it waits; a PATH on top is taken up and the lanes
that arrive are parked, merged with lanes already parked there; a PARK of the same address is gathered; and a
PARK of another address is an error. REGANG takes each strand of the gang so, and then R41 ends the waits that
can end; a strand whose stack is wrong makes the whole instruction trap with ILLCONV (R40, R41). -/
def Obligations.RegangReconverges : Prop :=
  (∀ (p : VAddr) (t : Strand) (st : List StackEntry), t.record = none →
    (t.stack = [] → t.regang p = .inl { t with run := .wait p, stalled := none }) ∧
    (∀ a m q k, t.stack = st ++ [.park q k, .path a m] → t.regang p = .inl { t.jump a with
      exec := m, stack := st ++ (if q = p then [.park p (k ||| t.exec)] else [.park q k, .park p t.exec]) }) ∧
    (∀ a m, t.stack = st ++ [.path a m] → (∀ q k, st.getLast? ≠ some (.park q k)) →
      t.regang p = .inl { t.jump a with exec := m, stack := st ++ [.park p t.exec] }) ∧
    (∀ m, t.stack = st ++ [.park p m] →
      t.regang p = Strand.regang p { t with exec := t.exec ||| m, stack := st }) ∧
    (∀ q m, q ≠ p → t.stack = st ++ [.park q m] → t.regang p = .inr t.exec)) ∧
  (∀ (s : State) (c : Ctx), Issues s c (Needs.ending []) →
    let wrong (l : Nat) : Prop := l / 4 ∈ c.gang ∧
      ∃ e, (c.g.strand (l / 4)).regang c.pc = .inr e ∧ e.getLsbD (l % 4) = true
    (∀ after : Nat → Strand, (∀ i ∈ c.gang, (c.g.strand i).regang c.pc = .inl (after i)) →
      (∀ i, i ∉ c.gang → after i = c.g.strand i) → NoStep c → NoWait c.g →
      ∃ h, Leaves s c h (exec .regang s) ∧ Released c.g after h) ∧
    ((∃ l, wrong l) → ∃ ls, (∀ l, l ∈ ls ↔ wrong l) ∧
      TrapsWith s c c.g (TrapInfo.at c.pc c.gang .illconv ls) (exec .regang s)))

/-- EXIT ends the active lanes; a strand that is left with none in exec takes its next work from its stack: it
has exited where the stack is empty, a PATH is taken up, and a PARK is at its REGANG again. What is left of each
strand goes on at the next word, and a group whose strands have all exited has exited; that of a deterministic group is
entered in its team at the commit (R41, R42, R292). -/
def Obligations.ExitEndsLanes : Prop :=
  (∀ (t : Strand) (m : BitVec 4) (st : List StackEntry), t.record = none →
    let e := t.exec &&& ~~~m
    let u := (t.advance.endLanes m).nextWork
    (e ≠ 0 → u = { t.advance with exec := e }) ∧
    (e = 0 → t.stack = [] → u = { t.advance with exec := 0, run := .exited, block := none }) ∧
    (e = 0 → ∀ a k, t.stack = st ++ [.path a k] →
      u = { t.jump a with exec := k, stack := st, run := .run, block := none }) ∧
    (e = 0 → ∀ q k, t.stack = st ++ [.park q k] → u.exec = k ∧ u.pc = q ∧ u.stack = st ∧ u.run = .run ∧ u.block = none)) ∧
  (∀ (s : State) (c : Ctx) (after : Nat → Strand), Issues s c (Needs.regs []) → NoStep c → NoWait c.g →
    (∀ i, i ∉ c.gang → after i = c.g.strand i) →
    (∀ i ∈ c.gang, ∃ m, MaskOf i c.lanes m ∧ after i = ((c.g.strand i).advance.endLanes m).nextWork) →
    ((∃ i < c.g.strands.length, (after i).exited = false) →
      ∃ h, Leaves s c h (exec .exit s) ∧ Released c.g after h) ∧
    ((∀ i < c.g.strands.length, (after i).exited = true) → ∀ team, s.team c.g.teamKey = some team →
      c.g.ident.grpid ∉ team.exited → ∃ t h, exec .exit s = .next t ∧ t.group c.slot = some h ∧ h.allExited = true ∧
        h.regs = c.g.regs ∧ h.modes = c.g.modes ∧ h.held = [] ∧ SameBytes s t ∧
        (∀ u, t.team c.g.teamKey = some u → (Plain c.g → c.g.ident.grpid ∈ u.exited) ∧
          (Gs.det c.g.modes.gs = true → u = team))))

/-- NOP only moves on; so does YIELD, after which its group stands back; WAITF moves on once no operation of the
group has a flag of its mask, having observed the engine commands with such a flag that have completed (what it then
has seen is log 18), and stalls until then (R75, R76, R246, R393, R425, R429). -/
def Obligations.WordsThatOnlyMoveOn : Prop :=
  ∀ (s : State) (c : Ctx) (mask : BitVec 12), Issues s c (Needs.unguarded []) → NoStep c →
    Leaves s c (c.past c.g) (exec .nop s) ∧
    (∃ u, Leaves s c (c.past c.g) (.next u) ∧ exec .yield s =
      .next (u.modGroup c.slot fun g => { g with sched := { g.sched with yielded := true } })) ∧
    let busy := ∃ p ∈ s.opsOf c.slot, ∃ f, p.2.flag = some f ∧ mask.getLsbD f.val = true
    (¬ busy → ∃ u h, Observes s u c (Done.onFlags mask) h ∧ Leaves u c (c.past h) (exec (.waitf mask) s)) ∧
    (busy → Stalls s c (exec (.waitf mask) s))

/-- A clause header that its gang reaches outside a body, with none of its flags busy, observes the engine commands
with such a flag that have completed (what the group then has seen is log 18) and opens the body for every strand of the
gang; it begins the team and stamps the launch's first issue, and is not counted. With a flag busy it stalls, and inside
a body it traps with ILLEGAL (R49, R72, R73, R246, R275, R347). -/
def Obligations.HeadersOpenClauses : Prop :=
  ∀ (s : State) (c : Ctx) (wait : BitVec 12) (fa fb : FlagSel) (len : BitVec 4), Stands s c →
    let body := ∃ i ∈ c.gang, (c.g.strand i).inBody = true
    let busy := ∃ p ∈ s.opsOf c.slot, ∃ f, p.2.flag = some f ∧ wait.getLsbD f.val = true
    let r := exec (.clause wait fa fb len) s
    (body → TrapsWith s c c.g (TrapInfo.at c.pc c.gang .illegal (c.g.execLanes c.gang)) r) ∧
    (¬ body → busy → Stalls s c r) ∧
    (¬ body → ¬ busy → ∃ u g t h, Observes s u c (Done.onFlags wait) g ∧ r = .next t ∧ SameMachine u t ∧
      t.group c.slot = some h ∧ (∀ k, k ≠ c.slot → t.group k = s.group k) ∧
      h = { g with strands := h.strands, sched := h.sched } ∧
      Strands c.g { c.g with strands := h.strands } (fun i t u =>
        u = if i ∈ c.gang then { t.advance with clause := some { hdr := c.pc, len := len.toNat + 1, flagA := fa, flagB := fb } } else t) ∧
      (∀ u, s.team c.g.teamKey = some u → t.team c.g.teamKey = some { u with begun := true }) ∧
      (∀ l, s.launch c.g.launch = some l →
        t.launch c.g.launch = some { l with firstIssue := l.firstIssue.or (some s.time.gts) }))

/-- MODE.T writes GM[8:0] and MODE.G writes GM[18:9], the other of these bits are kept and the reserved ones are
zero; MXMODE writes one half of MM0, MM1 or MM2, with bit 15 of MM0 zero. No other mode changes (R62, R63,
R65, R391). -/
def Obligations.ModeWrites : Prop :=
  ∀ (s : State) (c : Ctx), Issues s c (Needs.unguarded []) → NoStep c →
    let rule (i : Instr) (m : Modes → Prop) : Prop :=
      ∃ g, Leaves s c (c.past g) (exec i s) ∧ g = { c.g with modes := g.modes } ∧ m g.modes
    let old := c.g.modes
    (∀ imm, rule (.modeT imm) fun m => m = { old with gm := m.gm } ∧ ∀ j < 32,
      m.gm.getLsbD j = if j < 9 then imm.getLsbD j else decide (j < 19) && old.gm.getLsbD j) ∧
    (∀ imm, rule (.modeG imm) fun m => m = { old with gm := m.gm } ∧ ∀ j < 32,
      m.gm.getLsbD j = if j < 9 then old.gm.getLsbD j else decide (j < 19) && imm.getLsbD (j - 9)) ∧
    (∀ imm : BitVec 16,
      let low (w : Word) (j : Nat) : Bool := if j < 16 then imm.getLsbD j else w.getLsbD j
      let high (w : Word) (j : Nat) : Bool := if j < 16 then w.getLsbD j else imm.getLsbD (j - 16)
      rule (.mxmode .mm0Low imm) (fun m => m = { old with mm0 := m.mm0 } ∧ ∀ j < 32, m.mm0.getLsbD j = (decide (j ≠ 15) && low old.mm0 j)) ∧
      rule (.mxmode .mm0High imm) (fun m => m = { old with mm0 := m.mm0 } ∧ ∀ j < 32, m.mm0.getLsbD j = high old.mm0 j) ∧
      rule (.mxmode .mm1Low imm) (fun m => m = { old with mm1 := m.mm1 } ∧ ∀ j < 32, m.mm1.getLsbD j = low old.mm1 j) ∧
      rule (.mxmode .mm1High imm) (fun m => m = { old with mm1 := m.mm1 } ∧ ∀ j < 32, m.mm1.getLsbD j = high old.mm1 j) ∧
      rule (.mxmode .mm2Low imm) (fun m => m = { old with mm2 := m.mm2 } ∧ ∀ j < 32, m.mm2.getLsbD j = low old.mm2 j) ∧
      rule (.mxmode .mm2High imm) (fun m => m = { old with mm2 := m.mm2 } ∧ ∀ j < 32, m.mm2.getLsbD j = high old.mm2 j))

/-! ## Traps -/

/-- TRAP and BRK, with an active lane and TM clear, complete and then trap with SWTRAP or BREAK: the gang's
records stand past the word, which is counted, XPC names the next word, XLM the active lanes and XSUB holds the
immediate, with bit 16 set for BRK. Without an active lane both only move on, as BRK does with TM set, where TRAP
halts its group (R295, R296, R298). -/
def Obligations.SoftwareTraps : Prop :=
  ∀ (s : State) (c : Ctx) (imm : BitVec 16), Issues s c (Needs.regs []) →
    let info (cause : Cause) (sub : Word) : TrapInfo :=
      { TrapInfo.at (c.pc + 4) c.gang cause c.lanes with sub := sub }
    let past := (c.past c.g).retired s.time.clk c.gang
    (c.lanes ≠ [] → c.g.tm = false →
      TrapsWith s c past (info .swtrap (imm.setWidth 32)) (exec (.trap imm) s) ∧
      TrapsWith s c past (info .break (0x10000 ||| imm.setWidth 32)) (exec (.brk imm) s)) ∧
    (c.lanes = [] → NoStep c → Leaves s c (c.past c.g) (exec (.trap imm) s) ∧ Leaves s c (c.past c.g) (exec (.brk imm) s)) ∧
    (c.g.tm = true → Leaves s c (c.past c.g) (exec (.brk imm) s)) ∧
    (c.lanes ≠ [] → c.g.tm = true → c.g.liveStrands ≠ [] →
      ∃ t h, exec (.trap imm) s = .next t ∧ t.group c.slot = some h ∧ h.halted = true ∧ h.trap = c.g.trap)

/-- A word that no table assigns traps with ILLEGAL for the lanes in exec. Where the launch has no handler the
trap registers are written and the group halts; where TM is set it halts and they are kept; either way the
steward logs the cause, PC and lanes with the trap registers, and terminates the launch (R108, R293, R295). That a
group without a handler writes its trap registers before it halts is the model's choice (log 17). -/
def Obligations.IllegalWordsTrapOrHalt : Prop :=
  ∀ (s : State) (c : Ctx) (w : Word), Stands s c → c.g.liveStrands ≠ [] →
    let info := TrapInfo.at c.pc c.gang .illegal (c.g.execLanes c.gang)
    let r := exec (.unassignedOpcode w) s
    TrapsWith s c c.g info r ∧
    (c.g.tm = false → ((s.launch c.g.launch).bind (·.desc.haddr)) = none →
      Halts s c info (TellsOf c.g.liveStrands info) r) ∧
    (c.g.tm = true → Halts s c info (· = c.g.trap) r)

/-- RTT, with every strand that has not exited in the issuing gang and at its record's stack depth, clears TM
and restores each strand from its record: a strand of the faulting gang resumes at XPC, within its clause where
XPC is a word of it, and any other at its own PC. RTT from LATE starts again whole the copies and demands whose fault has
been raised, and any RTT then delivers the held cause that comes next: late faults in the order of issue, else the
oldest. With a strand outside the gang, without a record or at another depth, the group halts with ILLEGAL and keeps its
trap registers; with TM clear RTT traps with ILLEGAL. Which lanes these ILLEGALs name, the lanes in exec of the gang, is
the model's choice (log 38; R170, R171, R295, R297). -/
def Obligations.RttRestoresStrands : Prop :=
  ∀ (s : State) (c : Ctx), Issues s c (Needs.ending []) →
    let illegal := TrapInfo.at c.pc c.gang .illegal (c.g.execLanes c.gang)
    let live (i : Nat) : Prop := i < c.g.strands.length ∧ (c.g.strand i).exited = false
    let atDepth (t : Strand) (r : Resume) : Prop := t.record = some r ∧ r.depth = t.stack.length
    let xpc : VAddr := c.g.trap.xpch.setWidth 20 ++ c.g.trap.xpcl
    let late := c.g.trap.xcause = BitVec.ofNat 32 Cause.late.code
    let handled (id : Nat) (o : Op) : Prop := o.slot = c.slot ∧ o.suspended ≠ none ∧ o.aux = 1 ∧
      ∀ t ∈ c.g.held, t.op ≠ some id
    (c.g.tm = false → TrapsWith s c c.g illegal (exec .rtt s)) ∧
    (c.g.tm = true → (∃ i, live i ∧ (i ∉ c.gang ∨ ¬ ∃ r, atDepth (c.g.strand i) r)) →
      Halts s c illegal (· = c.g.trap) (exec .rtt s)) ∧
    (c.g.tm = true → NoWait c.g →
      (∀ i, live i → i ∈ c.gang ∧ ∃ r, atDepth (c.g.strand i) r ∧ r.exec ≠ 0) →
      (∃ i, live i ∧ ∀ r, (c.g.strand i).record = some r → r.run = .run) →
      (∀ i, (c.g.strand i).exited = true → (c.g.strand i).record = none) →
      ∃ u h, SameDevice s u ∧ u.ids = s.ids ∧ u.cores = s.cores ∧ u.teams = s.teams ∧ u.launches = s.launches ∧
        (∀ k, k ≠ c.slot → u.group k = s.group k) ∧ u.group c.slot = some h ∧
        h.modes = { c.g.modes with gs := c.g.modes.gs &&& ~~~0x200 } ∧ h.regs = c.g.regs ∧ h.trap = c.g.trap ∧
        h.held = c.g.held ∧ h.count.retired = c.g.count.retired + 1 ∧ h.strands.length = c.g.strands.length ∧
        (∀ i < c.g.strands.length, ∀ r, (c.g.strand i).record = some r →
          let v := h.strand i
          v.exec = r.exec ∧ v.run = r.run ∧ v.block = r.block ∧ v.record = none ∧ v.stack = (c.g.strand i).stack ∧
          (c.g.trap.xstr.getLsbD i = false ∨ xpc = r.pc → v.pc = r.pc ∧ v.clause = r.clause) ∧
          (c.g.trap.xstr.getLsbD i = true → xpc ≠ r.pc → v.pc = xpc ∧
            v.clause = if ∃ k, r.clause = some k ∧ k.hdr.toNat < xpc.toNat ∧ xpc.toNat ≤ k.hdr.toNat + 4 * k.len ∧
              xpc.toNat % 4 = 0 then r.clause else none)) ∧
        u.mem = { s.mem with ops := u.mem.ops } ∧ (¬ late → u.mem = s.mem) ∧
        (late → ∀ id o, s.op id = some o → o.kind ≠ .engineRead → (¬ handled id o → u.op id = some o) ∧
          (handled id o → u.op id = some { o with
            suspended := none, aux := 0, pieces := [], copy := o.copy.map fun j => { j with done := 0, arrived := 0 }
            tile := o.tile.map fun j => { j with done := 0, cache := [], begun := 0 } })) ∧
        (c.g.held = [] → exec .rtt s = .next u) ∧
        ∀ x a, ((s.launch c.g.launch).bind (·.desc.haddr)) = some a →
          ((c.g.held.head? = some x ∧ x.op = none) ∨ (x ∈ c.g.held ∧ (∀ y, c.g.held.head? = some y → y.op ≠ none) ∧
            ∃ k, x.op = some k ∧ ∀ y ∈ c.g.held, ∀ j, y.op = some j → k < j ∨ y = x)) →
          ∃ t, exec .rtt s = .next t ∧ TakesTrap u c.slot { h with held := c.g.held.erase x } a
            { x with lanes := if x.op = none then x.lanes else laneMask (h.liveLanes h.allStrands) } t)

/-! ## Special registers -/

/-- RDSR gives every active lane the value of a listed register, and an unlisted number traps with ILLEGAL. EXEC0 and
EXEC1 give each strand's lanes in exec, those of its record while TM is set, TASKW0 to TASKW7 the words of the task and
BARSTi the state of team barrier i. Reading the low half of GTS or RET latches the high half, which the next read of
that half gives (R34, R77, R78, R279, R283, R302, R397). -/
def Obligations.SpecialRegistersRead : Prop :=
  ∀ (s : State) (c : Ctx) (d : Reg) (num : BitVec 8), Stands s c →
    (srAccess num = .unlisted →
      TrapsWith s c c.g (TrapInfo.at c.pc c.gang .illegal (c.g.execLanes c.gang)) (exec (.rdsr d num) s)) ∧
    (srAccess num ≠ .unlisted → Issues s c (Needs.regs [.one d]) → NoStep c → ∃ (g : Group) (k : Counters) (val : Nat → Word),
      Leaves s c (c.past { g with count := k }) (exec (.rdsr d num) s) ∧ Flagged c 0 g ∧
      Writes c (.one d) c.lanes (fun l => (val l).setWidth 64) g ∧ k.retired = c.g.count.retired ∧
      (num = 0x20 → ∀ l, val l = BitVec.ofNat 32 l) ∧ (num = 0x21 → ∀ l, val l = BitVec.ofNat 32 (l / 4)) ∧
      (∀ x : Word, (num.toNat, x) ∈
        [(0x00, c.g.modes.gm), (0x01, c.g.modes.mm0), (0x02, c.g.modes.mm1), (0x03, c.g.modes.mm2),
         (0x04, c.g.modes.gs), (0x05, c.g.modes.xen),
         (0x10, c.g.trap.xpcl), (0x11, c.g.trap.xpch), (0x12, c.g.trap.xlm0), (0x13, c.g.trap.xlm1),
         (0x14, c.g.trap.xcause), (0x15, c.g.trap.xsub), (0x16, c.g.trap.xaddrl), (0x17, c.g.trap.xaddrh),
         (0x18, c.g.trap.xnpcl), (0x19, c.g.trap.xnpch), (0x1A, c.g.trap.xnode), (0x1B, c.g.trap.xstr),
         (0x22, BitVec.ofNat 32 c.g.ident.grpid), (0x23, BitVec.ofNat 32 c.g.ident.team),
         (0x24, BitVec.ofNat 32 (16 * c.g.ident.cluster + c.g.ident.rank)), (0x25, BitVec.ofNat 32 c.core),
         (0x26, c.g.ident.job), (0x34, c.g.quantum),
         (0x30, BitVec.ofNat 32 s.time.gts), (0x32, c.g.count.retired.setWidth 32),
         (0x40, c.g.dbg.bka0), (0x41, c.g.dbg.bka1), (0x42, c.g.dbg.bka2), (0x43, c.g.dbg.bka3),
         (0x44, c.g.dbg.bkh0), (0x45, c.g.dbg.bkh1), (0x46, c.g.dbg.bkh2), (0x47, c.g.dbg.bkh3),
         (0x48, c.g.dbg.bkm), (0x50, c.g.dbg.wpa0), (0x51, c.g.dbg.wph0), (0x52, c.g.dbg.wpa1),
         (0x53, c.g.dbg.wph1), (0x54, c.g.dbg.wpc)] → ∀ l, val l = x) ∧
      (num = 0x07 ∨ num = 0x08 → ∀ l j, j < 32 → (val l).getLsbD j =
        let t := c.g.strand (8 * (num.toNat - 7) + j / 4)
        let mask : BitVec 4 := if c.g.tm then (match t.record with
          | some r => r.exec
          | none => 0) else if t.exited then 0 else t.exec
        mask.getLsbD (j % 4)) ∧
      (0x28 ≤ num.toNat → num.toNat ≤ 0x2F → ∀ l, val l = c.g.ident.words.getD (num.toNat - 0x28) 0) ∧
      (0x60 ≤ num.toNat → num.toNat ≤ 0x6F → ∀ l,
        let b := s.teamBarrier c.g (num.toNat - 0x60)
        (val l).extractLsb' 24 8 = b.phase ∧ ((val l).extractLsb' 17 7).toNat = b.arr % 128 ∧
        (val l).getLsbD 16 = b.isOpen ∧ (val l).extractLsb' 0 16 = b.low) ∧
      (num = 0x06 → ∀ l j, j < 32 → (val l).getLsbD j = decide (∃ p ∈ s.opsOf c.slot, ∃ f, p.2.flag = some f ∧ f.val = j)) ∧
      (num = 0x31 → ∀ l, val l = c.g.count.gtsLatch.getD ((BitVec.ofNat 64 s.time.gts).extractLsb' 32 32)) ∧
      (num = 0x33 → ∀ l, val l = c.g.count.retLatch.getD (c.g.count.retired.extractLsb' 32 32)) ∧
      k.gtsLatch = (if num = 0x30 then some ((BitVec.ofNat 64 s.time.gts).extractLsb' 32 32)
        else if num = 0x31 then none else c.g.count.gtsLatch) ∧
      k.retLatch = (if num = 0x32 then some (c.g.count.retired.extractLsb' 32 32)
        else if num = 0x33 then none else c.g.count.retLatch))

/-- WRSR writes a uniform value into a register of the group, whose reserved bits stay zero: DET is kept, TM
stays set while resume records exist, and no other register changes. An unlisted or read-only number traps with
ILLEGAL before any other check, and so does one marked TM while TM is clear: that the last comes before the operand
checks too is the model's choice (log 38; R62, R65 to R67, R77, R426, R427). -/
def Obligations.SpecialRegistersWritten : Prop :=
  ∀ (s : State) (c : Ctx) (a : Reg) (num : BitVec 8), Stands s c →
    (srAccess num = .unlisted ∨ srAccess num = .ro ∨ (srAccess num = .rwTm ∧ c.g.tm = false) →
      TrapsWith s c c.g (TrapInfo.at c.pc c.gang .illegal (c.g.execLanes c.gang)) (exec (.wrsr a num) s)) ∧
    (srAccess num = .rw ∨ (srAccess num = .rwTm ∧ c.g.tm = true) → num.toNat < 0x60 →
      IssuesUniform s c (Needs.unguarded [.one a]) [.one a] →
      let x : Word := (c.uniform (.one a)).setWidth 32
      let u := c.after [.one a]
      ∃ g, Leaves s c (c.past g) (exec (.wrsr a num) s) ∧
        (num.toNat ≤ 5 → g = { u with modes := g.modes } ∧
          (num = 0 → g.modes = { u.modes with gm := x &&& 0x7FFFF }) ∧
          (num = 1 → g.modes = { u.modes with mm0 := x &&& 0xFFFF7FFF }) ∧
          (num = 2 → g.modes = { u.modes with mm1 := x }) ∧ (num = 3 → g.modes = { u.modes with mm2 := x }) ∧
          (num = 4 → g.modes = { u.modes with gs := g.modes.gs } ∧ ∀ j < 32, g.modes.gs.getLsbD j =
            (decide (j < 11) && x.getLsbD j || decide (j = 11) && u.modes.gs.getLsbD j ||
              decide (j = 9) && u.tm && u.strands.any fun t => t.record.isSome)) ∧
          (num = 5 → g.modes = { u.modes with xen := x &&& 0x3BF })) ∧
        (0x10 ≤ num.toNat → num.toNat ≤ 0x13 → g = { u with trap := g.trap } ∧
          (num = 0x10 → g.trap = { u.trap with xpcl := x }) ∧ (num = 0x11 → g.trap = { u.trap with xpch := x }) ∧
          (num = 0x12 → g.trap = { u.trap with xlm0 := x }) ∧ (num = 0x13 → g.trap = { u.trap with xlm1 := x })) ∧
        (num = 7 ∨ num = 8 → Strands u g fun i t v => v = { t with record := v.record } ∧
          v.record = if i / 8 = num.toNat - 7 then
            t.record.map fun r => { r with exec := x.extractLsb' (4 * (i % 8)) 4 &&& r.kept } else t.record) ∧
        (0x40 ≤ num.toNat → g = { u with dbg := g.dbg } ∧ g.dbg.get num.toNat =
          (if num = 0x48 then x &&& 0xF else if num = 0x51 ∨ num = 0x53 then x &&& 0x01FFFFFF else x) ∧
          ∀ n, 0x40 ≤ n → n ≤ 0x54 → n ≠ num.toNat → (n ≤ 0x48 ∨ 0x50 ≤ n) → g.dbg.get n = u.dbg.get n))

/-! ## Memory instructions -/

/-- LD and LDB, with accesses that pass every check, complete and leave a load in flight: one piece for each
distinct address, with the lanes that read there; each piece has its value, or is asked for at its home slice, or
the load waits for a miss-status entry, and nothing else is asked for. While a sector is valid in L1 that the group may
not read there yet, the word stalls (when that is, is log 18). A deterministic group's load has its value from
memory as it stood at the start of the round, overlaid by the group's own buffer. A lane that fails a check, that for
poisoned data among them, makes the load trap with the lowest cause, the lanes that reached it, and the address of the
lowest, and no lane is written (R10, R11, R200, R250, R251, R252, R379, R380). -/
def Obligations.LoadsBegin : Prop :=
  ∀ (s : State) (c : Ctx) (d a : Reg) (ctl : Ctl) (bypass : Bool),
    Issues s c (Needs.regs [dataOpnd d ctl.width, .two a]) →
    let n := widthBytes ctl.width
    let sp : AccSpec := { size := n, rights := .read, deny := fun _ => false, bad := loadPoison s c bypass n, reach := true }
    let r := exec (if bypass then .ldb d a ctl else .ld d a ctl) s
    let asked (m : Req) : Prop := m.src = .core c.core ∧ m.kind = .read (!bypass)
    (∀ accs, Accessing s c a sp .rd accs → (∃ x ∈ accs, loadWaits s c bypass n x.phys = true) → Stalls s c r) ∧
    (∀ accs, Accessing s c a sp .rd accs → (∀ x ∈ accs, loadWaits s c bypass n x.phys = false) → NoStep c →
      Begins s c .load c.flagA (some d) none (fun u o =>
        o.count = widthRegs ctl.width ∧ o.acq = acquireOf ctl ∧ NewRequests s u o (fun m _ => asked m) ∧
        (∀ x ∈ accs, ∃ q ∈ o.pieces, x.lane ∈ q.lanes ∧ q.addr = x.phys.pa ∧ q.size = n) ∧
        (∀ (i j : Nat) (q q' : Piece), o.pieces[i]? = some q → o.pieces[j]? = some q' → q.addr = q'.addr → i = j) ∧
        ∀ (i : Nat) (q : Piece), o.pieces[i]? = some q →
          (∀ l ∈ q.lanes, ∃ x ∈ accs, x.lane = l ∧ x.phys.pa = q.addr) ∧
          (Gs.det c.g.modes.gs = true → q.data = some ((s.detView c.g).read q.addr n)) ∧
          (q.data.isSome = true ∨ s.ids ∈ (u.core c.core).rejected ∨ Requested s u i q asked)) r) ∧
    LaneFaults s c a sp .rd r

/-- ST, with accesses that pass every check, nothing for its release to wait for and no copy or thunk to wait
for, completes and leaves a store in flight: one write for each distinct address that can be delivered, with the
data of the highest lane that stores there, asked for once at its home slice, and nothing else is asked for. Memory
itself is unchanged until the home slice performs them, and a deterministic group's writes go to its buffer. A lane
that fails a check makes the store trap, and no lane stores (R10, R167, R244, R250, R317, R409). -/
def Obligations.StoresBegin : Prop :=
  ∀ (s : State) (c : Ctx) (d a : Reg) (ctl : Ctl), Issues s c (Needs.regs [dataOpnd d ctl.width, .two a]) →
    let n := widthBytes ctl.width
    let sp : AccSpec := { size := n, rights := .write, deny := fun _ => false, bad := fun _ => false, reach := false }
    LaneFaults s c a sp .wr (exec (.st d a ctl) s) ∧
    ∀ (accs : List LaneAcc), NoStep c → Accessing s c a sp .wr accs →
    (∀ sc, releaseOf ctl = some sc → s.releaseReady c.slot sc = true) → Unaliased s c (laneSpans n accs) →
    let stored (pa : Nat) (b : List Byte) : Prop := ∃ x ∈ accs, x.phys.pa = pa ∧
      (∀ y ∈ accs, y.phys.pa = pa → y.lane ≤ x.lane) ∧ b = c.g.dataBytes d n x.lane
    let asked (q : Piece) (m : Req) : Prop := m.src = .core c.core ∧ ∃ b, q.data = some b ∧ m.kind = .write b
    (Plain c.g → Begins s c .store none none (releaseOf ctl) (fun u o =>
      o.rel = releaseOf ctl ∧ NewRequests s u o (fun m q => asked q m) ∧
      (∀ x ∈ accs, s.deliverable x.phys.pa = true → ∃ q ∈ o.pieces, q.addr = x.phys.pa) ∧
      (∀ (i j : Nat) (q q' : Piece), o.pieces[i]? = some q → o.pieces[j]? = some q' → q.addr = q'.addr → i = j) ∧
      ∀ (i : Nat) (q : Piece), o.pieces[i]? = some q → s.deliverable q.addr = true ∧ Requested s u i q (asked q) ∧
        ∃ b, q.data = some b ∧ stored q.addr b)
      (exec (.st d a ctl) s)) ∧
    (Gs.det c.g.modes.gs = true → Buffers s c false (fun more =>
      (∀ i ∈ more, ∃ pa grain b, i = .write pa grain b ∧ stored pa b ∧ s.deliverable pa = true) ∧
      (∀ x ∈ accs, s.deliverable x.phys.pa = true → ∃ grain b, DetItem.write x.phys.pa grain b ∈ more))
      (exec (.st d a ctl) s))

/-- LDS and STS, with every offset aligned and within the team's area, complete. LDS takes each lane's bytes at
issue and leaves a load of them to land; STS writes them, the highest lane's value staying where several store
one byte, and changes no other byte of any team's scratch. A misaligned offset traps with ALIGN, else one past the bound
with ILLOPND, else an LDS of poison with MEMERR: the lowest cause that a lane reaches, with those lanes and the offset of
the lowest of them (R10, R11, R202, R381, R411). -/
def Obligations.ScratchAccesses : Prop :=
  ∀ (s : State) (c : Ctx) (d a : Reg) (ctl : Ctl) (team : Team),
    Issues s c (Needs.regs [dataOpnd d ctl.width, .one a]) → Plain c.g → s.team c.g.teamKey = some team →
    let n := widthBytes ctl.width
    let off (l : Nat) : Nat := (c.g.reg a.toNat l).toNat
    (∀ (reads : Bool) (cause : Cause) (ls : List Nat) (low : Nat),
      let out (l : Nat) : Option Cause := if off l % n ≠ 0 then some .align
        else if s.scratchBound c.g < off l + n then some .illopnd
        else if reads ∧ team.poisonAt (off l) n then some .memerr else none
      (∀ l, l ∈ ls ↔ l ∈ c.lanes ∧ out l = some cause) → low ∈ ls → (∀ l ∈ ls, low ≤ l) →
      (∀ l ∈ c.lanes, ∀ e, out l = some e → cause.code ≤ e.code) →
      TrapsWith s c c.g (TrapInfo.atAddr c.pc c.gang cause ls (off low))
        (exec (if reads then .lds d a ctl else .sts d a ctl) s)) ∧
    (NoStep c → c.lanes ≠ [] → accessHeld s c = false → scratchHeld s c = false →
    (∀ l ∈ c.lanes, off l % n = 0 ∧ off l + n ≤ s.scratchBound c.g) →
    ((∀ l ∈ c.lanes, team.poisonAt (off l) n = false) →
      Begins s c .scratchLoad c.flagA (some d) none (fun _ o => o.count = widthRegs ctl.width ∧ o.acq = acquireOf ctl ∧
        (∀ l ∈ c.lanes, ∃ q ∈ o.pieces, q.lanes = [l]) ∧
        ∀ q ∈ o.pieces, ∃ l ∈ c.lanes, q.lanes = [l] ∧ q.data = some (scratchRead team.scratch (off l) n))
        (exec (.lds d a ctl) s)) ∧
    ((∀ sc, releaseOf ctl = some sc → s.releaseReady c.slot sc = true) →
      Unaliased s c (c.lanes.map fun l => { scr := true, addr := off l, len := n }) →
      ∃ u h v t, Leaves u c (c.past h) (.next t) ∧ exec (.sts d a ctl) s = .next (released c (releaseOf ctl) t) ∧
        OnlyTeams s u c c.g h ∧ u.team c.g.teamKey = some v ∧ v = { team with scratch := v.scratch, poison := v.poison } ∧
        ∀ x, let laid := c.lanes.filter fun l => decide (off l ≤ x ∧ x < off l + n)
          v.scratch.get x 0 = match laid.getLast? with
            | some l => (c.g.dataBytes d n l).getD (x - off l) 0
            | none => team.scratch.get x 0))

/-- An atomic, with accesses that pass every check and nothing to wait for, completes and leaves its operation
in flight. One that returns old values asks each lane's home slice once for that lane's own operation; ATOMN asks once
for each word with the operands of its lanes combined in ascending order. A bf16x2 sum is asked for by halves, and
nothing else is asked for. A deterministic group's atomic only enters its buffer, and one that returns old values ends
its quantum. A lane that fails a check makes the atomic trap, and no lane sends; an element type that is not admitted
traps with ILLOPND for the lanes in exec (R10, R118, R231, R250, R256, R292, R332, R333, R335, R343, R344). -/
def Obligations.AtomicsBegin : Prop :=
  (∀ (i : Instr) (fn : AtomFn) (d a : Reg) (ctl : Ctl) (ret : Bool) (s : State) (c : Ctx),
    atomForm i = some (fn, d, a, ctl, ret) → atomEt fn ctl.width c.g.modes.gm = none → Stands s c →
    (∀ k ∈ c.gang, (c.g.strand k).inBody = true) →
    TrapsWith s c c.g (TrapInfo.at c.pc c.gang .illopnd (c.g.execLanes c.gang)) (exec i s)) ∧
  ∀ (i : Instr) (fn : AtomFn) (d a : Reg) (ctl : Ctl) (ret : Bool) (et : ElemType) (s : State) (c : Ctx),
    atomForm i = some (fn, d, a, ctl, ret) → atomEt fn ctl.width c.g.modes.gm = some et →
    let n := widthBytes ctl.width
    let k := widthRegs ctl.width
    Issues s c (Needs.regs [⟨d.toNat, if fn = .cas then 2 * k else k⟩, .two a]) →
    let sp : AccSpec := { size := n, rights := .both, deny := hostDenies fn et ret, bad := fun _ => false, reach := false }
    LaneFaults s c a sp .op (exec i s) ∧
    ∀ (accs : List LaneAcc), NoStep c → Accessing s c a sp .op accs →
    (∀ sc, releaseOf ctl = some sc → s.releaseReady c.slot sc = true) → Unaliased s c (laneSpans n accs) →
    (∀ x ∈ accs, s.deliverable x.phys.pa = true) →
    let val (l : Nat) : Nat := (c.g.read d.toNat k l).toNat
    let same (x : LaneAcc) : List Nat := (accs.filter fun y => y.phys.pa == x.phys.pa).map (·.lane)
    let operand (x : LaneAcc) : Nat := if fn = .cas then (c.g.read (d.toNat + k) k x.lane).toNat
      else if ret then val x.lane
      else (((same x).map val).drop 1).foldl (fun o v => atomFn fn et o v 0) (((same x).map val).headD 0)
    let compared (x : LaneAcc) : Nat := if fn = .cas then val x.lane else 0
    let kind (x : LaneAcc) (p : Nat × Nat) : ReqKind :=
      .atomic fn et (p.2 == 2) (operand x / 2 ^ (8 * p.1) % 2 ^ (8 * p.2)) (compared x) ret
    let piece (x : LaneAcc) (p : Nat × Nat) (q : Piece) : Prop :=
      q.lanes = (if ret then [x.lane] else same x) ∧ q.addr = x.phys.pa + p.1 ∧ q.size = p.2
    (Plain c.g → Begins s c (if ret then .atomic else .atomicNoReturn) (if ret then c.flagA else none)
      (if ret then some d else none) (releaseOf ctl)
      (fun u o => (ret = true → o.count = k ∧ o.acq = acquireOf ctl) ∧ o.rel = releaseOf ctl ∧
        NewRequests s u o (fun m q => m.src = .core c.core ∧
          ∃ x ∈ accs, ∃ p ∈ atomParts fn et n, piece x p q ∧ m.kind = kind x p) ∧
        ∀ x ∈ accs, ∀ p ∈ atomParts fn et n, ∃ (j : Nat) (q : Piece), o.pieces[j]? = some q ∧ piece x p q ∧
          Requested s u j q fun m => m.src = .core c.core ∧ m.kind = kind x p)
      (exec i s)) ∧
    (Gs.det c.g.modes.gs = true → Buffers s c ret (fun more => ∀ x ∈ accs, ∀ p ∈ atomParts fn et n, ∃ r,
      DetItem.request r ∈ more ∧ r.addr = x.phys.pa + p.1 ∧ r.size = p.2 ∧ r.op = s.ids ∧ r.kind = kind x p) (exec i s))

/-- MOP and MOPR of a class that is installed for the launch's slot, with accesses that pass every check, complete
and leave their operation in flight: each active lane asks its home slice once for its own operation with its operand
and the class's descriptor, nothing else is asked for, and MOPR expects the old value. A deterministic group's only
enter its buffer, and MOPR ends its quantum. A lane that fails a check makes the word trap. With a class that is not
installed, or in a launch without a slot, the word traps with ILLOPND; that it does so before it looks at the lanes, and
names those in exec of the gang, is the model's choice (log 38; R10, R217, R224, R225, R250). -/
def Obligations.OperatorsBegin : Prop :=
  (∀ (s : State) (c : Ctx) (d a : Reg) (cls : BitVec 4) (sc : Scope) (i : Instr),
    i = .mop d a cls sc ∨ i = .mopr d a cls sc → s.mopClass c.g cls.toNat = none → Stands s c →
    (∀ k ∈ c.gang, (c.g.strand k).inBody = true) →
    TrapsWith s c c.g (TrapInfo.at c.pc c.gang .illopnd (c.g.execLanes c.gang)) (exec i s)) ∧
  ∀ (s : State) (c : Ctx) (d a : Reg) (cls : BitVec 4) (sc : Scope) (slot : Nat) (desc : ClassDesc) (ret : Bool),
    s.mopClass c.g cls.toNat = some (slot, desc) →
    let n := wordSize desc.et
    let i : Instr := if ret then .mopr d a cls sc else .mop d a cls sc
    Issues s c (Needs.regs [⟨d.toNat, n / 4⟩, .two a]) →
    let sp : AccSpec := { size := n, rights := .both, deny := fun pa => regionOf pa == .host, bad := fun _ => false,
                          reach := false }
    LaneFaults s c a sp .op (exec i s) ∧
    ∀ (accs : List LaneAcc), NoStep c → Accessing s c a sp .op accs → Unaliased s c (laneSpans n accs) →
    (∀ x ∈ accs, s.deliverable x.phys.pa = true) →
    let asked (x : LaneAcc) (m : Req) : Prop := m.src = .core c.core ∧ ∃ via,
      m.kind = .mop slot cls.toNat desc (c.g.read d.toNat (n / 4) x.lane).toNat ret via
    let piece (x : LaneAcc) (q : Piece) : Prop := q.lanes = [x.lane] ∧ q.addr = x.phys.pa ∧ q.size = n
    (Plain c.g → Begins s c (if ret then .mopr else .mop) (if ret then c.flagA else none) (if ret then some d else none) none
      (fun u o => (ret = true → o.count = n / 4) ∧
        NewRequests s u o (fun m q => ∃ x ∈ accs, piece x q ∧ asked x m) ∧
        ∀ x ∈ accs, ∃ (j : Nat) (q : Piece), o.pieces[j]? = some q ∧ piece x q ∧ Requested s u j q (asked x)) (exec i s)) ∧
    (Gs.det c.g.modes.gs = true → Buffers s c ret (fun more => ∀ x ∈ accs, ∃ r, DetItem.request r ∈ more ∧
      r.addr = x.phys.pa ∧ r.size = n ∧ r.op = s.ids ∧ asked x r) (exec i s))

/-! ## Landing and completing -/

/-- A load, an atomic that returns old values or a MOPR, whose values have all come with none of them poisoned,
lands in every lane at once: each register of the destination holds its bytes of that lane's pieces, low piece
first, zero-extended, and no other register changes. A reveal lands the words that it found. The operation is
gone then, and memory is as it was (R70, R181, R264, R333, R379). -/
def Obligations.ResultsLand : Prop :=
  ∀ (s : State) (id : Nat) (o : Op) (g : Group), s.op id = some o → s.group o.slot = some g →
    (∀ (i : Instr) (d : Reg), o.dst = some d → (∀ q ∈ o.pieces, q.data.isSome = true ∧ q.poison = false) →
      (i = .loadLanding id ∧ (o.kind = .load ∨ o.kind = .scratchLoad)) ∨
      (i = .atomReturn id ∧ o.kind = .atomic ∧ ∀ u ∈ s.mem.updates, id ∉ u.2.ops) ∨
      (i = .moprReturn id ∧ o.kind = .mopr ∧ ∀ u ∈ s.mem.updates, id ∉ u.2.ops) →
      ∃ t h, exec i s = .next t ∧ Completes s t id (some o.slot) ∧ t.group o.slot = some h ∧
        Woken { g with regs := h.regs, mmar := h.mmar } h ∧
        (∀ l ∈ o.lanes, ∀ k < o.count,
          let bytes := (o.pieces.filter fun q => q.lanes.contains l).flatMap fun q =>
            if o.kind = .scratchLoad then q.data.getD [] else s.seenBytes g.launch q.vaddr (q.data.getD [])
          h.reg (d.toNat + k) l = BitVec.ofNat 32 (leNat ((bytes.drop (4 * k)).take 4))) ∧
        (∀ r l, ¬ (l ∈ o.lanes ∧ d.toNat ≤ r ∧ r < d.toNat + o.count) → h.reg r l = g.reg r l)) ∧
    (o.kind = .reveal → ∃ t h, exec (.sporeRevealLanding id) s = .next t ∧ Completes s t id (some o.slot) ∧
      t.group o.slot = some h ∧ Woken { g with regs := h.regs, mmar := h.mmar } h ∧
      ∀ r l, h.reg r l = match (o.results.filter fun w => w.1 == r && w.2.1 == l).getLast? with
        | some w => w.2.2
        | none => g.reg r l)

/-- A store completes when no request, update or pending operation names it; a copy when all of it is written, and has arrived, as well,
no fault suspends it and its release waits for nothing; a demand then also records its flags in GS; and the group of
either notes the completion, which it will observe (how it notes it is log 18). An INVAL drops the CG-0 sectors of its
range from its core's L1; a CLEAN leaves no byte of its range dirty or on its way, and a DISCARD none dirty, where no
handler runs there and a DISCARD's invalidations can arrive (R261, R270); a MONITOR is registered when no update of its
sector is under way; and a reply was asked for lands in every lane of the gang (R166, R197, R206, R207, R209, R246,
R269, R299). -/
def Obligations.OperationsComplete : Prop :=
  ∀ (s : State) (id : Nat) (o : Op), s.op id = some o → Memory.wf s.mem = true →
    let ends (i : Instr) : Prop := ∃ t, exec i s = .next t ∧ Completes s t id none
    (s.inFlight id = false → State.countsWrite o = true → ends (.storeAck id)) ∧
    (∀ j, s.inFlight id = false → o.copy = some j → j.finished = true → o.suspended = none → s.engineReleased id o = true →
      ∃ t, exec (.copyComplete id) s = .next t ∧ Completes s t id (some o.slot) ∧ ∀ g, s.group o.slot = some g →
        NotesDone t s.ids g o ∧ ∃ h, t.group o.slot = some h ∧ Woken { g with done := h.done } h) ∧
    (∀ j g n, s.inFlight id = false → o.tile = some j → s.group o.slot = some g → g.node j.entry = some n →
      s.demandOver o j n = true → o.suspended = none → s.engineReleased id o = true →
      ∃ t h, exec (.demandComplete id) s = .next t ∧ t.op id = none ∧ SameBytes s t ∧ t.group o.slot = some h ∧
        NotesDone t s.ids g o ∧ h.regs = g.regs ∧ h.modes = { g.modes with gs := g.modes.gs ||| j.flags.sticky } ∧
        ∀ off m, j.spill = some off → h.node j.entry = some m → m.forced = some off) ∧
    (s.awaitsCommit o.slot id = false →
      (o.kind = .inval → ∃ t, exec (.maintenanceComplete id) s = .next t ∧ t.op id = none ∧ SameBytes s t ∧
        ∀ e ∈ (t.core o.core).l1, ¬ (e.grain = 0 ∧ inParts o.pieces e.addr 32 = true)) ∧
      (o.kind = .clean → (∀ q ∈ o.pieces, s.regionHeld q.addr q.size = false) →
        ∃ t, exec (.maintenanceComplete id) s = .next t ∧ t.op id = none ∧ SameBytes s t ∧
        ∀ a, inParts o.pieces a 1 = true → t.mem.dirty.find a = none ∧ t.mem.queued a = none) ∧
      (o.kind = .discard → s.partsBusy o.core id o.pieces = false →
        ∃ t, exec (.maintenanceComplete id) s = .next t ∧ t.op id = none ∧
        (∀ a, inParts o.pieces a 1 = true → t.mem.dirty.find a = none ∧ t.mem.queued a = none) ∧
        ∀ e ∈ (t.core o.core).l1, inParts o.pieces e.addr 32 = false)) ∧
    (∀ req r, s.servable req = some r → r.kind = .monitor → r.op = id → (∀ x ∈ s.mem.reqs, x.2.kind = .monitor → x = (req, r)) →
      (∀ u ∈ s.mem.updates, meets u.2.addr u.2.bytes.length (sectorOf r.addr) 32 = false) →
      ∃ t, exec (.monitorRegistered o.slot) s = .next t ∧ t.op id = none ∧ t.mem.reqs.find req = none ∧ SameBytes s t) ∧
    (∀ q d x g, o.kind = .message → o.pieces = [q] → q.data = some (wordBytes x) → s.inFlight id = false →
      o.dst = some d → s.group o.slot = some g →
      ∃ t h, exec (.amsgReply id) s = .next t ∧ Completes s t id (some o.slot) ∧ t.group o.slot = some h ∧
        Woken { g with regs := h.regs, mmar := h.mmar } h ∧ (∀ l ∈ o.lanes, h.reg d.toNat l = x) ∧
        ∀ r l, ¬ (l ∈ o.lanes ∧ r = d.toNat) → h.reg r l = g.reg r l)

/-! ## Home slices and copies -/

/-- At its home slice, where no pending operator stands on the word: a read takes the bytes there at that moment,
a store writes its bytes and no others, and an atomic writes its function of the old value, which goes back where
it is asked for; a poisoned word is left as it is. The request is gone then. A request that its slice cannot
serve yet changes nothing. The function of an atomic is the sum modulo 2^w, or rounded to nearest even in each element
without flushing, the lesser or the greater value, the bitwise combination, or the operand; a CAS writes its operand
where the old value is the compare value. A read of poison marks its piece, whose group has otherwise seen the bytes as
they stand then: how the model notes that is log 18 (R197, R201, R241, R245, R324, R332, R334, R345). -/
def Obligations.SlicesServeRequests : Prop :=
  (∀ (t : ElemType) (o x cmp : Nat), o < 2 ^ (8 * wordSize t) → x < 2 ^ (8 * wordSize t) →
    (t ∈ [.i32, .n32, .i64, .n64] → ∀ p ∈ [(AtomFn.add, 0), (.min, 1), (.max, 2), (.and, 3), (.or, 4), (.xor, 5)],
      NewValue p.2 t .rne o x (atomFn p.1 t o x cmp)) ∧
    (t ∈ [.f32, .bf16x2] → NewValue 6 t .rne o x (atomFn .add t o x cmp)) ∧
    atomFn .xchg t o x cmp = x ∧ atomFn .cas t o x cmp = if o = cmp then x else o) ∧
  (∀ (s : State) (req keeps : Nat) (i : Instr), s.servable req = none →
    i ∈ [.sliceRead req keeps, .sliceWrite req, .sliceAtomic req, .tinkerHandler req] → exec i s = .next s) ∧
  ∀ (s : State) (req : Nat) (r : Req), Memory.wf s.mem = true → s.servable req = some r →
    s.deliverable r.addr = true → s.input.values = [] →
    let n := r.size
    (∀ fill keeps o q, r.kind = .read fill → s.op r.op = some o → o.kind = .load → o.pieces[r.piece]? = some q →
      q.addr = r.addr → q.size = n → q.data = none → r.addr + n ≤ sectorOf r.addr + 32 →
      s.pendingWords (sectorOf r.addr) 32 = [] → s.pendingWords r.addr n = [] →
      (∀ a k, Pending.ld a k r.op r.piece ∉ s.mem.pending) →
      ∃ t o' q', exec (.sliceRead req keeps) s = .next t ∧ t.mem.reqs.find req = none ∧ SameBytes s t ∧
        t.op r.op = some o' ∧ o'.pieces[r.piece]? = some q' ∧ q'.data = some (s.mem.read r.addr n) ∧
        q'.poison = (q.poison || s.mem.poisoned r.addr n) ∧ q'.lanes = q.lanes ∧ ∀ g, s.group o.slot = some g →
          ∃ h, t.group o.slot = some h ∧ h = { g with view := h.view } ∧
            (q.lanes ≠ [] → q'.poison = false → ∀ i < n, s.ids ≤ h.view.floor (r.addr + i))) ∧
    (∀ bytes, r.kind = .write bytes → s.pendingWords r.addr bytes.length = [] →
      ∃ t, exec (.sliceWrite req) s = .next t ∧ t.mem.reqs.find req = none ∧ Stored s t r.addr bytes) ∧
    (∀ fn et half x cmp ret, r.kind = .atomic fn et half x cmp ret → s.pendingWords r.addr n = [] →
      let ty := if half then .bf16x2 else et
      let old := leNat (s.mem.read r.addr n)
      ∃ t, exec (.sliceAtomic req) s = .next t ∧ t.mem.reqs.find req = none ∧
        (s.mem.poisoned r.addr n = true → SameBytes s t) ∧
        (s.mem.poisoned r.addr n = false →
          Stored s t r.addr (leBytes n (if fn = .cas ∧ old ≠ cmp then old else atomFn fn ty old x cmp))) ∧
        ∀ o q, ret = true → s.op r.op = some o → o.pieces[r.piece]? = some q → ∃ o' q', t.op r.op = some o' ∧
          o'.pieces[r.piece]? = some q' ∧
          (s.mem.poisoned r.addr n = false → q'.data = some (s.mem.read r.addr n)) ∧
          (s.mem.poisoned r.addr n = true → q'.poison = true))

/-- A step on a word's pending list: the first operation is applied with its class's function, or a rewrite that
the relation matrix licenses is made: two neighbours change places (C), an overwritten operator is dropped (A),
two are fused (M) or two exact inverses cancel (X). A rewrite changes no byte of memory, and one that is not
licensed changes nothing. A class's function is the sum modulo 2^w, the lesser or the greater value, a bitwise
combination, or the rounded sum, difference or product or the floating minimum or maximum of the old value and the
operand, in each element (R222, R223, R226, R227). -/
def Obligations.PendingListsStep : Prop :=
  (∀ (fn : Nat) (t : ElemType) (rm : RMode) (o a : Nat), fn ≤ 10 → o < 2 ^ (8 * wordSize t) → a < 2 ^ (8 * wordSize t) →
    (fn ≤ 5 → t ∈ [.i32, .n32, .i64, .n64]) → (fn = 6 → t ∈ [.f32, .bf16x2]) → (7 ≤ fn → t = .f32) →
    NewValue fn t rm o a (classFn fn t rm o a)) ∧
  ∀ (s : State) (a : Nat), Memory.wf s.mem = true →
    let list := s.wordList a
    (∀ cls d table x ops cores grain rest, list = .mop a cls d table x none ops cores grain :: rest →
      s.mem.poisoned a (wordSize d.et) = false →
      ∃ t, exec (.sliceMopApply a .head) s = .next t ∧ t.wordList a = rest ∧
        Stored s t a (leBytes (wordSize d.et) (classFn d.fn d.et d.rm (leNat (s.mem.read a (wordSize d.et))) x))) ∧
    (∀ pre p q rest, list = pre ++ p :: q :: rest →
      let at' := pre.length
      let step (st : MopStep) (now : List Pending) : Prop :=
        ∃ t, exec (.sliceMopApply a st) s = .next t ∧ t.wordList a = now ∧ SameBytes s t ∧ t.slots = s.slots
      (related s p q 0 = true → step (.swap at') (pre ++ q :: p :: rest)) ∧
      (related s p q 1 = true → p.returns = false → q.isLd = false → step (.drop at') (pre ++ q :: rest)) ∧
      (related s p q 0 = false → exec (.sliceMopApply a (.swap at')) s = .next s) ∧
      (related s p q 1 = false → exec (.sliceMopApply a (.drop at')) s = .next s) ∧
      (∀ cls d ta x ops cores g ta' d' y ops' cores' g' z, p = .mop a cls d ta x none ops cores g →
        q = .mop a cls d' ta' y none ops' cores' g' → related s p q 2 = true → compose d x y = some z →
        step (.fuse at') (pre ++ .mop a cls d ta z none (ops ++ ops') (cores ++ cores') (Nat.max g g') :: rest)) ∧
      (∀ cls d ta x ops cores g ta' d' y ops' cores' g', p = .mop a cls d ta x none ops cores g →
        q = .mop a d.inv d' ta' y none ops' cores' g' → d.fn = d'.fn → d.et = d'.et → d.rm = d'.rm →
        exactInverses d x y = true → related s p q 3 = true → step (.cancel at') (pre ++ rest)))

/-- An update reaches a sharer: its bytes replace those of the core's copy that are not newer, poison that a copy has
moved comes with them, and the core is waited for no more; an update that an earlier one of its home slice to that core
stands before changes nothing. A station acknowledges once its cores have applied the update, and with the home slice's
acknowledgement the update is gone; groups at barriers may then go on, and no group changes otherwise. A drop notice of
a core that holds nothing of the unit clears its sharer bit. A load that was rejected for want of a miss-status entry
asks for its piece when an entry is free and no copy is valid in L1, and a request outside its slice's queue is admitted
when an entry and a slot are free. None of these changes a byte of memory (R196, R197, R200, R201, R261, R262, R263). -/
def Obligations.UpdatesAndReplays : Prop :=
  (∀ (s : State) (id : Nat) (u : Update), s.mem.updates.find id = some u →
    let held (core : Nat) : Prop :=
      ∃ p ∈ s.mem.updates, p.1 < id ∧ core ∈ p.2.cores ∧ homeSlice p.2.addr = homeSlice u.addr
    (∀ core, core ∈ u.cores → ¬ held core →
      ∃ t v, exec (.updateApply id core) s = .next t ∧ SameBytes s t ∧ t.slots = s.slots ∧
        t.mem.updates.find id = some v ∧ v = { u with cores := v.cores } ∧ (∀ c, c ∈ v.cores ↔ c ∈ u.cores ∧ c ≠ core) ∧
        (∀ c, c ≠ core → t.core c = s.core c) ∧
        (t.core core).l1.map (·.addr) = (s.core core).l1.map (·.addr) ∧
        ∀ (k : Nat) (e : L1Sector), (s.core core).l1[k]? = some e → ∃ f : L1Sector, (t.core core).l1[k]? = some f ∧
          f.bytes.length = e.bytes.length ∧
          (meets e.addr 32 u.addr u.bytes.length = true → e.since ≤ id → u.poison = true → f.poison = true) ∧
          ∀ i < e.bytes.length, f.bytes.getD i 0 =
            if meets e.addr 32 u.addr u.bytes.length = true ∧ e.since ≤ id ∧ u.addr ≤ e.addr + i ∧
              e.addr + i < u.addr + u.bytes.length then u.bytes.getD (e.addr + i - u.addr) 0 else e.bytes.getD i 0) ∧
    (∀ core, held core ∨ core ∉ u.cores → exec (.updateApply id core) s = .next s) ∧
    (∀ st, st ∈ u.stations → stationReady u st = true →
      ∃ t, exec (.updateAck id st) s = .next t ∧ SameBytes s t ∧
        (∀ k g, s.group k = some g → ∃ h, t.group k = some h ∧ Woken g h) ∧
        ((∀ p ∈ s.slots, p.2.atBarrier = false) → t.slots = s.slots ∧ t.cores = s.cores) ∧
        t.mem.updates.find id = if st = homeStation then none else some { u with stations := u.stations.filter (· != st) }) ∧
    (∀ core unit d, s.mem.dir.find unit = some d → core ∈ d.cores →
      (∀ e ∈ (s.core core).l1, meets e.addr 32 (unit / 4) d.size = false) →
      ∃ t, exec (.dropNotice core unit) s = .next t ∧ SameBytes s t ∧ t.slots = s.slots ∧
        ∀ x, t.mem.dir.find unit = some x → ∀ c, c ∈ x.cores ↔ c ∈ d.cores ∧ c ≠ core)) ∧
  ((∀ (s : State) (core id : Nat) (ids : List Nat) (o : Op) (g : Group) (q : Piece),
    (s.core core).rejected = id :: ids → s.op id = some o → s.group o.slot = some g → o.pieces = [q] → o.core = core →
    q.sent = false → q.data = none → servedNow s g (o.serve id q) = none → s.valid (o.serve id q) = false →
    o.bypass = true ∨ s.missFree core (sectorOf q.addr) true = true →
    ∃ t, exec (.l1MissReplay core) s = .next t ∧ SameBytes s t ∧ t.slots = s.slots ∧ (t.core core).rejected = ids ∧
      ∃ m ∈ t.mem.reqs, m.2.op = id ∧ m.2.addr = q.addr ∧ m.2.size = q.size ∧ m.2.kind = .read (!o.bypass)) ∧
  (∀ (s : State) (slice id : Nat) (r : Req), s.mem.reqs.find id = some r → r.slice = slice → r.admitted = false →
    (∀ p ∈ s.mem.reqs, p.2.slice = slice → p = (id, r)) →
    ∃ t, exec (.sliceIngressAdmit slice) s = .next t ∧ SameBytes s t ∧ t.slots = s.slots ∧
      t.mem.reqs.find id = some { r with admitted := true }))

/-! ## Ordering, maintenance and monitors -/

/-- FENCE completes once its release and its acquire have nothing to wait for; an acquire at CLU or wider leaves no
CG-0 sector in its core's L1, and later loads of the group pass by what was buffered before. Until then it stalls and
holds the group's other strands; held so itself it only stalls. Without an active lane it only moves on and holds
nothing. A deterministic group's FENCE completes at once (R242, R244, R250, R292, R363). That an acquire waits for the
group's earlier reads is the model's choice (log 21), and so is what later loads pass by (log 18). -/
def Obligations.FencesOrder : Prop :=
  ∀ (s : State) (c : Ctx) (sc : Scope) (od : Order), Issues s c (Needs.regs []) → NoStep c →
    let r := exec (.fence sc od) s
    let ready := (orderReleases od = true → s.releaseReady c.slot sc = true) ∧
      (orderAcquires od = true → s.readsFixed c.slot = true)
    let held := ∃ i, c.g.fencing = some i ∧ i ∉ c.gang
    (c.lanes = [] → Leaves s c (c.past (if ∃ i ∈ c.gang, c.g.fencing = some i then { c.g with fencing := none } else c.g)) r) ∧
    (c.lanes ≠ [] → Plain c.g → ¬ held → ready → ∃ u h t, Leaves u c (c.past h) (.next t) ∧ Beside s u c h ∧
      h = { c.g with fencing := none, view := h.view } ∧
      h.view.acquired = (if orderAcquires od = true ∧ sc ≠ .grp then s.ids else c.g.view.acquired) ∧
      (orderAcquires od = true → wideScope sc = true → ∀ e ∈ (u.core c.core).l1, e.grain ≠ 0) ∧
      r = .next (released c (if orderReleases od then some sc else none) t)) ∧
    (c.lanes ≠ [] → Plain c.g → held → Stalls s c r) ∧
    (c.lanes ≠ [] → Plain c.g → ¬ held → ¬ ready → ∃ t h, r = .next t ∧ t.group c.slot = some h ∧
      h = { c.g with fencing := c.gang.head?, strands := h.strands } ∧ t.mem = s.mem ∧
      ∀ i, (h.strand i).pc = (c.g.strand i).pc) ∧
    (c.lanes ≠ [] → Gs.det c.g.modes.gs = true → ∃ t h, r = .next t ∧ t.group c.slot = some h ∧ t.mem = s.mem ∧
      h.regs = c.g.regs ∧ h.strands = (c.past c.g).strands ∧ (sc ≠ .grp → h.det.ended = true))

/-- CLEAN, INVAL and DISCARD, with an active lane, read a uniform range and start an operation on the parts of it
that their rights admit, which the issuing strands wait for; DISCARD traps with ALIGN where its start or length is
no multiple of 32. PREF goes on at once. Without an active lane none of them acts (R209, R348, R354, R376, R395). That a
page is forbidden to CLEAN and INVAL where it has neither RD nor WR is the model's choice (log 41), and so are the lanes
that the ALIGN of DISCARD names, those in exec of the gang (log 38). -/
def Obligations.RangesAreMaintained : Prop :=
  ∀ (s : State) (c : Ctx) (a b : Reg), Issues s c (Needs.regs [.two a, .one b]) → NoStep c →
    let os := [Opnd.two a, .one b]
    (c.lanes = [] → ∀ i ∈ [Instr.clean a b, .inval a b, .discard a b, .pref a b], Leaves s c (c.past c.g) (exec i s)) ∧
    (c.lanes ≠ [] → NoTrap c.g (c.nur os) →
      let start := (c.uniform (.two a)).toNat % 2 ^ 52
      let len := ((c.uniform (.one b)).setWidth 32).toNat
      (Plain c.g →
        Blocks s c (c.after os) .clean (fun o => o.pieces = partsWith s c [.read, .write] start len) id (exec (.clean a b) s)) ∧
      Blocks s c (c.after os) .inval (fun o => o.pieces = partsWith s c [.read, .write] start len) id (exec (.inval a b) s) ∧
      (start % 32 ≠ 0 ∨ len % 32 ≠ 0 → TrapsWith s c (c.after os)
        (TrapInfo.atAddr c.pc c.gang .align (c.g.execLanes c.gang) start) (exec (.discard a b) s)) ∧
      (∀ ps, Plain c.g → start % 32 = 0 → len % 32 = 0 → accessHeld s c = false →
        discardRuns s c 0 (pageParts start len) = (ps, none) →
        rejectedMeets s c (ps.map fun q => (q.addr, q.size)) = false →
        Blocks s c (c.after os) .discard (fun o => o.pieces = ps) id (exec (.discard a b) s)) ∧
      (s.mem.pending = [] → ∃ u, Leaves u c (c.past (c.after os)) (exec (.pref a b) s) ∧ Beside s u c (c.after os)))

/-- ASZLOAD of a table that can be read and breaks no rule, with nothing for its release to wait for and no handler on
the table's region (R270), begins an install at every slice, and its strands wait. It traps with ILLOPND for a slot of
16 or more, with what R11 finds wrong with the read of 512 bytes, and, once it has released, with ILLOPND at the table's
lowest offending byte. An install that reaches a slice takes the slot there, and with the last slice its ASZLOAD
completes (R217 to R220). The lanes that the traps name, those in exec of the gang, are the model's choice (log 38). -/
def Obligations.TablesAreInstalled : Prop :=
  (∀ (s : State) (c : Ctx) (a b : Reg), IssuesUniform s c (Needs.regs [.two a, .one b]) [.two a, .one b] →
    c.lanes ≠ [] →
    let g := c.after [.two a, .one b]
    let va := (c.uniform (.two a)).toNat % 2 ^ 52
    let slot := ((c.uniform (.one b)).setWidth 32).toNat
    let lanes := c.g.execLanes c.gang
    let check := checkOne s c.core (s.rootOf c.g.launch)
      { size := 512, rights := .read, deny := fun _ => false, bad := s.readPoison c.g 512, reach := true } va 0
    (16 ≤ slot → TrapsWith s c g (TrapInfo.at c.pc c.gang .illopnd lanes) (exec (.aszload a b) s)) ∧
    (∀ e, slot < 16 → check = .error e →
      TrapsNoting s c g (TrapInfo.atAddr c.pc c.gang e lanes va) (e ≠ .perm ∧ e ≠ .memerr) (exec (.aszload a b) s)) ∧
    (∀ p, slot < 16 → Plain c.g → accessHeld s c = false → s.releaseReady c.slot .dev = true → check = .ok p →
      s.regionHeld p.pa 512 = false → s.pendingWords p.pa 512 = [] → (∀ ws, s.holdable 16 p.pa 512 ws = []) →
      (∀ q ∈ s.mem.ops, q.2.kind ≠ .engineRead) →
      (tableFault (s.mem.read p.pa 512) = none →
        Blocks s c g .install (fun o => o.aux = slot ∧ o.acq = some .dev)
          (fun t => released c (some .dev) (t.beginInstall s.ids slot (s.mem.read p.pa 512))) (exec (.aszload a b) s)) ∧
      ∀ off, tableFault (s.mem.read p.pa 512) = some off → ∀ h, CanTrap s g h → ∃ u,
        TakesTrap s c.slot g h (TrapInfo.atAddr c.pc c.gang .illopnd lanes (va + off)) u ∧
        exec (.aszload a b) s = .next (released c (some .dev) u))) ∧
  (∀ (s : State) (slice id slot : Nat) (tb : Table) (left : List Nat),
    s.mem.installs.find? (fun p => p.2.2.2.contains slice) = some (id, slot, tb, left) →
    ∃ t, exec (.tableInstall slice) s = .next t ∧ t.table slice slot = some tb ∧
      t.mem.installs.find id = (if left.filter (· != slice) = [] then none else some (slot, tb, left.filter (· != slice))) ∧
      (left.filter (· != slice) = [] → t.op id = none) ∧ (s.mem.pending = [] → SameBytes s t))

/-- MONITOR of an address that can be read arms the group's monitor on its sector, and its strands wait for the home
slice; a deterministic group goes on at once. An address that fails a check traps, one outside local HBM with PERM; the
lanes named, those in exec of the gang, are the model's choice (log 38). MWAIT goes on with no monitor, disarms one that
has been triggered, and parks its strands else. A deadline that passes disarms the monitor, wakes the group and traps
with MTIMEOUT (R299, R386, R390). That MONITOR arms at issue, before its registration at the home slice, is the model's
choice (log 21). -/
def Obligations.MonitorsWatchASector : Prop :=
  (∀ (s : State) (c : Ctx) (a : Reg), c.lanes ≠ [] →
    (∀ p, IssuesUniform s c (Needs.regs [.two a]) [.two a] →
      let va := (c.uniform (.two a)).toNat % 2 ^ 52
      let g := { c.after [.two a] with monitor := { sector := some (sectorOf p.pa), trig := false } }
      checkMonitor s c va = .ok p →
      let req : Req := { src := .core c.core, slice := 0, addr := p.pa, size := 4, grain := p.grain, kind := .monitor,
                         op := s.ids, piece := 0, admitted := false }
      (Plain c.g → Blocks s c g .monitor (fun _ => True) (fun t => t.send req) (exec (.monitor a) s)) ∧
      (Gs.det c.g.modes.gs = true → Leaves s c (c.past g) (exec (.monitor a) s))) ∧
    (∀ e, IssuesUniform s c (Needs.regs [.two a]) [.two a] →
      let va := (c.uniform (.two a)).toNat % 2 ^ 52
      checkMonitor s c va = .error e →
      TrapsNoting s c (c.after [.two a]) (TrapInfo.atAddr c.pc c.gang e (c.g.execLanes c.gang) va)
        (e ≠ .perm ∧ e ≠ .memerr) (exec (.monitor a) s)) ∧
    (IssuesUniform s c (Needs.regs [.one a]) [.one a] →
      let g := c.after [.one a]
      let none' : Monitor := { sector := none, trig := false }
      let n := (c.uniform (.one a)).toNat
      (c.g.monitor.sector = none → Leaves s c (c.past g) (exec (.mwait a) s)) ∧
      (c.g.monitor.sector ≠ none → c.g.monitor.trig = true →
        Leaves s c (c.past { g with monitor := none' }) (exec (.mwait a) s)) ∧
      (c.g.monitor.sector ≠ none → c.g.monitor.trig = false → ∃ t, exec (.mwait a) s =
          .next (t.modGroup c.slot Group.endQuantum) ∧
        Leaves s c (c.past (c.blocked g (.mwait (if n = 0 then none else some (s.time.gts + n))))) (.next t)))) ∧
  (∀ (s : State) (slot i : Nat) (g : Group) (pc : VAddr) (m : BitVec 4), s.group slot = some g →
    i < g.strands.length → (∀ j < g.strands.length, timedOut s.time.gts (g.strand j) = if j = i then some (pc, m) else none) →
    let g' := { g.wake with monitor := { sector := none, trig := false } }
    ∀ h, CanTrap s g' h → ∃ t, exec (.mtimeout slot) s = .next t ∧
      TakesTrap s slot g' h (TrapInfo.at pc [i] .mtimeout (maskLanes i m)) t)

/-! ## Matrix products and spores -/

/-- MMA and MMAR, with MM0 and the fragments as their rules ask and every lane of the group active, give each element of
C the product's element from its row of A, its column of B and its old value; every other register is kept, and MMAR
keeps the A fragment latched. A reserved field or a fragment that breaks a rule traps with ILLOPND, and an idle lane
with ILLCONV. A masked element becomes what TCK says. A floating element is the sum of C and the exact products, rounded
once or step by step as the summation shape SS says; an element of residues is the true sum brought into the array's
range, added to C modulo the array's range or scaled and rounded to f32, and poison gives the canonical NaN or the most
negative integer (R137 to R141, R147 to R151, R383). -/
def Obligations.MatrixProducts : Prop :=
  (∀ (s : State) (c : Ctx) (d a b : Reg) (keep : Bool), Issues s c (Needs.regs []) →
    let i : Instr := if keep then .mmar d a b else .mma d a b
    let m := c.g.modes.mm0
    let f := fragments c.g.width m d a b
    let flags := (c.g.product m f).foldl (fun (x : Flags) o => x ||| o.2.2.2) 0
    let outs := c.lanes.map fun l => (l, flags)
    let full := ∀ l < c.g.width, l ∈ c.lanes
    (Mm0.ok m = false ∨ f.ok c.g.nregs = false →
      TrapsWith s c c.g (TrapInfo.at c.pc c.gang .illopnd (c.g.execLanes c.gang)) (exec i s)) ∧
    (Mm0.ok m = true → f.ok c.g.nregs = true → ¬ full → ∃ ls, (∀ l, l ∈ ls ↔ l < c.g.width ∧ l ∉ c.lanes) ∧
      TrapsWith s c c.g (TrapInfo.at c.pc c.gang .illconv ls) (exec i s)) ∧
    (Mm0.ok m = true → f.ok c.g.nregs = true → full → NoStep c → NoTrap c.g outs →
      (∀ p ∈ s.opsOf c.slot, p.2.writes f.c.1 f.c.2 = false ∧ p.2.writes f.b.1 f.b.2 = false ∧
        (c.g.mmar ≠ some f.a → p.2.writes f.a.1 f.a.2 = false)) →
      ∃ g, Leaves s c (c.past g) (exec i s) ∧ Flagged c (allFlags outs) g ∧
        g = { c.g with regs := g.regs, modes := g.modes, mmar := if keep then some f.a else none } ∧
        (∀ e < Mm0.rows m * Mm0.cols m,
          let r := f.c.1 + e / c.g.width
          let l := e % c.g.width
          let row := e / Mm0.cols m
          let col := e % Mm0.cols m
          g.reg r l = BitVec.ofNat 32 (Dot.element m c.g.modes.mm1 c.g.modes.mm2 row col (c.g.reg r l).toNat
            (c.g.packedRow m f.a.1 row) (c.g.packedRow m f.b.1 col)).1) ∧
        ∀ r l, (¬ ∃ e < Mm0.rows m * Mm0.cols m, r = f.c.1 + e / c.g.width ∧ l = e % c.g.width) → g.reg r l = c.g.reg r l)) ∧
  (∀ (m mm1 mm2 : Word) (i j k : Nat), k < 2 ^ 32 →
    let e (as bs : List Nat) : Nat := (Dot.element m mm1 mm2 i j k as bs).1
    let ct := Mm0.ct m
    (Mm0.tri m = true ∧ Mm0.tdg m < (j : Int) - i → ∀ as bs, e as bs = if Mm0.tck m = 0 then k else if Mm0.tck m = 1 then 0
      else if Mm0.tck m = 2 then (if ct = 0 then 0xFF800000 else 2 ^ 31) else mm1.toNat) ∧
    (¬ (Mm0.tri m = true ∧ Mm0.tdg m < (j : Int) - i) →
      (∀ (t : ElemType) (ps : List (Nat × Nat)), (Mm0.aType m, t) ∈ [(0, .bf16x2), (1, .f16x2), (2, .f32)] → Mm0.ss m ≤ 3 →
        ps ≠ [] → (∀ p ∈ ps, p.1 < 2 ^ t.bits ∧ p.2 < 2 ^ t.bits ∧ FiniteIn t p.1 ∧ FiniteIn t p.2) →
        Shaped (Mm0.ss m) k (ps.map fun p => valOf t p.1 * valOf t p.2 * 2 ^ (298 - 2 * unitOf t))
          (e (ps.map (·.1)) (ps.map (·.2)))) ∧
      (∀ t, (Mm0.aType m, t) ∈ [(3, ElemType.rn16), (4, .rn8)] → ∀ ps : List (Nat × Nat),
        (∀ p ∈ ps, p.1 < 2 ^ t.bits ∧ p.2 < 2 ^ t.bits) →
        let r := e (ps.map (·.1)) (ps.map (·.2))
        ((∃ p ∈ ps, Poison t p.1 ∨ Poison t p.2) → r = if ct = 0 then 0x7FC00000 else 2 ^ 31) ∧
        ∀ (vs : List (Int × Int)) (v : Int), vs.length = ps.length →
          (∀ n < ps.length, let p := ps.getD n (0, 0)
            let w := vs.getD n (0, 0)
            (loOf t ≤ w.1 ∧ w.1 ≤ hiOf t ∧ Holds t p.1 w.1) ∧ loOf t ≤ w.2 ∧ w.2 ≤ hiOf t ∧ Holds t p.2 w.2) →
          -32354576 ≤ v → v ≤ 32354575 → let sum := (vs.map fun w => w.1 * w.2).sum
          (ct ≠ 0 → (v - (sum + Elem.value true 32 k)) % 64709152 = 0 → (r : Int) = v % 2 ^ 32) ∧
          (ct = 0 → (v - sum) % 64709152 = 0 → FiniteIn .f32 mm2.toNat → FiniteIn .f32 k →
            let exact : Int := v * valOf .f32 mm2.toNat * 2 ^ 149 + valOf .f32 k * 2 ^ 149
            exact ≠ 0 → RoundedSum .f32 .rne false exact r))))

/-- SPSEED and SPNEXT write each active lane's spore: its first digits from the generator at its key and position,
the position, and the key's number with no digit examined. SPVAL and SPLEN write d from it. A spore that is not
well formed traps with ILLOPND for its lanes, so do a number of parts of 0 or above 65536, and a destination inside a
spore that is read. A spore is a number of 256 binary digits: SPLT tells whether it is
less than an f32, SPCMP whether one is less than another, and SPIDX the index of its part of n equal parts; two
equal numbers of different keys or positions meet the limit. Each comparison writes its result and how many digits
it examined, at once where 64 were enough in every lane, and else through a reveal that lands later (R175 to R186,
R407). -/
def Obligations.SporeInstructions : Prop :=
  (∀ (s : State) (c : Ctx) (k : BitVec 3), NoStep c →
    let bad (l : Nat) : Prop := l ∈ c.lanes ∧ (c.g.spore k l).ok = false
    let seeded (ks : Nat) (p w3 : Word) : Spore :=
      let x := vmix (s.sporeKey c.g ks) (p.setWidth 64)
      { w0 := x.extractLsb' 32 32, w1 := x.extractLsb' 0 32, w2 := p, w3 := w3 }
    let becomes (i : Instr) (goal : Nat → Spore) : Prop := ∃ g, Leaves s c (c.past g) (exec i s) ∧
      g = { c.g with regs := g.regs, mmar := g.mmar } ∧ (∀ l ∈ c.lanes, g.spore k l = goal l) ∧
      ∀ r l, ¬ (l ∈ c.lanes ∧ c.g.sporeReg k ≤ r ∧ r < c.g.sporeReg k + 4) → g.reg r l = c.g.reg r l
    (∀ a b, Issues s c { Needs.regs [.one a, .one b] with spores := [k] } → becomes (.spseed k a b) fun l =>
      let ks : BitVec 4 := (c.g.reg a.toNat l).extractLsb' 0 4
      seeded ks.toNat (c.g.reg b.toNat l) (ks ++ (1 : BitVec 28))) ∧
    (Issues s c { Needs.regs [] with spores := [k] } → (¬ ∃ l, bad l) → becomes (.spnext k) fun l =>
      let p := c.g.spore k l
      seeded p.ksel (p.w2 + 4) (p.w3 &&& 0xFFFF007D)) ∧
    (∀ d, Issues s c { Needs.regs [.one d] with spores := [k] } → c.g.inSpore k d = false → (¬ ∃ l, bad l) →
      let reads (i : Instr) (f : Spore → Word) : Prop := ∃ g, Leaves s c (c.past g) (exec i s) ∧ Flagged c 0 g ∧
        Writes c (.one d) c.lanes (fun l => (f (c.g.spore k l)).setWidth 64) g
      reads (.spval d k) Spore.value ∧ reads (.splen d k) fun p => BitVec.ofNat 32 p.len) ∧
    (∀ (d b : Reg) (k' : BitVec 3) (i : Instr) (ks : List (BitVec 3)) (os : List Opnd),
      (i, ks, os) ∈ [(.spnext k, [k], []), (.spval d k, [k], [.one d]), (.splen d k, [k], [.one d]),
        (.splt d k b, [k], [.one d, .one b]), (.spcmp d k k', [k, k'], [.one d]), (.spidx d k b, [k], [.one d, .one b])] →
      Issues s c { Needs.regs os with spores := ks } →
      let inside := i ≠ .spnext k ∧ ∃ j ∈ ks, c.g.inSpore j d = true
      let n (l : Nat) : Nat := (c.g.reg b.toNat l).toNat
      let wrong (l : Nat) : Prop := l ∈ c.lanes ∧
        ((∃ j ∈ ks, (c.g.spore j l).ok = false) ∨ (i = .spidx d k b ∧ (n l = 0 ∨ 65536 < n l)))
      let traps (ls : List Nat) : Prop := TrapsWith s c c.g (TrapInfo.at c.pc c.gang .illopnd ls) (exec i s)
      (inside → traps (c.g.execLanes c.gang)) ∧
      (¬ inside → (∃ l, wrong l) → ∃ ls, (∀ l, l ∈ ls ↔ wrong l) ∧ traps ls))) ∧
  ((∀ d x, d < 2 ^ 256 → match FVal.ofBits .f32 false x with
    | .nan _ => (spltLane d x).value = 0 ∧ (spltLane d x).flags = Flags.iv
    | .inf neg => (spltLane d x).value = if neg then 0 else 1
    | .fin neg m e => (spltLane d x).value = if ¬ neg ∧ d < m * 2 ^ (e + 256).toNat then 1 else 0) ∧
  (∀ same d d', d < 2 ^ 256 → d' < 2 ^ 256 → (same = true → d = d') →
    (spcmpLane same d d').value = (if d < d' then 1 else 0) ∧
    (spcmpLane same d d').limit = decide (d = d' ∧ same = false)) ∧
  (∀ d n, d < 2 ^ 256 → 0 < n → n ≤ 65536 →
    (spidxLane d n).value = BitVec.ofNat 32 ((n * (d + 1) + 2 ^ 256 - 1) / 2 ^ 256 - 1)) ∧
  (∀ (s : State) (c : Ctx) (d : Reg) (k k' : BitVec 3) (b : Reg) (i : Instr) (ks : List (BitVec 3)) (os : List Opnd)
    (f : Nat → Found), NoStep c →
    let sp (j : BitVec 3) (l : Nat) : Spore := c.g.spore j l
    let key (j : BitVec 3) (l : Nat) : Dword := s.sporeKey c.g (sp j l).ksel
    let dg (j : BitVec 3) (l : Nat) : Nat := (sp j l).digits (key j l)
    (i = .splt d k b ∧ ks = [k] ∧ os = [.one d, .one b] ∧ f = fun l => spltLane (dg k l) (c.g.reg b.toNat l).toNat) ∨
    (i = .spcmp d k k' ∧ ks = [k, k'] ∧ os = [.one d] ∧ f = fun l => spcmpLane ((sp k l).w0 == (sp k' l).w0 &&
      (sp k l).w1 == (sp k' l).w1 && (sp k l).w2 == (sp k' l).w2 && key k l == key k' l) (dg k l) (dg k' l)) ∨
    (i = .spidx d k b ∧ ks = [k] ∧ os = [.one d, .one b] ∧ (f = fun l => spidxLane (dg k l) (c.g.reg b.toNat l).toNat) ∧
      ∀ l ∈ c.lanes, 0 < (c.g.reg b.toNat l).toNat ∧ (c.g.reg b.toNat l).toNat ≤ 65536) →
    Issues s c { Needs.regs os with spores := ks } → (∀ j ∈ ks, c.g.inSpore j d = false) →
    (∀ j ∈ ks, ∀ l ∈ c.lanes, (sp j l).ok = true) →
    let outs := c.lanes.map fun l => (l, (f l).flags)
    let g0 := c.g.raiseFlags (allFlags outs)
    let words := c.lanes.flatMap fun l => compareWrites c.g d ks l (f l)
    NoTrap c.g outs →
    ((∀ l ∈ c.lanes, (f l).m ≤ 64) → Leaves s c (c.past (g0.setAll words)) (exec i s)) ∧
    ((∃ l ∈ c.lanes, 64 < (f l).m) → ∃ u o, Leaves u c (c.past g0) (exec i s) ∧
      Beside s u c c.g ∧ u.op s.ids = some o ∧ OpOf c o .reveal c.flagA (some d) ∧ o.results = words)))

/-! ## Tiles and engine commands -/

/-- The node-creating instructions, with an active lane and operands that obey their rules, allocate a node that
captures what they name: a descriptor; a product with its modes; a sum of equal shapes; a map, a scale or a
reduction of an input; or a view of the root of an input, with its map composed into the root. A handle that names
no node traps with ILLOPND. TDROP makes its handle name no node (R154 to R161, R414 to R416). -/
def Obligations.ThunkNodes : Prop :=
  ∀ (s : State) (c : Ctx) (d a b : Reg), c.lanes ≠ [] →
    let one (r : Reg) : List Opnd := [.one r]
    let node (r : Reg) (e : Nat) (n : Node) : Prop :=
      c.g.thunks.entryOf ((c.uniform (.one r)).setWidth 32) = some e ∧ c.g.thunks.nodes.find e = some n
    let new (op : NodeOp) (rows cols : Nat) (fmt : TileFmt) : Node :=
      { op := op, rows := rows, cols := cols, fmt := fmt, pc := c.pc, dropped := false, forced := none }
    let makes (i : Instr) (opnds os : List Opnd) (n : Node) : Prop :=
      IssuesUniform s c (Needs.regs (.one d :: opnds)) os → Allocates s c os d n (exec i s)
    (∀ t, readTileDesc (c.quad a) = some t →
      makes (.tdesc d a) [.four a] (quadOpnds a) (new (.desc t) t.rows t.cols t.fmt)) ∧
    (∀ x y n m, node a x n → node b y m →
      (n.cols = m.rows → mulInput c.g.modes.mm0 n = true → mulInput c.g.modes.mm0 m = true →
        Mm0.productOk c.g.modes.mm0 = true → makes (.tmul d a b) [.one a, .one b] [.one a, .one b]
          (new (.mul x y c.g.modes.mm0 c.g.modes.mm1 c.g.modes.mm2) n.rows m.cols
            (if Mm0.ct c.g.modes.mm0 = 0 then .f32 else .i32))) ∧
      (n.rows = m.rows → n.cols = m.cols →
        makes (.tadd d a b) [.one a, .one b] [.one a, .one b] (new (.add x y) n.rows n.cols .f32))) ∧
    (∀ x n, node a x n →
      (∀ fn, makes (.tmap d a fn) (one a) (one a) (new (.map x fn) n.rows n.cols .f32)) ∧
      makes (.tscl d a b) [.one a, .one b] [.one a, .one b]
        (new (.scl x ((c.uniform (.one b)).setWidth 32)) n.rows n.cols .f32) ∧
      (∀ col op, makes (.tred d a col op) (one a) (one a)
        (new (.red x col op) (if col then 1 else n.rows) (if col then n.cols else 1) .f32)) ∧
      let root := c.g.thunks.root x
      let view (m : IndexMap) (rows cols : Nat) : Node := new (.view root.1 (root.2.after m)) rows cols n.fmt
      makes (.ttrn d a) (one a) (one a)
        (view { m00 := 0, m01 := 1, o0 := 0, m10 := 1, m11 := 0, o1 := 0 } n.cols n.rows) ∧
      (∀ r0 c0 rows cols, low12 ((c.quad b).getD 0 0) = some r0 → low12 ((c.quad b).getD 1 0) = some c0 →
        quadShape ((c.quad b).getD 2 0) = some (rows, cols) → (c.quad b).getD 3 0 = 0 →
        r0 + rows ≤ n.rows → c0 + cols ≤ n.cols → makes (.tslc d a b) [.one a, .four b] (.one a :: quadOpnds b)
          (view { m00 := 1, m01 := 0, o0 := r0, m10 := 0, m11 := 1, o1 := c0 } rows cols)) ∧
      (∀ rows cols, quadShape ((c.quad b).getD 2 0) = some (rows, cols) → (c.quad b).getD 0 0 = 0 →
        (c.quad b).getD 1 0 = 0 → (c.quad b).getD 3 0 = 0 → (n.rows = rows ∨ n.rows = 1) → (n.cols = cols ∨ n.cols = 1) →
        makes (.tbcast d a b) [.one a, .four b] (.one a :: quadOpnds b)
          (view { m00 := if 1 < n.rows then 1 else 0, m01 := 0, o0 := 0, m10 := 0,
                  m11 := if 1 < n.cols then 1 else 0, o1 := 0 } rows cols))) ∧
    (let bad (r : Reg) : Prop := c.g.thunks.entryOf ((c.uniform (.one r)).setWidth 32) = none
     let traps (i : Instr) (needs os : List Opnd) : Prop := IssuesUniform s c (Needs.regs needs) os →
       TrapsWith s c (c.after os) (TrapInfo.at c.pc c.gang .illopnd (c.g.execLanes c.gang)) (exec i s)
     (bad a → (∀ fn, traps (.tmap d a fn) [.one d, .one a] (one a)) ∧
       (∀ col op, traps (.tred d a col op) [.one d, .one a] (one a)) ∧ traps (.ttrn d a) [.one d, .one a] (one a) ∧
       traps (.tscl d a b) [.one d, .one a, .one b] [.one a, .one b] ∧
       (∀ i ∈ [Instr.tslc d a b, .tbcast d a b], traps i [.one d, .one a, .four b] (.one a :: quadOpnds b)) ∧
       traps (.tdrop a) (one a) (one a)) ∧
     (bad a ∨ bad b → ∀ i ∈ [Instr.tmul d a b, .tadd d a b], traps i [.one d, .one a, .one b] [.one a, .one b])) ∧
    (∀ x n, node a x n → IssuesUniform s c (Needs.regs (one a)) (one a) →
      ∃ g, Leaves s c (c.past g) (exec (.tdrop a) s) ∧ g = { c.after (one a) with thunks := g.thunks } ∧
        g.thunks.entryOf ((c.uniform (.one a)).setWidth 32) = none ∧ g.thunks.gens = c.g.thunks.gens ∧
        ∀ p ∈ g.thunks.nodes, ∃ old, (p.1, old) ∈ c.g.thunks.nodes ∧
          p.2 = if p.1 = x then { old with dropped := true } else old)

/-- TSTORE, TFORCE and CPY, with an active lane, operands that obey their rules and nothing to wait for, start a command
under flag B that goes on beside the program; a force takes the lowest free spill space, or waits with a force of its
node that is under way, and of a node that is forced already TFORCE only goes on. CPCLOSE gives every lane of the gang
the number of the open batch and opens the next. WAITB goes on when no copy of the batches that it names is in flight,
and observes those that have completed (what the group then has seen is log 18), waits else, and traps with ILLOPND
where the open batch is among them (R162, R165, R204 to R207, R246, R424). The lanes that the ILLOPND of CPY and WAITB
names, those in exec of the gang, are the model's choice (log 38). -/
def Obligations.EngineCommandsBegin : Prop :=
  ∀ (s : State) (c : Ctx) (d a b v : Reg), c.lanes ≠ [] →
    let w (r : Reg) : Word := (c.uniform (.one r)).setWidth 32
    (∀ e n t sc, let os := (.one a :: quadOpnds b) ++ [.one v]
      IssuesUniform s c (Needs.regs [.one a, .four b, .one v]) os →
      c.g.thunks.entryOf (w a) = some e → c.g.thunks.nodes.find e = some n → readTileDesc (c.quad b) = some t →
      storeScope (w v) t.scr = some sc → t.cols ≤ t.stride → t.rows = n.rows → t.cols = n.cols →
      accessHeld s c = false → (t.scr = true → scratchHeld s c = false) →
      scratchBehind s c.slot (sourceRanges c.g.thunks e) = false →
      ((w v).getLsbD 3 = true → Plain c.g → s.readsFixed c.slot = true) →
      Unaliased s c [{ scr := t.scr, addr := t.base, len := t.span }] →
      Commands s c os .tstore (fun o => o.rel = (if (w v).getLsbD 4 then some sc else none) ∧
        ∃ j, o.tile = some j ∧ j.entry = e ∧ j.dest = some t ∧ j.ctl = w v ∧ j.done = 0) (exec (.tstore a b v) s)) ∧
    (∀ x n, let os := [Opnd.one a]
      let e := (c.g.thunks.root x).1
      IssuesUniform s c (Needs.regs os) os → c.g.thunks.entryOf (w a) = some x → c.g.thunks.nodes.find e = some n →
      (n.forced ≠ none → Leaves s c (c.past (c.after os)) (exec (.tforce a) s)) ∧
      (n.forced = none → accessHeld s c = false → scratchBehind s c.slot (sourceRanges c.g.thunks e) = false →
        let forces (spill : Option Nat) : Prop := Commands s c os .tforce (fun o => ∃ j, o.tile = some j ∧ j.entry = e ∧
          j.dest = none ∧ j.spill = spill) (exec (.tforce a) s)
        (s.forcing c.slot e = true → forces none) ∧
        (s.forcing c.slot e = false → ∀ l off, s.launch c.g.launch = some l →
          spillFit l.desc.spillSize (spillBytes n) (s.spillUsed c.slot c.g) = some off → forces (some off)))) ∧
    (let os := (.one d :: quadOpnds a) ++ [.one b]
     IssuesUniform s c (Needs.regs [.one d, .four a, .one b]) os →
     let q (i : Nat) : Nat := ((c.quad a).getD i 0).toNat
     let j : CopyJob := { src := q 1 * 2 ^ 32 + q 0, dst := q 3 * 2 ^ 32 + q 2, ctl := w b, bar := (w d).toNat,
                          batch := c.g.batch, done := 0, arrived := 0 }
     (∀ addr, copyFault (s.scratchBound c.g) j (c.quad a) = some addr → TrapsWith s c (c.after os)
       (TrapInfo.atAddr c.pc c.gang .illopnd (c.g.execLanes c.gang) addr) (exec (.cpy d a b) s)) ∧
     (copyFault (s.scratchBound c.g) j (c.quad a) = none → accessHeld s c = false →
       ((j.srcScr || j.dstScr || j.bar != 0) = true → scratchHeld s c = false) →
       scratchBehind s c.slot [{ scr := j.srcScr, addr := j.src, len := j.len }] = false →
       (j.acq = true → Plain c.g → s.readsFixed c.slot = true) → Unaliased s c [j.span] →
       Commands s c os .copy (fun o => o.copy = some j ∧ o.rel = if j.rel then j.scope else none) (exec (.cpy d a b) s))) ∧
    (Issues s c (Needs.regs [.one d]) → NoStep c → ∃ g, Leaves s c (c.past { g with batch := c.g.batch + 1 }) (exec (.cpclose d) s) ∧
      Flagged c 0 g ∧ Writes c (.one d) (Group.gangLanes c.gang) (fun _ => BitVec.ofNat 64 (c.g.batch % 2 ^ 32)) g) ∧
    (IssuesUniform s c (Needs.regs [.one a]) [.one a] →
      let covers (k : Nat) : Prop := ((w a).toNat + 2 ^ 32 - k % 2 ^ 32) % 2 ^ 32 < 2 ^ 31
      let open' := c.g.batch
      let waits := ∃ p ∈ s.opsOf c.slot, ∃ j, p.2.copy = some j ∧ covers j.batch ∧ open' < j.batch + 2 ^ 32
      (covers open' → TrapsWith s c (c.after [.one a]) (TrapInfo.at c.pc c.gang .illopnd (c.g.execLanes c.gang)) (exec (.waitb a) s)) ∧
      (¬ covers open' → waits → ∃ t h, exec (.waitb a) s = .next t ∧ t.group c.slot = some h ∧ h.regs = c.g.regs ∧
        ∀ i, (h.strand i).pc = (c.g.strand i).pc) ∧
      (¬ covers open' → ¬ waits → ∃ u h, Observes (s.setGroup c.slot (c.after [.one a])) u { c with g := c.after [.one a] }
          (fun d => d.batch.any fun k => decide (((w a).toNat + 2 ^ 32 - k % 2 ^ 32) % 2 ^ 32 < 2 ^ 31 ∧ open' < k + 2 ^ 32)) h ∧
        Leaves u c (c.past h) (exec (.waitb a) s)))

/-- A fault of a copy, or of a granule that a demand reads, suspends the command: LATE with the fault's code in XSUB and
its address, the command's PC as XPC, and as XNPC and XNODE the PC and the handle of the node that failed, for a copy
its own PC and 0; the granule that has met the fault is no longer in progress. A suspended command raises LATE for its
group, once, in the order of issue, and after its granules in progress have finished, naming every lane that has not
exited. Where the group has exited the command ends and the fault is logged (R169 to R172, R205). -/
def Obligations.LateFaultsTrap : Prop :=
  (∀ (s : State) (id k keeps reads holds : Nat) (o : Op) (j : CopyJob) (g : Group) (f : EngineFault), s.op id = some o →
    o.copy = some j → s.group o.slot = some g → o.suspended = none → j.done.testBit k = false → k < j.chunks →
    engineLocs s o g j.srcScr j.decode .read 0 ((chunkBytes j k).map (j.src + ·)) = .error f →
    Suspended (s.copyChunk id k keeps reads holds) id o f.cause f.addr o.pc 0) ∧
  (∀ (s : State) (id k keeps reads : Nat) (elem : Option Nat) (o : Op) (j : TileJob) (g : Group) (entry : Nat) (n : Node)
    (t : TileDesc) (r : Rect) (f : EngineFault), o.suspended = none →
    let todo := r.elems.filter fun p => (j.cache.find (elemKey entry p.1 p.2)).isNone
    tileLocs s o g t (some (g.tileMode n keeps reads)) r.elems (pickElems elem todo) = .error f →
    Suspended (s.readGranule id k o j g entry n t r elem keeps reads) id { o with tile := o.tile.map (·.ended k) }
      f.cause f.addr n.pc (handleOf (g.thunks.gen entry) entry)) ∧
  (∀ (s : State) (id : Nat) (o : Op) (t : TrapInfo) (g : Group), s.op id = some o → o.suspended = some t →
    s.group o.slot = some g →
    (o.aux ≠ 0 ∨ o.inProgress = true → exec (.lateFault id) s = .next s) ∧
    (o.aux = 0 → o.inProgress = false → (∀ p ∈ s.opsOf o.slot, p.1 < id → p.2.suspended = none ∨ p.2.aux ≠ 0) →
      (g.allExited = true → ∃ u, exec (.lateFault id) s = .next u ∧ u.op id = none ∧ SameBytes s u ∧
        Logs s u (slotCore o.slot) [1, t.sub.toNat, t.addr, t.npc.toNat]) ∧
      (∀ h, g.allExited = false → CanTrap s g h → ∃ u, exec (.lateFault id) s = .next u ∧
        (∃ g', u.group o.slot = some g' ∧ EntersHandler g h { t with lanes := laneMask (g.liveLanes g.allStrands) } g') ∧
        (∀ k, k ≠ o.slot → u.group k = s.group k) ∧ u.op id = some { o with aux := 1 } ∧ SameBytes s u)))

/-! ## Barriers and channels -/

/-- The byte-counting barriers, with an active lane: an offset that is no multiple of 16 traps with ALIGN, one past
the team's scratch with ILLOPND (R208, R337), and poison in a barrier that is read with MEMERR (R11, R324). BCINIT sets
EXP and clears ARR and PH; BCEXP adds to EXP and BCARR to ARR, modulo 2^32, and a phase ends where EXP is not zero and
ARR has reached it; strands of the team that wait for it leave with an acquire. BCWAIT waits until PH differs from its
operand, for a deterministic group as it sees PH (R250), and leaves so. BAR and BARC trap with ILLOPND where the mask is
out of range or lacks the issuer's own bit, and with BARMASK where it differs from that of an open phase or another
strand of the group waits at another barrier (that a BAR counts so for a BARC and the reverse is the model's choice, log
28); else their strands wait one word further, in a phase opened with the mask. A group that is the only member
completes the phase when all its strands have arrived (R300, R301). WRSR of BARST with OPEN = 0 sets PHASE and abandons
the phase, whose strands leave without an acquire; with OPEN = 1 it sets ARR of an open barrier too, and tests, and of a
closed one it traps with ILLEGAL (R302). The lanes that these traps name, those in exec of the gang, are the model's
choice (log 38), and the marks view.acquired and view.fenced of an acquire are its own bookkeeping (log 18). -/
def Obligations.Barriers : Prop :=
  (∀ (s : State) (c : Ctx) (a b : Reg) (t : Team), IssuesUniform s c (Needs.regs [.one a, .one b]) [.one a, .one b] →
    c.lanes ≠ [] → s.team c.g.teamKey = some t →
    let g := c.after [.one a, .one b]
    let o := (c.uniform (.one a)).toNat
    let v := (c.uniform (.one b)).toNat
    let words (m : Sparse Byte) : Nat × Nat × Nat := (scratchWord m o, scratchWord m (o + 4), scratchWord m (o + 8))
    let exp := scratchWord t.scratch o
    let arr := scratchWord t.scratch (o + 4)
    let ph := scratchWord t.scratch (o + 8)
    let seen := if Gs.det c.g.modes.gs then scratchWord (scratchView t c.g) (o + 8) else ph
    let poison := s.scratchPoison c.g o 16
    let clear := o % 16 = 0 ∧ o + 16 ≤ s.scratchBound c.g ∧ accessHeld s c = false ∧ scratchHeld s c = false
    let free := clear ∧ poison = false
    let sets (i : Instr) (w : Nat × Nat × Nat) : Prop := ∃ u h x, Leaves u c (c.past h) (exec i s) ∧ OnlyTeams s u c g h ∧
      u.team c.g.teamKey = some { t with scratch := x } ∧ words x = w ∧
      (∀ k, k < o ∨ o + 12 ≤ k → x.get k 0 = t.scratch.get k 0) ∧
      ∀ k ∈ t.slots, ∀ old now, s.group k = some old → u.group k = some now → ∀ i < old.strands.length, ∀ p,
        (old.strand i).block = some (.bcwait o p) → w.2.2 ≠ p.toNat →
        (now.strand i).block = none ∧ now.view.acquired = s.ids ∧ now.view.fenced = s.ids
    (∀ i ∈ [Instr.bcinit a b, .bcexp a b, .bcarr a b, .bcwait a b],
      (o % 16 ≠ 0 → TrapsWith s c g (TrapInfo.atAddr c.pc c.gang .align (c.g.execLanes c.gang) o) (exec i s)) ∧
      (o % 16 = 0 → s.scratchBound c.g < o + 16 →
        TrapsWith s c g (TrapInfo.atAddr c.pc c.gang .illopnd (c.g.execLanes c.gang) o) (exec i s)) ∧
      (i ≠ .bcinit a b → o % 16 = 0 → o + 16 ≤ s.scratchBound c.g → poison = true →
        TrapsWith s c g (TrapInfo.atAddr c.pc c.gang .memerr (c.g.execLanes c.gang) o) (exec i s))) ∧
    (Plain c.g → engineBusy s c.slot [{ scr := true, addr := o, len := 16 }] = false →
      (clear → sets (.bcinit a b) (v, 0, 0)) ∧
      (free → sets (.bcexp a b) (let e := (exp + v) % 2 ^ 32
        if 0 < e ∧ e ≤ arr then (0, arr - e, (ph + 1) % 2 ^ 32) else (e, arr, ph))) ∧
      (free → sets (.bcarr a b) (let r := (arr + v) % 2 ^ 32
        if 0 < exp ∧ exp ≤ r then (0, r - exp, (ph + 1) % 2 ^ 32) else (exp, r, ph)))) ∧
    (free → seen ≠ v → ∃ u h, Leaves u c (c.past h) (exec (.bcwait a b) s) ∧ Beside s u c h ∧
      h = { g with view := h.view } ∧ h.view.acquired = s.ids ∧ h.view.fenced = s.ids) ∧
    (free → seen = v → ∃ t, exec (.bcwait a b) s = .next (t.modGroup c.slot Group.endQuantum) ∧
      Leaves s c (c.past (c.blocked g (.bcwait o (BitVec.ofNat 32 v)))) (.next t))) ∧
  (∀ (s : State) (c : Ctx) (a : Reg) (i : BitVec 4) (t : Team) (cl : Cluster), s.team c.g.teamKey = some t →
    s.cluster t.cluster = some cl →
    let all := c.g.execLanes c.gang
    let joins (ins : Instr) (o : Opnd) (w : Block) (limit own : Nat) : Prop :=
      IssuesUniform s c (Needs.unguarded [o]) [o] →
      let mask := c.uniform o
      let b := s.barrierOf c.g w
      let bad := 2 ^ limit ≤ mask.toNat ∨ mask.getLsbD own = false
      let other := (b.isOpen = true ∧ b.mask ≠ mask) ∨ ∃ j < c.g.strands.length, j ∉ c.gang ∧
        ∃ k, ((c.g.strand j).block = some (.bar k) ∧ w ≠ .bar k) ∨ ((c.g.strand j).block = some (.barc k) ∧ w ≠ .barc k)
      (bad → TrapsWith s c (c.after [o]) (TrapInfo.at c.pc c.gang .illopnd all) (exec ins s)) ∧
      (¬ bad → other → TrapsWith s c (c.after [o]) (TrapInfo.at c.pc c.gang .barmask all) (exec ins s)) ∧
      (¬ bad → ¬ other → Plain c.g →
        (∃ j < c.g.strands.length, j ∉ c.gang ∧ (c.g.strand j).exited = false ∧ (c.g.strand j).block ≠ some w ∧
          (c.g.strand j).waitsAt = none) →
        ∃ u h, Leaves u c h (exec ins s) ∧
          h = (c.after [o]).modStrands c.gang (fun _ x => { x.advance with block := some w }) ∧
          u.mem = s.mem ∧ u.launches = s.launches ∧ (∀ k, k ≠ c.slot → u.group k = s.group k) ∧
          u.barrierOf c.g w = if b.isOpen then b
            else { b with isOpen := true, arr := 0, arrived := [], mask := mask, low := mask.extractLsb' 0 16 })
    joins (.bar a i) (.two a) (.bar i) (((s.launch c.g.launch).map (·.desc.groups)).getD 1) c.g.ident.grpid ∧
    joins (.barc a i) (.one a) (.barc i) (((s.launch c.g.launch).map fun l => l.desc.cx * l.desc.cy).getD 1) c.g.ident.rank ∧
    (IssuesUniform s c (Needs.unguarded [.two a]) [.two a] → Plain c.g →
      c.uniform (.two a) = 1#64 <<< c.g.ident.grpid → c.g.ident.grpid < 64 →
      c.g.ident.grpid < ((s.launch c.g.launch).map (·.desc.groups)).getD 1 → (s.teamBarrier c.g i.toNat).isOpen = false →
      (∀ j < c.g.strands.length, j ∈ c.gang ∨
        (((c.g.strand j).exited = true ∨ (c.g.strand j).waitsAt.isSome = true) ∧ (c.g.strand j).block = none)) →
      s.loadsFixed c.slot = true → c.slot ∈ t.slots →
      ∃ u h, exec (.bar a i) s = .next u ∧ u.group c.slot = some h ∧ h.regs = c.g.regs ∧ u.mem = s.mem ∧
        (∀ j ∈ c.gang, (h.strand j).pc = c.pc + 4 ∧ (h.strand j).block = none) ∧
        (u.teamBarrier c.g i.toNat).phase = (s.teamBarrier c.g i.toNat).phase + 1 ∧
        (u.teamBarrier c.g i.toNat).isOpen = false) ∧
    (∀ num : BitVec 8, num.toNat = 0x60 + i.toNat → c.g.tm = true →
      IssuesUniform s c (Needs.unguarded [.one a]) [.one a] →
      let x : Word := (c.uniform (.one a)).setWidth 32
      let b := s.teamBarrier c.g i.toNat
      let arr := (x.extractLsb' 17 7).toNat
      let becomes (b' : Barrier) : Prop :=
        ∃ u, exec (.wrsr a num) s = .next u ∧ u.mem = s.mem ∧ u.teamBarrier c.g i.toNat = b'
      (x.getLsbD 16 = true → b.isOpen = false → TrapsWith s c (c.after [.one a]) (TrapInfo.at c.pc c.gang .illegal all)
        (exec (.wrsr a num) s)) ∧
      (x.getLsbD 16 = true → b.isOpen = true → t.exited = [] →
        becomes (if ((List.range 64).filter fun j => b.mask.getLsbD j).length ≤ arr
          then { b with phase := x.extractLsb' 24 8 + 1, isOpen := false, arr := 0, arrived := [] }
          else { b with phase := x.extractLsb' 24 8, arr := arr })) ∧
      (x.getLsbD 16 = false →
        becomes { b with phase := x.extractLsb' 24 8, isOpen := false, arr := 0, arrived := [] } ∧
        ∀ u, exec (.wrsr a num) s = .next u → ∀ k ∈ t.slots, ∀ old, s.group k = some old → ∃ now, u.group k = some now ∧
          now.view = old.view ∧ ∀ j < old.strands.length, (old.strand j).block = some (.bar i) →
            (now.strand j).block = none)))

/-- CHSEND, CHRECV and CHPOLL, with an active lane, trap with CHAN where the launch declares no such channel, the team
is not its source (or destination), or another strand of the group lives. CHSEND takes a free slot, with none it
waits, or traps where the destination has exited; CHRECV claims the next slot; CHPOLL gives every lane of the gang
both counts and whose channel it is. CHRECV traps where no send can fill its slot. A slot is filled in the order of its
sends, and discarded where its destination has exited; a full one lands in every lane with an acquire at CLU and gives
its credit back (R264 to R267, R346). A fault of the backing area traps with CHAN at the slot's address. That the acquire
is made at the landing, holds the group's later accesses until then, and does not hold a later CHSEND, is the model's
choice (log 27), and so are CHAN for a FORMAT fault, the slots that receives have claimed, which are not discarded, and
the free count as a deterministic group finds it: that of the last commit less its own sends since then.
The lanes that the traps name, those in exec of the gang, are the model's choice (log 38). -/
def Obligations.ChannelsCarrySlots : Prop :=
  (∀ (s : State) (c : Ctx) (r : Reg) (ch : BitVec 4), Issues s c (Needs.regs [.one r]) → NoStep c → c.lanes ≠ [] →
    let traps (i : Instr) : Prop := TrapsWith s c c.g (TrapInfo.at c.pc c.gang .chan (c.g.execLanes c.gang)) (exec i s)
    let alone := ∀ i ∈ c.g.liveStrands, i ∈ c.gang
    (s.endpoint c.g ch.toNat = none → ∀ i ∈ [Instr.chsend r ch, .chrecv r ch, .chpoll r ch], traps i) ∧
    ∀ e : Endpoint, s.endpoint c.g ch.toNat = some e →
      let source := e.decl.source = c.g.ident.rank
      let dest := e.decl.dest = c.g.ident.rank
      let free := if Gs.det c.g.modes.gs then e.chan.free - ((s.opsOf c.slot).filter fun p =>
        p.2.kind == .send && p.2.aux == 0 && (p.2.channel.getD (0, 0)).1 == ch.toNat).length else e.chan.free
      (¬ source ∨ ¬ alone → traps (.chsend r ch)) ∧ (¬ dest ∨ ¬ alone → traps (.chrecv r ch)) ∧
      ((¬ source ∧ ¬ dest) ∨ ¬ alone → traps (.chpoll r ch)) ∧
      (source → alone → free = 0 →
        (s.rankExited e.cluster e.decl.dest = true → traps (.chsend r ch)) ∧
        (s.rankExited e.cluster e.decl.dest = false → Stalls s c (exec (.chsend r ch) s))) ∧
      (∀ p, source → alone → 0 < e.chan.free → s.channelPhys c e ch.toNat e.chan.nextSend = .ok p → Plain c.g →
        heldBut (fun o => o.kind == .receive) s c = false → s.releaseReady c.slot .clu = true →
        ∃ u o t, Leaves u c (c.past c.g) (.next t) ∧ exec (.chsend r ch) s = .next (released c (some .clu) t) ∧
          u.slots = s.slots ∧ u.teams = s.teams ∧ u.launches = s.launches ∧ SameBytes s u ∧ u.op s.ids = some o ∧ o.kind = .send ∧ o.slot = c.slot ∧
          o.channel = some (ch.toNat, e.chan.nextSend) ∧
          o.data = ((List.range c.g.width).flatMap fun l => wordBytes (c.g.reg r.toNat l)) ∧
          u.endpoint c.g ch.toNat = some { e with chan :=
            { e.chan with free := e.chan.free - 1, nextSend := e.chan.nextSend + 1 } }) ∧
      (dest → alone → s.neverFills e.cluster ch.toNat e.decl.source e.chan.nextRecv e.chan = true → traps (.chrecv r ch)) ∧
      (∀ f : Cause × Nat, alone →
        let faults (i : Instr) : Prop := TrapsNoting s c c.g (TrapInfo.atAddr c.pc c.gang .chan (c.g.execLanes c.gang) f.2)
          (f.1 ≠ .perm ∧ f.1 ≠ .memerr) (exec i s)
        (source → 0 < free → s.channelPhys c e ch.toNat e.chan.nextSend = .error f → faults (.chsend r ch)) ∧
        (dest → s.neverFills e.cluster ch.toNat e.decl.source e.chan.nextRecv e.chan = false →
          s.channelPhys c e ch.toNat e.chan.nextRecv = .error f → faults (.chrecv r ch))) ∧
      (∀ p, dest → alone → s.neverFills e.cluster ch.toNat e.decl.source e.chan.nextRecv e.chan = false →
        s.channelPhys c e ch.toNat e.chan.nextRecv = .ok p → Plain c.g →
        ∃ u o, Leaves u c (c.past c.g) (exec (.chrecv r ch) s) ∧ u.slots = s.slots ∧ u.teams = s.teams ∧
          u.launches = s.launches ∧ SameBytes s u ∧ u.op s.ids = some o ∧ o.kind = .receive ∧ o.slot = c.slot ∧
          o.channel = some (ch.toNat, e.chan.nextRecv) ∧ o.dst = some r ∧ o.lanes = Group.gangLanes c.gang ∧
          o.acq = some .clu ∧ u.endpoint c.g ch.toNat = some { e with chan := { e.chan with nextRecv := e.chan.nextRecv + 1 } }) ∧
      (source ∨ dest → alone → ∃ g, Leaves s c (c.past g) (exec (.chpoll r ch) s) ∧ Flagged c 0 g ∧
        Writes c (.one r) (Group.gangLanes c.gang) (fun _ => BitVec.ofNat 64 (e.chan.full % 128 +
          256 * (free % 128) + (if source then 2 ^ 16 else 0) + if dest then 2 ^ 17 else 0)) g)) ∧
  (∀ (s : State) (id : Nat) (o : Op) (e : Endpoint), s.op id = some o → s.opEndpoint o = some e → o.aux = 1 →
    Memory.wf s.mem = true →
    (∀ g tm, s.group o.slot = some g → g.allExited = true → s.team g.teamKey = some tm → g.ident.grpid ∈ tm.exited) →
    let a := o.slotAddr e
    let now (t : State) (x : Channel) : Prop := ∃ cl, t.cluster e.cluster = some cl ∧ cl.channels.find o.chan.1 = some x
    (o.kind = .send → (∀ p ∈ s.mem.ops, p.2.kind = .send → id ≤ p.1) → s.regionHeld a o.data.length = false →
      s.pendingWords a o.data.length = [] →
      ∃ t, exec (.channelSlotFill id) s = .next t ∧ t.op id = none ∧ Stored s t a o.data ∧
        ∀ cl l d, s.cluster e.cluster = some cl → s.launch cl.launch = some l → l.desc.chans.find o.chan.1 = some d →
          let x := { e.chan with full := e.chan.full + 1, written := e.chan.written.put o.chan.2 (some o.data) }
          let claimed := x.written.filter fun p => decide (p.1 < x.nextRecv)
          now t (if s.rankExited e.cluster d.dest then { x with full := claimed.length, written := claimed } else x)) ∧
    (∀ d g sent, o.kind = .receive → s.group o.slot = some g → Plain g → o.dst = some d →
      e.chan.written.find o.chan.2 = some sent → e.chan.misused = false → s.mem.read a sent.length = sent →
      s.mem.poisoned a sent.length = false → s.regionHeld a (4 * g.width) = false →
      ∃ t h, exec (.channelReceiveLand id) s = .next t ∧ Completes s t id (some o.slot) ∧ t.group o.slot = some h ∧
        Woken { g with regs := h.regs, mmar := h.mmar } h ∧
        (∀ l ∈ o.lanes, h.reg d.toNat l = BitVec.ofNat 32 (leNat ((sent.drop (4 * l)).take 4))) ∧
        (∀ k l, ¬ (l ∈ o.lanes ∧ k = d.toNat) → h.reg k l = g.reg k l) ∧ h.view.acquired = s.ids ∧
        (∀ x ∈ (t.core (slotCore o.slot)).l1, x.grain ≠ 0) ∧
        now t { e.chan with full := e.chan.full - 1, free := e.chan.free + 1, written := e.chan.written.put o.chan.2 none }))

/-! ## Tasks, messages and rounds -/

/-- TSPAWN, with an active lane, of a bound queue and a record that can be read, with no request of its core on its way
there and no handler on its region, reads the record first. One with a reserved bit traps with ILLOPND, with no release;
another is sent to the queue's engine, once the release has nothing to wait for, and the strands wait. It traps before
that with ILLOPND for a queue that is not bound, and with what R11 finds wrong with the read of 64 bytes; the lanes
named, those in exec of the gang, are the model's choice (log 38). TSTAT gives every lane of the gang whether its job is
cancelled, whether it is a task, and its queue. JCANCEL sends the cancellation to every engine and port, and its strands
wait. QEND goes on; in deterministic operation it ends the quantum (R286 to R288, R377, R396, R419, R420). -/
def Obligations.TasksAndJobs : Prop :=
  ∀ (s : State) (c : Ctx) (d a : Reg),
    (let os := [Opnd.one d, .two a]
     let h := (c.uniform (.one d)).toNat
     let va := (c.uniform (.two a)).toNat % 2 ^ 52
     IssuesUniform s c (Needs.regs os) os → c.lanes ≠ [] →
     (256 ≤ h ∨ s.queues.find h = none →
       TrapsWith s c (c.after os) (TrapInfo.at c.pc c.gang .illopnd (c.g.execLanes c.gang)) (exec (.tspawn d a) s)) ∧
     let lanes := c.g.execLanes c.gang
     let check := checkOne s c.core (s.rootOf c.g.launch)
       { size := 64, rights := .read, deny := fun _ => false, bad := s.readPoison c.g 64, reach := true } va 0
     (∀ e, h < 256 → s.queues.find h ≠ none → check = .error e →
       TrapsNoting s c (c.after os) (TrapInfo.atAddr c.pc c.gang e lanes va) (e ≠ .perm ∧ e ≠ .memerr)
         (exec (.tspawn d a) s)) ∧
     (∀ p, h < 256 → s.queues.find h ≠ none → Plain c.g → accessHeld s c = false →
       check = .ok p → rejectedMeets s c [(p.pa, 64)] = false → s.pendingWords p.pa 64 = [] →
       (∀ ws, s.holdable 16 p.pa 64 ws = []) → (∀ q ∈ s.mem.ops, q.2.kind ≠ .engineRead) →
       s.regionHeld p.pa 64 = false → s.ownRequests c.core p.pa 64 = false →
       (recOk (readRecord (s.mem.read p.pa 64)) = true → s.releaseReady c.slot .dev = true →
         Blocks s c (c.after os) .spawn (fun o => o.data = s.mem.read p.pa 64 ∧ o.aux = h)
           (fun t => released c (some .dev)
             (t.sendRecord h { fields := readRecord (s.mem.read p.pa 64), op := some s.ids, task := none }))
           (exec (.tspawn d a) s)) ∧
       (recOk (readRecord (s.mem.read p.pa 64)) = false → ∀ entry, CanTrap s c.g entry → ∃ u view,
         TakesTrap s c.slot { c.after os with view := view } entry (TrapInfo.at c.pc c.gang .illopnd lanes) u ∧
         exec (.tspawn d a) s = .next u))) ∧
    (Issues s c (Needs.unguarded [.one d]) → NoStep c →
      ∃ g, Leaves s c (c.past g) (exec (.tstat d) s) ∧ Flagged c 0 g ∧
        Writes c (.one d) (Group.gangLanes c.gang) (fun _ => BitVec.ofNat 64 (256 * (c.g.ident.queue.getD 255) +
          (if c.g.ident.queue.isSome then 2 else 0) +
          (if (if Gs.det c.g.modes.gs then c.g.det.can else s.cancelledAt (4 + c.core) c.g.ident.job) then 1 else 0))) g) ∧
    (IssuesUniform s c (Needs.regs [.one a]) [.one a] → c.lanes ≠ [] → Plain c.g →
      Blocks s c (c.after [.one a]) .cancelJob (fun o => o.lanes = List.range 388 ∧ o.aux = s.time.gts ∧
        o.data = wordBytes ((c.uniform (.one a)).setWidth 32)) id (exec (.jcancel a) s)) ∧
    (Issues s c (Needs.regs []) → NoStep c →
      (Plain c.g ∨ c.lanes = [] → Leaves s c (c.past c.g) (exec .qend s)) ∧
      (Gs.det c.g.modes.gs = true → c.lanes ≠ [] → Buffers s c true (fun more => more = []) (exec .qend s)))

/-- AMSG, with an active lane, to a word of local HBM that can be read and written, sends its message to the home
slice and goes on; a reserved bit or RPL = 3 traps with ILLOPND, a target that fails a check with its cause (the lanes
named, those in exec of the gang, are the model's choice, log 38). A slice whose tinker is at rest starts the handler
at the entry of its index, with the target's offset, the payload and the sender in a0 to a3, or replies at once that
there is none. A handler that ends with ECALL has its writes performed and replies a0; one that excepts, or retires
more than 512 instructions, writes nothing and replies so. An image is read, sector by sector as its tables map it, and
installed in every tinker, whose memory is zero behind it (R268 to R270). -/
def Obligations.MessagesRun : Prop :=
  (∀ (s : State) (c : Ctx) (d a b : Reg), let os := quadOpnds a ++ [.one b]
    IssuesUniform s c (Needs.regs [.one d, .four a, .one b]) os → c.lanes ≠ [] →
    let w (i : Nat) : Word := (c.quad a).getD i 0
    let ctl : Word := (c.uniform (.one b)).setWidth 32
    let rpl := (ctl.extractLsb' 6 2).toNat
    let va := ((w 1).extractLsb' 0 20).toNat * 2 ^ 32 + (w 0).toNat
    let bad := (w 1).extractLsb' 20 12 ≠ 0 ∨ ctl.extractLsb' 8 24 ≠ 0 ∨ rpl = 3
    (bad → TrapsWith s c (c.after os) (TrapInfo.at c.pc c.gang .illopnd (c.g.execLanes c.gang)) (exec (.amsg d a b) s)) ∧
    (∀ e, ¬ bad → checkTarget s c va = .error e → TrapsNoting s c (c.after os)
      (TrapInfo.atAddr c.pc c.gang e (c.g.execLanes c.gang) va) (e ≠ .perm ∧ e ≠ .memerr) (exec (.amsg d a b) s)) ∧
    (∀ p l, ¬ bad → checkTarget s c va = .ok p → accessHeld s c = false →
      rejectedMeets s c [(regionBase p.pa, 512)] = false → Plain c.g → s.launch c.g.launch = some l →
      ∃ u o, Leaves u c (c.past (c.after os)) (exec (.amsg d a b) s) ∧ Beside s u c (c.after os) ∧
        u.op s.ids = some o ∧ o.kind = .message ∧ o.slot = c.slot ∧ o.flag = c.flagB ∧ o.lanes = Group.gangLanes c.gang ∧
        o.dst = (if rpl = 1 then some d else none) ∧ o.aux = rpl ∧ o.pieces.length = 1 ∧
        let message (m : Req) : Prop := m.src = .core c.core ∧ m.kind = .message p.pa (ctl.extractLsb' 0 6).toNat
          (w 2).toNat (w 3).toNat (c.g.ident.team * 64 + c.g.ident.grpid) (l.desc.tkimg != 0)
        (∃ m ∈ u.mem.reqs, m.2.op = s.ids ∧ m.2.addr = p.pa ∧ message m.2) ∧ NewRequests s u o fun m _ => message m)) ∧
  (∀ (s : State) (req : Nat) (r : Req) (target hix p0 p1 gid : Nat) (image : Bool), s.servable req = some r →
    r.kind = .message target hix p0 p1 gid image →
    let k := homeSlice target
    let entry := ((s.tinker k).load s.mem (4 * hix) 4).getD 0
    ((s.tinker k).running ≠ none → exec (.tinkerHandler req) s = .next s) ∧
    ((s.tinker k).running = none → ∃ t, exec (.tinkerHandler req) s = .next t ∧ t.mem.reqs.find req = none ∧
      (image = false ∨ entry = 0xFFFFFFFF → SameBytes s t ∧ ∀ o q qs, s.op r.op = some o → o.pieces = q :: qs →
        ∃ o' q', t.op r.op = some o' ∧ o'.pieces = q' :: qs ∧ q'.data = some (wordBytes 0xFFFFFFFD)) ∧
      (image = true → entry ≠ 0xFFFFFFFF → s.pendingWords (regionBase target) 512 = [] → SameBytes s t ∧
        let tk := t.tinker k
        tk.running = some r.op ∧ tk.region = regionBase target ∧ tk.reaches = s.reachable (384 + k) (regionBase target) ∧
        tk.pc = BitVec.ofNat 32 entry ∧ tk.retired = 0 ∧
        tk.result = none ∧ tk.mem = (s.tinker k).mem ∧ tk.reg 10 = BitVec.ofNat 32 (target % 512) ∧
        tk.reg 11 = BitVec.ofNat 32 p0 ∧ tk.reg 12 = BitVec.ofNat 32 p1 ∧ tk.reg 13 = BitVec.ofNat 32 gid))) ∧
  (∀ (s : State) (k id : Nat) (o : Op) (q : Piece) (qs : List Piece), (s.tinker k).running = some id →
    s.op id = some o → o.pieces = q :: qs → Memory.wf s.mem = true →
    let tk := s.tinker k
    let replies (t : State) (x : Word) : Prop := (t.tinker k).running = none ∧ (t.tinker k).result = none ∧
      ∃ o' q', t.op id = some o' ∧ o'.pieces = q' :: qs ∧ q'.data = some (wordBytes x)
    (∀ x, tk.result = some (some x) → ∃ t, exec (.tinkerHandlerEnd k) s = .next t ∧ replies t x ∧
      (∀ p ∈ tk.written, (∀ p' ∈ tk.written, p'.1 = p.1 → p' = p) → t.mem.byte p.1 = p.2) ∧
      ∀ x, (∀ p ∈ tk.written, p.1 ≠ x) → t.mem.byte x = s.mem.byte x) ∧
    (tk.result = some none → ∃ t, exec (.tinkerHandlerEnd k) s = .next t ∧ replies t 0xFFFFFFFE ∧ SameBytes s t) ∧
    (tk.result = none → 512 < tk.retired →
      ∃ t, exec (.handlerInstructionLimit k) s = .next t ∧ replies t 0xFFFFFFFF ∧ SameBytes s t) ∧
    (tk.result = none → exec (.tinkerHandlerEnd k) s = .next s)) ∧
  (∀ (s : State) (launch : Nat) (l : Launch), s.launch launch = some l → l.desc.tkimg ≠ 0 → l.imaged = false →
    l.terminated = false → (∀ p ∈ s.launches, p.2.imaged = true → p.1 = launch) → s.mem.pending = [] → ReadsAtOnce s →
    ∃ t, exec (.tinkerImageInstall launch) s = .next t ∧ SameBytes s t ∧ t.launch launch = some { l with imaged := true } ∧
      ∀ k < 192, (t.tinker k).running = (s.tinker k).running ∧
        (∀ i, l.desc.tksize ≤ i → (t.tinker k).mem.get i 0 = 0) ∧
        ∀ i j p, let n := Nat.min 32 (l.desc.tksize - 32 * i)
          32 * i < l.desc.tksize → j < n →
          checkAccess s 614 l.desc.root (l.desc.tkimg + 32 * i) .read (fun _ => false) i = .ok p →
          s.deliverable p.pa = true → s.mem.poisoned p.pa n = false →
          (t.tinker k).mem.get (32 * i + j) 0 = s.mem.byte (p.pa + j))

/-- A deterministic group that has retired its quantum ends it. When every group of a launch has ended its quantum,
the commit applies the groups' buffered writes, in ascending global group id and for each group in its program order,
and the next round begins; a launch whose groups are not ready is left as it is. A group that has exited with nothing left
in flight leaves its slot, a task's after its successor step has begun, and a deterministic one's only after a commit has
entered its exit in its team.
A successor step decrements the task's counter, and ends with it where the counter has not come to zero (R42, R250,
R290, R292, R356). -/
def Obligations.RoundsCommit : Prop :=
  (∀ (s : State) (slot : Nat) (g : Group), s.group slot = some g →
    (Gs.det g.modes.gs = true → g.det.ended = false → g.quantum.toNat ≤ g.det.used →
      ∃ t, exec (.quantumExpiry slot) s = .next t ∧ t.group slot = some { g with det := { g.det with ended := true } } ∧
        (∀ k, k ≠ slot → t.group k = s.group k) ∧ t.mem = s.mem) ∧
    (Plain g ∨ g.det.used < g.quantum.toNat → exec (.quantumExpiry slot) s = .next s) ∧
    (g.allExited = false → exec (.groupRetire slot) s = .next s) ∧
    (∀ tm, Gs.det g.modes.gs = true → s.team g.teamKey = some tm → g.ident.grpid ∉ tm.exited →
      exec (.groupRetire slot) s = .next s) ∧
    (g.allExited = true → s.opsOf slot = [] → g.det.buffer = [] → (∀ p ∈ s.successors, p.2.slot ≠ some slot) →
      (∀ tm, Gs.det g.modes.gs = true → s.team g.teamKey = some tm → g.ident.grpid ∈ tm.exited) →
      (g.ident.successor = 0 → ∃ t, exec (.groupRetire slot) s = .next t ∧ t.group slot = none ∧
        (∀ k, k ≠ slot → t.group k = s.group k) ∧ t.mem = s.mem) ∧
      (g.ident.successor ≠ 0 → Plain g → s.releaseReady slot .dev = true → ∃ t, exec (.groupRetire slot) s = .next t ∧
        t.group slot = some { g with ident := { g.ident with successor := 0 } } ∧
        (∀ k, k ≠ slot → t.group k = s.group k) ∧ t.mem = s.mem ∧
        ∃ id, t.successors.find id = some { slot := some slot, launch := g.launch, core := slot / 128,
                                            counter := g.ident.successor, reached := false }))) ∧
  (∀ (s : State) (launch : Nat) (l : Launch), s.launch launch = some l → l.desc.det = true → l.phase = .run →
    l.terminated = false → l.placing = false → l.committed = [] →
    (∀ slot g, (slot, g) ∈ s.slots → g.launch = launch → g.roundOver = false → exec (.detCommit launch) s = .next s) ∧
    (∀ gs : List (Nat × Group), (s.slots.filter fun p => p.2.launch == launch).Perm gs →
      gs.Pairwise (fun p q => p.2.ident.global < q.2.ident.global) → Sparse.sortedFrom 0 s.slots = true →
      (∀ p ∈ gs, p.2.roundOver = true ∧ p.2.allExited = false ∧ s.opsOf p.1 = [] ∧
        ∀ i ∈ p.2.det.buffer, ∃ a grain bytes, i = .write a grain bytes) →
      (∀ k, (s.tinker k).running = none) → s.mem.pending = [] → Memory.wf s.mem = true →
      ∃ t, exec (.detCommit launch) s = .next t ∧
        (∀ x, t.mem.byte x = (gs.flatMap (·.2.det.buffer)).foldl (fun old i => match i with
          | .write a _ bytes => if a ≤ x ∧ x < a + bytes.length then bytes.getD (x - a) 0 else old
          | _ => old) (s.mem.byte x)) ∧
        (∀ p ∈ gs, ∃ h, t.group p.1 = some h ∧ h.det.buffer = [] ∧ h.det.used = 0 ∧ h.det.ended = false ∧
          h.regs = p.2.regs) ∧
        t.launch launch = some { l with round := l.round + 1, placing := true, committed := [] })) ∧
  (∀ (s : State) (task : Nat) (x : Successor) (p : Phys), s.successors.find task = some x → Memory.wf s.mem = true →
    (∀ q ∈ s.queues, ∀ r ∈ q.2.appends, r.task ≠ some task) → x.counter < 2 ^ 52 → x.counter % 128 = 0 →
    x.reached = false → s.regionHeld p.pa 128 = false →
    checkOne s x.core (s.rootOf x.launch) { atomSpec .add .n32 4 true with reach := true } x.counter 0 = .ok p →
    s.pendingWords p.pa 4 = [] →
    s.mem.poisoned p.pa 4 = false → 2 ≤ leNat (s.mem.read p.pa 4) →
    ∃ t, exec (.taskSuccessorStep task) s = .next t ∧ t.successors.find task = none ∧
      Stored s t p.pa (leBytes 4 (leNat (s.mem.read p.pa 4) - 1)) ∧ ∀ k, x.slot = some k → t.group k = none)

/-! ## Command streams -/

/-- STAIL takes a value within the ring and ignores others; SBASE and SLOG are written while the stream is empty, and
the other registers are read-only. In RUN the command processor takes the commands up to STAIL: one that keeps the
rules of R276 is entered with what it waits for, and is ready where it waits for nothing; one that does not, or that
cannot be read, ends with STATUS 1 and reason 1. A command becomes ready when all that it waits for has ended. WAIT
ends when every earlier command of its stream has ended; TLBINV drops the translations through its root; CANCEL sends
its cancellation to every engine and port, each of which records it (R271 to R276, R288). That commands are taken in
RUN only, and no register is written in QUARANTINE, whose link is held down, is how the model reads R322 (log 33);
what a command breaks the rules of reason 1 by is log 30, and the operation that carries a cancellation, its name
with it, is log 29. A command whose record a handler's region holds waits for the handler (R270; log 30). -/
def Obligations.StreamsTakeCommands : Prop :=
  (∀ (s : State) (k : BitVec 6) (value : Word), let x := s.stream k.toNat
    (value.toNat % 64 ≠ 0 ∨ 2 ^ x.slog.toNat ≤ value.toNat →
      ∃ t, exec (.stail k value) s = .next t ∧ t.streams = s.streams ∧ t.cmds = s.cmds ∧ t.mem = s.mem) ∧
    (value.toNat % 64 = 0 → value.toNat < 2 ^ x.slog.toNat →
      (s.sys.boot ≠ .run → s.sys.boot ≠ .quarantine → ∃ t, exec (.stail k value) s = .next t ∧
        t.stream k.toNat = { x with stail := value } ∧ t.cmds = s.cmds ∧ (s.mem.pending = [] → t.mem = s.mem)) ∧
      (s.sys.boot = .run → (∀ p ∈ s.cmds, p.2.stream = k.toNat → p.2.state ≠ .waiting) → s.mem.pending = [] →
        ReadsAtOnce s →
        let at' (i : Nat) : Nat := (x.shead.toNat + 64 * i) % 2 ^ x.slog.toNat
        let bytes (i : Nat) : List Byte := s.mem.read (x.sbase.toNat + at' i) 64
        let readable (i : Nat) : Prop := s.physOk (streamBlock k.toNat) (x.sbase.toNat + at' i) 64 = true ∧
          Direct s (x.sbase.toNat + at' i) 64
        let names (i : Nat) (c : Cmd) : Prop := c.stream = k.toNat ∧ c.offset = at' i ∧ c.op = field (bytes i) 0 1 ∧
          c.caddr = field (bytes i) 8 8 ∧ c.ptr = field (bytes i) 16 8 ∧
          c.imm = BitVec.ofNat 64 (field (bytes i) 56 8) ∧ c.taken = s.time.gts
        let takes (n : Nat) (t : State) : Prop := exec (.stail k value) s = .next t ∧
          t.stream k.toNat = { x with stail := value, shead := value } ∧ value.toNat = at' n
        x.shead.toNat < 2 ^ x.slog.toNat → 6 ≤ x.slog.toNat → x.slog.toNat ≤ 24 →
        (value.toNat = at' 1 → x.shead ≠ value → readable 0 → cmdMalformed (bytes 0) = false →
          ∃ t c, takes 1 t ∧ SameBytes s t ∧ t.cmds.find s.ids = some c ∧ names 0 c ∧
            c.deps = s.cmdDeps (cmdHandles (bytes 0)) ∧ c.state = if c.deps = [] then .ready else .waiting) ∧
        (∀ c, value.toNat = at' 1 → x.shead ≠ value → Memory.wf s.mem = true → c.stream = k.toNat → c.offset = at' 0 →
          s.recordHeld c = false →
          (readable 0 → cmdMalformed (bytes 0) = true → c.caddr = field (bytes 0) 8 8 →
            ∃ t, takes 1 t ∧ Ends s t s.ids c 1 1 s.time.gts 0) ∧
          (s.physOk (streamBlock k.toNat) (x.sbase.toNat + at' 0) 64 = false → c.caddr = 0 →
            ∃ t, takes 1 t ∧ Ends s t s.ids c 1 1 s.time.gts 0)) ∧
        (∀ n, 0 < n → 64 * n < 2 ^ x.slog.toNat → value.toNat = at' n →
          (∀ i < n, readable i ∧ cmdMalformed (bytes i) = false ∧ field (bytes i) 1 1 = 0 ∧ field (bytes i) 2 1 = 0) →
          ∃ t, takes n t ∧ SameBytes s t ∧
            ∀ i < n, ∃ c, t.cmds.find (s.ids + i) = some c ∧ names i c ∧ c.deps = [] ∧ c.state = .ready))) ∧
    (s.sys.boot = .quarantine → exec (.stail k value) s = .next s ∧ ∀ off, exec (.registerWrite k off value) s = .next s) ∧
    (∀ off : BitVec 16, let r := exec (.registerWrite k off value) s
      (x.shead ≠ x.stail → ∃ t, r = .next t ∧ t.streams = s.streams) ∧
      (s.sys.boot ≠ .quarantine → x.shead = x.stail → off = 0 → value.toNat % 4096 = 0 →
        ∃ t, r = .next t ∧ t.stream k.toNat = { x with sbase := x.sbase.extractLsb' 32 32 ++ value }) ∧
      (s.sys.boot ≠ .quarantine → x.shead = x.stail → off = 4 →
        ∃ t, r = .next t ∧ t.stream k.toNat = { x with sbase := value ++ x.sbase.extractLsb' 0 32 }) ∧
      (s.sys.boot ≠ .quarantine → x.shead = x.stail → off = 8 → 12 ≤ value.toNat → value.toNat ≤ 24 →
        ∃ t, r = .next t ∧ t.stream k.toNat = { x with slog := value }) ∧
      (off ≠ 0 → off ≠ 4 → off ≠ 8 → off ≠ 12 → r = .next s))) ∧
  (∀ (s : State) (cmd : Nat) (c : Cmd), s.cmds.find cmd = some c → cmd < s.ids →
    (c.state = .waiting → c.op ≠ 0 → (∀ d ∈ c.deps, s.cmds.find d = none) →
      ∃ t, exec (.commandDependencyRelease cmd) s = .next t ∧ t.cmds.find cmd = some { c with state := .ready, deps := [] }) ∧
    (c.state = .waiting → c.op = 0 → (∀ d ∈ c.deps, s.cmds.find d = none) → s.recordHeld c = false →
      ∃ t, exec (.commandDependencyRelease cmd) s = .next t ∧ t.cmds.find cmd = none) ∧
    ((∃ d ∈ c.deps, s.cmds.find d ≠ none) → exec (.commandDependencyRelease cmd) s = .next s) ∧
    (c.state = .ready → s.recordHeld c = true → ∀ i ∈ [Instr.wait cmd, .tlbinv cmd, .cancel cmd, .launch cmd, .qbind cmd],
      exec i s = .next s) ∧
    (c.state = .ready → s.recordHeld c = false → s.mem.pending = [] → Memory.wf s.mem = true →
      (c.op = opWait → (∀ p ∈ s.cmds, p.2.stream = c.stream → cmd ≤ p.1) →
        ∃ t, exec (.wait cmd) s = .next t ∧ Ends s t cmd c 0 0 c.taken 0) ∧
      (c.op = opWait → (∃ p ∈ s.cmds, p.2.stream = c.stream ∧ p.1 < cmd) → exec (.wait cmd) s = .next s) ∧
      (c.op = opTlbinv → ∃ t, exec (.tlbinv cmd) s = .next t ∧ Ends s t cmd c 0 0 c.taken 0 ∧
        ∀ e, e ∈ t.mem.tlb ↔ e ∈ s.mem.tlb ∧ c.ptr ≠ 0 ∧ e.root ≠ c.ptr) ∧
      (c.op = opCancel → ∃ t o, exec (.cancel cmd) s = .next t ∧ t.cmds.find cmd = some { c with state := .running } ∧
        t.op s.ids = some o ∧ o.kind = .cancelJob ∧ o.lanes = List.range 388 ∧ o.aux = s.time.gts ∧
        o.data = wordBytes (c.imm.setWidth 32) ∧ o.slot = cancelName cmd ∧ SameBytes s t))) ∧
  (∀ (s : State) (agent job id : Nat) (o : Op), o.kind = .cancelJob → agent ∈ o.lanes →
    o.data = wordBytes (BitVec.ofNat 32 job) → s.awaitsCommit o.slot id = false → s.mem.ops = [(id, o)] →
    (s.cancels.get agent []).length < 64 →
    (∀ c, o.slot = cancelName 0 + c → ∀ x, s.cmds.find c = some x → s.recordHeld x = false) →
    let left := o.lanes.filter (· != agent)
    ∃ t, exec (.cancellationRecorded agent job) s = .next t ∧ t.cancelledAt agent (BitVec.ofNat 32 job) = true ∧
      (∀ a j, a ≠ agent → t.cancelledAt a j = s.cancelledAt a j) ∧
      t.op id = if left = [] then none else some { o with lanes := left })

/-- A LAUNCH whose descriptor breaks no rule is entered in PLACE and its command runs on; else it ends with STATUS 1 and
the lowest reason. QBIND binds a queue whose header keeps the rules, with an empty ring; a header that is misaligned,
cannot be read or breaks them, or a queue in use, ends it with its reason. SETWAYS changes the ways of the launch of its
descriptor and asks each of its cores to change; a core whose scratch nothing touches does so, no other sector comes
into its L1, and what stays has a tag. A queue appends the record that arrived first as an entry of its ring, finishes
its TSPAWN, and keeps the records behind it; a full ring keeps it waiting, and that of a cancelled job is retired (R203,
R273, R276 to R282, R286, R289). The checks inside `launchReason`, and reason 2 of a header that is misaligned or cannot
be read, are log 30; a reason where the rules name two, the SIG of a rejected LAUNCH, bits of IMM above their field, and
that a launch in PLACE is one that runs, are log 44; when a core takes its new ways is log 33, in a deterministic launch
log 20; what L1 keeps is log 9. A handler holds back what meets its region (R270). -/
def Obligations.LaunchesAndQueues : Prop :=
  (∀ (s : State) (cmd : Nat) (c : Cmd), s.cmds.find cmd = some c → c.state = .ready → s.mem.pending = [] →
    Memory.wf s.mem = true → ReadsAtOnce s → s.recordHeld c = false →
    (c.op = opLaunch → s.physOk (streamBlock c.stream) c.ptr 512 = false →
      ∃ t, exec (.launch cmd) s = .next t ∧ Ends s t cmd c 1 2 c.taken 0 ∧ t.launches = s.launches) ∧
    (c.op = opLaunch → s.physOk (streamBlock c.stream) c.ptr 512 = true → Direct s c.ptr 512 → s.physHeld c.ptr 512 = false →
      (∀ n, launchReason s c.ptr (s.mem.read c.ptr 512) = some n →
        ∃ t, exec (.launch cmd) s = .next t ∧ Ends s t cmd c 1 n c.taken 0 ∧ t.launches = s.launches) ∧
      (launchReason s c.ptr (s.mem.read c.ptr 512) = none → ∃ t, exec (.launch cmd) s = .next t ∧ SameBytes s t ∧
        t.launch s.ids = some (Launch.start (readDescriptor (s.mem.read c.ptr 512)) c.ptr cmd) ∧
        (∀ k, k ≠ s.ids → t.launch k = s.launch k) ∧ t.cmds.find cmd = some { c with state := .running })) ∧
    (c.op = opQbind → let k := c.imm.toNat % 256
      let b := s.mem.read c.ptr 64
      let n := 2 ^ field b 16 1 / 8
      let fails (reason : Nat) : Prop :=
        ∃ t, exec (.qbind cmd) s = .next t ∧ Ends s t cmd c 1 reason c.taken 0 ∧ t.queues = s.queues
      let fair := c.ptr % 64 = 0 ∧ s.physOk (queueBlock k) c.ptr 64 = true
      let free := ∀ p ∈ s.launches, p.2.desc.nteams = 0 → k ∉ p.2.desc.queues
      (¬ fair → fails 2) ∧ (fair → ¬ free → fails 8) ∧
      (fair → free → Direct s c.ptr 64 → s.physHeld c.ptr 64 = false →
        (field b 16 1 < 12 ∨ 24 < field b 16 1 ∨ field b 8 8 % 4096 ≠ 0 ∨ field b 17 47 ≠ 0) → fails 10) ∧
      (fair → free → Direct s c.ptr 64 → 12 ≤ field b 16 1 →
        field b 16 1 ≤ 24 → field b 8 8 % 4096 = 0 → field b 17 47 = 0 → field b 0 4 % n = field b 4 4 % n →
        s.physHeld c.ptr 64 = false → s.physHeld (field b 8 8) (2 ^ field b 16 1) = false →
        ∃ t q, exec (.qbind cmd) s = .next t ∧ Ends s t cmd c 0 0 c.taken 0 ∧ t.queues.find k = some q ∧
          q.header = c.ptr ∧ q.ring = field b 8 8 ∧ q.rlog = field b 16 1 ∧ q.head = field b 0 4 % n ∧ q.tail = q.head ∧
          q.faulted = false ∧ q.taken = none ∧ q.last = none ∧ q.takeSeq = 0 ∧ q.nextSeq = 0)) ∧
    (c.op = opSetways → let w := c.imm.toNat % 16
      (14 < w → ∃ t, exec (.setways cmd) s = .next t ∧ Ends s t cmd c 1 5 c.taken 0 ∧ t.launches = s.launches) ∧
      (w ≤ 14 → s.launches = [] → ∃ t, exec (.setways cmd) s = .next t ∧ Ends s t cmd c 1 9 c.taken 0) ∧
      (∀ k l, s.launches = [(k, l)] → l.ptr = c.ptr → l.phase ≠ .ending → l.terminated = false → w ≤ 14 →
        l.desc.scratch ≤ w * 32768 → (∃ i < 384, s.occupant i = some k) →
        ∃ t, exec (.setways cmd) s = .next t ∧ SameBytes s t ∧ t.launch k = some { l with scrways := w } ∧
          t.cmds.find cmd = some { c with state := .running } ∧
          ∀ i < 384, t.core i = if s.occupant i = some k then { s.core i with ways := some w } else s.core i))) ∧
  (∀ (s : State) (core w : Nat), (s.core core).ways = some w → s.cmds = [] →
    (∀ p ∈ s.mem.ops, touchesScratch s core p.2 = false) →
    (∀ k l, s.occupant core = some k → s.launch k = some l → l.desc.det = true → l.placing = true) →
    (∀ p ∈ s.teams, p.2.core = core → p.2.slots ≠ [] →
      (p.2.area + 1) * (((s.occupant core).bind fun k => (s.launch k).map (·.desc.scratch)).getD 0) ≤ w * 32768) →
    ∃ t, exec (.scrwaysChangeApply core) s = .next t ∧ SameBytes s t ∧ (t.core core).scrways = w ∧
      (t.core core).ways = none ∧ (∀ e ∈ (t.core core).l1, e ∈ (s.core core).l1) ∧
      (w ≤ (s.core core).scrways → (t.core core).l1 = (s.core core).l1) ∧
      ((s.core core).scrways < w → ((t.core core).l1.map fun e => regionBase e.addr).eraseDups.length ≤ (16 - w) * 64) ∧
      ∀ i, i ≠ core → t.core i = s.core i) ∧
  (∀ (s : State) (k id : Nat) (q : Queue) (o : Op) (fields : List Dword) (more : List Append),
    s.queues.find k = some q → q.appends = { fields := fields, op := some id, task := none } :: more →
    s.op id = some o → fields.length = 8 → Memory.wf s.mem = true → s.mem.pending = [] → s.queueHeld q = false →
    let units := entryUnits q.nextSeq (entryMask q.last fields) fields
    (s.cancelledAt (k / 64) (recJob fields) = true → ∃ t, exec (.queueAppend k) s = .next t ∧ t.op id = none ∧
      SameBytes s t ∧ t.queues.find k = some { q with appends := more }) ∧
    (s.cancelledAt (k / 64) (recJob fields) = false →
      (q.size ≤ q.used + units.length → ∃ t, exec (.queueAppend k) s = .next t ∧ t.mem = s.mem ∧ t.queues.find k = some q) ∧
      (q.used + units.length < q.size → ∃ t q', exec (.queueAppend k) s = .next t ∧ t.op id = none ∧
        t.queues.find k = some q' ∧ q'.appends = more ∧ q'.tail = (q.tail + units.length) % q.size ∧
        q'.nextSeq = q.nextSeq + 1 ∧ q'.last = some fields ∧ q'.head = q.head ∧ q'.takeSeq = q.takeSeq ∧
        (q.ring % 8 = 0 → q.header % 64 = 0 → (q.header + 8 ≤ q.ring ∨ q.ring + 8 * q.size ≤ q.header) →
          (∀ i < units.length, s.physReach (queueBlock k) (q.unitAddr (q.tail + i)) 8 = true ∧
            Direct s (q.unitAddr (q.tail + i)) 8) →
          s.physReach (queueBlock k) (q.header + 4) 4 = true → Direct s (q.header + 4) 4 →
          (∀ i < units.length, BitVec.ofNat 64 (leNat (t.mem.read (q.ring + 8 * ((q.tail + i) % q.size)) 8)) = units.getD i 0) ∧
          leNat (t.mem.read (q.header + 4) 4) = q'.tail % 2 ^ 32))))

/-! ## Placement and the device -/

/-- The distributor places the next cluster of the launch that stands first: one team on each core, by rank, whose
groups start with every register zero and their strands at the entry. A task starts so from its record on the core
that its port gives, its entry taken from the queue; that of a cancelled job is retired. Pre-emption stops the
clusters on the withheld core; a cluster that has drained, or has reached the bound, is saved and leaves its cores; a
saved one that has waited long enough has cores freed for it. A launch with nothing left ends with its record, one
that the steward has terminated with STATUS 2 (R33, R36, R46, R54, R275, R278, R284, R289, R291, R304 to R306).
The bounds 2^18, 2^20 and PREEMPT_DEFER count the model's clk, that is its steps (logs 2 and 37); that a deterministic
launch's clusters stop and move between rounds only is log 20, and where they are placed again log 32; that SETWAYS
and launches pre-empt no core by themselves is log 33, and that a retired entry moves its launch to RUN is log 44. -/
def Obligations.LaunchesAreDistributed : Prop :=
  let starts (t : State) (key launch : Nat) (spot : Nat × Nat) (d : Desc) (pc : VAddr) (ident : Nat → Ident) : Prop :=
    ∃ tm, t.team key = some tm ∧ tm.launch = launch ∧ tm.core = spot.1 ∧ tm.area = spot.2 ∧ tm.slots.length = d.groups ∧
      ∀ k ∈ tm.slots, k / 128 = spot.1 ∧ ∃ g j, t.group k = some g ∧ j < d.groups ∧ g.launch = launch ∧ g.teamKey = key ∧
        g.regs = [] ∧ g.strands = List.replicate (d.width / 4) (Strand.start pc) ∧ g.ident = ident j
  (∀ (s : State) (launch : Nat) (l : Launch), s.launch launch = some l →
    (∀ r, s.firstWanting.map (·.1) = some launch → l.desc.nteams ≠ 0 → s.gridHead launch l = some (none, r) →
      ∃ t l', exec (.teamPlacement launch) s = .next t ∧ SameBytes s t ∧ t.launch launch = some l' ∧ l'.next = l.next + 1 ∧
        l'.phase = .run ∧
        (∃ cl, t.cluster s.ids = some cl ∧ cl.launch = launch ∧ cl.index = l.next ∧ cl.residence = .resident ∧
          cl.teams = (List.range r.length).map fun i => s.ids + 1 + i) ∧
        ∀ i < r.length, starts t (s.ids + 1 + i) launch (r.getD i (0, 0)) l.desc l.desc.kaddr
          (gridIdent l.desc (l.next * (l.desc.cx * l.desc.cy) + i))) ∧
    (∀ core area q x fields len, s.firstWanting = some (launch, l) → l.desc.nteams = 0 → s.savedHead launch l = none →
      s.taskCore launch l = some (core, area) → s.badHead l = none → s.nextEntry l = some (q, x, fields, len) →
      (∀ k ∈ l.desc.queues, ∀ y, s.queues.find k = some y → s.queueHeld y = false) →
      ∃ t, exec (.taskStart core) s = .next t ∧
        t.queues.find q = some { x with head := (x.head + len) % Nat.max 1 x.size, takeSeq := x.takeSeq + 1,
                                        taken := some fields } ∧
        (s.cancelledAt (q / 64) (recJob fields) = true → t.teams = s.teams ∧
          t.launch launch = some { l with phase := .run }) ∧
        (s.cancelledAt (q / 64) (recJob fields) = false → l.tasks < 2 ^ 26 → ∃ key l', t.launch launch = some l' ∧
          l'.tasks = l.tasks + 1 ∧ starts t key launch (core, area) l.desc ((fields.getD 0 0).setWidth 52)
            (fun _ => taskIdent fields l.tasks q))) ∧
    (∀ c, (if l.terminated then s.launchStopped launch else s.launchOver launch l) = true → s.cmds.find l.cmd = some c →
      s.mem.pending = [] → Memory.wf s.mem = true → s.recordHeld c = false → ∃ t, exec (.launchEnd launch) s = .next t ∧
        Ends s t l.cmd c (if l.terminated then 2 else 0) 0 (l.firstIssue.getD c.taken) l.desc.sig.toNat ∧
        t.launch launch = none ∧ (∀ p ∈ t.slots, p.2.launch ≠ launch) ∧ ∀ p ∈ t.clusters, p.2.launch ≠ launch) ∧
    (∀ front cores, s.coresOf launch = front ++ cores → cores ≠ [] →
      ∃ t l', exec (.preemptRequest cores) s = .next t ∧ t.slots = s.slots ∧ t.mem = s.mem ∧ t.launch launch = some l' ∧
        (∀ core, core ∈ l'.withheld ↔ core ∈ l.withheld ∨ core ∈ cores) ∧ l' = { l with withheld := l'.withheld } ∧
        ∀ ck c, s.cluster ck = some c → c.residence = .resident →
          t.cluster ck = some (if ck ∈ s.clustersOn cores then { c with residence := .stopping s.time.clk } else c))) ∧
  (∀ (s : State) (ck : Nat) (c : Cluster), s.cluster ck = some c →
    (c.teams.Nodup →
      (c.teams.Pairwise fun i j => ∀ x y, s.team i = some x → s.team j = some y → ∀ k ∈ x.slots, k ∉ y.slots) →
      let saves (i : Instr) : Prop := ∃ t, exec i s = .next t ∧ SameBytes s t ∧
        t.cluster ck = some { c with residence := .saved s.time.clk, timer := s.time.clk + 2 ^ 20 } ∧
        ∀ key ∈ c.teams, ∀ tm, s.team key = some tm →
          t.team key = some { tm with slots := [], saved := tm.slots.filterMap s.group } ∧ ∀ k ∈ tm.slots, t.group k = none
      ((s.drainStart c).isSome = true → s.drained false c = true → saves (.preemptDrainEnd ck)) ∧
      (∀ since, s.drainStart c = some since → since + 2 ^ 18 ≤ s.time.clk → s.drained true c = true →
        saves (.preemptDrainTimeout ck))) ∧
    (∀ slot g tm since, s.group slot = some g → s.team g.teamKey = some tm → tm.cluster = ck → g.tm = true →
      g.entered < since → c.residence = .stopping since → since + s.sys.defer ≤ s.time.clk →
      (∀ l, s.launch c.launch = some l → l.desc.det = true → l.placing = true) →
      ∃ t, exec (.preemptDeferExpiry slot) s = .next t ∧ t.slots = s.slots ∧ t.mem = s.mem ∧
        t.cluster ck = some { c with residence := .draining s.time.clk }) ∧
    (∀ l since, s.launch c.launch = some l → c.residence = .saved since → c.timer ≤ s.time.clk →
      (s.teamsOf c).any (·.begun) = true →
      let rs := l.desc.rectangles.filter fun r => r.all (s.qualifies l)
      ∃ t, exec (.reresidenceTimeout ck) s = .next t ∧ t.slots = s.slots ∧ t.mem = s.mem ∧
        (rs = [] → t.cluster ck = some { c with claim := [], timer := s.time.clk + 2 ^ 20 }) ∧
        let free (r : List Nat) : Nat := 128 * r.length - (r.map fun x => (s.coreGroups x).length).sum
        (rs ≠ [] → ∃ r ∈ rs, (∀ r' ∈ rs, free r' ≤ free r) ∧ t.cluster ck = some { c with claim := r, timer := s.time.clk + 2 ^ 20 })))

/-- Start-up goes from FUSE of a cold or warm start through its states: a step that succeeds goes on, one that fails or
times out starts again and after three failures leads to RECOVER; RUN begins with HBM zeroed and the image measured,
once its signature has been accepted, and RECOVER_DONE sets START to 2. The host and peers read and write memory, where
their world may; what they read, and the old value of an atomic or a MOPR, goes back to them, and what their world may
not reach is an error and is logged; a peer's bf16x2 sum is asked for by halves, as the device's own are (R231). Ports
go down and links train; a world or region table takes a secure block's writes only; a report carries the nonce, the
measurement and the signature. An uncorrectable error poisons its sector, or halts the group's team; a corrected one
changes no value; both are logged with their source. Power and temperature act as R325 says (R260, R315 to R325). The
model's choices among these: the writing block as the first of the input's numbers is log 6, accesses in RUN only and a
power change that is not allowed log 33, a starvation timeout that changes nothing log 37, the measurement, the keys,
the signatures and where an image holds its own log 12, and HBM zero at a start log 5. -/
def Obligations.TheDevice : Prop :=
  ∀ (s : State), Memory.wf s.mem = true →
    let boots (i : Instr) (b : Boot) : Prop := ∃ t, exec i s = .next t ∧ t.sys.boot = b ∧ t.mem = s.mem
    let logs (i : Instr) (source : Nat) (what : List Nat) : Prop :=
      ∃ t, exec i s = .next t ∧ Logs s t source what ∧ t.mem = s.mem ∧ t.slots = s.slots
    let answers (t : State) (block a : Nat) (bytes : List Byte) (poison error : Bool) : Prop := t.sys.replies = s.sys.replies ++
      [{ block := block, addr := a, bytes := bytes, poison := poison, error := error }]
    let source : ErrorSite → Nat := fun site => match site with
      | .hbm a => 617 + a / 4096 % 12
      | .l2 a => 384 + a / 512 % 192
      | .l1 c _ => c
      | .scratch c _ => c
      | .registers k => k / 128
      | .link p => 580 + p % 32
    let writer := s.input.values.headD 613
    let brought := s.input.values.map (BitVec.ofNat 8)
    let verifies := Sm2.accepts s.sys.sexton.imageKey (brought.take 64) (brought.drop 64)
    (∀ p ∈ [(Instr.coldStart, false), (.warmStart, true)], ∃ t, exec p.1 s = .next t ∧ t.sys.boot = .fuse ∧
      t.sys.warm = p.2 ∧ t.sys.start = (if p.2 then 1 else 0) ∧ t.slots = [] ∧ t.launches = [] ∧ t.streams = [] ∧
      t.sys.log = s.sys.log ∧ ∀ a, t.mem.byte a = if a < hbmSize then 0 else s.mem.byte a) ∧
    (∀ p ∈ [(Instr.bistDone, Boot.bist, Boot.train), (.trainDone, .train, .fetch), (.fetchDone, .fetch, .verify)],
      (s.sys.boot = p.2.1 → s.input.ok = true → boots p.1 p.2.2) ∧
      (s.sys.boot = p.2.1 → s.input.ok = false → boots p.1 (if s.sys.failures < 2 then .fuse else .recover)) ∧
      (s.sys.boot ≠ p.2.1 → exec p.1 s = .next s)) ∧
    (∀ p ∈ [(Instr.verifyDone, Boot.verify, s.sys.start), (.recoverDone, .recover, 2)], s.sys.boot = p.2.1 →
      s.input.ok = true → verifies = true → s.streams = [] → ∃ t, exec p.1 s = .next t ∧ t.sys.boot = .run ∧
        t.sys.start = p.2.2 ∧ t.sys.measured = measure s.sys.measured (brought.drop 64) ∧
        ∀ a, t.mem.byte a = if a < hbmSize then 0 else s.mem.byte a) ∧
    (s.sys.boot = .verify → s.input.ok = false ∨ verifies = false →
      boots .verifyDone (if s.sys.failures < 2 then .fuse else .recover)) ∧
    (s.sys.boot = .recover → s.input.ok = false ∨ verifies = false → boots .recoverDone .quarantine) ∧
    (s.sys.boot ∈ [.bist, .train, .fetch, .verify] → boots .startupStepTimeout (if s.sys.failures < 2 then .fuse else .recover)) ∧
    (s.sys.boot = .fuse ∨ s.sys.boot = .recover → boots .startupStepTimeout .quarantine) ∧
    (s.sys.boot = .retain → boots .startupStepTimeout .train) ∧
    (∀ a data, let at' := if data = none then a / 64 * 64 else a
      let n := (data.map List.length).getD 64
      s.sys.boot = .run → n ≠ 0 → at' + n ≤ hbmSize → s.regionHeld at' n = false → s.mem.pending = [] →
      (s.reaches hostBlock at' n = false → ∃ t, exec (.hostHdmAccess a data) s = .next t ∧ Logs s t hostBlock [7, a] ∧
        t.mem = s.mem ∧ answers t hostBlock at' [] false true) ∧
      (s.reaches hostBlock at' n = true →
        (∀ bytes, data = some bytes → s.input.values = [] → ∃ t, exec (.hostHdmAccess a data) s = .next t ∧ Stored s t a bytes) ∧
        (data = none → s.input.values = [] → (∀ q ∈ s.mem.ops, q.2.kind ≠ .engineRead) →
          ∃ t, exec (.hostHdmAccess a data) s = .next t ∧ SameBytes s t ∧
            answers t hostBlock at' (s.mem.read at' 64) (s.mem.poisoned at' 64) false))) ∧
    (∀ a acc, let n := peerSize acc
      s.sys.boot = .run → n ≠ 0 → a + n ≤ hbmSize → s.regionHeld a n = false → s.sys.portsDown.contains (homeSlice a % 32) = false →
      s.mem.pending = [] → (∀ r ∈ s.mem.reqs, r.2.src ≠ .peer) →
      let halves := ∃ code x cmp, acc = .atomic code .bf16x2 x cmp ∧ peerAtom code = .add
      (s.reaches (portBlock a) a n = false → ∃ t, exec (.peerAccessArrival a acc) s = .next t ∧
        Logs s t (portBlock a) [8, a] ∧ t.mem = s.mem ∧ answers t (portBlock a) a [] false true) ∧
      (s.reaches (portBlock a) a n = true →
        let old := leNat (s.mem.read a n)
        ∃ t, exec (.peerAccessArrival a acc) s = .next t ∧
          (acc = .read n → s.input.values = [] → (∀ q ∈ s.mem.ops, q.2.kind ≠ .engineRead) →
            SameBytes s t ∧ answers t (portBlock a) a (s.mem.read a n) (s.mem.poisoned a n) false) ∧
          (∀ d, acc = .write d → s.input.values = [] → Stored s t a d) ∧
          (∀ code x cmp, acc = .atomic code .bf16x2 x cmp → peerAtom code = .add →
            SameBytes s t ∧ t.sys.replies = s.sys.replies ∧ ∀ i < 2, ∃ m ∈ t.mem.reqs, m.2.src = .peer ∧ m.2.op = s.ids ∧
              m.2.piece = i ∧ m.2.addr = a + 2 * i ∧ m.2.size = 2 ∧
              m.2.kind = .atomic .add .bf16x2 true (x.toNat / 2 ^ (16 * i) % 2 ^ 16) cmp.toNat true) ∧
          (s.mem.poisoned a n = true → (∀ code et x cmp, ¬ halves → acc = .atomic code et x cmp →
            SameBytes s t ∧ answers t (portBlock a) a [] true false) ∧
            ∀ fn et rm x ret, acc = .operator fn et rm x ret → SameBytes s t ∧
              if ret then answers t (portBlock a) a [] true false else t.sys.replies = s.sys.replies) ∧
          (s.mem.poisoned a n = false →
            (∀ code et x cmp, ¬ halves → acc = .atomic code et x cmp → answers t (portBlock a) a (s.mem.read a n) false false ∧
              Stored s t a (leBytes n
                (if peerAtom code = .cas ∧ old ≠ cmp.toNat then old else atomFn (peerAtom code) et old x.toNat cmp.toNat))) ∧
            ∀ fn et rm x ret, acc = .operator fn et rm x ret →
              Stored s t a (leBytes n (classFn fn et ((RMode.ofCodeNat rm.toNat).getD .rne) old x.toNat)) ∧
              if ret then answers t (portBlock a) a (s.mem.read a n) false false else t.sys.replies = s.sys.replies))) ∧
    (∀ p, logs (.portDown p) (580 + p % 32) [9] ∧ ∃ t, exec (.portDown p) s = .next t ∧ p % 32 ∈ t.sys.portsDown) ∧
    (∀ n ps, s.input.values = n :: ps → ∃ t, exec .linkTraining s = .next t ∧ t.mem = s.mem ∧
      t.sys = { s.sys with device := BitVec.ofNat 8 n, peers := ps.map (· % 256), portsDown := [] }) ∧
    exec .injectionStarvationTimeout s = .next s ∧ logs .linkErrorRetry (s.input.values.headD 580 % 4096) [10] ∧
    (∀ b sec, (s.secureBlock writer = false → logs (.worldTableWrite b sec) writer [11, b]) ∧
      ∃ t, exec (.worldTableWrite b sec) s = .next t ∧
        ∀ x, t.secureBlock x = if s.secureBlock writer = true ∧ x = b then sec else s.secureBlock x) ∧
    (∀ i e, (s.secureBlock writer = false → logs (.regionTableWrite i e) writer [12, i.toNat]) ∧
      ∃ t, exec (.regionTableWrite i e) s = .next t ∧ ∀ x, t.sys.regions.find x =
        if s.secureBlock writer = true ∧ x = i.toNat then some (e &&& 0x1000FFFFFFFFFFFFF) else s.sys.regions.find x) ∧
    (∀ nonce, s.sys.boot = .run → ∃ t body, exec (.attestationRequest nonce) s = .next t ∧ t.mem = s.mem ∧
      body.length = 128 ∧ t.sys.report = body ++ Sm2.sign s.sys.sexton.key (Config.sm2Nonce s.time.tick) body ∧
      t.sys.report.length = 192 ∧ body.take 8 = leBytes 4 0x54534541 ++ leBytes 4 192 ∧
      (body.drop 8).take 8 = leBytes 8 s.time.gts ∧ (body.drop 16).take 32 = leBytes 32 nonce.toNat ∧
      (body.drop 48).take 32 = leBytes 32 s.sys.measured.toNat ∧ (body.drop 96).take 4 = leBytes 4 s.sys.start) ∧
    (∀ site, logs (.correctedError site) (source site) [14] ∧
      ∃ t, exec (.uncorrectableError site) s = .next t ∧ Logs s t (source site) [13] ∧ SameBytes s t ∧
        (∀ a, site = .hbm a ∨ site = .l2 a → a < hbmSize → t.mem.poisoned a 1 = true ∧ t.slots = s.slots) ∧
        (∀ c a, site = .l1 c a → t.slots = s.slots ∧ ∀ e ∈ (t.core c).l1, e.addr = sectorOf a → e.poison = true) ∧
        (∀ c a, site = .scratch c a → t.slots = s.slots ∧ ∀ k tm l, s.teams = [(k, tm)] → tm.core = c → tm.slots ≠ [] →
          s.launch tm.launch = some l → tm.area * l.desc.scratch ≤ a → a < (tm.area + 1) * l.desc.scratch →
          ∃ u, t.team k = some u ∧ sectorOf (a - tm.area * l.desc.scratch) ∈ u.poison ∧ u = { tm with poison := u.poison }) ∧
        (∀ k g, site = .registers k → s.group k = some g →
          (∀ j h, s.group j = some h → t.group j = some (if h.teamKey = g.teamKey then { h with halted := true } else h)) ∧
          ∀ l, s.launch g.launch = some l → t.launch g.launch = some { l with terminated := true }) ∧
        (∀ p, site = .link p → t.slots = s.slots)) ∧
    (∀ q c p, (corePowerOk s c p = true → ∃ t, exec (.powerStateChange q (some c) p) s = .next t ∧
        t.core c = { s.core c with power := p } ∧ t.mem = s.mem) ∧
      (corePowerOk s c p = false → exec (.powerStateChange q (some c) p) s = .next s) ∧
      (quadrantPowerOk s q p = true → ∃ t, exec (.powerStateChange q none p) s = .next t ∧
        t.sys.quadrants.find q = some p ∧ t.mem = s.mem) ∧
      (quadrantPowerOk s q p = false → exec (.powerStateChange q none p) s = .next s)) ∧
    (∃ t, exec .thermalSample s = .next t ∧ t.mem = s.mem ∧ t.sys = { s.sys with telemetry := s.sys.telemetry ++ [(s.time.gts, s.input.values)] }) ∧
    (∀ q qs, s.input.values = q :: qs → ∃ t, exec .thermalTrip s = .next t ∧ t.mem = s.mem ∧ Logs s t stewardBlock [15, q] ∧
      t.sys.quadrants.find (q % 16) = if s.sys.quadrants.find (q % 16) = some .off then some .off else some (.throt 1))

/-! ## Every step -/

/-- Every step keeps memory in canonical form (the form is the model's own, log 5). -/
def Obligations.StepsKeepMemoryCanonical : Prop :=
  ∀ (s t : State), Memory.wf s.mem = true → step s = .next t → Memory.wf t.mem = true
end

