-- ==== Sys2Proof/Laws/Access.lean ====
section
/-!
SUPPORT. What the lanes' checks give (R11): an instruction whose accesses all pass goes on with exactly them, and one
with a lane that fails traps.
-/
namespace Sys2Proof.Machine

open Sys2Proof

variable (s : State) (c : Ctx) (a : Reg) (sp : AccSpec) (w : Watch)

/-- What the checks of R11 give for each active lane, with its address. -/
def laneOuts : List (Nat × Nat × Except Cause Phys) :=
  c.lanes.map fun l => (l, c.g.address a l, checkOne s c.core (s.rootOf c.g.launch) sp (c.g.address a l) l)

/-- Each access that the checks let pass is its lane's own. -/
theorem laneAccs_pass {x : LaneAcc} (h : x ∈ laneAccs (laneOuts s c a sp)) :
    x.va = c.g.address a x.lane ∧ checkOne s c.core (s.rootOf c.g.launch) sp x.va x.lane = .ok x.phys := by
  simp only [laneAccs, laneOuts, List.mem_filterMap, List.mem_map] at h
  obtain ⟨o, ⟨l, -, rfl⟩, ho⟩ := h
  dsimp only at ho
  split at ho
  · next p hp => cases ho; exact ⟨rfl, hp⟩
  · cases ho

/-- The accesses that the checks give are those of `Accessing`, where every lane has passed. -/
theorem accessing_laneAccs (hl : (laneAccs (laneOuts s c a sp)).map (·.lane) = c.lanes)
    (hn : laneAccs (laneOuts s c a sp) ≠ [])
    (hw : watchHit c.g w sp.size (laneAccs (laneOuts s c a sp)) = none)
    (hf : accessHeld s c = false ∧
      rejectedMeets s c ((laneAccs (laneOuts s c a sp)).map fun x => (x.phys.pa, sp.size)) = false) :
    Accessing s c a sp w (laneAccs (laneOuts s c a sp)) :=
  ⟨hl, hn, fun _ hx => laneAccs_pass s c a sp hx, hw, hf⟩

variable {s c a sp w}

theorem accs_of_passes (ls : List Nat) (accs : List LaneAcc) (f : Nat → Nat × Nat × Except Cause Phys)
    (hl : accs.map (·.lane) = ls) (hp : ∀ x ∈ accs, f x.lane = (x.lane, x.va, .ok x.phys)) :
    laneFault (ls.map f) = none ∧ laneAccs (ls.map f) = accs := by
  subst hl
  induction accs with
  | nil => exact ⟨rfl, rfl⟩
  | cons x xs ih =>
    have hx := hp x (List.mem_cons_self ..)
    obtain ⟨h1, h2⟩ := ih fun y hy => hp y (List.mem_cons_of_mem _ hy)
    simp only [List.map_cons, laneFault, laneAccs, List.filterMap_cons, hx]
    refine ⟨?_, congrArg _ h2⟩
    simpa only [laneFault] using h1

/-- An instruction whose accesses all pass goes on with them. -/
theorem withLanes_accessing {accs : List LaneAcc} (h : Accessing s c a sp w accs) (k : List LaneAcc → Out) :
    withLanes s c a sp w k = k accs := by
  obtain ⟨h1, h2⟩ := accs_of_passes c.lanes accs
    (fun l => (l, c.g.address a l, checkOne s c.core (s.rootOf c.g.launch) sp (c.g.address a l) l)) h.lanes
    (fun x hx => by obtain ⟨hv, hc⟩ := h.passes x hx; simp only [← hv, hc])
  have hne : accs.isEmpty = false := by cases accs with | nil => exact absurd rfl h.some | cons => rfl
  simp only [withLanes, h1, h2, h.quiet, hne, h.free.1, h.free.2, Bool.or_self, Bool.false_eq_true, if_false]

end Sys2Proof.Machine
end

