-- ==== Sys2Proof/Laws/Sparse.lean ====
section
/-!
SUPPORT. Laws of the finite maps: read after write at the same key and at another, and the canonical form
that every operation keeps.
-/
namespace Sys2Proof.Sparse

variable {α : Type}

theorem find_erase_same (m : Sparse α) (k : Nat) : (m.erase k).find k = none := by
  induction m with
  | nil => rfl
  | cons p r ih =>
    obtain ⟨k', v⟩ := p
    by_cases h : k' = k <;> simp [erase, find, h, ih]

theorem find_erase_other (m : Sparse α) {k j : Nat} (h : j ≠ k) : (m.erase k).find j = m.find j := by
  induction m with
  | nil => rfl
  | cons p r ih =>
    obtain ⟨k', v⟩ := p
    by_cases hk : k' = k
    · subst hk; simp [erase, find, Ne.symm h, ih]
    · simp [erase, find, hk, ih]

theorem find_insert_same (m : Sparse α) (k : Nat) (x : α) (h : m.find k = none) : (m.insert k x).find k = some x := by
  induction m with
  | nil => simp [insert, find]
  | cons p r ih =>
    obtain ⟨k', v⟩ := p
    have hk : k' ≠ k := by rintro rfl; simp [find] at h
    simp only [find, hk, if_false] at h
    unfold insert
    split <;> simp [find, hk, ih h]

theorem find_insert_other (m : Sparse α) {k j : Nat} (x : α) (h : j ≠ k) : (m.insert k x).find j = m.find j := by
  induction m with
  | nil => simp [insert, find, Ne.symm h]
  | cons p r ih =>
    obtain ⟨k', v⟩ := p
    unfold insert
    split <;> simp [find, Ne.symm h, ih]

@[simp] theorem find_put_same (m : Sparse α) (k : Nat) (v : Option α) : (m.put k v).find k = v := by
  cases v with
  | none => exact find_erase_same m k
  | some x => exact find_insert_same _ k x (find_erase_same m k)

theorem find_put_other (m : Sparse α) {k j : Nat} (v : Option α) (h : j ≠ k) : (m.put k v).find j = m.find j := by
  cases v with
  | none => exact find_erase_other m h
  | some x => rw [put, find_insert_other _ x h, find_erase_other m h]

@[simp] theorem find_update_same (m : Sparse α) (k : Nat) (f : α → α) : (m.update k f).find k = (m.find k).map f := by
  induction m with
  | nil => rfl
  | cons p r ih =>
    obtain ⟨k', v⟩ := p
    by_cases h : k' = k <;> simp [update, find, h, ih]

theorem find_update_other (m : Sparse α) {k j : Nat} (f : α → α) (h : j ≠ k) : (m.update k f).find j = m.find j := by
  induction m with
  | nil => rfl
  | cons p r ih =>
    obtain ⟨k', v⟩ := p
    by_cases hk : k' = k
    · subst hk; simp [update, find, Ne.symm h, ih]
    · simp [update, find, hk, ih]

/-- The entries of a map changed one by one, under their keys. -/
theorem find_map_entries (m : Sparse α) (f : Nat × α → Nat × α) (h : ∀ p, (f p).1 = p.1) (k : Nat) :
    find (m.map f) k = (m.find k).map fun x => (f (k, x)).2 := by
  induction m with
  | nil => rfl
  | cons p r ih =>
    obtain ⟨k', v⟩ := p
    have e : f (k', v) = (k', (f (k', v)).2) := Prod.ext (h _) rfl
    by_cases hk : k' = k
    · subst hk; simp only [List.map_cons]; rw [e]; simp [find]
    · simp only [List.map_cons]; rw [e]; simp only [find, hk, if_false]; exact ih

@[simp] theorem get_set_same [DecidableEq α] (m : Sparse α) (k : Nat) (d v : α) : (m.set k d v).get k d = v := by
  unfold set get
  by_cases h : v = d <;> simp [h]

theorem get_set_other [DecidableEq α] (m : Sparse α) {k j : Nat} (d v e : α) (h : j ≠ k) :
    (m.set k d v).get j e = m.get j e := by
  simp [set, get, find_put_other m _ h]

/-! ## The canonical form -/

theorem sortedFrom_mono {lo lo' : Nat} (m : Sparse α) (h : lo' ≤ lo) (hs : m.sortedFrom lo = true) :
    m.sortedFrom lo' = true := by
  cases m with
  | nil => rfl
  | cons p r =>
    simp only [sortedFrom, Bool.and_eq_true, decide_eq_true_eq] at hs ⊢
    exact ⟨Nat.le_trans h hs.1, hs.2⟩

theorem sortedFrom_erase (m : Sparse α) (k lo : Nat) (hs : m.sortedFrom lo = true) : (m.erase k).sortedFrom lo = true := by
  induction m generalizing lo with
  | nil => rfl
  | cons p r ih =>
    obtain ⟨k', v⟩ := p
    simp only [sortedFrom, Bool.and_eq_true, decide_eq_true_eq] at hs
    unfold erase
    split
    · exact sortedFrom_mono _ (by omega) (ih _ hs.2)
    · simp [sortedFrom, hs.1, ih _ hs.2]

theorem sortedFrom_insert (m : Sparse α) (k lo : Nat) (x : α) (hk : lo ≤ k) (hn : m.find k = none)
    (hs : m.sortedFrom lo = true) : (m.insert k x).sortedFrom lo = true := by
  induction m generalizing lo with
  | nil => simp [insert, sortedFrom, hk]
  | cons p r ih =>
    obtain ⟨k', v⟩ := p
    have hne : k' ≠ k := by rintro rfl; simp [find] at hn
    simp only [find, hne, if_false] at hn
    simp only [sortedFrom, Bool.and_eq_true, decide_eq_true_eq] at hs
    unfold insert
    split
    · simp only [sortedFrom, Bool.and_eq_true, decide_eq_true_eq]
      exact ⟨hk, by omega, hs.2⟩
    · simp only [sortedFrom, Bool.and_eq_true, decide_eq_true_eq]
      exact ⟨hs.1, ih _ (by omega) hn hs.2⟩

theorem sortedFrom_put (m : Sparse α) (k : Nat) (v : Option α) (hs : m.sortedFrom 0 = true) :
    (m.put k v).sortedFrom 0 = true := by
  cases v with
  | none => exact sortedFrom_erase m k 0 hs
  | some x => exact sortedFrom_insert _ k 0 x (Nat.zero_le k) (find_erase_same m k) (sortedFrom_erase m k 0 hs)

theorem sortedFrom_set [DecidableEq α] (m : Sparse α) (k : Nat) (d v : α) (hs : m.sortedFrom 0 = true) :
    (m.set k d v).sortedFrom 0 = true := sortedFrom_put m k _ hs

theorem sortedFrom_filter (m : Sparse α) (f : Nat × α → Bool) (lo : Nat) (hs : m.sortedFrom lo = true) :
    Sparse.sortedFrom lo (m.filter f) = true := by
  induction m generalizing lo with
  | nil => rfl
  | cons p r ih =>
    obtain ⟨k', v⟩ := p
    simp only [sortedFrom, Bool.and_eq_true, decide_eq_true_eq] at hs
    by_cases hf : f (k', v) = true
    · rw [List.filter_cons_of_pos hf]
      simp [sortedFrom, hs.1, ih _ hs.2]
    · rw [List.filter_cons_of_neg hf]
      exact sortedFrom_mono _ (by omega) (ih _ hs.2)

theorem all_erase (m : Sparse α) (k : Nat) (f : Nat × α → Bool) (h : m.all f = true) : (m.erase k).all f = true := by
  induction m with
  | nil => rfl
  | cons p r ih =>
    obtain ⟨k', v⟩ := p
    simp only [List.all_cons, Bool.and_eq_true] at h
    unfold erase
    split <;> simp [h.1, ih h.2]

theorem all_insert (m : Sparse α) (k : Nat) (x : α) (f : Nat × α → Bool) (hx : f (k, x) = true) (h : m.all f = true) :
    (m.insert k x).all f = true := by
  induction m with
  | nil => simp [insert, hx]
  | cons p r ih =>
    obtain ⟨k', v⟩ := p
    simp only [List.all_cons, Bool.and_eq_true] at h
    unfold insert
    split <;> simp [h.1, h.2, hx, ih h.2]

/-- Setting a value lists nothing that equals the default. -/
theorem all_ne_set [DecidableEq α] (m : Sparse α) (k : Nat) (d v : α) (h : m.all (fun p => !decide (p.2 = d)) = true) :
    (m.set k d v).all (fun p => !decide (p.2 = d)) = true := by
  unfold set put
  by_cases hv : v = d
  · simpa [hv] using all_erase m k _ h
  · simp only [hv, if_false]
    exact all_insert _ k v _ (by simp [hv]) (all_erase m k _ h)

end Sys2Proof.Sparse
end

