-- ==== Sys2Proof/Laws/Group.lean ====
section
/-!
SUPPORT. Laws of the registers of a group: what a read after a write gives, and what a write leaves
alone.
-/
namespace Sys2Proof.Machine

open Sys2Proof

namespace Group

/-! ## One register -/

@[simp] theorem reg_setReg_same (g : Group) (r l : Nat) (x : Word) : (g.setReg r l x).reg r l = x := by
  simp [reg, setReg]

theorem reg_setReg_other (g : Group) {r l r' l' : Nat} (x : Word) (h : ¬(r' = r ∧ l' = l)) :
    (g.setReg r l x).reg r' l' = g.reg r' l' := by
  simp only [reg, setReg]
  by_cases hl : l' = l
  · subst hl
    have hr : r' ≠ r := fun e => h ⟨e, rfl⟩
    rw [Sparse.get_set_same, Sparse.get_set_other _ _ _ _ hr]
  · rw [Sparse.get_set_other _ _ _ _ hl]

/-- A write of a register changes the registers and the MMAR latch, and nothing else. -/
theorem setReg_rest (g : Group) (r l : Nat) (x : Word) :
    g.setReg r l x = { g with regs := (g.setReg r l x).regs, mmar := latchAfter g.mmar r } := rfl

/-! ## One operand of a lane (R55) -/

theorem write_one (g : Group) (r l : Nat) (x : Dword) : g.write r 1 l x = g.setReg r l (x.setWidth 32) := by
  simp [write]

theorem write_two (g : Group) (r l : Nat) (x : Dword) :
    g.write r 2 l x = (g.setReg r l (x.setWidth 32)).setReg (r + 1) l (x.extractLsb' 32 32) := by
  simp [write]

theorem join_words (x : Dword) : x.extractLsb' 32 32 ++ x.setWidth 32 = x := by
  apply BitVec.eq_of_getLsbD_eq
  intro i hi
  simp only [BitVec.getLsbD_append, BitVec.getLsbD_setWidth, BitVec.getLsbD_extractLsb']
  by_cases h : i < 32
  · simp [h]
  · have h2 : i - 32 < 32 := by omega
    have h3 : 32 + (i - 32) = i := by omega
    simp [h, h2, h3]

/-- A read of an operand after its write gives what the operand holds of the value. -/
theorem read_write_same (g : Group) (r n l : Nat) (x : Dword) (hn : n = 1 ∨ n = 2) :
    (g.write r n l x).read r n l = fitted n x := by
  rcases hn with rfl | rfl
  · simp [write, read, fitted]
  · have h : ¬(r = r + 1 ∧ l = l) := by omega
    simp [write, read, fitted, reg_setReg_other _ _ h, join_words]

/-- A write of an operand leaves every other register alone. -/
theorem reg_write_other (g : Group) (r n l r' l' : Nat) (x : Dword) (hn : n = 1 ∨ n = 2)
    (h : ¬(l' = l ∧ r ≤ r' ∧ r' < r + n)) : (g.write r n l x).reg r' l' = g.reg r' l' := by
  rcases hn with rfl | rfl
  · rw [write_one, reg_setReg_other]
    rintro ⟨rfl, rfl⟩; exact h ⟨rfl, by omega, by omega⟩
  · rw [write_two, reg_setReg_other, reg_setReg_other]
    · rintro ⟨rfl, rfl⟩; exact h ⟨rfl, by omega, by omega⟩
    · rintro ⟨rfl, rfl⟩; exact h ⟨rfl, by omega, by omega⟩

theorem read_write_other (g : Group) (r n l l' : Nat) (x : Dword) (hn : n = 1 ∨ n = 2) (h : l' ≠ l) :
    (g.write r n l x).read r n l' = g.read r n l' := by
  simp only [read]
  rw [reg_write_other _ _ _ _ _ _ _ hn (fun e => h e.1), reg_write_other _ _ _ _ _ _ _ hn (fun e => h e.1)]

theorem write_rest (g : Group) (r n l : Nat) (x : Dword) :
    g.write r n l x = { g with regs := (g.write r n l x).regs, mmar := (g.write r n l x).mmar } := by
  unfold write
  split <;> rfl

/-- A write of an operand drops the MMAR latch where it meets its range (R151). -/
theorem mmar_write (g : Group) (r n l : Nat) (x : Dword) (hn : n = 1 ∨ n = 2) :
    (g.write r n l x).mmar = latchPast g.mmar ⟨r, n⟩ := by
  rcases hn with rfl | rfl
  · rw [write_one]
    show latchAfter g.mmar r = _
    cases g.mmar with
    | none => rfl
    | some p => obtain ⟨a, n⟩ := p; simp [latchAfter, latchPast, List.range_succ]
  · rw [write_two]
    show latchAfter (latchAfter g.mmar r) (r + 1) = _
    cases g.mmar with
    | none => rfl
    | some p =>
      obtain ⟨a, n⟩ := p
      by_cases h : a ≤ r ∧ r < a + n
      · simp [latchAfter, latchPast, List.range_succ, h]
      · simp only [latchAfter, h, if_false]
        simp [latchPast, List.range_succ, h]

theorem latchPast_idem (m : Option (Nat × Nat)) (o : Opnd) : latchPast (latchPast m o) o = latchPast m o := by
  cases m with
  | none => rfl
  | some p =>
    obtain ⟨a, n⟩ := p
    cases h : (List.range o.count).any fun i => decide (a ≤ o.reg + i ∧ o.reg + i < a + n) <;>
      simp only [latchPast, h, Bool.false_eq_true, if_false, if_true]

end Group

/-! ## Writes of several lanes (R7, R57) -/

/-- `g'` is `g` with an operand of some lanes written, each lane with its own value. -/
structure LanesWritten (g : Group) (o : Opnd) (lanes : List Nat) (val : Nat → Dword) (g' : Group) : Prop where
  written : ∀ l ∈ lanes, g'.read o.reg o.count l = fitted o.count (val l)
  kept    : ∀ r l, ¬ (l ∈ lanes ∧ o.reg ≤ r ∧ r < o.reg + o.count) → g'.reg r l = g.reg r l
  latch   : g'.mmar = if lanes = [] then g.mmar else latchPast g.mmar o
  rest    : g' = { g with regs := g'.regs, mmar := g'.mmar }

theorem read_eq_of_reg {g h : Group} {r n l : Nat} (e : ∀ r', g.reg r' l = h.reg r' l) : g.read r n l = h.read r n l := by
  simp [Group.read, e]

theorem lanesWritten_nil (g : Group) (o : Opnd) (val : Nat → Dword) : LanesWritten g o [] val g :=
  ⟨by simp, by simp, by simp, rfl⟩

/-- One more lane written first. -/
theorem lanesWritten_cons {g g' : Group} {o : Opnd} {l : Nat} {ls : List Nat} {val : Nat → Dword}
    (ho : o.count = 1 ∨ o.count = 2) (h : LanesWritten (g.write o.reg o.count l (val l)) o ls val g') :
    LanesWritten g o (l :: ls) val g' where
  written := by
    intro k hk
    by_cases hm : k ∈ ls
    · exact h.written k hm
    · have hkl : k = l := by simpa [hm] using hk
      subst hkl
      rw [read_eq_of_reg fun r' => h.kept r' k (fun e => hm e.1)]
      exact Group.read_write_same _ _ _ _ _ ho
  kept := by
    intro r k hk
    rw [h.kept r k (fun e => hk ⟨List.mem_cons_of_mem _ e.1, e.2⟩)]
    refine Group.reg_write_other _ _ _ _ _ _ _ ho (fun e => hk ⟨?_, e.2⟩)
    rw [e.1]; exact List.mem_cons_self
  latch := by
    rw [h.latch, Group.mmar_write _ _ _ _ _ ho]
    by_cases hl : ls = [] <;> simp [hl, Group.latchPast_idem]
  rest := by
    have := h.rest
    rw [Group.write_rest] at this
    exact this

/-- What writing a result to each lane does (R7). -/
theorem lanesWritten_writeResults (g : Group) (o : Opnd) (ls : List Nat) (val : Nat → Dword)
    (ho : o.count = 1 ∨ o.count = 2) :
    LanesWritten g o ls val (writeResults g o (ls.map fun l => (l, val l))) := by
  induction ls generalizing g with
  | nil => exact lanesWritten_nil g o val
  | cons l ls ih => exact lanesWritten_cons ho (ih _)

/-- What writing one value to every lane does (R57). -/
theorem lanesWritten_writeLanes (g : Group) (r n : Nat) (x : Dword) (ls : List Nat) (hn : n = 1 ∨ n = 2) :
    LanesWritten g ⟨r, n⟩ ls (fun _ => x) (g.writeLanes r n x ls) := by
  induction ls generalizing g with
  | nil => exact lanesWritten_nil g _ _
  | cons l ls ih => exact lanesWritten_cons (o := ⟨r, n⟩) hn (ih _)

/-- Lanes written after flags have been recorded. -/
theorem writes_of_lanesWritten {c : Ctx} {o : Opnd} {ls : List Nat} {val : Nat → Dword} {g' : Group} {f : Flags}
    (h : LanesWritten (c.g.raiseFlags f) o ls val g') : Writes c o ls val g' ∧ Flagged c f g' := by
  have hm : g'.modes = { c.g.modes with gs := c.g.modes.gs ||| f.sticky } := by rw [h.rest]; rfl
  refine ⟨⟨h.written, h.kept, h.latch, ?_⟩, hm⟩
  have := h.rest
  rw [hm]
  exact this

/-- No flag leaves GS as it is. -/
theorem raiseFlags_none (g : Group) : g.raiseFlags 0 = g := by
  have h : (0 : Flags).sticky = 0#32 := by decide
  unfold Group.raiseFlags
  rw [h, BitVec.or_zero]

/-- Lanes written where no flag is raised. -/
theorem writes_of_lanesWritten_none {c : Ctx} {o : Opnd} {ls : List Nat} {val : Nat → Dword} {g' : Group}
    (h : LanesWritten c.g o ls val g') : Writes c o ls val g' ∧ Flagged c 0 g' :=
  writes_of_lanesWritten (f := 0) (by rw [raiseFlags_none]; exact h)

end Sys2Proof.Machine
end

