-- ==== Sys2Proof/Laws/Issue.lean ====
section
/-!
SUPPORT. What the shared parts of a word's meaning do: its issue (R37, R69, R118), recording flags (R9), scalar
reads (R58), and retirement (R77, R309).
-/
namespace Sys2Proof.Machine

open Sys2Proof

variable {s : State} {c : Ctx}

/-! ## State updates -/

@[simp] theorem group_setGroup_same (s : State) (k : Nat) (g : Group) : (s.setGroup k g).group k = some g := by
  simp [State.group, State.setGroup]

theorem group_setGroup_other (s : State) {k j : Nat} (g : Group) (h : j ≠ k) : (s.setGroup k g).group j = s.group j :=
  Sparse.find_put_other s.slots (some g) h

@[simp] theorem group_modGroup_same (s : State) (k : Nat) (f : Group → Group) :
    (s.modGroup k f).group k = (s.group k).map f := by
  simp [State.group, State.modGroup]

theorem group_modGroup_other (s : State) {k j : Nat} (f : Group → Group) (h : j ≠ k) :
    (s.modGroup k f).group j = s.group j := Sparse.find_update_other s.slots _ h

/-! ## Issue -/

/-- A word whose execution stands ready reaches its meaning (R37). -/
theorem issuing_stands (k : Ctx → Out) (h : Stands s c) : issuing s k = k c := by
  obtain ⟨h, hg, hh, hq⟩ := h
  unfold issuer at h
  unfold issuing
  cases he : s.group s.issue.slot with
  | none => simp [he] at h
  | some g =>
    simp only [he, Option.map_some, Option.some.injEq] at h
    subst h
    simp_all

/-- A word that issues reaches its own effect (R69, R118). -/
theorem checked_issues (needs : Word → Needs) (k : Ctx → Out) (h : Issues s c (needs c.g.modes.gm)) :
    checked s needs k = k c := by
  obtain ⟨hs, hf, hz⟩ := h
  unfold checked
  rw [issuing_stands _ hs]
  simp only [hf]
  rw [if_neg]
  simp only [List.any_eq_true, not_exists, not_and, Bool.not_eq_true]
  exact hz

/-- A word that fails a check of R118 traps at once. -/
theorem checked_faults (needs : Word → Needs) (k : Ctx → Out) (cause : Cause) (h : Stands s c)
    (hf : firstFault c (needs c.g.modes.gm) = some cause) : checked s needs k = trapAll s c cause := by
  unfold checked
  rw [issuing_stands _ h]
  simp only [hf]

/-- The slot and the group of an execution that stands ready. -/
theorem slot_of_stands (h : Stands s c) : c.slot = s.issue.slot ∧ s.group c.slot = some c.g ∧ c.pc = s.issue.pc := by
  obtain ⟨h, -⟩ := h
  unfold issuer at h
  cases he : s.group s.issue.slot with
  | none => simp [he] at h
  | some g =>
    simp only [he, Option.map_some, Option.some.injEq] at h
    subst h
    exact ⟨rfl, he, rfl⟩

/-! ## Retirement -/

/-- A state with its execution counted. -/
def counted (s : State) (c : Ctx) : State :=
  (s.modGroup c.slot fun g => g.retired s.time.clk c.gang).changed

theorem retire_noStep (hn : NoStep c) : retire s c = .next (counted s c) := by
  have hs : (Gs.ss c.g.modes.gs && !c.g.tm) = false := by rcases hn with h | h <;> simp [h]
  simp only [retire, hs, Bool.false_eq_true, if_false, counted]

/-- Retiring an execution that no STEP follows. -/
theorem retire_retires (h : Group) (hg : s.group c.slot = some h) (hn : NoStep c) :
    ∃ t, retire s c = .next t ∧ Retires s c h t ∧ SameMachine s t := by
  refine ⟨counted s c, retire_noStep hn, ⟨?_, ?_, rfl, rfl, rfl⟩,
    ⟨⟨rfl, rfl, rfl, rfl, rfl, rfl, rfl, rfl, rfl, rfl, rfl⟩, rfl, rfl, rfl⟩⟩
  · show (s.modGroup c.slot _).group c.slot = _
    simp [hg]
  · intro k hk
    exact group_modGroup_other s _ hk

/-- Completing an execution with a new group. -/
theorem complete_retires (g : Group) (hn : NoStep c) :
    ∃ t, complete s c g = .next t ∧ Retires s c (c.past g) t ∧ SameMachine s t := by
  obtain ⟨t, ht, hr, hm⟩ := retire_retires (s := s.setGroup c.slot (c.past g)) (c.past g) (group_setGroup_same ..) hn
  refine ⟨t, ht, ⟨hr.here, fun k hk => ?_, hr.teams, hr.launches, hr.time⟩, ⟨⟨hm.agenda, hm.issue, hm.input,
    hm.clusters, hm.streams, hm.cmds, hm.handles, hm.queues, hm.successors, hm.cancels, hm.sys⟩, hm.ids, hm.cores, hm.mem⟩⟩
  rw [hr.others k hk, group_setGroup_other _ _ hk]

/-- Completing an execution that leaves its group as it is. -/
theorem completeOnly_retires (h : Group) (hg : s.group c.slot = some h) (hn : NoStep c) :
    ∃ t, completeOnly s c = .next t ∧ Retires s c (c.past h) t ∧ SameMachine s t := by
  obtain ⟨t, ht, hr, hm⟩ := retire_retires (s := s.modGroup c.slot c.past) (c.past h) (by simp [hg]) hn
  refine ⟨t, ht, ⟨hr.here, fun k hk => ?_, hr.teams, hr.launches, hr.time⟩, ⟨⟨hm.agenda, hm.issue, hm.input,
    hm.clusters, hm.streams, hm.cmds, hm.handles, hm.queues, hm.successors, hm.cancels, hm.sys⟩, hm.ids, hm.cores, hm.mem⟩⟩
  rw [hr.others k hk, group_modGroup_other _ _ hk]

/-! ## Flags and scalar reads -/

/-- Sticky flags are bits 0 to 8 of GS (R66). -/
theorem sticky_high (f : Flags) (i : Nat) (h : 9 ≤ i) : f.sticky.getLsbD i = false := by
  have h1 : (0x1FF#10).getLsbD i = false := by
    by_cases h9 : i = 9
    · subst h9; rfl
    · exact BitVec.getLsbD_of_ge _ _ (by omega)
  have h2 : (if f.getLsbD 9 = true then (128#32) else 0#32).getLsbD i = false := by
    split
    · show (128#32).getLsbD i = false
      rw [show (128#32) = BitVec.twoPow 32 7 from rfl, BitVec.getLsbD_twoPow]
      simp; omega
    · simp
  unfold Flags.sticky
  rw [BitVec.getLsbD_or]
  refine Bool.or_eq_false_iff.2 ⟨?_, h2⟩
  rw [BitVec.getLsbD_setWidth, BitVec.getLsbD_and]
  show (decide (i < 32) && (f.getLsbD i && (0x1FF#10).getLsbD i)) = false
  rw [h1]; simp

@[simp] theorem tm_raiseFlags (g : Group) (f : Flags) : (g.raiseFlags f).tm = g.tm := by
  show (g.modes.gs ||| f.sticky).getLsbD 9 = _
  rw [BitVec.getLsbD_or, sticky_high f 9 (by decide), Bool.or_false]; rfl

@[simp] theorem ss_raiseFlags (g : Group) (f : Flags) : Gs.ss (g.raiseFlags f).modes.gs = Gs.ss g.modes.gs := by
  show (g.modes.gs ||| f.sticky).getLsbD 10 = _
  rw [BitVec.getLsbD_or, sticky_high f 10 (by decide), Bool.or_false]; rfl

@[simp] theorem det_raiseFlags (g : Group) (f : Flags) : Gs.det (g.raiseFlags f).modes.gs = Gs.det g.modes.gs := by
  show (g.modes.gs ||| f.sticky).getLsbD 11 = _
  rw [BitVec.getLsbD_or, sticky_high f 11 (by decide), Bool.or_false]; rfl


/-- Flags that no enabled trap meets are recorded and the word goes on (R9). -/
theorem withFlags_noTrap (outs : List (Nat × Flags)) (k : State → Group → Out) (h : NoTrap c.g outs) :
    withFlags s c outs k = k s (c.g.raiseFlags (allFlags outs)) := by
  simp only [withFlags, h]

/-- The values of uniform operands and their NUR flags (R58). -/
theorem uniform_noTrap (os : List Opnd) (k : State → Ctx → List Dword → Out)
    (h : NoTrap c.g ((c.g.execLanes c.gang).map fun l =>
      (l, (os.map fun o => c.g.scalarOpnd c.gang o.reg o.count).foldl (fun a x => a ||| x.2) 0))) :
    uniform s c os k =
      let reads := os.map fun o => c.g.scalarOpnd c.gang o.reg o.count
      let g := c.g.raiseFlags (allFlags ((c.g.execLanes c.gang).map fun l => (l, reads.foldl (fun a x => a ||| x.2) 0)))
      k (s.setGroup c.slot g) { c with g := g } (reads.map (·.1)) := by
  unfold uniform
  rw [withFlags_noTrap _ _ h]

end Sys2Proof.Machine
end

