-- ==== Sys2Proof/Laws/Forms.lean ====
section
/-!
SUPPORT. What the lane-wise instructions share: each runs its form, and writes one register or a pair.
-/
namespace Sys2Proof.Machine

open Sys2Proof

theorem count_byEt (gm : Word) (r : Reg) : (Opnd.byEt gm r).count = 1 ∨ (Opnd.byEt gm r).count = 2 := by
  unfold Opnd.byEt
  split
  · split
    · exact Or.inr rfl
    · exact Or.inl rfl
  · exact Or.inl rfl

theorem dst_etForm (gm : Word) (admits : ElemType → Bool) (d : Opnd) (srcs : List Opnd)
    (fn : ElemType → List Dword → Dword × Flags) : (etForm gm admits d srcs fn).dst = d := by
  unfold etForm
  split <;> rfl

/-- A form's destination is one register or a pair. -/
theorem count_dst (i : Instr) (mk : Word → Form) (h : vectorForm i = some mk) (gm : Word) :
    (mk gm).dst.count = 1 ∨ (mk gm).dst.count = 2 := by
  have h1 : ∀ r, (Opnd.one r).count = 1 := fun _ => rfl
  have h2 : ∀ r, (Opnd.two r).count = 2 := fun _ => rfl
  cases i <;> simp only [vectorForm, Option.some.injEq, reduceCtorEq] at h <;> subst h <;>
    simp only [intForm1, intForm2, intForm3, bitForm2, shiftForm, cmpForm, bfxForm, bfiForm, selForm, movForm, movpForm,
      moviForm, movhiForm, addiForm, notForm, fpForm2, fmaForm, minmaxForm, fcmpForm, specialForm, fclassForm, cvtForm,
      rnencForm, rndecForm, dst_etForm, h1, h2, true_or, or_true, count_byEt]

/-- A vector instruction runs its form. -/
theorem exec_vector (i : Instr) (mk : Word → Form) (h : vectorForm i = some mk) (s : State) : exec i s = vector mk s := by
  cases i <;> simp only [vectorForm, Option.some.injEq, reduceCtorEq] at h <;> subst h <;> rfl

/-- A scalar twin runs the form of its vector instruction. -/
theorem exec_twin (i j : Instr) (mk : Word → Form) (h : twinOf i = some j) (hj : vectorForm j = some mk) (s : State) :
    exec i s = scalar mk s := by
  cases i <;> simp only [twinOf, Option.some.injEq, reduceCtorEq] at h <;> subst h <;>
    simp only [vectorForm, Option.some.injEq] at hj <;> subst hj <;> rfl

end Sys2Proof.Machine
end

