-- ==== Sys2Proof/Laws/Traps.lean ====
section
/-!
SUPPORT. Taking a trap (R293 to R295): what entering the handler writes.
-/
namespace Sys2Proof.Machine

open Sys2Proof

/-- Two halves of a number join to it. -/
theorem join_halves (n : Nat) : highWord n ++ lowWord n = BitVec.ofNat 64 n := by
  apply BitVec.eq_of_toNat_eq
  simp only [highWord, lowWord, BitVec.toNat_append, BitVec.toNat_ofNat]
  rw [Nat.shiftLeft_eq, Nat.mul_comm, ← Nat.two_pow_add_eq_or_of_lt (Nat.mod_lt _ (by decide))]
  omega

theorem join_pc (p : VAddr) : highWord p.toNat ++ lowWord p.toNat = p.setWidth 64 := by
  rw [join_halves]
  apply BitVec.eq_of_toNat_eq
  simp

theorem join_lanes (x : BitVec 64) : x.extractLsb' 32 32 ++ x.extractLsb' 0 32 = x := by
  have h : x.extractLsb' 0 32 = x.setWidth 32 := by
    apply BitVec.eq_of_getLsbD_eq
    intro i hi
    simp [hi]
  rw [h, Group.join_words]

/-- The bits of a set of strands below 16. -/
theorem testBit_foldl (ls : List Nat) (n i : Nat) :
    (ls.foldl (fun n i => n ||| 2 ^ i) n).testBit i = (n.testBit i || ls.contains i) := by
  induction ls generalizing n with
  | nil => simp
  | cons l ls ih =>
    rw [List.foldl_cons, ih, Nat.testBit_or, Nat.testBit_two_pow, List.contains_cons]
    cases n.testBit i <;> simp [eq_comm, Bool.beq_eq_decide_eq]

theorem xstr_gang (live gang : List Nat) (i : Nat) (h : i < 16) : (xstrOf live gang).getLsbD i = gang.contains i := by
  unfold xstrOf
  rw [BitVec.getLsbD_append, if_pos h, BitVec.getLsbD_ofNat, testBit_foldl]
  simp [h]

theorem xstr_live (live gang : List Nat) (i : Nat) (h : i < 16) : (xstrOf live gang).getLsbD (16 + i) = live.contains i := by
  unfold xstrOf
  rw [BitVec.getLsbD_append, if_neg (by omega), BitVec.getLsbD_ofNat, Nat.add_sub_cancel_left, testBit_foldl]
  simp [h]

/-- A strand's number names it among those that have not exited. -/
theorem contains_liveStrands (g : Group) (i : Nat) :
    g.liveStrands.contains i = (decide (i < g.strands.length) && !(g.strand i).exited) := by
  simp [Group.liveStrands, Group.allStrands]

theorem exited_absent (g : Group) (i : Nat) (h : ¬ i < g.strands.length) : (g.strand i).exited = true := by
  have : g.strands[i]? = none := List.getElem?_eq_none (by omega)
  simp only [Group.strand, List.getD, this]
  rfl

/-- The trap registers tell of their trap (R293, R294). -/
theorem trapRegs_tells (g : Group) (t : TrapInfo) : TellsOf g.liveStrands t (g.trapRegs t) where
  cause := rfl
  sub := rfl
  pc := join_pc _
  npc := join_pc _
  addr := join_halves _
  node := rfl
  lanes := join_lanes _
  live := fun i hi => xstr_live _ _ i hi
  gang := fun i hi => by
    refine (xstr_gang _ _ i hi).trans ?_
    rw [contains_liveStrands]
    by_cases h : i < g.strands.length
    · simp only [h, decide_true, Bool.true_and]
      cases hx : (g.strand i).exited <;> cases hc : t.gang.contains i <;>
        simp_all
    · have := exited_absent g i h
      simp [h, this]

/-- A group enters its handler, at whatever time (R293). -/
theorem enterHandler_enters (g : Group) (h : VAddr) (t : TrapInfo) (clk : Nat) :
    EntersHandler g h t { g.enterHandler h t with entered := clk } :=
  ⟨trapRegs_tells g t, rfl, rfl, rfl⟩

/-- Raising a cause with TM clear and a handler: the group enters it (R293). -/
theorem raise_takesTrap {s : State} {k : Nat} {g : Group} {h : VAddr} (t : TrapInfo) (hg : s.group k = some g)
    (hc : CanTrap s g h) : TakesTrap s k g h t (s.raise k t) := by
  obtain ⟨hl, ht, hh⟩ := hc
  have e : s.raise k t = s.changed.setGroup k { g.enterHandler h t with entered := s.time.clk } := by
    unfold State.raise
    simp only [hg]
    have hl' : g.liveStrands.isEmpty = false := by
      cases hx : g.liveStrands with
      | nil => exact absurd hx hl
      | cons a l => rfl
    simp only [hl', ht, Bool.false_eq_true, if_false]
    show (match (s.launch g.launch).bind (·.desc.haddr) with
      | some h => _
      | none => _) = _
    rw [hh]
    rfl
  rw [e]
  refine ⟨⟨_, group_setGroup_same .., enterHandler_enters g h t _⟩, fun j hj => group_setGroup_other _ _ hj, rfl, rfl,
    ⟨⟨rfl, rfl, rfl, rfl, rfl, rfl, rfl, rfl, rfl, rfl, rfl⟩, rfl, rfl, rfl⟩⟩

end Sys2Proof.Machine
end

