-- ==== Sys2Proof/Laws/Leaves.lean ====
section
/-!
SUPPORT. How a word ends: what its execution leaves once it has retired or trapped.
-/
namespace Sys2Proof.Machine

open Sys2Proof

variable {s : State} {c : Ctx}

/-- An execution whose group was written over, then retired. -/
theorem retire_leaves (h : Group) (s0 : State) (c' : Ctx) (hs : s0 = s ∨ ∃ g, s0 = s.setGroup c.slot g)
    (h1 : c'.slot = c.slot) (h3 : c'.gang = c.gang) (hn : NoStep c') :
    Leaves s c h (retire (s0.setGroup c'.slot h) c') := by
  have hs' : ∀ k, k ≠ c.slot → s0.group k = s.group k := by
    intro k hk
    rcases hs with rfl | ⟨g, rfl⟩
    · rfl
    · exact group_setGroup_other _ _ hk
  have hd : ∀ k, k ≠ c.slot → (s0.setGroup c'.slot h).group k = s.group k := by
    intro k hk
    rw [h1, group_setGroup_other _ _ hk, hs' k hk]
  obtain ⟨t, ht, hr, hm⟩ := retire_retires (s := s0.setGroup c'.slot h) (c := c') h (group_setGroup_same ..) hn
  have ho : ∀ k, k ≠ c.slot → t.group k = s.group k := fun k hk => by
    rw [hr.others k (by rw [h1]; exact hk), hd k hk]
  rcases hs with rfl | ⟨g, rfl⟩
  · refine ⟨t, ht, ⟨?_, ho, hr.teams, hr.launches, hr.time⟩, ⟨⟨hm.agenda, hm.issue, hm.input, hm.clusters, hm.streams,
      hm.cmds, hm.handles, hm.queues, hm.successors, hm.cancels, hm.sys⟩, hm.ids, hm.cores, hm.mem⟩⟩
    have := hr.here
    rw [h1, h3] at this
    exact this
  · refine ⟨t, ht, ⟨?_, ho, hr.teams, hr.launches, hr.time⟩, ⟨⟨hm.agenda, hm.issue, hm.input, hm.clusters, hm.streams,
      hm.cmds, hm.handles, hm.queues, hm.successors, hm.cancels, hm.sys⟩, hm.ids, hm.cores, hm.mem⟩⟩
    have := hr.here
    rw [h1, h3] at this
    exact this

/-- Completing an execution with a new group. -/
theorem complete_leaves (g : Group) (hn : NoStep c) : Leaves s c (c.past g) (complete s c g) :=
  retire_leaves (c.past g) s c (Or.inl rfl) rfl rfl hn

/-- Completing an execution that leaves its group as it is. -/
theorem completeOnly_leaves (h : Group) (hg : s.group c.slot = some h) (hn : NoStep c) :
    Leaves s c (c.past h) (completeOnly s c) :=
  completeOnly_retires h hg hn

/-- A precise trap of the gang. -/
theorem raise_trapsWith (t : TrapInfo) (g : Group) (hg : s.group c.slot = some g) :
    TrapsWith s c g t (.next (s.raise c.slot t)) :=
  fun _ hc => ⟨_, rfl, raise_takesTrap t hg hc⟩

/-- A precise trap of a gang whose group has been written over. -/
theorem raise_trapsWith_set (t : TrapInfo) (g : Group) :
    TrapsWith s c g t (.next ((s.setGroup c.slot g).raise c.slot t)) := by
  intro h hc
  refine ⟨_, rfl, ?_⟩
  have r := raise_takesTrap (s := s.setGroup c.slot g) (k := c.slot) t (group_setGroup_same ..) hc
  exact ⟨r.here, fun j hj => by rw [r.others j hj, group_setGroup_other _ _ hj], r.teams, r.launches,
    ⟨⟨r.machine.agenda, r.machine.issue, r.machine.input, r.machine.clusters, r.machine.streams, r.machine.cmds,
      r.machine.handles, r.machine.queues, r.machine.successors, r.machine.cancels, r.machine.sys⟩,
      r.machine.ids, r.machine.cores, r.machine.mem⟩⟩

end Sys2Proof.Machine
end

