-- ==== Sys2Proof/Laws/Memory.lean ====
section
/-!
SUPPORT. Laws of memory: what a byte reads as after a write, and the canonical form that every operation on
memory keeps.
-/
namespace Sys2Proof.Machine

open Sys2Proof

/-! ## Canonical form, taken apart -/

/-- An entry of the write-back queue is canonical. -/
abbrev queuedOk (w : Nat × List (Nat × Byte)) : Prop :=
  Sparse.sortedFrom 0 w.2 = true ∧ ∀ p ∈ w.2, p.1 < hbmSize

theorem wf_iff (m : Mem) : Memory.wf m = true ↔
    (Sparse.sortedFrom 0 m.bytes = true ∧ (∀ p ∈ m.bytes, p.2 ≠ 0)) ∧
    (Sparse.sortedFrom 0 m.dirty = true ∧ (∀ p ∈ m.dirty, p.1 < hbmSize)) ∧ ∀ w ∈ m.queue, queuedOk w := by
  simp [Memory.wf, queuedOk, and_assoc]

/-- Memory whose bytes, dirty bytes and queue are the same is canonical with it. -/
theorem wf_congr {m n : Mem} (hb : n.bytes = m.bytes) (hd : n.dirty = m.dirty) (hq : n.queue = m.queue) :
    Memory.wf n = Memory.wf m := by simp [Memory.wf, hb, hd, hq]

theorem wf_reset : Memory.wf State.reset.mem = true := rfl

/-! ## Reading after a write -/

/-- No queued write-back carries a byte outside HBM. -/
theorem queued_none {m : Mem} (h : Memory.wf m = true) {a : Nat} (ha : hbmSize ≤ a) : m.queued a = none := by
  have hq := ((wf_iff m).mp h).2.2
  have step : ∀ (q : List (Nat × List (Nat × Byte))) (acc : Option Byte), (∀ w ∈ q, queuedOk w) → acc = none →
      q.foldl (fun acc w => match w.2.find? (fun p => p.1 == a) with
        | some p => some p.2
        | none => acc) acc = none := by
    intro q
    induction q with
    | nil => intro acc _ hacc; exact hacc
    | cons w r ih =>
      intro acc hok hacc
      have hn : w.2.find? (fun p => p.1 == a) = none := by
        rw [List.find?_eq_none]
        intro p hp hpa
        have := (hok w (by simp)).2 p hp
        simp only [beq_iff_eq] at hpa
        omega
      simp only [List.foldl_cons, hn]
      exact ih acc (fun v hv => hok v (by simp [hv])) hacc
  exact step m.queue none hq rfl

theorem find_none_of_lt {d : Sparse Byte} (h : ∀ p ∈ d, p.1 < hbmSize) {a : Nat} (ha : hbmSize ≤ a) : d.find a = none := by
  induction d with
  | nil => rfl
  | cons p r ih =>
    obtain ⟨k, v⟩ := p
    have hk : k ≠ a := by have := h (k, v) (by simp); simp only at this; omega
    simp only [Sparse.find, hk, if_false]
    exact ih fun p hp => h p (by simp [hp])

theorem find_dirty_none {m : Mem} (h : Memory.wf m = true) {a : Nat} (ha : hbmSize ≤ a) : m.dirty.find a = none :=
  find_none_of_lt ((wf_iff m).mp h).2.1.2 ha

/-- Outside HBM a byte reads as memory lists it. -/
theorem byte_outside {m : Mem} (h : Memory.wf m = true) {a : Nat} (ha : hbmSize ≤ a) : m.byte a = Sparse.get m.bytes a 0 := by
  simp [Mem.byte, find_dirty_none h ha, queued_none h ha]

theorem byte_setByte {m : Mem} (h : Memory.wf m = true) (a x : Nat) (b : Byte) :
    (m.setByte a b).byte x = if x = a then b else m.byte x := by
  unfold Mem.setByte
  by_cases ha : a < hbmSize
  · rw [if_pos ha]
    by_cases hx : x = a
    · subst hx; simp [Mem.byte]
    · simp only [Mem.byte, Sparse.find_put_other m.dirty _ hx, if_neg hx]
      rfl
  · rw [if_neg ha]
    have e : ({ m with bytes := Sparse.set m.bytes a 0 b } : Mem).byte x = (match m.dirty.find x with
        | some b => b
        | none => match m.queued x with
          | some b => b
          | none => Sparse.get (Sparse.set m.bytes a 0 b) x 0) := rfl
    rw [e]
    by_cases hx : x = a
    · subst hx
      simp [find_dirty_none h (Nat.le_of_not_lt ha), queued_none h (Nat.le_of_not_lt ha)]
    · simp only [if_neg hx, Sparse.get_set_other m.bytes 0 b 0 hx]
      rfl

/-! ## Operations keep the canonical form -/

theorem wf_setByte {m : Mem} (h : Memory.wf m = true) (a : Nat) (b : Byte) : Memory.wf (m.setByte a b) = true := by
  rw [wf_iff] at h ⊢
  obtain ⟨⟨hb, hz⟩, ⟨hd, hl⟩, hq⟩ := h
  unfold Mem.setByte
  by_cases ha : a < hbmSize
  · rw [if_pos ha]
    refine ⟨⟨hb, hz⟩, ⟨Sparse.sortedFrom_put m.dirty a (some b) hd, ?_⟩, hq⟩
    have := Sparse.all_insert (m.dirty.erase a) a b (fun p => decide (p.1 < hbmSize)) (by simpa using ha)
      (Sparse.all_erase m.dirty a _ (by simpa using hl))
    simpa [Sparse.put] using this
  · rw [if_neg ha]
    refine ⟨⟨Sparse.sortedFrom_set m.bytes a 0 b hb, ?_⟩, ⟨hd, hl⟩, hq⟩
    have := Sparse.all_ne_set m.bytes a 0 b (by simpa using hz)
    simpa using this

theorem wf_write {m : Mem} (h : Memory.wf m = true) (a : Nat) (bytes : List Byte) : Memory.wf (m.write a bytes) = true := by
  induction bytes generalizing m a with
  | nil => exact h
  | cons b bs ih => exact ih (wf_setByte h a b) (a + 1)

/-- A byte after a write: the written one within the bytes written, else as before. -/
theorem byte_write {m : Mem} (h : Memory.wf m = true) (a x : Nat) (bytes : List Byte) :
    (m.write a bytes).byte x = if a ≤ x ∧ x < a + bytes.length then bytes.getD (x - a) 0 else m.byte x := by
  induction bytes generalizing m a with
  | nil => rw [if_neg (by simp only [List.length_nil]; omega)]; rfl
  | cons b bs ih =>
    show ((m.setByte a b).write (a + 1) bs).byte x = _
    rw [ih (wf_setByte h a b) (a + 1), byte_setByte h]
    simp only [List.length_cons]
    by_cases hx : x = a
    · subst hx
      rw [if_neg (by omega), if_pos rfl, if_pos (by omega)]
      simp
    · by_cases hin : a + 1 ≤ x ∧ x < a + 1 + bs.length
      · rw [if_pos hin, if_pos (by omega), show x - a = (x - (a + 1)) + 1 by omega]
        simp
      · rw [if_neg hin, if_neg hx, if_neg (by omega)]

@[simp] theorem byte_clearPoison (m : Mem) (a n x : Nat) : (m.clearPoison a n).byte x = m.byte x := rfl
@[simp] theorem byte_addPoison (m : Mem) (p x : Nat) : (m.addPoison p).byte x = m.byte x := rfl
@[simp] theorem wf_clearPoison (m : Mem) (a n : Nat) : Memory.wf (m.clearPoison a n) = Memory.wf m := rfl
@[simp] theorem wf_addPoison (m : Mem) (p : Nat) : Memory.wf (m.addPoison p) = Memory.wf m := rfl

/-- Bytes that land in HBM one by one leave its list canonical. -/
theorem bytes_foldl_set (ps : List (Nat × Byte)) (b : List Host.Cell) (hs : Sparse.sortedFrom 0 b = true)
    (hz : ∀ p ∈ b, p.2 ≠ 0) :
    Sparse.sortedFrom 0 (ps.foldl (fun b x => Sparse.set b x.1 0 x.2) b) = true ∧
      ∀ p ∈ ps.foldl (fun b x => Sparse.set b x.1 0 x.2) b, p.2 ≠ 0 := by
  induction ps generalizing b with
  | nil => exact ⟨hs, hz⟩
  | cons p r ih =>
    refine ih _ (Sparse.sortedFrom_set b p.1 0 p.2 hs) ?_
    have := Sparse.all_ne_set b p.1 0 p.2 (by simpa using hz)
    simpa using this

/-- A queue of which some bytes have gone is canonical. -/
theorem queue_filter (q : List (Nat × List (Nat × Byte))) (f : Nat × Byte → Bool) (h : ∀ w ∈ q, queuedOk w) :
    ∀ w ∈ (q.map fun w => (w.1, w.2.filter f)).filter (fun w => !w.2.isEmpty), queuedOk w := by
  intro w hw
  obtain ⟨v, hv, rfl⟩ := List.mem_map.mp (List.mem_filter.mp hw).1
  exact ⟨Sparse.sortedFrom_filter v.2 f 0 (h v hv).1, fun p hp => (h v hv).2 p (List.mem_filter.mp hp).1⟩

theorem wf_landBytes {m : Mem} (h : Memory.wf m = true) (p : Nat → Bool) : Memory.wf (m.landBytes p) = true := by
  rw [wf_iff] at h ⊢
  obtain ⟨⟨hb, hz⟩, ⟨hd, hl⟩, hq⟩ := h
  exact ⟨bytes_foldl_set _ m.bytes hb hz, ⟨Sparse.sortedFrom_filter m.dirty _ 0 hd,
    fun x hx => hl x (List.mem_filter.mp hx).1⟩, queue_filter m.queue _ hq⟩

theorem wf_dropBytes {m : Mem} (h : Memory.wf m = true) (p : Nat → Bool) (tick : Nat) :
    Memory.wf (m.dropBytes p tick) = true := by
  have h1 : Memory.wf { m with dirty := m.dirty.filter fun x => !p x.1 } = true := by
    rw [wf_iff] at h ⊢
    exact ⟨h.1, ⟨Sparse.sortedFrom_filter m.dirty _ 0 h.2.1.1, fun x hx => h.2.1.2 x (List.mem_filter.mp hx).1⟩, h.2.2⟩
  have h2 := wf_landBytes h1 fun a => p a && Config.choice tick (sectorOf a) % 2 == 1
  rw [wf_iff] at h2 ⊢
  exact ⟨h2.1, h2.2.1, queue_filter _ _ h2.2.2⟩

theorem wf_queueWriteBack {s : State} (h : Memory.wf s.mem = true) (sector : Nat) :
    Memory.wf (s.queueWriteBack sector).mem = true := by
  unfold State.queueWriteBack
  dsimp only
  split
  · exact h
  · rw [wf_iff] at h ⊢
    refine ⟨h.1, ⟨Sparse.sortedFrom_filter s.mem.dirty _ 0 h.2.1.1, fun x hx => h.2.1.2 x (List.mem_filter.mp hx).1⟩, ?_⟩
    intro w hw
    rcases List.mem_append.mp hw with hw | hw
    · exact h.2.2 w hw
    · obtain rfl := List.mem_singleton.mp hw
      exact ⟨Sparse.sortedFrom_filter s.mem.dirty _ 0 h.2.1.1, fun x hx => h.2.1.2 x (List.mem_filter.mp hx).1⟩

theorem wf_landWriteBack {s : State} (h : Memory.wf s.mem = true) : Memory.wf s.landWriteBack.mem = true := by
  unfold State.landWriteBack
  split
  · exact h
  · next w ws hq =>
    rw [wf_iff] at h ⊢
    exact ⟨bytes_foldl_set _ s.mem.bytes h.1.1 h.1.2, h.2.1, fun v hv => h.2.2 v (by rw [hq]; simp [hv])⟩

/-- Memory outside HBM alone is canonical. -/
theorem wf_outside {m : Mem} (h : Memory.wf m = true) (n : Mem)
    (hb : n.bytes = m.bytes.filter fun p => decide (hbmSize ≤ p.1)) (hd : n.dirty = []) (hq : n.queue = []) :
    Memory.wf n = true := by
  rw [wf_iff] at h ⊢
  rw [hb, hd, hq]
  exact ⟨⟨Sparse.sortedFrom_filter m.bytes _ 0 h.1.1, fun p hp => h.1.2 p (List.mem_filter.mp hp).1⟩, ⟨rfl, by simp⟩, by simp⟩

theorem wf_restart {s : State} (h : Memory.wf s.mem = true) (warm : Bool) : Memory.wf (s.restart warm).mem = true :=
  wf_outside h _ rfl rfl rfl

/-! ## Bytes on their way to HBM -/

theorem find_filter (m : Sparse Byte) (f : Nat → Bool) (k : Nat) :
    Sparse.find (m.filter fun p => f p.1) k = if f k then m.find k else none := by
  induction m with
  | nil => simp [Sparse.find]
  | cons p r ih =>
    obtain ⟨j, v⟩ := p
    by_cases hj : j = k
    · subst hj; cases hf : f j <;> simp_all [Sparse.find]
    · cases hf : f j <;> simp_all [Sparse.find]

theorem find?_key (m : Sparse Byte) (k : Nat) : (m.find? fun p => p.1 == k).map (·.2) = m.find k := by
  induction m with
  | nil => rfl
  | cons p r ih =>
    obtain ⟨j, v⟩ := p
    by_cases hj : j = k <;> simp_all [Sparse.find]

/-- A write-back queued last is the newest of its bytes. -/
theorem queued_append (m : Mem) (sector : Nat) (now : Sparse Byte) (a : Nat) :
    ({ m with queue := m.queue ++ [(sector, now)] } : Mem).queued a = (now.find a).or (m.queued a) := by
  simp only [Mem.queued, List.foldl_append, List.foldl_cons, List.foldl_nil]
  rw [← find?_key]
  cases now.find? fun p => p.1 == a <;> rfl

/-- Dirty bytes that are queued for write-back read as before. -/
theorem byte_queueWriteBack (s : State) (sector a : Nat) : (s.queueWriteBack sector).mem.byte a = s.mem.byte a := by
  unfold State.queueWriteBack
  dsimp only
  split
  · rfl
  · simp only [Mem.byte]
    rw [show ({ s.mem with
        dirty := s.mem.dirty.filter fun p => sectorOf p.1 != sectorOf sector
        queue := s.mem.queue ++ [(sectorOf sector, s.mem.dirty.filter fun p => sectorOf p.1 == sectorOf sector)] } : Mem).queued a =
      (Sparse.find (s.mem.dirty.filter fun p => sectorOf p.1 == sectorOf sector) a).or (s.mem.queued a) from
        queued_append s.mem _ _ a]
    rw [find_filter s.mem.dirty (fun k => sectorOf k != sectorOf sector),
      find_filter s.mem.dirty (fun k => sectorOf k == sectorOf sector)]
    by_cases h : sectorOf a = sectorOf sector
    · cases s.mem.dirty.find a <;> simp [h]
    · cases s.mem.dirty.find a <;> simp [h]

/-- What making room in L2 keeps: the bytes, poison and the canonical form. -/
structure Kept (s t : State) : Prop where
  bytes  : SameBytes s t
  wf     : Memory.wf s.mem = true → Memory.wf t.mem = true
  poison : t.mem.poison = s.mem.poison

theorem Kept.refl (s : State) : Kept s s := ⟨fun _ => rfl, id, rfl⟩

theorem Kept.trans {s t u : State} (h : Kept s t) (k : Kept t u) : Kept s u :=
  ⟨fun a => (k.bytes a).trans (h.bytes a), fun w => k.wf (h.wf w), k.poison.trans h.poison⟩

theorem kept_queueWriteBack (s : State) (sector : Nat) : Kept s (s.queueWriteBack sector) := by
  refine ⟨byte_queueWriteBack s sector, fun w => wf_queueWriteBack w sector, ?_⟩
  unfold State.queueWriteBack
  dsimp only
  split <;> rfl

theorem kept_foldl (f : State → Nat → State) (h : ∀ s i, Kept s (f s i)) (is : List Nat) (s : State) :
    Kept s (is.foldl f s) := by
  induction is generalizing s with
  | nil => exact Kept.refl s
  | cons i is ih => exact (h s i).trans (ih _)

theorem kept_dropL2 (s : State) (region : Nat) : Kept s (s.dropL2 region) := by
  unfold State.dropL2
  dsimp only
  generalize List.range 16 = is
  refine Kept.trans ?_ (kept_foldl (fun s i => s.queueWriteBack (regionBase region + 32 * i))
    (fun s _ => kept_queueWriteBack s _) is _)
  exact ⟨fun _ => rfl, id, rfl⟩

/-- Making room in an L2 slice keeps memory (R29, R194). -/
theorem kept_makeRoom (s : State) (a : Nat) : Kept s (s.makeRoom a) := by
  unfold State.makeRoom
  dsimp only
  split
  · exact Kept.refl s
  · split
    · exact Kept.refl s
    · split
      · exact kept_dropL2 s _
      · exact Kept.refl s

/-! ## A write performed at its home slice -/

/-- A performed write leaves its bytes in memory and no others, once its slice has room. -/
theorem mem_performWrite (s : State) (a : Nat) (bytes : List Byte) (grain : Nat) (cores ops : List Nat) :
    ∃ us, (s.performWrite a bytes grain cores ops).mem =
      { ((s.makeRoom a).mem.write a bytes).clearPoison a bytes.length with updates := us } := by
  unfold State.performWrite
  dsimp only
  generalize List.eraseDups (α := Nat) _ = cs
  cases cs with
  | nil => exact ⟨_, rfl⟩
  | cons c cs => exact ⟨_, rfl⟩

theorem wf_performWrite {s : State} (h : Memory.wf s.mem = true) (a : Nat) (bytes : List Byte) (grain : Nat)
    (cores ops : List Nat) : Memory.wf (s.performWrite a bytes grain cores ops).mem = true := by
  obtain ⟨us, e⟩ := mem_performWrite s a bytes grain cores ops
  rw [e]
  exact wf_write ((kept_makeRoom s a).wf h) a bytes

/-- What a performed write stores. -/
theorem stored_performWrite {s : State} (h : Memory.wf s.mem = true) (a : Nat) (bytes : List Byte) (grain : Nat)
    (cores ops : List Nat) : Stored s (s.performWrite a bytes grain cores ops) a bytes := by
  obtain ⟨us, e⟩ := mem_performWrite s a bytes grain cores ops
  intro x
  rw [e, ← (kept_makeRoom s a).bytes x]
  exact byte_write ((kept_makeRoom s a).wf h) a x bytes

end Sys2Proof.Machine
end

