-- ==== Sys2Proof/Laws/PerInstr.lean ====
section
/-!
SUPPORT. The round trip of each instruction: decoding the encoding of a well-formed instruction gives it back,
with every operand at every value that the encoding admits (R99 to R117).
-/
namespace Sys2Proof

/-! ## Words taken apart -/

/-- Byte `k` of four bytes put together. -/
theorem pack_byte (op d a b : Byte) : (pack op d a b).extractLsb' 24 8 = op ∧ (pack op d a b).extractLsb' 16 8 = d ∧
    (pack op d a b).extractLsb' 8 8 = a ∧ (pack op d a b).extractLsb' 0 8 = b := by
  refine ⟨?_, ?_, ?_, ?_⟩ <;>
  · ext i hi
    simp only [pack, BitVec.getElem_extractLsb', BitVec.getLsbD_append]
    rcases (by omega : i = 0 ∨ i = 1 ∨ i = 2 ∨ i = 3 ∨ i = 4 ∨ i = 5 ∨ i = 6 ∨ i = 7) with
      rfl | rfl | rfl | rfl | rfl | rfl | rfl | rfl <;> rfl

theorem decode_pack (op d a b : Byte) : decode (pack op d a b) = decodeFields op d a b := by
  obtain ⟨h3, h2, h1, h0⟩ := pack_byte op d a b
  unfold decode
  rw [h3, h2, h1, h0]

theorem split16 (x : BitVec 16) : x.extractLsb' 8 8 ++ x.extractLsb' 0 8 = x := by
  ext i hi
  simp only [BitVec.getElem_append, BitVec.getElem_extractLsb']
  by_cases h : i < 8
  · simp [h, BitVec.getLsbD_eq_getElem (show i < 16 by omega)]
  · rw [dif_neg h]
    simp [show 8 + (i - 8) = i by omega, BitVec.getLsbD_eq_getElem (show i < 16 by omega)]

theorem pack16_eq (op d : Byte) (x : BitVec 16) : pack16 op d x = pack op d (x.extractLsb' 8 8) (x.extractLsb' 0 8) := by
  unfold pack16 pack
  conv => lhs; rw [← split16 x]
  ext i hi
  simp only [BitVec.getElem_append]
  repeat' split
  all_goals first | rfl | (exfalso; omega)

/-! ## Fields taken back -/

theorem width_code (w : Width) : Width.ofCode w.code = some w := by cases w <;> rfl
theorem scope_code (s : Scope) : Scope.ofCode s.code = some s := by cases s <;> rfl
theorem order_code (o : Order) : Order.ofCode o.code = o := by cases o <;> rfl
theorem elem_code (t : ElemType) : ElemType.ofCode t.code = some t := by cases t <;> rfl
theorem red_code (o : RedOp) : RedOp.ofCode o.code = some o := by cases o <;> rfl
theorem tileFn_code (f : TileFn) : TileFn.ofCode f.code = some f := by cases f <;> rfl
theorem mxHalf_code (h : MxHalf) : MxHalf.ofCode h.code = some h := by cases h <;> rfl
theorem flag_code (f : FlagSel) : flagOfCode (flagCode f) = .ok f := by
  match f with
  | none => rfl
  | some ⟨0, _⟩ | some ⟨1, _⟩ | some ⟨2, _⟩ | some ⟨3, _⟩ | some ⟨4, _⟩ | some ⟨5, _⟩ | some ⟨6, _⟩ | some ⟨7, _⟩
  | some ⟨8, _⟩ | some ⟨9, _⟩ | some ⟨10, _⟩ | some ⟨11, _⟩ => rfl

theorem ctl_encode (k : CtlKind) (c : Ctl) (h : k.admits c = true) : decodeCtl k c.encode = .ok c := by
  have hw : c.encode.extractLsb' 5 3 = c.width.code := by obtain ⟨w, s, o⟩ := c; cases w <;> cases s <;> cases o <;> rfl
  have hs : c.encode.extractLsb' 2 3 = c.scope.code := by obtain ⟨w, s, o⟩ := c; cases w <;> cases s <;> cases o <;> rfl
  have ho : c.encode.extractLsb' 0 2 = c.order.code := by obtain ⟨w, s, o⟩ := c; cases w <;> cases s <;> cases o <;> rfl
  simp only [decodeCtl, hw, hs, ho, width_code, scope_code, order_code, h, if_true]

theorem mop_parts (cls : BitVec 4) (x : BitVec 3) : (cls ++ x ++ 0#1).extractLsb' 0 1 = 0 ∧
    (cls ++ x ++ 0#1).extractLsb' 1 3 = x ∧ (cls ++ x ++ 0#1).extractLsb' 4 4 = cls := by
  refine ⟨?_, ?_, ?_⟩ <;>
  · ext i hi
    simp only [BitVec.getElem_extractLsb', BitVec.getLsbD_append]
    rcases (by omega : i = 0 ∨ i = 1 ∨ i = 2 ∨ i = 3) with rfl | rfl | rfl | rfl <;> first | rfl | omega | simp

theorem mop_encode (cls : BitVec 4) (s : Scope) : decodeMop (cls ++ s.code ++ 0#1) = .ok (cls, s) := by
  obtain ⟨h0, h1, h4⟩ := mop_parts cls s.code
  simp [decodeMop, h0, h1, h4, scope_code]

/-- A field below `k` zero bits. -/
theorem low_field {k n : Nat} (x : BitVec n) : (0#k ++ x).extractLsb' 0 n = x := by
  ext i hi
  simp [BitVec.getElem_extractLsb', BitVec.getLsbD_append, hi]

theorem high_zero {k n : Nat} (x : BitVec n) : (0#k ++ x).extractLsb' n k = 0 := by
  ext i hi
  simp [BitVec.getElem_extractLsb', BitVec.getLsbD_append]

theorem nibble_high (x y : BitVec 4) : (x ++ y).extractLsb' 4 4 = x := by
  ext i hi
  simp only [BitVec.getElem_extractLsb', BitVec.getLsbD_append]
  rcases (by omega : i = 0 ∨ i = 1 ∨ i = 2 ∨ i = 3) with rfl | rfl | rfl | rfl <;> rfl

theorem nibble_low (x y : BitVec 4) : (x ++ y).extractLsb' 0 4 = y := by
  ext i hi
  simp only [BitVec.getElem_extractLsb', BitVec.getLsbD_append]
  rcases (by omega : i = 0 ∨ i = 1 ∨ i = 2 ∨ i = 3) with rfl | rfl | rfl | rfl <;> rfl

/-! ## Words put together again -/

theorem pack_bytes (w : Word) : pack (w.extractLsb' 24 8) (w.extractLsb' 16 8) (w.extractLsb' 8 8) (w.extractLsb' 0 8) = w := by
  apply BitVec.eq_of_toNat_eq
  have := w.isLt
  simp only [pack, BitVec.toNat_append, BitVec.extractLsb'_toNat, Nat.shiftRight_eq_div_pow, Nat.shiftLeft_eq]
  have or_eq (x y : Nat) (h : y < 2 ^ 8) : x * 2 ^ 8 ||| y = x * 2 ^ 8 + y := by
    rw [Nat.mul_comm, Nat.two_pow_add_eq_or_of_lt h]
  rw [or_eq _ _ (by omega), or_eq _ _ (by omega), or_eq _ _ (by omega)]
  omega

/-- An opcode in 0xF0 to 0xFF is a clause header. -/
theorem decodeFields_header (op d a b : Byte) (h : op.toNat / 16 = 15) : decodeFields op d a b = decodeHeader (pack op d a b) := by
  unfold decodeFields
  rw [h]
  rfl

/-- The fields of a clause header. -/
theorem header_parts (wait : BitVec 12) (x y len : BitVec 4) :
    let w : Word := 0xF#4 ++ wait ++ x ++ y ++ len ++ 0#4
    w.extractLsb' 0 4 = 0 ∧ w.extractLsb' 12 4 = x ∧ w.extractLsb' 8 4 = y ∧ w.extractLsb' 16 12 = wait ∧
      w.extractLsb' 4 4 = len ∧ (w.extractLsb' 24 8).extractLsb' 4 4 = 0xF := by
  refine ⟨?_, ?_, ?_, ?_, ?_, ?_⟩ <;>
  · ext i hi
    simp only [BitVec.getElem_extractLsb', BitVec.getLsbD_extractLsb', BitVec.getLsbD_append]
    rcases (by omega : i = 0 ∨ i = 1 ∨ i = 2 ∨ i = 3 ∨ i = 4 ∨ i = 5 ∨ i = 6 ∨ i = 7 ∨ i = 8 ∨ i = 9 ∨ i = 10 ∨ i = 11) with
      rfl | rfl | rfl | rfl | rfl | rfl | rfl | rfl | rfl | rfl | rfl | rfl <;> first | rfl | omega | simp

/-- The opcodes that no table assigns. -/
theorem decodeFields_op (op d a b : Byte) (h : unassignedOp op.toNat = true) : decodeFields op d a b = unassigned op d a b := by
  have eq (n : Nat) (e : op.toNat = n) : op = BitVec.ofNat 8 n := BitVec.eq_of_toNat_eq (by
    have := op.isLt
    simp only [BitVec.toNat_ofNat]; omega)
  simp only [unassignedOp, Bool.or_eq_true, Bool.and_eq_true, decide_eq_true_eq] at h
  rcases h with ((((((((((((h | h) | h) | h) | h) | h) | h) | h) | h) | h) | h) | h) | h) | h
  · rcases (by omega : op.toNat = 0x15 ∨ op.toNat = 0x16 ∨ op.toNat = 0x17) with h | h | h <;> rw [eq _ h] <;> rfl
  · rcases (by omega : op.toNat = 0x24 ∨ op.toNat = 0x25 ∨ op.toNat = 0x26 ∨ op.toNat = 0x27 ∨ op.toNat = 0x28 ∨
      op.toNat = 0x29 ∨ op.toNat = 0x2A ∨ op.toNat = 0x2B ∨ op.toNat = 0x2C ∨ op.toNat = 0x2D ∨ op.toNat = 0x2E ∨
      op.toNat = 0x2F) with h | h | h | h | h | h | h | h | h | h | h | h <;> rw [eq _ h] <;> rfl
  · rcases (by omega : op.toNat = 0x33 ∨ op.toNat = 0x34 ∨ op.toNat = 0x35 ∨ op.toNat = 0x36 ∨ op.toNat = 0x37 ∨
      op.toNat = 0x38 ∨ op.toNat = 0x39 ∨ op.toNat = 0x3A ∨ op.toNat = 0x3B ∨ op.toNat = 0x3C ∨ op.toNat = 0x3D ∨
      op.toNat = 0x3E ∨ op.toNat = 0x3F) with h | h | h | h | h | h | h | h | h | h | h | h | h <;> rw [eq _ h] <;> rfl
  · rcases (by omega : op.toNat = 0x55 ∨ op.toNat = 0x56 ∨ op.toNat = 0x57) with h | h | h <;> rw [eq _ h] <;> rfl
  · rcases (by omega : op.toNat = 0x5C ∨ op.toNat = 0x5D ∨ op.toNat = 0x5E ∨ op.toNat = 0x5F ∨ op.toNat = 0x60 ∨
      op.toNat = 0x61) with h | h | h | h | h | h <;> rw [eq _ h] <;> rfl
  · rcases (by omega : op.toNat = 0x64 ∨ op.toNat = 0x65 ∨ op.toNat = 0x66 ∨ op.toNat = 0x67 ∨ op.toNat = 0x68 ∨
      op.toNat = 0x69 ∨ op.toNat = 0x6A ∨ op.toNat = 0x6B ∨ op.toNat = 0x6C ∨ op.toNat = 0x6D ∨ op.toNat = 0x6E ∨
      op.toNat = 0x6F) with h | h | h | h | h | h | h | h | h | h | h | h <;> rw [eq _ h] <;> rfl
  · rcases (by omega : op.toNat = 0x73 ∨ op.toNat = 0x74 ∨ op.toNat = 0x75 ∨ op.toNat = 0x76 ∨ op.toNat = 0x77 ∨
      op.toNat = 0x78 ∨ op.toNat = 0x79 ∨ op.toNat = 0x7A ∨ op.toNat = 0x7B ∨ op.toNat = 0x7C ∨ op.toNat = 0x7D ∨
      op.toNat = 0x7E ∨ op.toNat = 0x7F) with h | h | h | h | h | h | h | h | h | h | h | h | h <;> rw [eq _ h] <;> rfl
  · rcases (by omega : op.toNat = 0xAD ∨ op.toNat = 0xAE ∨ op.toNat = 0xAF) with h | h | h <;> rw [eq _ h] <;> rfl
  all_goals try (rw [eq _ h]; rfl)
  · rcases (by omega : op.toNat = 0xE8 ∨ op.toNat = 0xE9 ∨ op.toNat = 0xEA ∨ op.toNat = 0xEB ∨ op.toNat = 0xEC ∨
      op.toNat = 0xED ∨ op.toNat = 0xEE ∨ op.toNat = 0xEF) with h | h | h | h | h | h | h | h <;> rw [eq _ h] <;> rfl

theorem red_none (x : BitVec 4) (h : 9 ≤ x.toNat) : RedOp.ofCode x = none := by
  unfold RedOp.ofCode
  split <;> first | rfl | omega

/-- The sub values that no table assigns. -/
theorem decodeFields_sub (op d a b : Byte) (h : unassignedSub op.toNat b.toNat = true) :
    decodeFields op d a b = unassigned op d a b := by
  have eq (n : Nat) (e : op.toNat = n) : op = BitVec.ofNat 8 n := BitVec.eq_of_toNat_eq (by
    have := op.isLt
    simp only [BitVec.toNat_ofNat]; omega)
  have hb := b.isLt
  have hi : (b.extractLsb' 4 4).toNat = b.toNat / 16 := by
    simp only [BitVec.extractLsb'_toNat, Nat.shiftRight_eq_div_pow]; omega
  have lo : (b.extractLsb' 0 4).toNat = b.toNat % 16 := by
    simp only [BitVec.extractLsb'_toNat, Nat.shiftRight_eq_div_pow]; omega
  simp only [unassignedSub, Bool.or_eq_true, Bool.and_eq_true, decide_eq_true_eq] at h
  rcases h with (((((⟨h | h, h2⟩ | ⟨h, h2⟩) | ⟨h, h2⟩) | ⟨⟨h, h2⟩, h3⟩) | ⟨h, h2⟩) | ⟨h, h2⟩)
  · rw [eq _ h]
    show (match b.toNat with
      | 0x00 => _ | 0x01 => _ | 0x02 => _ | 0x03 => _ | 0x04 => _ | 0x05 => _ | _ => _) = _
    generalize b.toNat = n at h2
    obtain ⟨k, rfl⟩ : ∃ k, n = k + 6 := ⟨n - 6, by omega⟩
    rfl
  · rw [eq _ h]
    show (match b.toNat with
      | 0x00 => _ | 0x01 => _ | 0x02 => _ | 0x03 => _ | 0x04 => _ | 0x05 => _ | _ => _) = _
    generalize b.toNat = n at h2
    obtain ⟨k, rfl⟩ : ∃ k, n = k + 6 := ⟨n - 6, by omega⟩
    rfl
  · rw [eq _ h]
    show (match b.toNat with
      | 0x00 => _ | 0x01 => _ | 0x02 => _ | 0x03 => _ | 0x04 => _ | 0x05 => _ | 0x06 => _ | 0x07 => _ | 0x08 => _ | _ => _) = _
    generalize b.toNat = n at h2
    obtain ⟨k, rfl⟩ : ∃ k, n = k + 9 := ⟨n - 9, by omega⟩
    rfl
  · rw [eq _ h]
    show (if b.extractLsb' 4 4 ≠ 0 then unassigned 0xE3 d a b else match RedOp.ofCode (b.extractLsb' 0 4) with
      | some o => .ok (.reduce d a o) | none => unassigned 0xE3 d a b) = _
    by_cases hz : b.extractLsb' 4 4 = 0
    · have := congrArg BitVec.toNat hz
      rw [hi, show (0 : BitVec 4).toNat = 0 from rfl] at this
      rw [red_none _ (by omega)]
      rw [if_neg (by simp [hz])]
      rfl
    · rw [if_pos hz]; rfl
  · rw [eq _ h]
    show decodeScan d a b = _
    unfold decodeScan
    have hz : b.extractLsb' 4 3 = 0 := BitVec.eq_of_toNat_eq (by
      rw [show (0 : BitVec 3).toNat = 0 from rfl]
      simp only [BitVec.extractLsb'_toNat, Nat.shiftRight_eq_div_pow]; omega)
    rw [red_none _ (by omega), if_neg (by simp [hz])]
    rfl
  · rw [eq _ h]
    show (match (b.extractLsb' 4 4).toNat with
      | 0 => _ | 4 => _ | 8 => _ | n => if n / 4 = 3 then unassigned 0xE5 d a b else .error .nonzeroField) = _
    rw [hi]
    have h4 : b.toNat / 16 / 4 = 3 := by omega
    generalize b.toNat / 16 = n at h4
    obtain ⟨k, rfl⟩ : ∃ k, n = k + 9 := ⟨n - 9, by omega⟩
    show (if (k + 9) / 4 = 3 then unassigned 0xE5 d a b else .error .nonzeroField) = _
    rw [if_pos h4]
    rfl
  · rw [eq _ h]
    show (match b.toNat with
      | 0x00 => _ | 0x01 => _ | 0x02 => _ | 0x03 => _ | _ => _) = _
    generalize b.toNat = n at h2
    obtain ⟨k, rfl⟩ : ∃ k, n = k + 4 := ⟨n - 4, by omega⟩
    rfl

namespace Laws.RoundTrip

/-- Decoding the encoding of a well-formed instruction gives it back. -/
def Statement (i : Instr) : Prop := ∀ w, i.wellFormed = true → encode i = some w → decode w = .ok i

theorem of_pack {i : Instr} {op d a b : Byte} (he : encode i = some (pack op d a b))
    (hd : i.wellFormed = true → decodeFields op d a b = .ok i) : Statement i := by
  intro w hw h
  rw [he] at h
  cases h
  rw [decode_pack, hd hw]

theorem of_pack16 {i : Instr} {op d : Byte} {x : BitVec 16} (he : encode i = some (pack16 op d x))
    (hd : ∀ a b : Byte, a ++ b = x → decodeFields op d a b = .ok i) : Statement i := by
  intro w _ h
  rw [he] at h
  cases h
  rw [pack16_eq, decode_pack, hd _ _ (split16 x)]

theorem of_ctl {mk : Ctl → Instr} {k : CtlKind} {op d a : Byte} {c : Ctl}
    (he : encode (mk c) = some (pack op d a c.encode)) (hw : (mk c).wellFormed = k.admits c)
    (hd : ∀ b, decodeFields op d a b = (decodeCtl k b).map mk) : Statement (mk c) :=
  of_pack he fun h => by rw [hd, ctl_encode k c (hw ▸ h)]; rfl

theorem of_none {i : Instr} (he : encode i = none) : Statement i := by
  intro w _ h
  rw [he] at h
  cases h

/-- The spore fields. -/
theorem high3 (k : BitVec 3) : (0#5 ++ k).extractLsb' 3 5 = 0 := high_zero k
theorem low3 (k : BitVec 3) : (0#5 ++ k).extractLsb' 0 3 = k := low_field k

theorem add (d a b : Reg) : Statement (.add d a b) := of_pack rfl fun _ => rfl
theorem addS (d a b : Reg) : Statement (.addS d a b) := of_pack rfl fun _ => rfl
theorem sub (d a b : Reg) : Statement (.sub d a b) := of_pack rfl fun _ => rfl
theorem subS (d a b : Reg) : Statement (.subS d a b) := of_pack rfl fun _ => rfl
theorem mul (d a b : Reg) : Statement (.mul d a b) := of_pack rfl fun _ => rfl
theorem mulS (d a b : Reg) : Statement (.mulS d a b) := of_pack rfl fun _ => rfl
theorem mulhi (d a b : Reg) : Statement (.mulhi d a b) := of_pack rfl fun _ => rfl
theorem mulhiS (d a b : Reg) : Statement (.mulhiS d a b) := of_pack rfl fun _ => rfl
theorem madlo (d a b : Reg) : Statement (.madlo d a b) := of_pack rfl fun _ => rfl
theorem madloS (d a b : Reg) : Statement (.madloS d a b) := of_pack rfl fun _ => rfl
theorem min (d a b : Reg) : Statement (.min d a b) := of_pack rfl fun _ => rfl
theorem minS (d a b : Reg) : Statement (.minS d a b) := of_pack rfl fun _ => rfl
theorem max (d a b : Reg) : Statement (.max d a b) := of_pack rfl fun _ => rfl
theorem maxS (d a b : Reg) : Statement (.maxS d a b) := of_pack rfl fun _ => rfl
theorem and (d a b : Reg) : Statement (.and d a b) := of_pack rfl fun _ => rfl
theorem andS (d a b : Reg) : Statement (.andS d a b) := of_pack rfl fun _ => rfl
theorem or (d a b : Reg) : Statement (.or d a b) := of_pack rfl fun _ => rfl
theorem orS (d a b : Reg) : Statement (.orS d a b) := of_pack rfl fun _ => rfl
theorem xor (d a b : Reg) : Statement (.xor d a b) := of_pack rfl fun _ => rfl
theorem xorS (d a b : Reg) : Statement (.xorS d a b) := of_pack rfl fun _ => rfl
theorem shl (d a b : Reg) : Statement (.shl d a b) := of_pack rfl fun _ => rfl
theorem shlS (d a b : Reg) : Statement (.shlS d a b) := of_pack rfl fun _ => rfl
theorem shr (d a b : Reg) : Statement (.shr d a b) := of_pack rfl fun _ => rfl
theorem shrS (d a b : Reg) : Statement (.shrS d a b) := of_pack rfl fun _ => rfl
theorem sha (d a b : Reg) : Statement (.sha d a b) := of_pack rfl fun _ => rfl
theorem shaS (d a b : Reg) : Statement (.shaS d a b) := of_pack rfl fun _ => rfl
theorem rol (d a b : Reg) : Statement (.rol d a b) := of_pack rfl fun _ => rfl
theorem rolS (d a b : Reg) : Statement (.rolS d a b) := of_pack rfl fun _ => rfl
theorem cmpEq (d a b : Reg) : Statement (.cmpEq d a b) := of_pack rfl fun _ => rfl
theorem cmpEqS (d a b : Reg) : Statement (.cmpEqS d a b) := of_pack rfl fun _ => rfl
theorem cmpNe (d a b : Reg) : Statement (.cmpNe d a b) := of_pack rfl fun _ => rfl
theorem cmpNeS (d a b : Reg) : Statement (.cmpNeS d a b) := of_pack rfl fun _ => rfl
theorem cmpLt (d a b : Reg) : Statement (.cmpLt d a b) := of_pack rfl fun _ => rfl
theorem cmpLtS (d a b : Reg) : Statement (.cmpLtS d a b) := of_pack rfl fun _ => rfl
theorem cmpLe (d a b : Reg) : Statement (.cmpLe d a b) := of_pack rfl fun _ => rfl
theorem cmpLeS (d a b : Reg) : Statement (.cmpLeS d a b) := of_pack rfl fun _ => rfl
theorem sel (d a b : Reg) : Statement (.sel d a b) := of_pack rfl fun _ => rfl
theorem selS (d a b : Reg) : Statement (.selS d a b) := of_pack rfl fun _ => rfl
theorem bfx (d a b : Reg) : Statement (.bfx d a b) := of_pack rfl fun _ => rfl
theorem bfxS (d a b : Reg) : Statement (.bfxS d a b) := of_pack rfl fun _ => rfl
theorem bfi (d a b : Reg) : Statement (.bfi d a b) := of_pack rfl fun _ => rfl
theorem bfiS (d a b : Reg) : Statement (.bfiS d a b) := of_pack rfl fun _ => rfl
theorem fadd (d a b : Reg) : Statement (.fadd d a b) := of_pack rfl fun _ => rfl
theorem faddS (d a b : Reg) : Statement (.faddS d a b) := of_pack rfl fun _ => rfl
theorem fsub (d a b : Reg) : Statement (.fsub d a b) := of_pack rfl fun _ => rfl
theorem fsubS (d a b : Reg) : Statement (.fsubS d a b) := of_pack rfl fun _ => rfl
theorem fmul (d a b : Reg) : Statement (.fmul d a b) := of_pack rfl fun _ => rfl
theorem fmulS (d a b : Reg) : Statement (.fmulS d a b) := of_pack rfl fun _ => rfl
theorem fma (d a b : Reg) : Statement (.fma d a b) := of_pack rfl fun _ => rfl
theorem fmaS (d a b : Reg) : Statement (.fmaS d a b) := of_pack rfl fun _ => rfl
theorem fmin (d a b : Reg) : Statement (.fmin d a b) := of_pack rfl fun _ => rfl
theorem fmax (d a b : Reg) : Statement (.fmax d a b) := of_pack rfl fun _ => rfl
theorem fcmpEq (d a b : Reg) : Statement (.fcmpEq d a b) := of_pack rfl fun _ => rfl
theorem fcmpLt (d a b : Reg) : Statement (.fcmpLt d a b) := of_pack rfl fun _ => rfl
theorem fcmpLe (d a b : Reg) : Statement (.fcmpLe d a b) := of_pack rfl fun _ => rfl
theorem fcmpUn (d a b : Reg) : Statement (.fcmpUn d a b) := of_pack rfl fun _ => rfl
theorem mov (d a : Reg) : Statement (.mov d a) := of_pack rfl fun _ => rfl
theorem movS (d a : Reg) : Statement (.movS d a) := of_pack rfl fun _ => rfl
theorem movp (d a : Reg) : Statement (.movp d a) := of_pack rfl fun _ => rfl
theorem movpS (d a : Reg) : Statement (.movpS d a) := of_pack rfl fun _ => rfl
theorem movi (d : Reg) (imm : BitVec 16) : Statement (.movi d imm) :=
  of_pack16 rfl fun a b h => by subst h; rfl
theorem moviS (d : Reg) (imm : BitVec 16) : Statement (.moviS d imm) :=
  of_pack16 rfl fun a b h => by subst h; rfl
theorem movhi (d : Reg) (imm : BitVec 16) : Statement (.movhi d imm) :=
  of_pack16 rfl fun a b h => by subst h; rfl
theorem movhiS (d : Reg) (imm : BitVec 16) : Statement (.movhiS d imm) :=
  of_pack16 rfl fun a b h => by subst h; rfl
theorem addi (d : Reg) (imm : BitVec 16) : Statement (.addi d imm) :=
  of_pack16 rfl fun a b h => by subst h; rfl
theorem addiS (d : Reg) (imm : BitVec 16) : Statement (.addiS d imm) :=
  of_pack16 rfl fun a b h => by subst h; rfl
theorem bra (off : BitVec 16) : Statement (.bra off) :=
  of_pack16 rfl fun a b h => by subst h; rfl
theorem brc (c : Reg) (off : BitVec 16) : Statement (.brc c off) :=
  of_pack16 rfl fun a b h => by subst h; rfl
theorem brv (c : Reg) (off : BitVec 16) : Statement (.brv c off) :=
  of_pack16 rfl fun a b h => by subst h; rfl
theorem call (c : Reg) (off : BitVec 16) : Statement (.call c off) :=
  of_pack16 rfl fun a b h => by subst h; rfl
theorem ret (a : Reg) : Statement (.ret a) := of_pack rfl fun _ => rfl
theorem jmpr (a : Reg) : Statement (.jmpr a) := of_pack rfl fun _ => rfl
theorem modeT (imm : BitVec 9) : Statement (.modeT imm) :=
  of_pack16 rfl fun a b h => by
    show decodeMode 0 (a ++ b) = _
    rw [h]
    have h1 : (0#7 ++ imm).extractLsb' 9 7 = 0 := high_zero imm
    have h2 : (0#7 ++ imm).extractLsb' 0 9 = imm := low_field imm
    unfold decodeMode
    simp [h1, h2]
theorem modeG (imm : BitVec 10) : Statement (.modeG imm) :=
  of_pack16 rfl fun a b h => by
    show decodeMode 1 (a ++ b) = _
    rw [h]
    have h1 : (0#6 ++ imm).extractLsb' 10 6 = 0 := high_zero imm
    have h2 : (0#6 ++ imm).extractLsb' 0 10 = imm := low_field imm
    unfold decodeMode
    simp [h1, h2]
theorem mxmode (half : MxHalf) (imm : BitVec 16) : Statement (.mxmode half imm) :=
  of_pack16 rfl fun a b h => by subst h; cases half <;> rfl
theorem waitf (mask : BitVec 12) : Statement (.waitf mask) :=
  of_pack16 rfl fun a b h => by
    have h1 : a.extractLsb' 4 4 = 0 := by
      have : (a ++ b).extractLsb' 12 4 = 0 := by rw [h]; exact high_zero mask
      rw [← this]; ext i hi
      simp only [BitVec.getElem_extractLsb', BitVec.getLsbD_append]
      rw [if_neg (by omega)]; congr 1; omega
    have h2 : a.extractLsb' 0 4 ++ b = mask := by
      rw [← low_field (k := 4) mask, ← h]
      ext i hi
      simp only [BitVec.getElem_append, BitVec.getElem_extractLsb', BitVec.getLsbD_append]
      by_cases hb : i < 8 <;> simp [hb]
    show (if (0 : Byte) ≠ 0 ∨ a.extractLsb' 4 4 ≠ 0 then _ else _) = _
    rw [h1, h2]
    rfl
theorem trap (imm : BitVec 16) : Statement (.trap imm) :=
  of_pack16 rfl fun a b h => by subst h; rfl
theorem brk (imm : BitVec 16) : Statement (.brk imm) :=
  of_pack16 rfl fun a b h => by subst h; rfl
theorem ld (d : Reg) (a : Reg) (ctl : Ctl) : Statement (.ld d a ctl) :=
  of_ctl (mk := .ld d a) (k := .load) rfl rfl fun _ => rfl
theorem ldb (d : Reg) (a : Reg) (ctl : Ctl) : Statement (.ldb d a ctl) :=
  of_ctl (mk := .ldb d a) (k := .load) rfl rfl fun _ => rfl
theorem st (d : Reg) (a : Reg) (ctl : Ctl) : Statement (.st d a ctl) :=
  of_ctl (mk := .st d a) (k := .store) rfl rfl fun _ => rfl
theorem lds (d : Reg) (a : Reg) (ctl : Ctl) : Statement (.lds d a ctl) :=
  of_ctl (mk := .lds d a) (k := .scratchLoad) rfl rfl fun _ => rfl
theorem sts (d : Reg) (a : Reg) (ctl : Ctl) : Statement (.sts d a ctl) :=
  of_ctl (mk := .sts d a) (k := .scratchStore) rfl rfl fun _ => rfl
theorem atomAdd (d : Reg) (a : Reg) (ctl : Ctl) : Statement (.atomAdd d a ctl) :=
  of_ctl (mk := .atomAdd d a) (k := .atomic) rfl rfl fun _ => rfl
theorem atomMin (d : Reg) (a : Reg) (ctl : Ctl) : Statement (.atomMin d a ctl) :=
  of_ctl (mk := .atomMin d a) (k := .atomic) rfl rfl fun _ => rfl
theorem atomMax (d : Reg) (a : Reg) (ctl : Ctl) : Statement (.atomMax d a ctl) :=
  of_ctl (mk := .atomMax d a) (k := .atomic) rfl rfl fun _ => rfl
theorem atomAnd (d : Reg) (a : Reg) (ctl : Ctl) : Statement (.atomAnd d a ctl) :=
  of_ctl (mk := .atomAnd d a) (k := .atomic) rfl rfl fun _ => rfl
theorem atomOr (d : Reg) (a : Reg) (ctl : Ctl) : Statement (.atomOr d a ctl) :=
  of_ctl (mk := .atomOr d a) (k := .atomic) rfl rfl fun _ => rfl
theorem atomXor (d : Reg) (a : Reg) (ctl : Ctl) : Statement (.atomXor d a ctl) :=
  of_ctl (mk := .atomXor d a) (k := .atomic) rfl rfl fun _ => rfl
theorem atomXchg (d : Reg) (a : Reg) (ctl : Ctl) : Statement (.atomXchg d a ctl) :=
  of_ctl (mk := .atomXchg d a) (k := .atomic) rfl rfl fun _ => rfl
theorem atomnAdd (d : Reg) (a : Reg) (ctl : Ctl) : Statement (.atomnAdd d a ctl) :=
  of_ctl (mk := .atomnAdd d a) (k := .atomicNoReturn) rfl rfl fun _ => rfl
theorem atomnMin (d : Reg) (a : Reg) (ctl : Ctl) : Statement (.atomnMin d a ctl) :=
  of_ctl (mk := .atomnMin d a) (k := .atomicNoReturn) rfl rfl fun _ => rfl
theorem atomnMax (d : Reg) (a : Reg) (ctl : Ctl) : Statement (.atomnMax d a ctl) :=
  of_ctl (mk := .atomnMax d a) (k := .atomicNoReturn) rfl rfl fun _ => rfl
theorem atomnAnd (d : Reg) (a : Reg) (ctl : Ctl) : Statement (.atomnAnd d a ctl) :=
  of_ctl (mk := .atomnAnd d a) (k := .atomicNoReturn) rfl rfl fun _ => rfl
theorem atomnOr (d : Reg) (a : Reg) (ctl : Ctl) : Statement (.atomnOr d a ctl) :=
  of_ctl (mk := .atomnOr d a) (k := .atomicNoReturn) rfl rfl fun _ => rfl
theorem atomnXor (d : Reg) (a : Reg) (ctl : Ctl) : Statement (.atomnXor d a ctl) :=
  of_ctl (mk := .atomnXor d a) (k := .atomicNoReturn) rfl rfl fun _ => rfl
theorem cas (d : Reg) (a : Reg) (ctl : Ctl) : Statement (.cas d a ctl) :=
  of_ctl (mk := .cas d a) (k := .atomic) rfl rfl fun _ => rfl
theorem mop (d a : Reg) (cls : BitVec 4) (sc : Scope) : Statement (.mop d a cls sc) :=
  of_pack rfl fun _ => by
    show (decodeMop _).map _ = _
    rw [mop_encode]
    rfl
theorem mopr (d a : Reg) (cls : BitVec 4) (sc : Scope) : Statement (.mopr d a cls sc) :=
  of_pack rfl fun _ => by
    show (decodeMop _).map _ = _
    rw [mop_encode]
    rfl
theorem fence (sc : Scope) (od : Order) : Statement (.fence sc od) :=
  of_pack rfl fun h => by cases od <;> cases sc <;> first | rfl | (exact absurd h (by decide))
theorem clean (a b : Reg) : Statement (.clean a b) := of_pack rfl fun _ => rfl
theorem inval (a b : Reg) : Statement (.inval a b) := of_pack rfl fun _ => rfl
theorem discard (a b : Reg) : Statement (.discard a b) := of_pack rfl fun _ => rfl
theorem pref (a b : Reg) : Statement (.pref a b) := of_pack rfl fun _ => rfl
theorem aszload (a b : Reg) : Statement (.aszload a b) := of_pack rfl fun _ => rfl
theorem monitor (a : Reg) : Statement (.monitor a) := of_pack rfl fun _ => rfl
theorem mwait (a : Reg) : Statement (.mwait a) := of_pack rfl fun _ => rfl
theorem shflIdx (d a b : Reg) : Statement (.shflIdx d a b) := of_pack rfl fun _ => rfl
theorem shflXor (d a b : Reg) : Statement (.shflXor d a b) := of_pack rfl fun _ => rfl
theorem shflUp (d a b : Reg) : Statement (.shflUp d a b) := of_pack rfl fun _ => rfl
theorem shflDn (d a b : Reg) : Statement (.shflDn d a b) := of_pack rfl fun _ => rfl
theorem bcast (d a b : Reg) : Statement (.bcast d a b) := of_pack rfl fun _ => rfl
theorem vote (d a : Reg) : Statement (.vote d a) := of_pack rfl fun _ => rfl
theorem elect (d : Reg) : Statement (.elect d) := of_pack rfl fun _ => rfl
theorem cvt (d a : Reg) (src : ElemType) : Statement (.cvt d a src) :=
  of_pack rfl fun _ => by cases src <;> rfl
theorem rnenc (d a : Reg) : Statement (.rnenc d a) := of_pack rfl fun _ => rfl
theorem rndec (d a : Reg) : Statement (.rndec d a) := of_pack rfl fun _ => rfl
theorem getx (d : Reg) : Statement (.getx d) := of_pack rfl fun _ => rfl
theorem setx (a : Reg) : Statement (.setx a) := of_pack rfl fun _ => rfl
theorem rdsr (d : Reg) (num : BitVec 8) : Statement (.rdsr d num) := of_pack rfl fun _ => rfl
theorem wrsr (a : Reg) (num : BitVec 8) : Statement (.wrsr a num) := of_pack rfl fun _ => rfl
theorem mma (d a b : Reg) : Statement (.mma d a b) := of_pack rfl fun _ => rfl
theorem mmar (d a b : Reg) : Statement (.mmar d a b) := of_pack rfl fun _ => rfl
theorem tdesc (d a : Reg) : Statement (.tdesc d a) := of_pack rfl fun _ => rfl
theorem tmul (d a b : Reg) : Statement (.tmul d a b) := of_pack rfl fun _ => rfl
theorem tadd (d a b : Reg) : Statement (.tadd d a b) := of_pack rfl fun _ => rfl
theorem tmap (d a : Reg) (fn : TileFn) : Statement (.tmap d a fn) :=
  of_pack rfl fun _ => by cases fn <;> rfl
theorem tscl (d a b : Reg) : Statement (.tscl d a b) := of_pack rfl fun _ => rfl
theorem ttrn (d a : Reg) : Statement (.ttrn d a) := of_pack rfl fun _ => rfl
theorem tslc (d a b : Reg) : Statement (.tslc d a b) := of_pack rfl fun _ => rfl
theorem tbcast (d a b : Reg) : Statement (.tbcast d a b) := of_pack rfl fun _ => rfl
theorem tred (d a : Reg) (col : Bool) (op : TileRed) : Statement (.tred d a col op) :=
  of_pack rfl fun _ => by cases col <;> cases op <;> rfl
theorem tstore (a b c : Reg) : Statement (.tstore a b c) := of_pack rfl fun _ => rfl
theorem tforce (a : Reg) : Statement (.tforce a) := of_pack rfl fun _ => rfl
theorem tdrop (a : Reg) : Statement (.tdrop a) := of_pack rfl fun _ => rfl
theorem spseed (k : BitVec 3) (a b : Reg) : Statement (.spseed k a b) :=
  of_pack rfl fun _ => by
    simp [decodeFields, decodeD, high3, low3]
theorem spnext (k : BitVec 3) : Statement (.spnext k) :=
  of_pack rfl fun _ => by
    simp [decodeFields, decodeD, high3, low3]
theorem splt (d : Reg) (k : BitVec 3) (b : Reg) : Statement (.splt d k b) :=
  of_pack rfl fun _ => by
    simp [decodeFields, decodeD, high3, low3]
theorem spcmp (d : Reg) (k k' : BitVec 3) : Statement (.spcmp d k k') :=
  of_pack rfl fun _ => by
    simp [decodeFields, decodeD, high3, low3]
theorem spidx (d : Reg) (k : BitVec 3) (b : Reg) : Statement (.spidx d k b) :=
  of_pack rfl fun _ => by
    simp [decodeFields, decodeD, high3, low3]
theorem spval (d : Reg) (k : BitVec 3) : Statement (.spval d k) :=
  of_pack rfl fun _ => by
    simp [decodeFields, decodeD, high3, low3]
theorem splen (d : Reg) (k : BitVec 3) : Statement (.splen d k) :=
  of_pack rfl fun _ => by
    simp [decodeFields, decodeD, high3, low3]
theorem cpy (d a b : Reg) : Statement (.cpy d a b) := of_pack rfl fun _ => rfl
theorem cpclose (d : Reg) : Statement (.cpclose d) := of_pack rfl fun _ => rfl
theorem waitb (a : Reg) : Statement (.waitb a) := of_pack rfl fun _ => rfl
theorem bcinit (a b : Reg) : Statement (.bcinit a b) := of_pack rfl fun _ => rfl
theorem bcexp (a b : Reg) : Statement (.bcexp a b) := of_pack rfl fun _ => rfl
theorem bcarr (a b : Reg) : Statement (.bcarr a b) := of_pack rfl fun _ => rfl
theorem bcwait (a b : Reg) : Statement (.bcwait a b) := of_pack rfl fun _ => rfl
theorem amsg (d a b : Reg) : Statement (.amsg d a b) := of_pack rfl fun _ => rfl
theorem abs (d a : Reg) : Statement (.abs d a) := of_pack rfl fun _ => rfl
theorem absS (d a : Reg) : Statement (.absS d a) := of_pack rfl fun _ => rfl
theorem neg (d a : Reg) : Statement (.neg d a) := of_pack rfl fun _ => rfl
theorem negS (d a : Reg) : Statement (.negS d a) := of_pack rfl fun _ => rfl
theorem not (d a : Reg) : Statement (.not d a) := of_pack rfl fun _ => rfl
theorem notS (d a : Reg) : Statement (.notS d a) := of_pack rfl fun _ => rfl
theorem clz (d a : Reg) : Statement (.clz d a) := of_pack rfl fun _ => rfl
theorem clzS (d a : Reg) : Statement (.clzS d a) := of_pack rfl fun _ => rfl
theorem popc (d a : Reg) : Statement (.popc d a) := of_pack rfl fun _ => rfl
theorem popcS (d a : Reg) : Statement (.popcS d a) := of_pack rfl fun _ => rfl
theorem brev (d a : Reg) : Statement (.brev d a) := of_pack rfl fun _ => rfl
theorem brevS (d a : Reg) : Statement (.brevS d a) := of_pack rfl fun _ => rfl
theorem frcp (d a : Reg) : Statement (.frcp d a) := of_pack rfl fun _ => rfl
theorem frsq (d a : Reg) : Statement (.frsq d a) := of_pack rfl fun _ => rfl
theorem fsqrt (d a : Reg) : Statement (.fsqrt d a) := of_pack rfl fun _ => rfl
theorem fex2 (d a : Reg) : Statement (.fex2 d a) := of_pack rfl fun _ => rfl
theorem flg2 (d a : Reg) : Statement (.flg2 d a) := of_pack rfl fun _ => rfl
theorem fsin (d a : Reg) : Statement (.fsin d a) := of_pack rfl fun _ => rfl
theorem fcos (d a : Reg) : Statement (.fcos d a) := of_pack rfl fun _ => rfl
theorem ftnh (d a : Reg) : Statement (.ftnh d a) := of_pack rfl fun _ => rfl
theorem fclass (d a : Reg) : Statement (.fclass d a) := of_pack rfl fun _ => rfl
theorem reduce (d a : Reg) (op : RedOp) : Statement (.reduce d a op) :=
  of_pack rfl fun _ => by cases op <;> rfl
theorem scan (d a : Reg) (excl : Bool) (op : RedOp) : Statement (.scan d a excl op) :=
  of_pack rfl fun _ => by cases excl <;> cases op <;> rfl
theorem chsend (a : Reg) (ch : BitVec 4) : Statement (.chsend a ch) :=
  of_pack rfl fun _ => by
    simp [decodeFields, decodeE, nibble_high, nibble_low]
theorem chrecv (d : Reg) (ch : BitVec 4) : Statement (.chrecv d ch) :=
  of_pack rfl fun _ => by
    simp [decodeFields, decodeE, nibble_high, nibble_low]
theorem chpoll (d : Reg) (ch : BitVec 4) : Statement (.chpoll d ch) :=
  of_pack rfl fun _ => by
    simp [decodeFields, decodeE, nibble_high, nibble_low]
theorem bar (a : Reg) (id : BitVec 4) : Statement (.bar a id) :=
  of_pack rfl fun _ => by
    simp [decodeFields, decodeE, nibble_high, nibble_low]
theorem barc (a : Reg) (id : BitVec 4) : Statement (.barc a id) :=
  of_pack rfl fun _ => by
    simp [decodeFields, decodeE, nibble_high, nibble_low]
theorem tspawn (d a : Reg) : Statement (.tspawn d a) := of_pack rfl fun _ => rfl
theorem tstat (d : Reg) : Statement (.tstat d) := of_pack rfl fun _ => rfl
theorem jcancel (a : Reg) : Statement (.jcancel a) := of_pack rfl fun _ => rfl
theorem clause (wait : BitVec 12) (flagA flagB : FlagSel) (len : BitVec 4) : Statement (.clause wait flagA flagB len) := by
  intro w _ h
  cases h
  obtain ⟨h1, h2, h3, h4, h5, h6⟩ := header_parts wait (flagCode flagA) (flagCode flagB) len
  generalize 0xF#4 ++ wait ++ flagCode flagA ++ flagCode flagB ++ len ++ 0#4 = w at *
  unfold decode
  rw [decodeFields_header, pack_bytes, decodeHeader, h1, h2, h3, flag_code, flag_code, h4, h5]
  · simp
  · have := congrArg BitVec.toNat h6
    rw [show (0xF : BitVec 4).toNat = 15 from rfl] at this
    simp only [BitVec.extractLsb'_toNat, Nat.shiftRight_eq_div_pow] at this ⊢
    omega
theorem loadLanding (op : Nat) : Statement (.loadLanding op) := of_none rfl
theorem atomReturn (op : Nat) : Statement (.atomReturn op) := of_none rfl
theorem moprReturn (op : Nat) : Statement (.moprReturn op) := of_none rfl
theorem sporeRevealLanding (op : Nat) : Statement (.sporeRevealLanding op) := of_none rfl
theorem storeAck (op : Nat) : Statement (.storeAck op) := of_none rfl
theorem sliceRead (req : Nat) (keeps : Nat) : Statement (.sliceRead req keeps) := of_none rfl
theorem sliceWrite (req : Nat) : Statement (.sliceWrite req) := of_none rfl
theorem sliceAtomic (req : Nat) : Statement (.sliceAtomic req) := of_none rfl
theorem sliceMopApply (addr : Nat) (step : MopStep) : Statement (.sliceMopApply addr step) := of_none rfl
theorem updateApply (upd core : Nat) : Statement (.updateApply upd core) := of_none rfl
theorem updateAck (upd station : Nat) : Statement (.updateAck upd station) := of_none rfl
theorem dropNotice (core unit : Nat) : Statement (.dropNotice core unit) := of_none rfl
theorem l1MissReplay (core : Nat) : Statement (.l1MissReplay core) := of_none rfl
theorem sliceIngressAdmit (slice : Nat) : Statement (.sliceIngressAdmit slice) := of_none rfl
theorem monitorRegistered (slot : Nat) : Statement (.monitorRegistered slot) := of_none rfl
theorem mtimeout (slot : Nat) : Statement (.mtimeout slot) := of_none rfl
theorem copyComplete (op : Nat) : Statement (.copyComplete op) := of_none rfl
theorem demandComplete (op : Nat) : Statement (.demandComplete op) := of_none rfl
theorem lateFault (op : Nat) : Statement (.lateFault op) := of_none rfl
theorem channelSlotFill (op : Nat) : Statement (.channelSlotFill op) := of_none rfl
theorem channelReceiveLand (op : Nat) : Statement (.channelReceiveLand op) := of_none rfl
theorem tinkerHandler (req : Nat) : Statement (.tinkerHandler req) := of_none rfl
theorem tinkerHandlerEnd (slice : Nat) : Statement (.tinkerHandlerEnd slice) := of_none rfl
theorem handlerInstructionLimit (slice : Nat) : Statement (.handlerInstructionLimit slice) := of_none rfl
theorem amsgReply (op : Nat) : Statement (.amsgReply op) := of_none rfl
theorem groupRetire (slot : Nat) : Statement (.groupRetire slot) := of_none rfl
theorem quantumExpiry (slot : Nat) : Statement (.quantumExpiry slot) := of_none rfl
theorem detCommit (launch : Nat) : Statement (.detCommit launch) := of_none rfl
theorem stail (stream : BitVec 6) (value : Word) : Statement (.stail stream value) := of_none rfl
theorem registerWrite (stream : BitVec 6) (offset : BitVec 16) (value : Word) : Statement (.registerWrite stream offset value) :=
  of_none rfl
theorem launch (cmd : Nat) : Statement (.launch cmd) := of_none rfl
theorem qbind (cmd : Nat) : Statement (.qbind cmd) := of_none rfl
theorem tlbinv (cmd : Nat) : Statement (.tlbinv cmd) := of_none rfl
theorem setways (cmd : Nat) : Statement (.setways cmd) := of_none rfl
theorem scrwaysChangeApply (core : Nat) : Statement (.scrwaysChangeApply core) := of_none rfl
theorem wait (cmd : Nat) : Statement (.wait cmd) := of_none rfl
theorem cancel (cmd : Nat) : Statement (.cancel cmd) := of_none rfl
theorem commandDependencyRelease (cmd : Nat) : Statement (.commandDependencyRelease cmd) := of_none rfl
theorem launchEnd (launch : Nat) : Statement (.launchEnd launch) := of_none rfl
theorem tinkerImageInstall (launch : Nat) : Statement (.tinkerImageInstall launch) := of_none rfl
theorem teamPlacement (launch : Nat) : Statement (.teamPlacement launch) := of_none rfl
theorem taskStart (core : Nat) : Statement (.taskStart core) := of_none rfl
theorem queueAppend (queue : Nat) : Statement (.queueAppend queue) := of_none rfl
theorem taskSuccessorStep (task : Nat) : Statement (.taskSuccessorStep task) := of_none rfl
theorem reresidenceTimeout (cluster : Nat) : Statement (.reresidenceTimeout cluster) := of_none rfl
theorem preemptRequest (cores : List Nat) : Statement (.preemptRequest cores) := of_none rfl
theorem preemptDrainEnd (cluster : Nat) : Statement (.preemptDrainEnd cluster) := of_none rfl
theorem preemptDrainTimeout (cluster : Nat) : Statement (.preemptDrainTimeout cluster) := of_none rfl
theorem preemptDeferExpiry (slot : Nat) : Statement (.preemptDeferExpiry slot) := of_none rfl
theorem hostHdmAccess (addr : Nat) (data : Option (List Byte)) : Statement (.hostHdmAccess addr data) := of_none rfl
theorem peerAccessArrival (addr : Nat) (access : PeerAccess) : Statement (.peerAccessArrival addr access) :=
  of_none rfl
theorem attestationRequest (nonce : BitVec 256) : Statement (.attestationRequest nonce) := of_none rfl
theorem worldTableWrite (block : Nat) (secure : Bool) : Statement (.worldTableWrite block secure) := of_none rfl
theorem regionTableWrite (index : BitVec 6) (entry : BitVec 128) : Statement (.regionTableWrite index entry) :=
  of_none rfl
theorem uncorrectableError (site : ErrorSite) : Statement (.uncorrectableError site) := of_none rfl
theorem powerStateChange (quadrant : Nat) (core : Option Nat) (state : PowerState) : Statement (.powerStateChange quadrant core state) :=
  of_none rfl
theorem unassignedOpcode (w : Word) : Statement (.unassignedOpcode w) := by
  intro v hw h
  cases h
  have lt := w.isLt
  have top : (w.extractLsb' 24 8).toNat = w.toNat / 2 ^ 24 := by
    simp only [BitVec.extractLsb'_toNat, Nat.shiftRight_eq_div_pow]; omega
  have low : (w.extractLsb' 0 8).toNat = w.toNat % 256 := by
    simp only [BitVec.extractLsb'_toNat, Nat.shiftRight_eq_div_pow]; omega
  have he : decode w = unassigned (w.extractLsb' 24 8) (w.extractLsb' 16 8) (w.extractLsb' 8 8) (w.extractLsb' 0 8) := by
    simp only [Instr.wellFormed, unassignedWord, Bool.or_eq_true] at hw
    rcases hw with hw | hw
    · exact decodeFields_op _ _ _ _ (by rw [top]; exact hw)
    · exact decodeFields_sub _ _ _ _ (by rw [top, low]; exact hw)
  rw [he, unassigned, pack_bytes]
theorem portDown (port : Nat) : Statement (.portDown port) := of_none rfl
theorem correctedError (site : ErrorSite) : Statement (.correctedError site) := of_none rfl
theorem cancellationRecorded (agent job : Nat) : Statement (.cancellationRecorded agent job) := of_none rfl
theorem maintenanceComplete (op : Nat) : Statement (.maintenanceComplete op) := of_none rfl
theorem tableInstall (slice : Nat) : Statement (.tableInstall slice) := of_none rfl
theorem regang : Statement .regang := of_pack rfl fun _ => rfl
theorem exit : Statement .exit := of_pack rfl fun _ => rfl
theorem nop : Statement .nop := of_pack rfl fun _ => rfl
theorem rtt : Statement .rtt := of_pack rfl fun _ => rfl
theorem yield : Statement .yield := of_pack rfl fun _ => rfl
theorem qend : Statement .qend := of_pack rfl fun _ => rfl
theorem injectionStarvationTimeout : Statement .injectionStarvationTimeout := of_none rfl
theorem linkErrorRetry : Statement .linkErrorRetry := of_none rfl
theorem linkTraining : Statement .linkTraining := of_none rfl
theorem coldStart : Statement .coldStart := of_none rfl
theorem warmStart : Statement .warmStart := of_none rfl
theorem bistDone : Statement .bistDone := of_none rfl
theorem trainDone : Statement .trainDone := of_none rfl
theorem fetchDone : Statement .fetchDone := of_none rfl
theorem verifyDone : Statement .verifyDone := of_none rfl
theorem recoverDone : Statement .recoverDone := of_none rfl
theorem startupStepTimeout : Statement .startupStepTimeout := of_none rfl
theorem thermalSample : Statement .thermalSample := of_none rfl
theorem thermalTrip : Statement .thermalTrip := of_none rfl

end Laws.RoundTrip

end Sys2Proof
end

