-- ==== Sys2Proof/Laws/State.lean ====
section
/-!
SUPPORT. The fields of State after each named update: the field written holds what the update puts
there, every other field is as before.
-/
namespace Sys2Proof.Machine

variable (s : State)

/-! ### setGroup -/

@[simp] theorem setGroup_time (k : Nat) (g : Group) : (s.setGroup k g).time = s.time := rfl
@[simp] theorem setGroup_agenda (k : Nat) (g : Group) : (s.setGroup k g).agenda = s.agenda := rfl
@[simp] theorem setGroup_issue (k : Nat) (g : Group) : (s.setGroup k g).issue = s.issue := rfl
@[simp] theorem setGroup_input (k : Nat) (g : Group) : (s.setGroup k g).input = s.input := rfl
@[simp] theorem setGroup_ids (k : Nat) (g : Group) : (s.setGroup k g).ids = s.ids := rfl
@[simp] theorem setGroup_slots (k : Nat) (g : Group) : (s.setGroup k g).slots = s.slots.put k (some g) := rfl
@[simp] theorem setGroup_teams (k : Nat) (g : Group) : (s.setGroup k g).teams = s.teams := rfl
@[simp] theorem setGroup_clusters (k : Nat) (g : Group) : (s.setGroup k g).clusters = s.clusters := rfl
@[simp] theorem setGroup_launches (k : Nat) (g : Group) : (s.setGroup k g).launches = s.launches := rfl
@[simp] theorem setGroup_cores (k : Nat) (g : Group) : (s.setGroup k g).cores = s.cores := rfl
@[simp] theorem setGroup_mem (k : Nat) (g : Group) : (s.setGroup k g).mem = s.mem := rfl
@[simp] theorem setGroup_streams (k : Nat) (g : Group) : (s.setGroup k g).streams = s.streams := rfl
@[simp] theorem setGroup_cmds (k : Nat) (g : Group) : (s.setGroup k g).cmds = s.cmds := rfl
@[simp] theorem setGroup_handles (k : Nat) (g : Group) : (s.setGroup k g).handles = s.handles := rfl
@[simp] theorem setGroup_queues (k : Nat) (g : Group) : (s.setGroup k g).queues = s.queues := rfl
@[simp] theorem setGroup_successors (k : Nat) (g : Group) : (s.setGroup k g).successors = s.successors := rfl
@[simp] theorem setGroup_cancels (k : Nat) (g : Group) : (s.setGroup k g).cancels = s.cancels := rfl
@[simp] theorem setGroup_sys (k : Nat) (g : Group) : (s.setGroup k g).sys = s.sys := rfl

/-! ### modGroup -/

@[simp] theorem modGroup_time (k : Nat) (f : Group → Group) : (s.modGroup k f).time = s.time := rfl
@[simp] theorem modGroup_agenda (k : Nat) (f : Group → Group) : (s.modGroup k f).agenda = s.agenda := rfl
@[simp] theorem modGroup_issue (k : Nat) (f : Group → Group) : (s.modGroup k f).issue = s.issue := rfl
@[simp] theorem modGroup_input (k : Nat) (f : Group → Group) : (s.modGroup k f).input = s.input := rfl
@[simp] theorem modGroup_ids (k : Nat) (f : Group → Group) : (s.modGroup k f).ids = s.ids := rfl
@[simp] theorem modGroup_slots (k : Nat) (f : Group → Group) : (s.modGroup k f).slots = s.slots.update k f := rfl
@[simp] theorem modGroup_teams (k : Nat) (f : Group → Group) : (s.modGroup k f).teams = s.teams := rfl
@[simp] theorem modGroup_clusters (k : Nat) (f : Group → Group) : (s.modGroup k f).clusters = s.clusters := rfl
@[simp] theorem modGroup_launches (k : Nat) (f : Group → Group) : (s.modGroup k f).launches = s.launches := rfl
@[simp] theorem modGroup_cores (k : Nat) (f : Group → Group) : (s.modGroup k f).cores = s.cores := rfl
@[simp] theorem modGroup_mem (k : Nat) (f : Group → Group) : (s.modGroup k f).mem = s.mem := rfl
@[simp] theorem modGroup_streams (k : Nat) (f : Group → Group) : (s.modGroup k f).streams = s.streams := rfl
@[simp] theorem modGroup_cmds (k : Nat) (f : Group → Group) : (s.modGroup k f).cmds = s.cmds := rfl
@[simp] theorem modGroup_handles (k : Nat) (f : Group → Group) : (s.modGroup k f).handles = s.handles := rfl
@[simp] theorem modGroup_queues (k : Nat) (f : Group → Group) : (s.modGroup k f).queues = s.queues := rfl
@[simp] theorem modGroup_successors (k : Nat) (f : Group → Group) : (s.modGroup k f).successors = s.successors := rfl
@[simp] theorem modGroup_cancels (k : Nat) (f : Group → Group) : (s.modGroup k f).cancels = s.cancels := rfl
@[simp] theorem modGroup_sys (k : Nat) (f : Group → Group) : (s.modGroup k f).sys = s.sys := rfl

/-! ### stall -/

@[simp] theorem stall_time (k : Nat) (gang : List Nat) : (s.stall k gang).time = s.time := rfl
@[simp] theorem stall_agenda (k : Nat) (gang : List Nat) : (s.stall k gang).agenda = s.agenda := rfl
@[simp] theorem stall_issue (k : Nat) (gang : List Nat) : (s.stall k gang).issue = s.issue := rfl
@[simp] theorem stall_input (k : Nat) (gang : List Nat) : (s.stall k gang).input = s.input := rfl
@[simp] theorem stall_ids (k : Nat) (gang : List Nat) : (s.stall k gang).ids = s.ids := rfl
@[simp] theorem stall_teams (k : Nat) (gang : List Nat) : (s.stall k gang).teams = s.teams := rfl
@[simp] theorem stall_clusters (k : Nat) (gang : List Nat) : (s.stall k gang).clusters = s.clusters := rfl
@[simp] theorem stall_launches (k : Nat) (gang : List Nat) : (s.stall k gang).launches = s.launches := rfl
@[simp] theorem stall_cores (k : Nat) (gang : List Nat) : (s.stall k gang).cores = s.cores := rfl
@[simp] theorem stall_mem (k : Nat) (gang : List Nat) : (s.stall k gang).mem = s.mem := rfl
@[simp] theorem stall_streams (k : Nat) (gang : List Nat) : (s.stall k gang).streams = s.streams := rfl
@[simp] theorem stall_cmds (k : Nat) (gang : List Nat) : (s.stall k gang).cmds = s.cmds := rfl
@[simp] theorem stall_handles (k : Nat) (gang : List Nat) : (s.stall k gang).handles = s.handles := rfl
@[simp] theorem stall_queues (k : Nat) (gang : List Nat) : (s.stall k gang).queues = s.queues := rfl
@[simp] theorem stall_successors (k : Nat) (gang : List Nat) : (s.stall k gang).successors = s.successors := rfl
@[simp] theorem stall_cancels (k : Nat) (gang : List Nat) : (s.stall k gang).cancels = s.cancels := rfl
@[simp] theorem stall_sys (k : Nat) (gang : List Nat) : (s.stall k gang).sys = s.sys := rfl

/-! ### setCore -/

@[simp] theorem setCore_time (c : Nat) (x : Core) : (s.setCore c x).time = s.time := rfl
@[simp] theorem setCore_agenda (c : Nat) (x : Core) : (s.setCore c x).agenda = s.agenda := rfl
@[simp] theorem setCore_issue (c : Nat) (x : Core) : (s.setCore c x).issue = s.issue := rfl
@[simp] theorem setCore_input (c : Nat) (x : Core) : (s.setCore c x).input = s.input := rfl
@[simp] theorem setCore_ids (c : Nat) (x : Core) : (s.setCore c x).ids = s.ids := rfl
@[simp] theorem setCore_slots (c : Nat) (x : Core) : (s.setCore c x).slots = s.slots := rfl
@[simp] theorem setCore_teams (c : Nat) (x : Core) : (s.setCore c x).teams = s.teams := rfl
@[simp] theorem setCore_clusters (c : Nat) (x : Core) : (s.setCore c x).clusters = s.clusters := rfl
@[simp] theorem setCore_launches (c : Nat) (x : Core) : (s.setCore c x).launches = s.launches := rfl
@[simp] theorem setCore_cores (c : Nat) (x : Core) : (s.setCore c x).cores = s.cores.put c (some x) := rfl
@[simp] theorem setCore_mem (c : Nat) (x : Core) : (s.setCore c x).mem = s.mem := rfl
@[simp] theorem setCore_streams (c : Nat) (x : Core) : (s.setCore c x).streams = s.streams := rfl
@[simp] theorem setCore_cmds (c : Nat) (x : Core) : (s.setCore c x).cmds = s.cmds := rfl
@[simp] theorem setCore_handles (c : Nat) (x : Core) : (s.setCore c x).handles = s.handles := rfl
@[simp] theorem setCore_queues (c : Nat) (x : Core) : (s.setCore c x).queues = s.queues := rfl
@[simp] theorem setCore_successors (c : Nat) (x : Core) : (s.setCore c x).successors = s.successors := rfl
@[simp] theorem setCore_cancels (c : Nat) (x : Core) : (s.setCore c x).cancels = s.cancels := rfl
@[simp] theorem setCore_sys (c : Nat) (x : Core) : (s.setCore c x).sys = s.sys := rfl

/-! ### changed -/

@[simp] theorem changed_time : (s.changed).time = { s.time with changes := s.time.changes + 1 } := rfl
@[simp] theorem changed_agenda : (s.changed).agenda = s.agenda := rfl
@[simp] theorem changed_issue : (s.changed).issue = s.issue := rfl
@[simp] theorem changed_input : (s.changed).input = s.input := rfl
@[simp] theorem changed_ids : (s.changed).ids = s.ids := rfl
@[simp] theorem changed_slots : (s.changed).slots = s.slots := rfl
@[simp] theorem changed_teams : (s.changed).teams = s.teams := rfl
@[simp] theorem changed_clusters : (s.changed).clusters = s.clusters := rfl
@[simp] theorem changed_launches : (s.changed).launches = s.launches := rfl
@[simp] theorem changed_cores : (s.changed).cores = s.cores := rfl
@[simp] theorem changed_mem : (s.changed).mem = s.mem := rfl
@[simp] theorem changed_streams : (s.changed).streams = s.streams := rfl
@[simp] theorem changed_cmds : (s.changed).cmds = s.cmds := rfl
@[simp] theorem changed_handles : (s.changed).handles = s.handles := rfl
@[simp] theorem changed_queues : (s.changed).queues = s.queues := rfl
@[simp] theorem changed_successors : (s.changed).successors = s.successors := rfl
@[simp] theorem changed_cancels : (s.changed).cancels = s.cancels := rfl
@[simp] theorem changed_sys : (s.changed).sys = s.sys := rfl

/-! ### log -/

@[simp] theorem log_time (n : Nat) (what : List Nat) : (s.log n what).time = s.time := rfl
@[simp] theorem log_agenda (n : Nat) (what : List Nat) : (s.log n what).agenda = s.agenda := rfl
@[simp] theorem log_issue (n : Nat) (what : List Nat) : (s.log n what).issue = s.issue := rfl
@[simp] theorem log_input (n : Nat) (what : List Nat) : (s.log n what).input = s.input := rfl
@[simp] theorem log_ids (n : Nat) (what : List Nat) : (s.log n what).ids = s.ids := rfl
@[simp] theorem log_slots (n : Nat) (what : List Nat) : (s.log n what).slots = s.slots := rfl
@[simp] theorem log_teams (n : Nat) (what : List Nat) : (s.log n what).teams = s.teams := rfl
@[simp] theorem log_clusters (n : Nat) (what : List Nat) : (s.log n what).clusters = s.clusters := rfl
@[simp] theorem log_launches (n : Nat) (what : List Nat) : (s.log n what).launches = s.launches := rfl
@[simp] theorem log_cores (n : Nat) (what : List Nat) : (s.log n what).cores = s.cores := rfl
@[simp] theorem log_mem (n : Nat) (what : List Nat) : (s.log n what).mem = s.mem := rfl
@[simp] theorem log_streams (n : Nat) (what : List Nat) : (s.log n what).streams = s.streams := rfl
@[simp] theorem log_cmds (n : Nat) (what : List Nat) : (s.log n what).cmds = s.cmds := rfl
@[simp] theorem log_handles (n : Nat) (what : List Nat) : (s.log n what).handles = s.handles := rfl
@[simp] theorem log_queues (n : Nat) (what : List Nat) : (s.log n what).queues = s.queues := rfl
@[simp] theorem log_successors (n : Nat) (what : List Nat) : (s.log n what).successors = s.successors := rfl
@[simp] theorem log_cancels (n : Nat) (what : List Nat) : (s.log n what).cancels = s.cancels := rfl
@[simp] theorem log_sys (n : Nat) (what : List Nat) : (s.log n what).sys = { s.sys with
    log := insertLog { gts := s.time.gts, device := s.sys.device.toNat, source := n % 4096, what := what } s.sys.log
    msix := s.sys.msix ++ [64] } := rfl

/-! ### modPiece -/

@[simp] theorem modPiece_time (op i : Nat) (f : Piece → Piece) : (s.modPiece op i f).time = s.time := rfl
@[simp] theorem modPiece_agenda (op i : Nat) (f : Piece → Piece) : (s.modPiece op i f).agenda = s.agenda := rfl
@[simp] theorem modPiece_issue (op i : Nat) (f : Piece → Piece) : (s.modPiece op i f).issue = s.issue := rfl
@[simp] theorem modPiece_input (op i : Nat) (f : Piece → Piece) : (s.modPiece op i f).input = s.input := rfl
@[simp] theorem modPiece_ids (op i : Nat) (f : Piece → Piece) : (s.modPiece op i f).ids = s.ids := rfl
@[simp] theorem modPiece_slots (op i : Nat) (f : Piece → Piece) : (s.modPiece op i f).slots = s.slots := rfl
@[simp] theorem modPiece_teams (op i : Nat) (f : Piece → Piece) : (s.modPiece op i f).teams = s.teams := rfl
@[simp] theorem modPiece_clusters (op i : Nat) (f : Piece → Piece) : (s.modPiece op i f).clusters = s.clusters := rfl
@[simp] theorem modPiece_launches (op i : Nat) (f : Piece → Piece) : (s.modPiece op i f).launches = s.launches := rfl
@[simp] theorem modPiece_cores (op i : Nat) (f : Piece → Piece) : (s.modPiece op i f).cores = s.cores := rfl
@[simp] theorem modPiece_streams (op i : Nat) (f : Piece → Piece) : (s.modPiece op i f).streams = s.streams := rfl
@[simp] theorem modPiece_cmds (op i : Nat) (f : Piece → Piece) : (s.modPiece op i f).cmds = s.cmds := rfl
@[simp] theorem modPiece_handles (op i : Nat) (f : Piece → Piece) : (s.modPiece op i f).handles = s.handles := rfl
@[simp] theorem modPiece_queues (op i : Nat) (f : Piece → Piece) : (s.modPiece op i f).queues = s.queues := rfl
@[simp] theorem modPiece_successors (op i : Nat) (f : Piece → Piece) : (s.modPiece op i f).successors = s.successors := rfl
@[simp] theorem modPiece_cancels (op i : Nat) (f : Piece → Piece) : (s.modPiece op i f).cancels = s.cancels := rfl
@[simp] theorem modPiece_sys (op i : Nat) (f : Piece → Piece) : (s.modPiece op i f).sys = s.sys := rfl

/-! ### modChannel -/

@[simp] theorem modChannel_time (k i : Nat) (f : Channel → Channel) : (s.modChannel k i f).time = s.time := rfl
@[simp] theorem modChannel_agenda (k i : Nat) (f : Channel → Channel) : (s.modChannel k i f).agenda = s.agenda := rfl
@[simp] theorem modChannel_issue (k i : Nat) (f : Channel → Channel) : (s.modChannel k i f).issue = s.issue := rfl
@[simp] theorem modChannel_input (k i : Nat) (f : Channel → Channel) : (s.modChannel k i f).input = s.input := rfl
@[simp] theorem modChannel_ids (k i : Nat) (f : Channel → Channel) : (s.modChannel k i f).ids = s.ids := rfl
@[simp] theorem modChannel_slots (k i : Nat) (f : Channel → Channel) : (s.modChannel k i f).slots = s.slots := rfl
@[simp] theorem modChannel_teams (k i : Nat) (f : Channel → Channel) : (s.modChannel k i f).teams = s.teams := rfl
@[simp] theorem modChannel_launches (k i : Nat) (f : Channel → Channel) : (s.modChannel k i f).launches = s.launches := rfl
@[simp] theorem modChannel_cores (k i : Nat) (f : Channel → Channel) : (s.modChannel k i f).cores = s.cores := rfl
@[simp] theorem modChannel_mem (k i : Nat) (f : Channel → Channel) : (s.modChannel k i f).mem = s.mem := rfl
@[simp] theorem modChannel_streams (k i : Nat) (f : Channel → Channel) : (s.modChannel k i f).streams = s.streams := rfl
@[simp] theorem modChannel_cmds (k i : Nat) (f : Channel → Channel) : (s.modChannel k i f).cmds = s.cmds := rfl
@[simp] theorem modChannel_handles (k i : Nat) (f : Channel → Channel) : (s.modChannel k i f).handles = s.handles := rfl
@[simp] theorem modChannel_queues (k i : Nat) (f : Channel → Channel) : (s.modChannel k i f).queues = s.queues := rfl
@[simp] theorem modChannel_successors (k i : Nat) (f : Channel → Channel) : (s.modChannel k i f).successors = s.successors := rfl
@[simp] theorem modChannel_cancels (k i : Nat) (f : Channel → Channel) : (s.modChannel k i f).cancels = s.cancels := rfl
@[simp] theorem modChannel_sys (k i : Nat) (f : Channel → Channel) : (s.modChannel k i f).sys = s.sys := rfl

/-! ### modTeam -/

@[simp] theorem modTeam_time (k : Nat) (f : Team → Team) : (s.modTeam k f).time = s.time := rfl
@[simp] theorem modTeam_agenda (k : Nat) (f : Team → Team) : (s.modTeam k f).agenda = s.agenda := rfl
@[simp] theorem modTeam_issue (k : Nat) (f : Team → Team) : (s.modTeam k f).issue = s.issue := rfl
@[simp] theorem modTeam_input (k : Nat) (f : Team → Team) : (s.modTeam k f).input = s.input := rfl
@[simp] theorem modTeam_ids (k : Nat) (f : Team → Team) : (s.modTeam k f).ids = s.ids := rfl
@[simp] theorem modTeam_slots (k : Nat) (f : Team → Team) : (s.modTeam k f).slots = s.slots := rfl
@[simp] theorem modTeam_teams (k : Nat) (f : Team → Team) : (s.modTeam k f).teams = s.teams.update k f := rfl
@[simp] theorem modTeam_clusters (k : Nat) (f : Team → Team) : (s.modTeam k f).clusters = s.clusters := rfl
@[simp] theorem modTeam_launches (k : Nat) (f : Team → Team) : (s.modTeam k f).launches = s.launches := rfl
@[simp] theorem modTeam_cores (k : Nat) (f : Team → Team) : (s.modTeam k f).cores = s.cores := rfl
@[simp] theorem modTeam_mem (k : Nat) (f : Team → Team) : (s.modTeam k f).mem = s.mem := rfl
@[simp] theorem modTeam_streams (k : Nat) (f : Team → Team) : (s.modTeam k f).streams = s.streams := rfl
@[simp] theorem modTeam_cmds (k : Nat) (f : Team → Team) : (s.modTeam k f).cmds = s.cmds := rfl
@[simp] theorem modTeam_handles (k : Nat) (f : Team → Team) : (s.modTeam k f).handles = s.handles := rfl
@[simp] theorem modTeam_queues (k : Nat) (f : Team → Team) : (s.modTeam k f).queues = s.queues := rfl
@[simp] theorem modTeam_successors (k : Nat) (f : Team → Team) : (s.modTeam k f).successors = s.successors := rfl
@[simp] theorem modTeam_cancels (k : Nat) (f : Team → Team) : (s.modTeam k f).cancels = s.cancels := rfl
@[simp] theorem modTeam_sys (k : Nat) (f : Team → Team) : (s.modTeam k f).sys = s.sys := rfl

/-! ### putOp -/

@[simp] theorem putOp_time (id : Nat) (o : Option Op) : (s.putOp id o).time = s.time := rfl
@[simp] theorem putOp_agenda (id : Nat) (o : Option Op) : (s.putOp id o).agenda = s.agenda := rfl
@[simp] theorem putOp_issue (id : Nat) (o : Option Op) : (s.putOp id o).issue = s.issue := rfl
@[simp] theorem putOp_input (id : Nat) (o : Option Op) : (s.putOp id o).input = s.input := rfl
@[simp] theorem putOp_ids (id : Nat) (o : Option Op) : (s.putOp id o).ids = s.ids := rfl
@[simp] theorem putOp_slots (id : Nat) (o : Option Op) : (s.putOp id o).slots = s.slots := rfl
@[simp] theorem putOp_teams (id : Nat) (o : Option Op) : (s.putOp id o).teams = s.teams := rfl
@[simp] theorem putOp_clusters (id : Nat) (o : Option Op) : (s.putOp id o).clusters = s.clusters := rfl
@[simp] theorem putOp_launches (id : Nat) (o : Option Op) : (s.putOp id o).launches = s.launches := rfl
@[simp] theorem putOp_cores (id : Nat) (o : Option Op) : (s.putOp id o).cores = s.cores := rfl
@[simp] theorem putOp_mem (id : Nat) (o : Option Op) : (s.putOp id o).mem = { s.mem with ops := s.mem.ops.put id o } := rfl
@[simp] theorem putOp_streams (id : Nat) (o : Option Op) : (s.putOp id o).streams = s.streams := rfl
@[simp] theorem putOp_cmds (id : Nat) (o : Option Op) : (s.putOp id o).cmds = s.cmds := rfl
@[simp] theorem putOp_handles (id : Nat) (o : Option Op) : (s.putOp id o).handles = s.handles := rfl
@[simp] theorem putOp_queues (id : Nat) (o : Option Op) : (s.putOp id o).queues = s.queues := rfl
@[simp] theorem putOp_successors (id : Nat) (o : Option Op) : (s.putOp id o).successors = s.successors := rfl
@[simp] theorem putOp_cancels (id : Nat) (o : Option Op) : (s.putOp id o).cancels = s.cancels := rfl
@[simp] theorem putOp_sys (id : Nat) (o : Option Op) : (s.putOp id o).sys = s.sys := rfl

/-! ### setQueue -/

@[simp] theorem setQueue_time (k : Nat) (q : Queue) : (s.setQueue k q).time = s.time := rfl
@[simp] theorem setQueue_agenda (k : Nat) (q : Queue) : (s.setQueue k q).agenda = s.agenda := rfl
@[simp] theorem setQueue_issue (k : Nat) (q : Queue) : (s.setQueue k q).issue = s.issue := rfl
@[simp] theorem setQueue_input (k : Nat) (q : Queue) : (s.setQueue k q).input = s.input := rfl
@[simp] theorem setQueue_ids (k : Nat) (q : Queue) : (s.setQueue k q).ids = s.ids := rfl
@[simp] theorem setQueue_slots (k : Nat) (q : Queue) : (s.setQueue k q).slots = s.slots := rfl
@[simp] theorem setQueue_teams (k : Nat) (q : Queue) : (s.setQueue k q).teams = s.teams := rfl
@[simp] theorem setQueue_clusters (k : Nat) (q : Queue) : (s.setQueue k q).clusters = s.clusters := rfl
@[simp] theorem setQueue_launches (k : Nat) (q : Queue) : (s.setQueue k q).launches = s.launches := rfl
@[simp] theorem setQueue_cores (k : Nat) (q : Queue) : (s.setQueue k q).cores = s.cores := rfl
@[simp] theorem setQueue_mem (k : Nat) (q : Queue) : (s.setQueue k q).mem = s.mem := rfl
@[simp] theorem setQueue_streams (k : Nat) (q : Queue) : (s.setQueue k q).streams = s.streams := rfl
@[simp] theorem setQueue_cmds (k : Nat) (q : Queue) : (s.setQueue k q).cmds = s.cmds := rfl
@[simp] theorem setQueue_handles (k : Nat) (q : Queue) : (s.setQueue k q).handles = s.handles := rfl
@[simp] theorem setQueue_queues (k : Nat) (q : Queue) : (s.setQueue k q).queues = s.queues.put k (some q) := rfl
@[simp] theorem setQueue_successors (k : Nat) (q : Queue) : (s.setQueue k q).successors = s.successors := rfl
@[simp] theorem setQueue_cancels (k : Nat) (q : Queue) : (s.setQueue k q).cancels = s.cancels := rfl
@[simp] theorem setQueue_sys (k : Nat) (q : Queue) : (s.setQueue k q).sys = s.sys := rfl

/-! ### setStream -/

@[simp] theorem setStream_time (k : Nat) (x : Stream) : (s.setStream k x).time = s.time := rfl
@[simp] theorem setStream_agenda (k : Nat) (x : Stream) : (s.setStream k x).agenda = s.agenda := rfl
@[simp] theorem setStream_issue (k : Nat) (x : Stream) : (s.setStream k x).issue = s.issue := rfl
@[simp] theorem setStream_input (k : Nat) (x : Stream) : (s.setStream k x).input = s.input := rfl
@[simp] theorem setStream_ids (k : Nat) (x : Stream) : (s.setStream k x).ids = s.ids := rfl
@[simp] theorem setStream_slots (k : Nat) (x : Stream) : (s.setStream k x).slots = s.slots := rfl
@[simp] theorem setStream_teams (k : Nat) (x : Stream) : (s.setStream k x).teams = s.teams := rfl
@[simp] theorem setStream_clusters (k : Nat) (x : Stream) : (s.setStream k x).clusters = s.clusters := rfl
@[simp] theorem setStream_launches (k : Nat) (x : Stream) : (s.setStream k x).launches = s.launches := rfl
@[simp] theorem setStream_cores (k : Nat) (x : Stream) : (s.setStream k x).cores = s.cores := rfl
@[simp] theorem setStream_mem (k : Nat) (x : Stream) : (s.setStream k x).mem = s.mem := rfl
@[simp] theorem setStream_streams (k : Nat) (x : Stream) : (s.setStream k x).streams = s.streams.put k (some x) := rfl
@[simp] theorem setStream_cmds (k : Nat) (x : Stream) : (s.setStream k x).cmds = s.cmds := rfl
@[simp] theorem setStream_handles (k : Nat) (x : Stream) : (s.setStream k x).handles = s.handles := rfl
@[simp] theorem setStream_queues (k : Nat) (x : Stream) : (s.setStream k x).queues = s.queues := rfl
@[simp] theorem setStream_successors (k : Nat) (x : Stream) : (s.setStream k x).successors = s.successors := rfl
@[simp] theorem setStream_cancels (k : Nat) (x : Stream) : (s.setStream k x).cancels = s.cancels := rfl
@[simp] theorem setStream_sys (k : Nat) (x : Stream) : (s.setStream k x).sys = s.sys := rfl

/-! ### answer -/

@[simp] theorem answer_time (r : Reply) : (s.answer r).time = s.time := rfl
@[simp] theorem answer_agenda (r : Reply) : (s.answer r).agenda = s.agenda := rfl
@[simp] theorem answer_issue (r : Reply) : (s.answer r).issue = s.issue := rfl
@[simp] theorem answer_input (r : Reply) : (s.answer r).input = s.input := rfl
@[simp] theorem answer_ids (r : Reply) : (s.answer r).ids = s.ids := rfl
@[simp] theorem answer_slots (r : Reply) : (s.answer r).slots = s.slots := rfl
@[simp] theorem answer_teams (r : Reply) : (s.answer r).teams = s.teams := rfl
@[simp] theorem answer_clusters (r : Reply) : (s.answer r).clusters = s.clusters := rfl
@[simp] theorem answer_launches (r : Reply) : (s.answer r).launches = s.launches := rfl
@[simp] theorem answer_cores (r : Reply) : (s.answer r).cores = s.cores := rfl
@[simp] theorem answer_mem (r : Reply) : (s.answer r).mem = s.mem := rfl
@[simp] theorem answer_streams (r : Reply) : (s.answer r).streams = s.streams := rfl
@[simp] theorem answer_cmds (r : Reply) : (s.answer r).cmds = s.cmds := rfl
@[simp] theorem answer_handles (r : Reply) : (s.answer r).handles = s.handles := rfl
@[simp] theorem answer_queues (r : Reply) : (s.answer r).queues = s.queues := rfl
@[simp] theorem answer_successors (r : Reply) : (s.answer r).successors = s.successors := rfl
@[simp] theorem answer_cancels (r : Reply) : (s.answer r).cancels = s.cancels := rfl
@[simp] theorem answer_sys (r : Reply) : (s.answer r).sys = { s.sys with replies := s.sys.replies ++ [r] } := rfl

/-! ### setBoot -/

@[simp] theorem setBoot_time (b : Boot) : (s.setBoot b).time = s.time := rfl
@[simp] theorem setBoot_agenda (b : Boot) : (s.setBoot b).agenda = s.agenda := rfl
@[simp] theorem setBoot_issue (b : Boot) : (s.setBoot b).issue = s.issue := rfl
@[simp] theorem setBoot_input (b : Boot) : (s.setBoot b).input = s.input := rfl
@[simp] theorem setBoot_ids (b : Boot) : (s.setBoot b).ids = s.ids := rfl
@[simp] theorem setBoot_slots (b : Boot) : (s.setBoot b).slots = s.slots := rfl
@[simp] theorem setBoot_teams (b : Boot) : (s.setBoot b).teams = s.teams := rfl
@[simp] theorem setBoot_clusters (b : Boot) : (s.setBoot b).clusters = s.clusters := rfl
@[simp] theorem setBoot_launches (b : Boot) : (s.setBoot b).launches = s.launches := rfl
@[simp] theorem setBoot_cores (b : Boot) : (s.setBoot b).cores = s.cores := rfl
@[simp] theorem setBoot_mem (b : Boot) : (s.setBoot b).mem = s.mem := rfl
@[simp] theorem setBoot_streams (b : Boot) : (s.setBoot b).streams = s.streams := rfl
@[simp] theorem setBoot_cmds (b : Boot) : (s.setBoot b).cmds = s.cmds := rfl
@[simp] theorem setBoot_handles (b : Boot) : (s.setBoot b).handles = s.handles := rfl
@[simp] theorem setBoot_queues (b : Boot) : (s.setBoot b).queues = s.queues := rfl
@[simp] theorem setBoot_successors (b : Boot) : (s.setBoot b).successors = s.successors := rfl
@[simp] theorem setBoot_cancels (b : Boot) : (s.setBoot b).cancels = s.cancels := rfl
@[simp] theorem setBoot_sys (b : Boot) : (s.setBoot b).sys = { s.sys with boot := b } := rfl

/-! ### fresh and free -/

@[simp] theorem fresh_name : s.fresh.1 = s.ids := rfl
@[simp] theorem fresh_ids : s.fresh.2.ids = s.ids + 1 := rfl
@[simp] theorem fresh_time : s.fresh.2.time = s.time := rfl
@[simp] theorem fresh_agenda : s.fresh.2.agenda = s.agenda := rfl
@[simp] theorem fresh_issue : s.fresh.2.issue = s.issue := rfl
@[simp] theorem fresh_input : s.fresh.2.input = s.input := rfl
@[simp] theorem fresh_slots : s.fresh.2.slots = s.slots := rfl
@[simp] theorem fresh_teams : s.fresh.2.teams = s.teams := rfl
@[simp] theorem fresh_clusters : s.fresh.2.clusters = s.clusters := rfl
@[simp] theorem fresh_launches : s.fresh.2.launches = s.launches := rfl
@[simp] theorem fresh_cores : s.fresh.2.cores = s.cores := rfl
@[simp] theorem fresh_mem : s.fresh.2.mem = s.mem := rfl
@[simp] theorem fresh_streams : s.fresh.2.streams = s.streams := rfl
@[simp] theorem fresh_cmds : s.fresh.2.cmds = s.cmds := rfl
@[simp] theorem fresh_handles : s.fresh.2.handles = s.handles := rfl
@[simp] theorem fresh_queues : s.fresh.2.queues = s.queues := rfl
@[simp] theorem fresh_successors : s.fresh.2.successors = s.successors := rfl
@[simp] theorem fresh_cancels : s.fresh.2.cancels = s.cancels := rfl
@[simp] theorem fresh_sys : s.fresh.2.sys = s.sys := rfl
@[simp] theorem free_number : s.free.1 = s.time.tick := rfl
@[simp] theorem free_agenda : s.free.2.agenda = s.agenda := rfl
@[simp] theorem free_issue : s.free.2.issue = s.issue := rfl
@[simp] theorem free_input : s.free.2.input = s.input := rfl
@[simp] theorem free_ids : s.free.2.ids = s.ids := rfl
@[simp] theorem free_slots : s.free.2.slots = s.slots := rfl
@[simp] theorem free_teams : s.free.2.teams = s.teams := rfl
@[simp] theorem free_clusters : s.free.2.clusters = s.clusters := rfl
@[simp] theorem free_launches : s.free.2.launches = s.launches := rfl
@[simp] theorem free_cores : s.free.2.cores = s.cores := rfl
@[simp] theorem free_mem : s.free.2.mem = s.mem := rfl
@[simp] theorem free_streams : s.free.2.streams = s.streams := rfl
@[simp] theorem free_cmds : s.free.2.cmds = s.cmds := rfl
@[simp] theorem free_handles : s.free.2.handles = s.handles := rfl
@[simp] theorem free_queues : s.free.2.queues = s.queues := rfl
@[simp] theorem free_successors : s.free.2.successors = s.successors := rfl
@[simp] theorem free_cancels : s.free.2.cancels = s.cancels := rfl
@[simp] theorem free_sys : s.free.2.sys = s.sys := rfl

end Sys2Proof.Machine
end

