-- ==== Sys2Proof/Laws/Strands.lean ====
section
/-!
SUPPORT. Strands of a group, and masks of their lanes (R5, R35, R39).
-/
namespace Sys2Proof.Machine

open Sys2Proof

/-- The strands of a group after some of them have been changed. -/
theorem strand_modStrands (g : Group) (is : List Nat) (f : Nat → Strand → Strand) (i : Nat) (h : i < g.strands.length) :
    (g.modStrands is f).strand i = if i ∈ is then f i (g.strand i) else g.strand i := by
  simp [Group.strand, Group.modStrands, List.getD, h]

/-- The mask of a list of lanes names them. -/
theorem maskOf_strandMask (i : Nat) (ls : List Nat) : MaskOf i ls (strandMask i ls) := by
  intro j hj
  unfold strandMask
  have : List.range 4 = [0,1,2,3] := rfl
  rw [this]
  simp only [List.foldl]
  match j, hj with
  | 0, _ => repeat' split
            all_goals simp_all
  | 1, _ => repeat' split
            all_goals simp_all
  | 2, _ => repeat' split
            all_goals simp_all
  | 3, _ => repeat' split
            all_goals simp_all

/-- The mask is empty where no lane of the strand is listed. -/
theorem strandMask_eq_zero (i : Nat) (ls : List Nat) : strandMask i ls = 0 ↔ ¬ ∃ l ∈ ls, l / 4 = i := by
  constructor
  · rintro h ⟨l, hl, rfl⟩
    have := maskOf_strandMask (l/4) ls (l % 4) (by omega)
    rw [h, show 4 * (l/4) + l % 4 = l by omega] at this
    simp [hl] at this
  · intro h
    apply BitVec.eq_of_getLsbD_eq
    intro j hj
    rw [maskOf_strandMask i ls j hj]
    simp
    intro hc
    exact h ⟨_, hc, by omega⟩

/-- A part has the whole's mask where it lists every lane of the strand. -/
theorem strandMask_eq (i : Nat) (ls ms : List Nat) (hs : ∀ l ∈ ls, l ∈ ms) :
    strandMask i ls = strandMask i ms ↔ ¬ ∃ l ∈ ms, l / 4 = i ∧ l ∉ ls := by
  constructor
  · rintro h ⟨l, hl, rfl, hn⟩
    have a := maskOf_strandMask (l/4) ls (l % 4) (by omega)
    have b := maskOf_strandMask (l/4) ms (l % 4) (by omega)
    rw [h, b, show 4 * (l/4) + l % 4 = l by omega] at a
    simp [hl, hn] at a
  · intro h
    apply BitVec.eq_of_getLsbD_eq
    intro j hj
    rw [maskOf_strandMask i ls j hj, maskOf_strandMask i ms j hj]
    by_cases hc : 4*i+j ∈ ms
    · have : 4*i+j ∈ ls := Classical.byContradiction fun x => h ⟨_, hc, by omega, x⟩
      simp [hc, this]
    · have : ¬ 4*i+j ∈ ls := fun x => hc (hs _ x)
      simp [hc, this]

end Sys2Proof.Machine
end

