-- ==== Sys2Proof/Laws/View.lean ====
section
/-!
SUPPORT. What acquires, releases and observed accesses can do (R239, R243, R244): they change how far one group
sees, of its core the L1 and what it hands on, and whether fills in flight come to L1.
-/
namespace Sys2Proof.Machine

open Sys2Proof

/-- `t` is `s` but for the view of the group at a slot, and its core's L1, which only loses sectors, what that
core hands on, and the fills in flight that come to L1. -/
structure Sees (s : State) (k : Nat) (t : State) : Prop where
  rest   : t = { s with slots := t.slots, cores := t.cores, mem := { s.mem with ops := t.mem.ops } }
  ops    : ∀ id, ∃ fill : Piece → Bool, t.op id = (s.op id).map fun o =>
    { o with pieces := o.pieces.map fun q => { q with fill := fill q } }
  others : ∀ j, j ≠ k → t.group j = s.group j
  own    : ∃ f : Group → View, t.group k = (s.group k).map fun g => { g with view := f g }
  cores  : ∀ i, i ≠ slotCore k → t.core i = s.core i
  core   : t.core (slotCore k) = { s.core (slotCore k) with
    l1 := (t.core (slotCore k)).l1, shared := (t.core (slotCore k)).shared }
  l1     : ∀ e ∈ (t.core (slotCore k)).l1, e ∈ (s.core (slotCore k)).l1

theorem Sees.trans {s t u : State} {k : Nat} (h : Sees s k t) (m : Sees t k u) : Sees s k u where
  rest := by rw [m.rest, h.rest]
  ops := fun id => by
    obtain ⟨f, hf⟩ := h.ops id
    obtain ⟨g, hg⟩ := m.ops id
    refine ⟨fun q => g { q with fill := f q }, ?_⟩
    rw [hg, hf, Option.map_map]
    simp [Function.comp_def]
  others := fun j hj => (m.others j hj).trans (h.others j hj)
  own := by
    obtain ⟨f, hf⟩ := h.own
    obtain ⟨g, hg⟩ := m.own
    refine ⟨fun x => g { x with view := f x }, ?_⟩
    rw [hg, hf, Option.map_map]
    rfl
  cores := fun i hi => (m.cores i hi).trans (h.cores i hi)
  core := by
    have a := m.core
    rw [h.core] at a
    exact a
  l1 := fun e he => h.l1 e (m.l1 e he)

/-- An operation whose fills are as they were. -/
theorem sameFills (o : Option Op) :
    ∃ fill : Piece → Bool, o = o.map fun o => { o with pieces := o.pieces.map fun q => { q with fill := fill q } } :=
  ⟨fun q => q.fill, by cases o <;> simp⟩

/-- Nothing is seen. -/
theorem Sees.refl (s : State) (k : Nat) : Sees s k s :=
  ⟨rfl, fun _ => sameFills _, fun _ _ => rfl, ⟨fun g => g.view, by simp⟩, fun _ _ => rfl, rfl, fun _ he => he⟩

/-- The view of a group changed. -/
theorem sees_modView (s : State) (k : Nat) (f : Group → View) : Sees s k (s.modGroup k fun g => { g with view := f g }) :=
  ⟨rfl, fun _ => sameFills _, fun _ hj => group_modGroup_other s _ hj, ⟨f, group_modGroup_same ..⟩, fun _ _ => rfl, rfl,
    fun _ he => he⟩

/-- A core after it has been set. -/
theorem core_setCore (s : State) (c i : Nat) (x : Core) : (s.setCore c x).core i = if i = c then x else s.core i := by
  by_cases h : i = c
  · subst h; simp [State.core, State.setCore, Sparse.get]
  · simp [State.core, State.setCore, Sparse.get, Sparse.find_put_other _ _ h, h]

/-- The core of a group with fewer sectors and something else to hand on. -/
theorem sees_setCore (s : State) (k : Nat) (l1 : List L1Sector) (shared : Sparse Nat)
    (h : ∀ e ∈ l1, e ∈ (s.core (slotCore k)).l1) :
    Sees s k (s.setCore (slotCore k) { s.core (slotCore k) with l1 := l1, shared := shared }) where
  rest := rfl
  ops := fun _ => sameFills _
  others := fun _ _ => rfl
  own := ⟨fun g => g.view, by simp [State.group, State.setCore]⟩
  cores := fun i hi => by rw [core_setCore, if_neg hi]
  core := by rw [core_setCore, if_pos rfl]
  l1 := fun e he => by rw [core_setCore, if_pos rfl] at he; exact h e he

theorem sees_seeBytes (s : State) (k a n time : Nat) : Sees s k (s.seeBytes k a n time) := sees_modView s k _

/-- Fills that come to L1 no more. -/
theorem sees_stopFills (s : State) (k c : Nat) (p : Piece → Bool) : Sees s k (s.stopFills c p) where
  rest := rfl
  ops := fun id => by
    let hit (o : Op) : Bool := o.core == c && o.kind == .load && !o.bypass
    let stop (q : Piece) : Bool := if p q && !q.parts.isEmpty then false else q.fill
    have e : (s.stopFills c p).op id = (s.op id).map fun o =>
        if hit o then { o with pieces := o.pieces.map fun q => { q with fill := stop q } } else o := by
      refine (Sparse.find_map_entries _ _ (fun x => by dsimp only; split <;> rfl) id).trans ?_
      refine congrArg (fun f => (s.mem.ops.find id).map f) (funext fun o => ?_)
      dsimp only [hit, stop]
      split
      · refine congrArg (fun ps => { o with pieces := ps }) (List.map_congr_left fun q _ => ?_)
        split <;> rfl
      · rfl
    rw [e]
    cases s.op id with
    | none => exact ⟨fun _ => false, rfl⟩
    | some o =>
      refine ⟨fun q => if hit o then stop q else q.fill, ?_⟩
      by_cases h : hit o <;> simp [h]
  others := fun _ _ => rfl
  own := ⟨fun g => g.view, by simp [State.group, State.stopFills, State.mapFills]⟩
  cores := fun _ _ => rfl
  core := rfl
  l1 := fun _ he => he

theorem sees_dropUntracked (s : State) (k : Nat) : Sees s k (s.dropUntracked (slotCore k)) :=
  (sees_stopFills s k _ _).trans (sees_setCore _ k _ _ fun _ he => (List.mem_filter.mp he).1)

/-- An acquire (R244). -/
theorem sees_acquire (s : State) (k : Nat) (sc : Scope) : Sees s k (s.acquire k sc) := by
  unfold State.acquire
  split
  · exact Sees.refl s k
  · dsimp only
    split
    · exact (sees_modView s k _).trans (sees_dropUntracked _ k)
    · exact sees_modView s k _

theorem sees_acquireFence (s : State) (k : Nat) (sc : Scope) : Sees s k (s.acquireFence k sc) :=
  (sees_acquire s k sc).trans (sees_modView _ k _)

/-- A release (R243). -/
theorem sees_markRelease (s : State) (k : Nat) (sc : Scope) : Sees s k (s.markRelease k sc) := by
  have same : Sees s k s := Sees.refl s k
  unfold State.markRelease
  cases hg : s.group k with
  | none => exact same
  | some g =>
    dsimp only
    split
    · exact same
    · have h : Sees s k (s.setGroup k { g with view := { g.view with released := s.ids } }) :=
        ⟨rfl, fun _ => sameFills _, fun _ hj => group_setGroup_other s _ hj, ⟨fun x => { x.view with released := s.ids }, by simp [hg]⟩,
          fun _ _ => rfl, rfl, fun _ he => he⟩
      exact h.trans (sees_setCore (s.setGroup k { g with view := { g.view with released := s.ids } }) k _ _ fun _ he => he)

end Sys2Proof.Machine
end

