-- ==== Sys2Proof/Tests/Slice0.lean ====
section
/-!
SUPPORT. The model's own tests: ill-formed terms are refused, words written out from the encodings of R99 to
R117 decode, small states meet the hypotheses of the statements, and single steps give what the rules say.
-/
open Sys2Proof Sys2Proof.Machine

section

/- The tests are checked one after another, which keeps the memory of the check small. -/
set_option Elab.async false

/-! ## Ill-formed terms (R106, R108, R117) -/

theorem test_load_refuses_release : (Instr.ld 0 2 { width := .b32, scope := .dev, order := .release }).wellFormed = false := by decide
theorem test_bypass_refuses_acqRel : (Instr.ldb 0 2 { width := .b32, scope := .dev, order := .acqRel }).wellFormed = false := by decide
theorem test_store_refuses_acquire : (Instr.st 0 2 { width := .b32, scope := .dev, order := .acquire }).wellFormed = false := by decide
theorem test_scratchLoad_refuses_scope : (Instr.lds 0 2 { width := .b32, scope := .clu, order := .relaxed }).wellFormed = false := by decide
theorem test_scratchStore_refuses_acquire : (Instr.sts 0 2 { width := .b32, scope := .grp, order := .acquire }).wellFormed = false := by decide
theorem test_atomic_refuses_width : (Instr.atomAdd 0 2 { width := .b16, scope := .dev, order := .relaxed }).wellFormed = false := by decide
theorem test_cas_refuses_width : (Instr.cas 0 2 { width := .b128, scope := .dev, order := .relaxed }).wellFormed = false := by decide
theorem test_atomicNoReturn_refuses_acquire : (Instr.atomnAdd 0 2 { width := .b32, scope := .dev, order := .acquire }).wellFormed = false := by decide
theorem test_fence_refuses_relaxed : (Instr.fence .dev .relaxed).wellFormed = false := by decide
theorem test_unassigned_refuses_assigned : (Instr.unassignedOpcode 0x00010203).wellFormed = false := by decide

/-! ## Words (R99 to R117), one for each instruction that has one -/

theorem test_decode_integer :
    decodeTableWord 32 0x00834122 = some (.add 0x83 0x41 0x22) ∧
    decodeTableWord 32 0x01834122 = some (.sub 0x83 0x41 0x22) ∧
    decodeTableWord 32 0x02834122 = some (.mul 0x83 0x41 0x22) ∧
    decodeTableWord 32 0x03834122 = some (.mulhi 0x83 0x41 0x22) ∧
    decodeTableWord 32 0x04834122 = some (.madlo 0x83 0x41 0x22) ∧
    decodeTableWord 32 0x05834122 = some (.min 0x83 0x41 0x22) ∧
    decodeTableWord 32 0x06834122 = some (.max 0x83 0x41 0x22) ∧
    decodeTableWord 32 0x07834122 = some (.and 0x83 0x41 0x22) ∧
    decodeTableWord 32 0x08834122 = some (.or 0x83 0x41 0x22) ∧
    decodeTableWord 32 0x09834122 = some (.xor 0x83 0x41 0x22) ∧
    decodeTableWord 32 0x0A834122 = some (.shl 0x83 0x41 0x22) ∧
    decodeTableWord 32 0x0B834122 = some (.shr 0x83 0x41 0x22) ∧
    decodeTableWord 32 0x0C834122 = some (.sha 0x83 0x41 0x22) ∧
    decodeTableWord 32 0x0D834122 = some (.rol 0x83 0x41 0x22) ∧
    decodeTableWord 32 0x0E834122 = some (.cmpEq 0x83 0x41 0x22) ∧
    decodeTableWord 32 0x0F834122 = some (.cmpNe 0x83 0x41 0x22) := by decide

theorem test_decode_compares_and_selects :
    decodeTableWord 32 0x10834122 = some (.cmpLt 0x83 0x41 0x22) ∧
    decodeTableWord 32 0x11834122 = some (.cmpLe 0x83 0x41 0x22) ∧
    decodeTableWord 32 0x12834122 = some (.sel 0x83 0x41 0x22) ∧
    decodeTableWord 32 0x13834122 = some (.bfx 0x83 0x41 0x22) ∧
    decodeTableWord 32 0x14834122 = some (.bfi 0x83 0x41 0x22) ∧
    decodeTableWord 32 0x18834122 = some (.fadd 0x83 0x41 0x22) ∧
    decodeTableWord 32 0x19834122 = some (.fsub 0x83 0x41 0x22) ∧
    decodeTableWord 32 0x1A834122 = some (.fmul 0x83 0x41 0x22) ∧
    decodeTableWord 32 0x1B834122 = some (.fma 0x83 0x41 0x22) ∧
    decodeTableWord 32 0x1C834122 = some (.fmin 0x83 0x41 0x22) ∧
    decodeTableWord 32 0x1D834122 = some (.fmax 0x83 0x41 0x22) ∧
    decodeTableWord 32 0x1E834122 = some (.fcmpEq 0x83 0x41 0x22) ∧
    decodeTableWord 32 0x1F834122 = some (.fcmpLt 0x83 0x41 0x22) := by decide

theorem test_decode_floating :
    decodeTableWord 32 0x20834122 = some (.fcmpLe 0x83 0x41 0x22) ∧
    decodeTableWord 32 0x21834122 = some (.fcmpUn 0x83 0x41 0x22) ∧
    decodeTableWord 32 0x22834100 = some (.mov 0x83 0x41) ∧
    decodeTableWord 32 0x23834100 = some (.movp 0x83 0x41) := by decide

theorem test_decode_moves :
    decodeTableWord 32 0x30838001 = some (.movi 0x83 0x8001) ∧
    decodeTableWord 32 0x31838001 = some (.movhi 0x83 0x8001) ∧
    decodeTableWord 32 0x32838001 = some (.addi 0x83 0x8001) := by decide

theorem test_decode_scalar_integer :
    decodeTableWord 32 0x40834122 = some (.addS 0x83 0x41 0x22) ∧
    decodeTableWord 32 0x41834122 = some (.subS 0x83 0x41 0x22) ∧
    decodeTableWord 32 0x42834122 = some (.mulS 0x83 0x41 0x22) ∧
    decodeTableWord 32 0x43834122 = some (.mulhiS 0x83 0x41 0x22) ∧
    decodeTableWord 32 0x44834122 = some (.madloS 0x83 0x41 0x22) ∧
    decodeTableWord 32 0x45834122 = some (.minS 0x83 0x41 0x22) ∧
    decodeTableWord 32 0x46834122 = some (.maxS 0x83 0x41 0x22) ∧
    decodeTableWord 32 0x47834122 = some (.andS 0x83 0x41 0x22) ∧
    decodeTableWord 32 0x48834122 = some (.orS 0x83 0x41 0x22) ∧
    decodeTableWord 32 0x49834122 = some (.xorS 0x83 0x41 0x22) ∧
    decodeTableWord 32 0x4A834122 = some (.shlS 0x83 0x41 0x22) ∧
    decodeTableWord 32 0x4B834122 = some (.shrS 0x83 0x41 0x22) ∧
    decodeTableWord 32 0x4C834122 = some (.shaS 0x83 0x41 0x22) ∧
    decodeTableWord 32 0x4D834122 = some (.rolS 0x83 0x41 0x22) ∧
    decodeTableWord 32 0x4E834122 = some (.cmpEqS 0x83 0x41 0x22) ∧
    decodeTableWord 32 0x4F834122 = some (.cmpNeS 0x83 0x41 0x22) := by decide

theorem test_decode_scalar_other :
    decodeTableWord 32 0x50834122 = some (.cmpLtS 0x83 0x41 0x22) ∧
    decodeTableWord 32 0x51834122 = some (.cmpLeS 0x83 0x41 0x22) ∧
    decodeTableWord 32 0x52834122 = some (.selS 0x83 0x41 0x22) ∧
    decodeTableWord 32 0x53834122 = some (.bfxS 0x83 0x41 0x22) ∧
    decodeTableWord 32 0x54834122 = some (.bfiS 0x83 0x41 0x22) ∧
    decodeTableWord 32 0x58834122 = some (.faddS 0x83 0x41 0x22) ∧
    decodeTableWord 32 0x59834122 = some (.fsubS 0x83 0x41 0x22) ∧
    decodeTableWord 32 0x5A834122 = some (.fmulS 0x83 0x41 0x22) ∧
    decodeTableWord 32 0x5B834122 = some (.fmaS 0x83 0x41 0x22) := by decide

theorem test_decode_scalar_floating :
    decodeTableWord 32 0x62834100 = some (.movS 0x83 0x41) ∧
    decodeTableWord 32 0x63834100 = some (.movpS 0x83 0x41) := by decide

theorem test_decode_scalar_moves :
    decodeTableWord 32 0x70838001 = some (.moviS 0x83 0x8001) ∧
    decodeTableWord 32 0x71838001 = some (.movhiS 0x83 0x8001) ∧
    decodeTableWord 32 0x72838001 = some (.addiS 0x83 0x8001) := by decide

theorem test_decode_control :
    decodeTableWord 32 0x80008001 = some (.bra 0x8001) ∧
    decodeTableWord 32 0x81838001 = some (.brc 0x83 0x8001) ∧
    decodeTableWord 32 0x82838001 = some (.brv 0x83 0x8001) ∧
    decodeTableWord 32 0x83838001 = some (.call 0x83 0x8001) ∧
    decodeTableWord 32 0x84008300 = some (.ret 0x83) ∧
    decodeTableWord 32 0x85008300 = some (.jmpr 0x83) ∧
    decodeTableWord 32 0x86000000 = some .regang ∧
    decodeTableWord 32 0x87000000 = some .exit ∧
    decodeTableWord 32 0x88000000 = some .nop ∧
    decodeTableWord 32 0x89000101 = some (.modeT 0x101) ∧
    decodeTableWord 32 0x89010201 = some (.modeG 0x201) ∧
    decodeTableWord 32 0x8A038001 = some (.mxmode .mm1High 0x8001) ∧
    decodeTableWord 32 0x8B000801 = some (.waitf 0x801) ∧
    decodeTableWord 32 0x8C008001 = some (.trap 0x8001) ∧
    decodeTableWord 32 0x8D000000 = some .rtt ∧
    decodeTableWord 32 0x8E008001 = some (.brk 0x8001) ∧
    decodeTableWord 32 0x8F000000 = some .yield := by decide

theorem test_decode_memory_and_atomics :
    decodeTableWord 32 0x90834131 = some (.ld 0x83 0x41 { width := .b16, scope := .dev, order := .acquire }) ∧
    decodeTableWord 32 0x91834131 = some (.ldb 0x83 0x41 { width := .b16, scope := .dev, order := .acquire }) ∧
    decodeTableWord 32 0x92834116 = some (.st 0x83 0x41 { width := .b8, scope := .sys, order := .release }) ∧
    decodeTableWord 32 0x93834180 = some (.lds 0x83 0x41 { width := .b128, scope := .grp, order := .relaxed }) ∧
    decodeTableWord 32 0x94834180 = some (.sts 0x83 0x41 { width := .b128, scope := .grp, order := .relaxed }) ∧
    decodeTableWord 32 0x95834167 = some (.atomAdd 0x83 0x41 { width := .b64, scope := .team, order := .acqRel }) ∧
    decodeTableWord 32 0x96834167 = some (.atomMin 0x83 0x41 { width := .b64, scope := .team, order := .acqRel }) ∧
    decodeTableWord 32 0x97834167 = some (.atomMax 0x83 0x41 { width := .b64, scope := .team, order := .acqRel }) ∧
    decodeTableWord 32 0x98834167 = some (.atomAnd 0x83 0x41 { width := .b64, scope := .team, order := .acqRel }) ∧
    decodeTableWord 32 0x99834167 = some (.atomOr 0x83 0x41 { width := .b64, scope := .team, order := .acqRel }) ∧
    decodeTableWord 32 0x9A834167 = some (.atomXor 0x83 0x41 { width := .b64, scope := .team, order := .acqRel }) ∧
    decodeTableWord 32 0x9B834167 = some (.atomXchg 0x83 0x41 { width := .b64, scope := .team, order := .acqRel }) ∧
    decodeTableWord 32 0x9C83414E = some (.atomnAdd 0x83 0x41 { width := .b32, scope := .die, order := .release }) ∧
    decodeTableWord 32 0x9D83414E = some (.atomnMin 0x83 0x41 { width := .b32, scope := .die, order := .release }) ∧
    decodeTableWord 32 0x9E83414E = some (.atomnMax 0x83 0x41 { width := .b32, scope := .die, order := .release }) ∧
    decodeTableWord 32 0x9F83414E = some (.atomnAnd 0x83 0x41 { width := .b32, scope := .die, order := .release }) := by decide

theorem test_decode_atomics_and_maintenance :
    decodeTableWord 32 0xA083414E = some (.atomnOr 0x83 0x41 { width := .b32, scope := .die, order := .release }) ∧
    decodeTableWord 32 0xA183414E = some (.atomnXor 0x83 0x41 { width := .b32, scope := .die, order := .release }) ∧
    decodeTableWord 32 0xA2834167 = some (.cas 0x83 0x41 { width := .b64, scope := .team, order := .acqRel }) ∧
    decodeTableWord 32 0xA383419A = some (.mop 0x83 0x41 9 .sys) ∧
    decodeTableWord 32 0xA483419A = some (.mopr 0x83 0x41 9 .sys) ∧
    decodeTableWord 32 0xA500000B = some (.fence .clu .acqRel) ∧
    decodeTableWord 32 0xA6008341 = some (.clean 0x83 0x41) ∧
    decodeTableWord 32 0xA7008341 = some (.inval 0x83 0x41) ∧
    decodeTableWord 32 0xA8008341 = some (.discard 0x83 0x41) ∧
    decodeTableWord 32 0xA9008341 = some (.pref 0x83 0x41) ∧
    decodeTableWord 32 0xAA008341 = some (.aszload 0x83 0x41) ∧
    decodeTableWord 32 0xAB008300 = some (.monitor 0x83) ∧
    decodeTableWord 32 0xAC008300 = some (.mwait 0x83) := by decide

theorem test_decode_system :
    decodeTableWord 32 0xB0834122 = some (.shflIdx 0x83 0x41 0x22) ∧
    decodeTableWord 32 0xB1834122 = some (.shflXor 0x83 0x41 0x22) ∧
    decodeTableWord 32 0xB2834122 = some (.shflUp 0x83 0x41 0x22) ∧
    decodeTableWord 32 0xB3834122 = some (.shflDn 0x83 0x41 0x22) ∧
    decodeTableWord 32 0xB4834122 = some (.bcast 0x83 0x41 0x22) ∧
    decodeTableWord 32 0xB5834100 = some (.vote 0x83 0x41) ∧
    decodeTableWord 32 0xB6830000 = some (.elect 0x83) ∧
    decodeTableWord 32 0xB783410A = some (.cvt 0x83 0x41 .bf16x2) ∧
    decodeTableWord 32 0xB8834100 = some (.rnenc 0x83 0x41) ∧
    decodeTableWord 32 0xB9834100 = some (.rndec 0x83 0x41) ∧
    decodeTableWord 32 0xBA830000 = some (.getx 0x83) ∧
    decodeTableWord 32 0xBB008300 = some (.setx 0x83) ∧
    decodeTableWord 32 0xBC830054 = some (.rdsr 0x83 0x54) ∧
    decodeTableWord 32 0xBD008354 = some (.wrsr 0x83 0x54) := by decide

theorem test_decode_matrix_and_tiles :
    decodeTableWord 32 0xC0834122 = some (.mma 0x83 0x41 0x22) ∧
    decodeTableWord 32 0xC1834122 = some (.mmar 0x83 0x41 0x22) ∧
    decodeTableWord 32 0xC2834100 = some (.tdesc 0x83 0x41) ∧
    decodeTableWord 32 0xC3834122 = some (.tmul 0x83 0x41 0x22) ∧
    decodeTableWord 32 0xC4834122 = some (.tadd 0x83 0x41 0x22) ∧
    decodeTableWord 32 0xC5834102 = some (.tmap 0x83 0x41 .negate) ∧
    decodeTableWord 32 0xC6834122 = some (.tscl 0x83 0x41 0x22) ∧
    decodeTableWord 32 0xC7834100 = some (.ttrn 0x83 0x41) ∧
    decodeTableWord 32 0xC8834122 = some (.tslc 0x83 0x41 0x22) ∧
    decodeTableWord 32 0xC9834122 = some (.tbcast 0x83 0x41 0x22) ∧
    decodeTableWord 32 0xCA834112 = some (.tred 0x83 0x41 true .min) ∧
    decodeTableWord 32 0xCB834122 = some (.tstore 0x83 0x41 0x22) ∧
    decodeTableWord 32 0xCC830000 = some (.tforce 0x83) ∧
    decodeTableWord 32 0xCD830000 = some (.tdrop 0x83) := by decide

theorem test_decode_engine_and_messages :
    decodeTableWord 32 0xD0054122 = some (.spseed 5 0x41 0x22) ∧
    decodeTableWord 32 0xD1050000 = some (.spnext 5) ∧
    decodeTableWord 32 0xD2830522 = some (.splt 0x83 5 0x22) ∧
    decodeTableWord 32 0xD3830506 = some (.spcmp 0x83 5 6) ∧
    decodeTableWord 32 0xD4830522 = some (.spidx 0x83 5 0x22) ∧
    decodeTableWord 32 0xD5830500 = some (.spval 0x83 5) ∧
    decodeTableWord 32 0xD6830500 = some (.splen 0x83 5) ∧
    decodeTableWord 32 0xD7834122 = some (.cpy 0x83 0x41 0x22) ∧
    decodeTableWord 32 0xD8830000 = some (.cpclose 0x83) ∧
    decodeTableWord 32 0xD9008300 = some (.waitb 0x83) ∧
    decodeTableWord 32 0xDA008341 = some (.bcinit 0x83 0x41) ∧
    decodeTableWord 32 0xDB008341 = some (.bcexp 0x83 0x41) ∧
    decodeTableWord 32 0xDC008341 = some (.bcarr 0x83 0x41) ∧
    decodeTableWord 32 0xDD008341 = some (.bcwait 0x83 0x41) ∧
    decodeTableWord 32 0xDE834122 = some (.amsg 0x83 0x41 0x22) := by decide

theorem test_decode_short_forms :
    decodeTableWord 32 0xE0834100 = some (.abs 0x83 0x41) ∧
    decodeTableWord 32 0xE1834100 = some (.absS 0x83 0x41) ∧
    decodeTableWord 32 0xE0834101 = some (.neg 0x83 0x41) ∧
    decodeTableWord 32 0xE1834101 = some (.negS 0x83 0x41) ∧
    decodeTableWord 32 0xE0834102 = some (.not 0x83 0x41) ∧
    decodeTableWord 32 0xE1834102 = some (.notS 0x83 0x41) ∧
    decodeTableWord 32 0xE0834103 = some (.clz 0x83 0x41) ∧
    decodeTableWord 32 0xE1834103 = some (.clzS 0x83 0x41) ∧
    decodeTableWord 32 0xE0834104 = some (.popc 0x83 0x41) ∧
    decodeTableWord 32 0xE1834104 = some (.popcS 0x83 0x41) ∧
    decodeTableWord 32 0xE0834105 = some (.brev 0x83 0x41) ∧
    decodeTableWord 32 0xE1834105 = some (.brevS 0x83 0x41) ∧
    decodeTableWord 32 0xE2834100 = some (.frcp 0x83 0x41) ∧
    decodeTableWord 32 0xE2834101 = some (.frsq 0x83 0x41) ∧
    decodeTableWord 32 0xE2834102 = some (.fsqrt 0x83 0x41) ∧
    decodeTableWord 32 0xE2834103 = some (.fex2 0x83 0x41) ∧
    decodeTableWord 32 0xE2834104 = some (.flg2 0x83 0x41) ∧
    decodeTableWord 32 0xE2834105 = some (.fsin 0x83 0x41) ∧
    decodeTableWord 32 0xE2834106 = some (.fcos 0x83 0x41) ∧
    decodeTableWord 32 0xE2834107 = some (.ftnh 0x83 0x41) ∧
    decodeTableWord 32 0xE2834108 = some (.fclass 0x83 0x41) ∧
    decodeTableWord 32 0xE3834108 = some (.reduce 0x83 0x41 .fmax) ∧
    decodeTableWord 32 0xE4834185 = some (.scan 0x83 0x41 true .xor) ∧
    decodeTableWord 32 0xE5008309 = some (.chsend 0x83 9) ∧
    decodeTableWord 32 0xE5830049 = some (.chrecv 0x83 9) ∧
    decodeTableWord 32 0xE5830089 = some (.chpoll 0x83 9) ∧
    decodeTableWord 32 0xE6008309 = some (.bar 0x83 9) ∧
    decodeTableWord 32 0xE6008389 = some (.barc 0x83 9) ∧
    decodeTableWord 32 0xE7834100 = some (.tspawn 0x83 0x41) ∧
    decodeTableWord 32 0xE7830001 = some (.tstat 0x83) ∧
    decodeTableWord 32 0xE7008302 = some (.jcancel 0x83) ∧
    decodeTableWord 32 0xE7000003 = some .qend := by decide

theorem test_decode_header :
    decodeTableWord 32 0xF8013F70 = some (.clause 0x801 (some 3) none 7) := by decide

/-- Why a word is refused. -/
def refusal (w : Word) : Option DecodeError :=
  match decode w with
  | .ok _ => none
  | .error e => some e

/-- Fields marked 0, reserved codes and reserved combinations are refused (R3, R105 to R107, R109, R114). -/
theorem test_decode_refuses :
    refusal 0x22834122 = some .nonzeroField ∧ refusal 0x84010000 = some .nonzeroField ∧
    refusal 0x9083415E = some .reservedCode ∧ refusal 0x908341A0 = some .reservedCode ∧
    refusal 0x90834142 = some .badCombination ∧ refusal 0xF0000001 = some .badHeader ∧
    refusal 0xF000C010 = some .badHeader := by decide

/-- Opcodes and sub values that no table assigns (R108, R116). -/
theorem test_decode_unassigned :
    decodeTableWord 32 0x15000000 = some (.unassignedOpcode 0x15000000#32) ∧ decodeTableWord 32 0xEF123456 = some (.unassignedOpcode 0xEF123456#32) ∧
    decodeTableWord 32 0xE0000006 = some (.unassignedOpcode 0xE0000006#32) ∧ decodeTableWord 32 0xE7000004 = some (.unassignedOpcode 0xE7000004#32) ∧
    decodeTableWord 32 0xE30000FF = some (.unassignedOpcode 0xE30000FF#32) := by decide

/-- A clause header's fields (R72). -/
theorem test_decode_headers :
    decodeTableWord 32 0xFFFF0BF0 = some (.clause 0xFFF (some 0) (some 11) 15) ∧
    decodeTableWord 32 0xF000FF00 = some (.clause 0 none none 0) := by decide

/-- The table's numbering of a word's bits is the word's own. -/
theorem test_decodeTableWord : decodeTableWord 32 0x00834122 = some (.add 0x83 0x41 0x22) ∧ decodeTableWord 32 0x22834122 = none := by decide



/-! ## Small states -/

/-- A running machine: one launch, whose one group stands in slot 0 before the body word of a clause. -/
def ready : State :=
  { State.reset.withFetchWord 32 0x88000000 with agenda := [], issue := { slot := 0, pc := Place.body } }

/-- The same with the group changed. -/
def readyBut (f : Group → Group) : State := ready.modGroup 0 f

/-- The execution that stands ready in slot 0. -/
def cx (s : State) : Ctx :=
  let g := (s.group s.issue.slot).getD (Place.group false)
  { slot := s.issue.slot, pc := s.issue.pc, g := g, gang := g.gang s.issue.pc }

/-- A group with other GM, GS or XEN. -/
def gmBe (x : Word) (g : Group) : Group := { g with modes := { g.modes with gm := x } }
def gsBe (x : Word) (g : Group) : Group := { g with modes := { g.modes with gs := x } }
def xenBe (x : Word) (g : Group) : Group := { g with modes := { g.modes with xen := x } }

/-- A register of every lane. -/
def regBe (r : Nat) (x : Word) (g : Group) : Group := g.writeLanes r 1 (x.setWidth 64) (List.range 16)

/-- A register of some lanes. -/
def lanesBe (r : Nat) (x : Word) (ls : List Nat) (g : Group) : Group := g.writeLanes r 1 (x.setWidth 64) ls

/-- The lanes in exec of every strand. -/
def execBe (m : BitVec 4) (g : Group) : Group := { g with strands := g.strands.map fun t => { t with exec := m } }

/-- Launch 0 with another descriptor. -/
def descBe (f : Desc → Desc) (s : State) : State :=
  { s with launches := s.launches.update 0 fun l => { l with desc := f l.desc } }

/-- What a step leaves. -/
def after (r : Out) : State := match r with | .next t => t | _ => State.reset

/-- The group in slot 0 after a step. -/
def groupAfter (r : Out) : Group := ((after r).group 0).getD (Place.group false)

/-! ## The hypotheses of the statements are met -/

theorem test_step_runs_a_word :
    let s := State.reset.withFetchWord 32 0x88000000
    let u := (({ s.advanceTime with agenda := [] } : State).readTables (.issue 0 Place.body)).afterLogged
    let g := Place.group false
    (s.agenda = [.issue 0 Place.body] ∧ u.group 0 = some g ∧ g.gang Place.body ≠ [] ∧ u.mayIssue g = true ∧
      BreakFree g Place.body 0x88000000 ∧ u.isDet 0 = false) ∧ ∃ v, fetchWord u 0 g Place.body = .word 0x88000000 v :=
  ⟨by decide, _, rfl⟩

theorem test_step_runs_a_refused_word :
    (∃ v, fetchWord (({ (State.reset.withFetchWord 32 0x84010000).advanceTime with agenda := [] } : State).readTables
      (.issue 0 Place.body)).afterLogged 0 (Place.group false) Place.body = .word 0x84010000 v) ∧ decode 0x84010000#32 = .error .nonzeroField := ⟨⟨_, rfl⟩, rfl⟩

theorem test_step_runs_an_event : Instr.coldStart.isWord = false := rfl

theorem test_encode_of_well_formed :
    (Instr.ld 3 2 { width := .b128, scope := .sys, order := .acquire }).wellFormed = true ∧
    encode (.ld 3 2 { width := .b128, scope := .sys, order := .acquire }) = some 0x90030295#32 := by decide

theorem test_vector_issues : ∃ mk, vectorForm (.add 251 0 251) = some mk ∧
    let f := mk (cx ready).g.modes.gm
    let c := cx ready
    Issues ready c { Needs.regs (f.dst :: f.srcs) with mode := f.ok } ∧ NoStep c ∧
      NoTrap c.g (c.lanes.map fun l => (l, (f.eval c.g l).2)) := ⟨_, rfl, by decide⟩

theorem test_vector_issues_pairs : ∃ mk, vectorForm (.fma 4 6 250) = some mk ∧
    let s := readyBut (gmBe 9)
    let c := cx s
    let f := mk c.g.modes.gm
    Issues s c { Needs.regs (f.dst :: f.srcs) with mode := f.ok } ∧ NoStep c ∧
      NoTrap c.g (c.lanes.map fun l => (l, (f.eval c.g l).2)) := ⟨_, rfl, by decide +kernel⟩

theorem test_twin_issues : ∃ mk, twinOf (.shlS 3 1 2) = some (.shl 3 1 2) ∧ vectorForm (.shl 3 1 2) = some mk ∧
    let c := cx ready
    let f := mk c.g.modes.gm
    Issues ready c { Needs.unguarded (f.dst :: f.srcs) with mode := f.ok } ∧ NoStep c ∧
      NoTrap c.g ((Group.gangLanes c.gang).map fun l => (l, (twinResult f c).2)) := ⟨_, rfl, rfl, by decide⟩

/-- The reciprocal of zero with the trap on DZ enabled: lanes 0 to 3 hold 1.0 and do not reach it. -/
def dividing : State := readyBut fun g => lanesBe 1 0x3F800000 [0, 1, 2, 3] (xenBe 2 (gmBe 8 g))

theorem test_flag_traps : ∃ mk, vectorForm (.frcp 3 1) = some mk ∧
    let c := cx dividing
    let f := mk c.g.modes.gm
    Issues dividing c { Needs.regs (f.dst :: f.srcs) with mode := f.ok } ∧ CanTrap dividing c.g 0x200 ∧
      flagTrap c.g (c.lanes.map fun l => (l, (f.eval c.g l).2)) = some (.fpx, [4, 5, 6, 7, 8, 9, 10, 11, 12, 13, 14, 15]) :=
  ⟨_, rfl, by decide +kernel⟩

/-- A twin with NUREAD enabled whose sources differ, and one whose own result raises IV, which is enabled. -/
theorem test_twin_traps : ∃ mk, twinOf (.faddS 3 1 2) = some (.fadd 3 1 2) ∧ vectorForm (.fadd 3 1 2) = some mk ∧
    (let s := readyBut fun g => lanesBe 1 0x3F800000 [5] (xenBe 0x20 (gmBe 8 g)); let c := cx s; let f := mk c.g.modes.gm
     let nur := (twinReads f c).foldl (fun a x => a ||| x.2) (0 : Flags)
     Issues s c { Needs.unguarded (f.dst :: f.srcs) with mode := f.ok } ∧ CanTrap s c.g 0x200 ∧ nur.causes c.g.modes.xen = [.nuread]) ∧
    (let s := readyBut fun g => regBe 1 0x7F800001 (xenBe 1 (gmBe 8 g)); let c := cx s; let f := mk c.g.modes.gm
     let nur := (twinReads f c).foldl (fun a x => a ||| x.2) (0 : Flags)
     Issues s c { Needs.unguarded (f.dst :: f.srcs) with mode := f.ok } ∧ nur.causes c.g.modes.xen = [] ∧
      ((f.fn ((twinReads f c).map (·.1))).2).causes c.g.modes.xen = [.fpx]) := ⟨_, rfl, rfl, by decide +kernel⟩

theorem test_bad_operand : ∃ mk, vectorForm (.movp 3 252) = some mk ∧
    let c := cx ready
    let f := mk c.g.modes.gm
    Stands ready c ∧ CanTrap ready c.g 0x200 ∧ (∀ k ∈ c.gang, (c.g.strand k).inBody = true) ∧
      c.g.nregs < (Opnd.two 252).reg + (Opnd.two 252).count ∧ (Opnd.two 3).reg % (Opnd.two 3).count ≠ 0 ∧
      f.ok = true := ⟨_, rfl, by decide⟩

theorem test_bad_mode : ∃ mk, vectorForm (.add 3 1 2) = some mk ∧ twinOf (.addS 3 1 2) = some (.add 3 1 2) ∧
    Stands (readyBut (gmBe 8)) (cx (readyBut (gmBe 8))) ∧ (mk 8).ok = false := ⟨_, rfl, rfl, by decide⟩

theorem test_bad_guard : let c := cx (readyBut (gmBe 0x3FE00))
    Stands (readyBut (gmBe 0x3FE00)) c ∧ Gm.gen c.g.modes.gm = true ∧ c.g.nregs ≤ Gm.greg c.g.modes.gm := by decide

/-- The integer element types. -/
def intTypes : List ElemType := [.i32, .n32, .i64, .n64, .i16x2, .n16x2, .i8x4, .n8x4]

theorem test_integers_issue : ∀ t ∈ intTypes, ∀ sat, t.isInt = true ∧
    let s := readyBut (gmBe ((t.code ||| if sat then 0x80 else 0).setWidth 32))
    let c := cx s
    Gm.et c.g.modes.gm = some t ∧ Gm.sat c.g.modes.gm = sat ∧
      Issues s c (Needs.regs [opndOf t 250, opndOf t 250, opndOf t 0, opndOf t 2]) ∧
      Issues s c (Needs.regs [opndOf t 4, opndOf t 6, .one 251]) ∧ NoStep c := by decide

theorem test_element_counts : ∀ t ∈ [ElemType.i32, .n32, .i64, .n64], t.isInt = true ∧ t.count = 1 := by decide

theorem test_moves_issue : Issues ready (cx ready) (Needs.regs [.two 250, .two 0]) ∧
    Issues ready (cx ready) (Needs.regs [.one 251, .one 251]) ∧ NoStep (cx ready) := by decide

theorem test_shuffles_issue : Issues ready (cx ready) (Needs.regs [.one 3, .one 1, .one 2]) ∧
    IssuesUniform ready (cx ready) (Needs.regs [.one 3, .one 1, .one 2]) [.one 2] ∧ (cx ready).lanes ≠ [] ∧
    (let s := readyBut (regBe 2 15)
     IssuesUniform s (cx s) (Needs.regs [.one 3, .one 1, .one 2]) [.one 2] ∧
      ((cx s).uniform (.one 2)).toNat < (cx s).g.width) ∧
    (let s := readyBut (regBe 2 16)
     IssuesUniform s (cx s) (Needs.regs [.one 3, .one 1, .one 2]) [.one 2] ∧
      (cx s).g.width ≤ ((cx s).uniform (.one 2)).toNat) := by decide

/-- With the guard on v0 bit 0, which is clear, no lane is active. -/
def idle : State := readyBut (gmBe 0x20000)

theorem test_idle : (cx idle).lanes = [] ∧ NoStep (cx idle) ∧
    IssuesUniform idle (cx idle) (Needs.regs [.one 3, .one 1, .one 2]) [.one 2] ∧
    Issues idle (cx idle) (Needs.regs [.two 4, .one 1]) ∧ Issues idle (cx idle) (Needs.unguarded [.two 4]) ∧
    Issues idle (cx idle) (Needs.regs []) := by decide

theorem test_masks_issue : Issues ready (cx ready) (Needs.regs [.two 250, .one 251]) ∧
    Issues ready (cx ready) (Needs.unguarded [.two 250]) ∧ Issues ready (cx ready) (Needs.regs [.one 251]) := by decide

theorem test_reductions_issue : ∀ t ∈ intTypes, RedOp.add ∉ [RedOp.fadd, .fmin, .fmax] ∧
    let s := readyBut (gmBe (t.code.setWidth 32))
    Gm.et (cx s).g.modes.gm = some t ∧ Issues s (cx s) (Needs.regs [opndOf t 4, opndOf t 6]) := by decide


/-- The floating element types with the patterns of 1 and of a NaN. -/
def floatTypes : List (ElemType × Word) := [(.f32, 0x3F800000), (.f64, 0x3F800000), (.f16x2, 0x3C003C00), (.bf16x2, 0x3F803F80)]

/-- Numbers and NaNs are at hand in every floating type and mode. -/
theorem test_floats_issue : ∀ t ∈ floatTypes, ∀ rm ∈ [(RMode.rne, 0), (.rtz, 1), (.rup, 2), (.rdn, 3), (.rna, 4)],
    let s := readyBut fun g => regBe 4 t.2 (regBe 7 0x7FF80001 (regBe 6 0xFFFFFFFF (gmBe (t.1.code.setWidth 32 ||| rm.2 <<< 4) g)))
    let c := cx s
    let x (r : Nat) : Nat := Elem.raw t.1.bits 0 (readOf c.g (opndOf t.1 (BitVec.ofNat 8 r)) 5)
    t.1.isFloat = true ∧ Gm.et c.g.modes.gm = some t.1 ∧ Gm.rm c.g.modes.gm = some rm.1 ∧ Gm.ftz c.g.modes.gm = false ∧
      (∀ j ∈ [0, 1, 2, 3, 4, 7, 9], c.g.modes.xen.getLsbD j = false) ∧ NoStep c ∧ FiniteIn t.1 (x 4) ∧ NanIn t.1 (x 6) ∧ 5 ∈ c.lanes ∧
      ∀ srcs ∈ [[2, 4, 6], [4, 6], [4], [6]], Issues s c (Needs.regs (opndOf t.1 2 :: srcs.map (opndOf t.1))) := by
  decide +kernel

/-- What a number, an infinity, a zero and a subnormal number are, and residues with a value and poison. -/
theorem test_float_patterns : valOf .f32 0x3F800000 = 2 ^ 149 ∧ valOf .f16x2 0xC000 = -2 ^ 25 ∧ valOf .bf16x2 0x8001 = -1 ∧
    lowOf .f64 0xFFF0000000000000 = infOf .f64 ∧ negOf .f64 0xFFF0000000000000 = true ∧ FiniteIn .f32 0x7F7FFFFF ∧
    ¬ FiniteIn .f32 0x7F800000 ∧ ¬ NanIn .f32 0x7F800000 ∧ Holds .rn16 0x7BBC (-3) ∧ loOf .rn16 ≤ -3 ∧ ¬ Poison .rn16 0x7BBC ∧
    Poison .rn8 0xFF ∧ RoundsTo .f32 .rne false (fun y => compare 1 y) 0 ∧ RoundsTo .f32 .rup false (fun y => compare 1 y) 1 ∧
    RoundsInt .rna 5 2 3 ∧ RoundsInt .rne 5 2 2 := by
  simp only [Holds, Poison, RoundsTo, RoundsInt]
  decide +kernel

/-- With FTZ a subnormal reads as a zero of its sign, but in f64; the midpoint below the smallest normal is not tiny under
RNE (R8, R129). -/
theorem test_flushing : flushed .f32 true 0x807FFFFF = 0x80000000 ∧ flushed .f32 true 0x00800000 = 0x00800000 ∧
    flushed .f64 true 1 = 1 ∧ flushed .f16x2 false 1 = 1 ∧ TinyIn .f32 .rne false (compare 0x1FFFFFE) ∧
    ¬ TinyIn .f32 .rne false (compare 0x1FFFFFF) ∧ TinyIn .f32 .rup false (compare 0x1FFFFFE) ∧
    ¬ TinyIn .f32 .rup false (compare 0x1FFFFFF) ∧ TinyIn .f32 .rdn false (compare 0x1FFFFFF) ∧
    (Fp.mul { rm := .rne, ftz := true } .f32 0x80800001 0x3F7FFFFE).1 = 0x80800000 ∧
    (Fp.mul { rm := .rtz, ftz := true } .f32 0x80800001 0x3F7FFFFE).1 = 0x80000000 ∧
    (Fp.add { rm := .rne, ftz := true } .f32 0x00C00000 0x80400000).1 = 0x00C00000 := by
  simp only [TinyIn]
  decide +kernel

/-- The residue types, and a source of every kind. -/
theorem test_conversions_issue : ∀ t ∈ [(ElemType.rn16, 12), (.rn8, 13), (.i32, 0), (.f32, 8)],
    let s := readyBut (gmBe t.2); let c := cx s
    Gm.et c.g.modes.gm = some t.1 ∧ Gm.sat c.g.modes.gm = false ∧ Gm.rm c.g.modes.gm = some .rne ∧
      ∀ src ∈ [ElemType.i32, .n64, .f64, .bf16x2, .rn16], Issues s c (Needs.regs [opndOf t.1 2, opndOf src 4]) := by decide +kernel

/-- The floating reductions, of every lane and of none. -/
theorem test_float_reductions_issue : ∀ t ∈ floatTypes, ∀ off : Bool,
    let s := readyBut fun g => regBe 4 t.2 (gmBe (t.1.code.setWidth 32 ||| if off then 0x20100 else 0) g)
    let c := cx s
    Gm.et c.g.modes.gm = some t.1 ∧ Gm.rm c.g.modes.gm = some .rne ∧ Gm.ftz c.g.modes.gm = off ∧
      (∀ j < 5, c.g.modes.xen.getLsbD j = false) ∧ c.lanes.isEmpty = off ∧ NoStep c ∧
      Issues s c (Needs.regs [opndOf t.1 2, opndOf t.1 4]) := by decide +kernel


/-! ### Control -/

/-- Strand stacks. -/
def stacksBe (st : List StackEntry) (g : Group) : Group := { g with strands := g.strands.map fun t => { t with stack := st } }
def fullStack : List StackEntry := List.replicate 16 (.path 0x400 1)

theorem test_branches_issue : Issues ready (cx ready) (Needs.ending []) ∧ Issues ready (cx ready) (Needs.ending [.two 250]) ∧
    NoStep (cx ready) ∧ IssuesUniform ready (cx ready) (Needs.ending [.one 251]) [.one 251] ∧
    IssuesUniform ready (cx ready) (Needs.ending [.two 250]) [.two 250] := by decide

theorem test_branch_targets : ((cx ready).uniform (.two 4)).toNat % 4 = 0 ∧
    (let s := readyBut (regBe 4 2)
     IssuesUniform s (cx s) (Needs.ending [.two 4]) [.two 4] ∧ ((cx s).uniform (.two 4)).setWidth 52 = 2#52) := by decide

theorem test_brv_issues :
    (let s := readyBut (lanesBe 1 1 [0, 1, 6])
     Issues s (cx s) { Needs.ending [.one 1] with guard := true } ∧ NoStep (cx s) ∧
      (∀ i ∈ (cx s).gang, ¬ 16 ≤ ((cx s).g.strand i).stack.length)) ∧
    (let s := readyBut fun g => stacksBe fullStack (lanesBe 1 1 [0, 1, 6] g)
     let c := cx s
     Issues s c { Needs.ending [.one 1] with guard := true } ∧ 0 ∈ c.gang ∧ 16 ≤ (c.g.strand 0).stack.length ∧
      (c.lanes.filter fun l => (c.g.reg 1 l).getLsbD 0) = [0, 1, 6] ∧ 2 ∈ c.lanes) := by decide

theorem test_setx_issues :
    (let s := readyBut (regBe 4 0x11)
     IssuesUniform s (cx s) (Needs.ending [.two 4]) [.two 4] ∧ (∀ i ∈ (cx s).gang, ¬ 16 ≤ ((cx s).g.strand i).stack.length)) ∧
    (let s := readyBut fun g => stacksBe fullStack (regBe 4 0x11 g)
     let c := cx s
     IssuesUniform s c (Needs.ending [.two 4]) [.two 4] ∧ 16 ≤ (c.g.strand 0).stack.length ∧ c.g.execLanes [0] = [0, 1, 2, 3] ∧
      (c.uniform (.two 4)).getLsbD 0 = true ∧ (c.uniform (.two 4)).getLsbD 1 = false) := by decide

/-- A strand at 0x104 with a stack. -/
def strandWith (st : List StackEntry) : Strand := { (Place.group false).strand 0 with stack := st, exec := 5 }

theorem test_regang_stacks : (strandWith []).record = none ∧
    (strandWith [.park 0x104 2, .path 0x300 8]).stack = [] ++ [.park 0x104 2, .path 0x300 8] ∧
    (strandWith [.path 0x300 8]).stack = [] ++ [.path 0x300 8] ∧
    (strandWith [.park 0x104 2]).stack = [] ++ [.park 0x104 2] ∧
    (strandWith [.park 0x400 2]).stack = [] ++ [.park 0x400 2] ∧ (0x400 : VAddr) ≠ 0x104 := by decide

theorem test_regang_issues : Issues ready (cx ready) (Needs.ending []) ∧ NoStep (cx ready) ∧ NoWait (cx ready).g ∧
    (let after (i : Nat) : Strand :=
      if i ∈ (cx ready).gang then { (cx ready).g.strand i with run := .wait Place.body, stalled := none } else (cx ready).g.strand i
     ∀ i ∈ (cx ready).gang, ((cx ready).g.strand i).regang (cx ready).pc = .inl (after i)) ∧
    (let s := readyBut (stacksBe [.park 0x400 2])
     Issues s (cx s) (Needs.ending []) ∧ 0 ∈ (cx s).gang ∧ ((cx s).g.strand 0).regang (cx s).pc = .inr 15) := by decide

theorem test_exit_strands : let t := strandWith [.path 0x300 8]
    t.record = none ∧ t.exec &&& ~~~(1#4) ≠ 0 ∧ t.exec &&& ~~~(5#4) = 0 ∧ t.stack = [] ++ [.path 0x300 8] ∧
    (strandWith [.park 0x400 2]).stack = [] ++ [.park 0x400 2] ∧ (strandWith []).stack = [] := by decide

theorem test_exit_issues : Issues ready (cx ready) (Needs.regs []) ∧ NoStep (cx ready) ∧ NoWait (cx ready).g ∧
    (let after (i : Nat) : Strand := (((cx ready).g.strand i).advance.endLanes 15).nextWork
     (∀ i < (cx ready).g.strands.length, (after i).exited = true)) ∧
    (cx ready).lanes = Group.gangLanes (cx ready).gang ∧
    ready.team (cx ready).g.teamKey = some Place.team ∧ (cx ready).g.ident.grpid ∉ Place.team.exited ∧
    (let after (i : Nat) : Strand := (((cx idle).g.strand i).advance.endLanes 0).nextWork
     ∃ i < (cx idle).g.strands.length, (after i).exited = false) := by decide

/-- An operation in flight. -/
def anOp (kind : OpKind) : Op :=
  { slot := 0, core := 0, pc := 0x104, kind := kind, flag := some 3, dst := none, count := 1, width := 4, lanes := [0],
    strands := [0], pieces := [], results := [], acq := none, rel := none, copy := none, tile := none, channel := none,
    data := [], aux := 0, suspended := none }

/-- A state with operations in flight. -/
def withOps (ops : Sparse Op) (s : State) : State := { s with ids := 100, mem := { s.mem with ops := ops } }

/-- A load into v8 under flag 3 is in flight. -/
def loading : State := withOps [(7, { anOp .load with dst := some 8 })] ready

theorem test_words_issue : Issues ready (cx ready) (Needs.unguarded []) ∧ NoStep (cx ready) ∧
    Issues loading (cx loading) (Needs.unguarded []) ∧
    (∃ p ∈ loading.opsOf 0, p.2.flag = some 3 ∧ (0x008 : BitVec 12).getLsbD 3 = true) := by decide

/-- The group before its clause header. -/
def atHeader : State :=
  { State.reset.withFetchWord 32 0xF0000000 with agenda := [], issue := { slot := 0, pc := Place.header } }

theorem test_header_issues : Stands atHeader (cx atHeader) ∧
    (¬ ∃ i ∈ (cx atHeader).gang, ((cx atHeader).g.strand i).inBody = true) ∧ atHeader.opsOf 0 = [] ∧
    atHeader.team (cx atHeader).g.teamKey = some Place.team ∧ atHeader.launch (cx atHeader).g.launch = some Place.launch ∧
    (let s := withOps loading.mem.ops atHeader
     Stands s (cx s) ∧ ∃ p ∈ s.opsOf 0, p.2.flag = some 3 ∧ (0x008 : BitVec 12).getLsbD 3 = true) ∧
    Stands ready (cx ready) ∧ (∃ i ∈ (cx ready).gang, ((cx ready).g.strand i).inBody = true) := by decide

/-- A command of flag 3 has completed and is still to be observed: WAITF and a header that wait for the flag see its write,
and the older copy in L1 is brought up to date. -/
theorem test_words_observe : let done (s : State) : State :=
      { s.modGroup 0 fun g => { g with done := [{ flag := some 3, batch := none, rel := none, writes := [(0x11000, 32, 5)] }] } with
        cores := [(0, { s.core 0 with l1 := [{ addr := 0x11000, bytes := List.replicate 32 9, grain := 0, poison := false, since := 0 }] })] }
    Issues (done ready) (cx (done ready)) (Needs.unguarded []) ∧ Stands (done atHeader) (cx (done atHeader)) ∧
    ((done ready).group 0).map (fun g => g.done.map (Done.onFlags 0x008)) = some [true] ∧
    (groupAfter (exec (.waitf 0x008) (done ready))).view.floor 0x1101F = 5 ∧
    ((after (exec (.waitf 0x008) (done ready))).core 0).l1.map (fun x => x.bytes) = [List.replicate 32 0] ∧
    (groupAfter (exec (.clause 0x008 none none 0) (done atHeader))).view.floor 0x11000 = 5 := by decide +kernel

/-! ### Traps and special registers -/

/-- In the handler: TM is set, and every strand has a resume record. -/
def handling : State := readyBut fun g =>
  let h := g.enterHandler Place.body (TrapInfo.at 0x108 [0] .swtrap [0])
  { h with strands := h.strands.map fun t => { t with clause := some { hdr := Place.header, len := 1, flagA := none, flagB := none } } }

theorem test_traps_issue : Issues ready (cx ready) (Needs.regs []) ∧ (cx ready).lanes ≠ [] ∧ (cx ready).g.tm = false ∧
    CanTrap ready (cx ready).g 0x200 ∧ Issues handling (cx handling) (Needs.regs []) ∧ (cx handling).g.tm = true ∧
    (cx handling).lanes ≠ [] ∧ (cx handling).g.liveStrands ≠ [] := by decide

theorem test_halts : let s := descBe (fun d => { d with haddr := none }) ready
    Stands s (cx s) ∧ (cx s).g.liveStrands ≠ [] ∧ (cx s).g.tm = false ∧ ((s.launch (cx s).g.launch).bind (·.desc.haddr)) = none ∧
    Stands handling (cx handling) := by decide

theorem test_rtt_issues : Issues ready (cx ready) (Needs.ending []) ∧ Issues handling (cx handling) (Needs.ending []) ∧
    (cx handling).g.held = [] ∧ NoWait (cx handling).g ∧ (cx handling).g.trap.xcause ≠ BitVec.ofNat 32 Cause.late.code ∧
    (∀ i < (cx handling).g.strands.length, ((cx handling).g.strand i).exited = false ∧ i ∈ (cx handling).gang ∧
      ((cx handling).g.strand i).record.map (fun r => (r.depth, r.exec, r.run)) = some (0, 15, .run)) ∧
    ((cx handling).g.strand 4).exited = true ∧ ((cx handling).g.strand 4).record = none := by decide

/-- A record of another depth, or a strand at another word. -/
theorem test_rtt_halts : let deep := handling.modGroup 0 (stacksBe [.path 0x400 1])
    let apart := handling.modGroup 0 fun g => { g with strands := g.strands.mapIdx fun i t => if i = 2 then { t with pc := 0x108 } else t }
    (∀ s ∈ [deep, apart], Issues s (cx s) (Needs.ending []) ∧ (cx s).g.tm = true) ∧
    (0 < (cx deep).g.strands.length ∧ ((cx deep).g.strand 0).exited = false ∧ ((cx deep).g.strand 0).record.map (·.depth) = some 0 ∧
      ((cx deep).g.strand 0).stack.length = 1) ∧
    2 < (cx apart).g.strands.length ∧ ((cx apart).g.strand 2).exited = false ∧ 2 ∉ (cx apart).gang := by decide +kernel

/-- The handler of LATE, with the fault of copy 7 raised and that of copy 9 held. -/
def lateCopy (op : Nat) : Op :=
  { anOp .copy with copy := some { src := 0, dst := 0x40, ctl := 32, bar := 0, batch := 0, done := 1, arrived := 1 }, aux := 1
                    suspended := some { TrapInfo.at Place.body [0] .late [0] with sub := 4, addr := 0x1000, op := some op } }
def inLate (held : List TrapInfo) : State := withOps [(7, lateCopy 7), (9, lateCopy 9)] (handling.modGroup 0 fun g =>
  { g with held := held, trap := { g.trap with xcause := BitVec.ofNat 32 Cause.late.code } })

/-- A cause without an operation comes first where it is the oldest, and else the late fault that was issued first. -/
theorem test_rtt_delivers : let x (op : Option Nat) : TrapInfo := { TrapInfo.at Place.body [0] .late [0] with sub := 4, op := op }
    let y : TrapInfo := TrapInfo.at Place.body [0] .mtimeout [0]
    (∀ held ∈ [[x (some 9)], [y, x (some 9)]], let s := inLate held; let c := cx s
      Issues s c (Needs.ending []) ∧ NoWait c.g ∧ c.g.tm = true ∧ c.g.trap.xcause = BitVec.ofNat 32 Cause.late.code ∧
      c.g.held = held ∧ s.op 7 = some (lateCopy 7) ∧ (∀ t ∈ held, t.op ≠ some 7) ∧
      ((s.launch c.g.launch).bind (·.desc.haddr)) = some 0x200 ∧
      ((after (exec .rtt s)).op 7).map (fun o => (o.suspended, o.aux)) = some (none, 0) ∧
      ((groupAfter (exec .rtt s)).trap.xcause = BitVec.ofNat 32 (if held = [x (some 9)] then Cause.late else Cause.mtimeout).code)) ∧
    (x none).op = none := by decide +kernel

theorem test_special_registers : srAccess 0x09 = .unlisted ∧ srAccess 0x22 = .ro ∧ srAccess 0x10 = .rwTm ∧ srAccess 0x48 = .rw ∧
    Issues ready (cx ready) (Needs.regs [.one 251]) ∧ NoStep (cx ready) ∧ Stands ready (cx ready) ∧ (cx ready).g.tm = false ∧
    IssuesUniform ready (cx ready) (Needs.unguarded [.one 1]) [.one 1] ∧
    IssuesUniform handling (cx handling) (Needs.unguarded [.one 1]) [.one 1] ∧ (cx handling).g.tm = true := by decide


/-! ### Accesses -/

/-- What the checks of one address give. -/
def errorOf (r : Except Cause Phys) : Option Cause :=
  match r with
  | .ok _ => none
  | .error e => some e

theorem errorOf_eq (r : Except Cause Phys) (e : Cause) : errorOf r = some e ↔ r = .error e := by
  cases r <;> simp [errorOf]

/-- The accesses of the group that stands ready. -/
def accsOf (s : State) (a : Reg) (sp : AccSpec) : List LaneAcc := laneAccs (laneOuts s (cx s) a sp)

/-- What an access needs: a size and rights. -/
def needs (n : Nat) (rights : Access) : AccSpec :=
  { size := n, rights := rights, deny := fun _ => false, bad := fun _ => false, reach := false }

/-- What a load needs, and a read of a whole record. -/
def loadNeeds (s : State) (n : Nat) (bypass : Bool) : AccSpec :=
  { needs n .read with bad := loadPoison s (cx s) bypass n, reach := true }
def readNeeds (s : State) (n : Nat) : AccSpec := { needs n .read with bad := s.readPoison (cx s).g n, reach := true }

/-- Whether every lane's access passes, and nothing holds it back. -/
def accessOk (s : State) (a : Reg) (sp : AccSpec) (w : Watch) : Bool :=
  decide ((accsOf s a sp).map (·.lane) = (cx s).lanes) && !(accsOf s a sp).isEmpty &&
  (watchHit (cx s).g w sp.size (accsOf s a sp)).isNone && !accessHeld s (cx s) &&
  !rejectedMeets s (cx s) ((accsOf s a sp).map fun x => (x.phys.pa, sp.size))

theorem accessing_of_ok {s : State} {a : Reg} {sp : AccSpec} {w : Watch} (h : accessOk s a sp w = true) :
    Accessing s (cx s) a sp w (accsOf s a sp) := by
  simp only [accessOk, Bool.and_eq_true, decide_eq_true_eq, Bool.not_eq_true', Option.isNone_iff_eq_none] at h
  exact accessing_laneAccs _ _ _ _ _ h.1.1.1.1 (fun he => by rw [accsOf, he] at h; simp at h) h.1.1.2 ⟨h.1.2, h.2⟩

/-- Whether a store of `n` bytes there has nothing to wait for, and can be delivered. -/
def storeOk (s : State) (a : Reg) (sp : AccSpec) : Bool :=
  let spans := laneSpans sp.size (accsOf s a sp)
  s.releaseReady (cx s).slot .sys && decide (Unaliased s (cx s) spans) &&
  (accsOf s a sp).all fun x => s.deliverable x.phys.pa

/-- A group of which only lanes 0 and 1 live. -/
def few (g : Group) : Group :=
  { g with strands := g.strands.mapIdx fun i t => if i = 0 then { t with exec := 3 } else { t with run := .exited, exec := 0 } }

/-- The running machine with such a group. -/
def sparse : State := readyBut few

theorem test_loads_access (bypass : Bool) :
    let sp := loadNeeds sparse 16 bypass
    Issues sparse (cx sparse) (Needs.regs [dataOpnd 8 .b128, .two 4]) ∧ NoStep (cx sparse) ∧
      Accessing sparse (cx sparse) 4 sp .rd (accsOf sparse 4 sp) ∧
      ∀ x ∈ accsOf sparse 4 sp, loadWaits sparse (cx sparse) bypass 16 x.phys = false :=
  ⟨by decide, by decide, accessing_of_ok (by cases bypass <;> decide +kernel), by cases bypass <;> decide +kernel⟩

/-- Lane 0 holds a misaligned address, and lane 1 one on a page that is not mapped. -/
def failing : State := readyBut fun g => lanesBe 4 2 [0] (lanesBe 4 0x7FFF0000 [1] (few g))

/-- What a lane's checks give in a state whose group has its addresses in v4. -/
def outOf (s : State) (sp : AccSpec) (l : Nat) : Except Cause Phys :=
  checkOne s (cx s).core (s.rootOf (cx s).g.launch) sp ((cx s).g.address 4 l) l

theorem faults_of {s : State} {sp : AccSpec} {cause other : Cause} {ls : List Nat} (h0 : ∀ l ∈ ls, l ∈ (cx s).lanes)
    (hc : cause.code ≤ other.code) (hs : other = cause → ∀ l ∈ (cx s).lanes, l ∈ ls)
    (h : ∀ l ∈ (cx s).lanes, errorOf (outOf s sp l) = if l ∈ ls then some cause else some other) :
    (∀ l, l ∈ ls ↔ l ∈ (cx s).lanes ∧ outOf s sp l = .error cause) ∧
    ∀ l ∈ (cx s).lanes, ∀ e, outOf s sp l = .error e → cause.code ≤ e.code := by
  refine ⟨fun l => ⟨fun hl => ⟨h0 l hl, ?_⟩, fun hl => ?_⟩, fun l hl e he => ?_⟩
  · rw [← errorOf_eq, h l (h0 l hl), if_pos hl]
  · have := (h l hl.1).symm.trans ((errorOf_eq _ _).mpr hl.2)
    by_cases hn : l ∈ ls
    · exact hn
    · rw [if_neg hn] at this
      exact hs (Option.some.inj this) l hl.1
  · have := (h l hl).symm.trans ((errorOf_eq _ _).mpr he)
    split at this <;> cases this
    · exact Nat.le_refl _
    · exact hc

/-- Lane 1 fails for PAGE and lane 0 for ALIGN, whatever the access. -/
theorem test_accesses_fail : ∀ k < 3, let sp := [loadNeeds failing 4 false, needs 4 .write, needs 4 .both].getD k (needs 4 .read)
    Issues failing (cx failing) (Needs.regs [dataOpnd 8 .b32, .two 4]) ∧ (∀ l, l ∈ [1] ↔ l ∈ (cx failing).lanes ∧ outOf failing sp l = .error .page) ∧
    (∀ l ∈ (cx failing).lanes, ∀ e, outOf failing sp l = .error e → Cause.page.code ≤ e.code) ∧ Cause.page.code < Cause.watch.code := by
  intro k hk
  refine ⟨by decide, ?_⟩
  rw [← and_assoc]
  refine ⟨faults_of (other := .align) (by decide) (by decide) (by decide) ?_, by decide⟩
  revert k
  decide +kernel

/-- Both lanes of a load meet a poisoned sector, and no watchpoint is enabled. -/
def poisoned : State := { sparse with mem := { sparse.mem with poison := [0x10000] } }

theorem test_loads_meet_poison (bypass : Bool) : let sp := loadNeeds poisoned 4 bypass
    Issues poisoned (cx poisoned) (Needs.regs [dataOpnd 8 .b32, .two 4]) ∧
    (∀ l, l ∈ [0, 1] ↔ l ∈ (cx poisoned).lanes ∧ outOf poisoned sp l = .error .memerr) ∧
    (∀ l ∈ (cx poisoned).lanes, ∀ e, outOf poisoned sp l = .error e → Cause.memerr.code ≤ e.code) ∧
    ∀ i < 2, ∀ l, (cx poisoned).g.dbg.watches i .rd l = false := by
  refine ⟨by decide, ?_⟩
  rw [← and_assoc]
  refine ⟨faults_of (other := .memerr) (by decide) (by decide) (by decide) ?_, fun i hi l => ?_⟩
  · cases bypass <;> decide +kernel
  · have hw : (cx poisoned).g.dbg.wpc = 0 := by decide
    simp [Debug.watches, hw]

/-- The same group in deterministic operation. -/
def exact : State := readyBut fun g => { gsBe 0x800 (few g) with quantum := 1024 }

theorem test_stores_access : let sp := needs 4 .write
    Issues sparse (cx sparse) (Needs.regs [dataOpnd 8 .b32, .two 4]) ∧ NoStep (cx sparse) ∧
      Accessing sparse (cx sparse) 4 sp .wr (accsOf sparse 4 sp) ∧ storeOk sparse 4 sp = true :=
  ⟨by decide, by decide, accessing_of_ok (by decide +kernel), by decide +kernel⟩

theorem test_exact_stores_access : let sp := needs 4 .write
    Issues exact (cx exact) (Needs.regs [dataOpnd 8 .b32, .two 4]) ∧ NoStep (cx exact) ∧
      Accessing exact (cx exact) 4 sp .wr (accsOf exact 4 sp) ∧ storeOk exact 4 sp = true :=
  ⟨by decide, by decide, accessing_of_ok (by decide +kernel), by decide +kernel⟩

theorem test_store_modes : Plain (cx sparse).g ∧ Gs.det (cx exact).g.modes.gs = true := by decide

/-- The last word of the team's scratch. -/
def scratchEnd : State := readyBut fun g => regBe 1 1020 (few g)

theorem test_scratch_access : let s := scratchEnd; let c := cx s
    Issues s c (Needs.regs [dataOpnd 8 .b32, .one 1]) ∧ NoStep c ∧ Plain c.g ∧ s.team c.g.teamKey = some Place.team ∧
    c.lanes ≠ [] ∧ accessHeld s c = false ∧ scratchHeld s c = false ∧
    (∀ l ∈ c.lanes, (c.g.reg 1 l).toNat % 4 = 0 ∧ (c.g.reg 1 l).toNat + 4 = s.scratchBound c.g) ∧
    (∀ l ∈ c.lanes, Place.team.poisonAt (c.g.reg 1 l).toNat 4 = false) ∧
    (let spans := c.lanes.map fun l => { scr := true, addr := (c.g.reg 1 l).toNat, len := 4 : Span }
     Unaliased s c spans) := by decide +kernel

theorem test_atomics_access :
    let ctl : Ctl := { width := .b32, scope := .sys, order := .acqRel }
    let sp : AccSpec := { size := 4, rights := .both, deny := hostDenies .add .i32 true, bad := fun _ => false, reach := false }
    atomForm (.atomAdd 8 4 ctl) = some (.add, 8, 4, ctl, true) ∧ atomEt .add .b32 (cx sparse).g.modes.gm = some .i32 ∧
    Issues sparse (cx sparse) (Needs.regs [⟨8, 1⟩, .two 4]) ∧ NoStep (cx sparse) ∧
      Accessing sparse (cx sparse) 4 sp .op (accsOf sparse 4 sp) ∧ storeOk sparse 4 sp = true :=
  ⟨rfl, by decide, by decide, by decide, accessing_of_ok (by decide +kernel), by decide +kernel⟩

theorem test_exact_atomics_access :
    let ctl : Ctl := { width := .b32, scope := .sys, order := .acqRel }
    let sp : AccSpec := { size := 4, rights := .both, deny := hostDenies .add .i32 true, bad := fun _ => false, reach := false }
    atomForm (.atomAdd 8 4 ctl) = some (.add, 8, 4, ctl, true) ∧ atomEt .add .b32 (cx exact).g.modes.gm = some .i32 ∧
    Issues exact (cx exact) (Needs.regs [⟨8, 1⟩, .two 4]) ∧ NoStep (cx exact) ∧
      Accessing exact (cx exact) 4 sp .op (accsOf exact 4 sp) ∧ storeOk exact 4 sp = true :=
  ⟨rfl, by decide, by decide, by decide, accessing_of_ok (by decide +kernel), by decide +kernel⟩

theorem test_cas_issues : atomForm (.cas 8 4 { width := .b64, scope := .grp, order := .relaxed }) =
      some (.cas, 8, 4, { width := .b64, scope := .grp, order := .relaxed }, true) ∧
    atomForm (.atomnAdd 8 4 { width := .b32, scope := .grp, order := .release }) =
      some (.add, 8, 4, { width := .b32, scope := .grp, order := .release }, false) ∧
    atomEt .cas .b64 0 ≠ none ∧ Issues sparse (cx sparse) (Needs.regs [⟨8, 4⟩, .two 4]) := ⟨rfl, rfl, by decide, by decide⟩

/-- A table whose class 0 adds i32 words, its own inverse class, with every relation. -/
def aTable : Table :=
  { classes := { valid := true, inv := 0, rm := .rne, et := .i32, fn := 0 } :: List.replicate 15 ClassDesc.invalid
    relations := List.replicate 324 15, version := 5 }

/-- The same machine with that table in slot 0 of slices 0 and 128, where VA 0 lies. -/
def operating : State := { sparse with mem := { sparse.mem with tables := [(0, aTable), (16 * 128, aTable)] } }

theorem test_operators_access :
    let s := operating
    let sp : AccSpec := { size := 4, rights := .both, deny := fun pa => regionOf pa == .host, bad := fun _ => false, reach := false }
    s.mopClass (cx s).g 0 = some (0, aTable.cls 0) ∧ wordSize (aTable.cls 0).et = 4 ∧
    Issues s (cx s) (Needs.regs [⟨8, 1⟩, .two 4]) ∧ NoStep (cx s) ∧ Plain (cx s).g ∧
      Accessing s (cx s) 4 sp .op (accsOf s 4 sp) ∧ storeOk s 4 sp = true :=
  ⟨by decide, by decide, by decide, by decide, by decide, accessing_of_ok (by decide +kernel), by decide +kernel⟩


/-- Lanes 0 and 1 of a scratch access: lane 0 past the bound and lane 1 misaligned; past the bound both; or poisoned both. -/
theorem test_scratch_faults : let c (x y : Word) : Ctx := cx (readyBut fun g => lanesBe 1 x [0] (lanesBe 1 y [1] (few g)))
    let s (x y : Word) : State := readyBut fun g => lanesBe 1 x [0] (lanesBe 1 y [1] (few g))
    (Issues (s 1024 1022) (c 1024 1022) (Needs.regs [dataOpnd 8 .b32, .one 1]) ∧ (c 1024 1022).lanes = [0, 1] ∧
      ((c 1024 1022).g.reg 1 0).toNat % 4 = 0 ∧ (s 1024 1022).scratchBound (c 1024 1022).g < 1024 + 4 ∧
      ((c 1024 1022).g.reg 1 1).toNat % 4 ≠ 0 ∧ Cause.illopnd.code ≤ Cause.align.code) ∧
    (Issues (s 1024 1028) (c 1024 1028) (Needs.regs [dataOpnd 8 .b32, .one 1]) ∧
      ∀ l ∈ (c 1024 1028).lanes, ((c 1024 1028).g.reg 1 l).toNat % 4 = 0 ∧
        (s 1024 1028).scratchBound (c 1024 1028).g < ((c 1024 1028).g.reg 1 l).toNat + 4) ∧
    (∀ l ∈ (c 0 4).lanes, { Place.team with poison := [0] : Team }.poisonAt ((c 0 4).g.reg 1 l).toNat 4 = true) ∧
    ((groupAfter (exec (.lds 8 1 { width := .b32, scope := .grp, order := .relaxed }) (s 1024 1022))).trap.xcause,
      (groupAfter (exec (.lds 8 1 { width := .b32, scope := .grp, order := .relaxed }) (s 1024 1022))).trap.xaddrl,
      (groupAfter (exec (.lds 8 1 { width := .b32, scope := .grp, order := .relaxed }) (s 1024 1022))).trap.xlm0) =
      (BitVec.ofNat 32 Cause.illopnd.code, 1024, 1) := by decide +kernel

/-- An element type that an atomic does not admit, a class that is not installed, and a launch without a slot. -/
theorem test_operations_refused : Gm.et 9 = some .f64 ∧ atomEt .add .b32 9 = none ∧
    operating.mopClass (cx operating).g 1 = none ∧ sparse.mopClass (cx sparse).g 0 = none ∧
    (descBe (fun d => { d with slot := none }) operating).mopClass (cx operating).g 0 = none ∧
    Stands operating (cx operating) ∧ (∀ k ∈ (cx operating).gang, ((cx operating).g.strand k).inBody = true) ∧
    CanTrap operating (cx operating).g 0x200 := by decide +kernel

/-- A deterministic group exits; its exit is entered in its team at the commit only (R292). -/
theorem test_exit_exact : let s := readyBut fun g => { gsBe 0x800 g with quantum := 1024 }; let c := cx s
    Issues s c (Needs.regs []) ∧ NoStep c ∧ NoWait c.g ∧ c.lanes = Group.gangLanes c.gang ∧ Gs.det c.g.modes.gs = true ∧
    s.team c.g.teamKey = some Place.team ∧ c.g.ident.grpid ∉ Place.team.exited ∧
    (groupAfter (exec .exit s)).allExited = true ∧ (after (exec .exit s)).team 0 = some Place.team := by decide +kernel

/-! ### Operations in flight -/

/-- Whether a check passes with some physical address. -/
def passesAt (r : Except Cause Phys) (pa : Nat) : Bool :=
  match r with
  | .ok p => p.pa == pa
  | .error _ => false

theorem passes_of {r : Except Cause Phys} {pa : Nat} (h : passesAt r pa = true) : ∃ p, r = .ok p ∧ p.pa = pa := by
  cases r with
  | ok p => exact ⟨p, rfl, by simpa [passesAt] using h⟩
  | error e => simp [passesAt] at h

/-- A piece whose value has come, and one whose value is still to come. -/
def aPiece : Piece :=
  { addr := 0x10000, vaddr := 0, size := 4, grain := 0, lanes := [0, 1], data := some (wordBytes 0x12345678), poison := false,
    sent := false, fill := false, parts := [], laid := [], read := 1 }
def openPiece : Piece := { aPiece with data := none, sent := true }

/-- Operation 7 alone is in flight. -/
def flying (o : Op) : State := withOps [(7, o)] ready

/-- An earlier load of the group has no value yet for the word of a sector that is valid in L1. -/
def behind : State := (withOps [(7, { anOp .load with pieces := [{ openPiece with addr := 0x10000 }] })] sparse).setCore 0
  { l1 := [{ addr := 0x10000, bytes := List.replicate 32 9, grain := 0, poison := false, since := 3 }], rejected := [],
    scrways := 8, ways := none, power := .on, shared := [] }

theorem test_loads_wait : let sp := loadNeeds behind 4 false
    Issues behind (cx behind) (Needs.regs [dataOpnd 8 .b32, .two 4]) ∧
    Accessing behind (cx behind) 4 sp .rd (accsOf behind 4 sp) ∧
    ∃ x ∈ accsOf behind 4 sp, loadWaits behind (cx behind) false 4 x.phys = true :=
  ⟨by decide, accessing_of_ok (by decide +kernel), by decide +kernel⟩

/-- A result for v8 of lanes 0 and 1. -/
def aResult (kind : OpKind) : Op := { anOp kind with dst := some 8, lanes := [0, 1], pieces := [aPiece] }

theorem test_results_land : ∀ k ∈ [OpKind.load, .scratchLoad, .atomic, .mopr, .reveal],
    let s := flying (aResult k)
    s.op 7 = some (aResult k) ∧ s.group 0 = some (Place.group false) ∧ (∀ q ∈ (aResult k).pieces, q.data.isSome = true ∧ q.poison = false) ∧
      ∀ u ∈ s.mem.updates, 7 ∉ u.2.ops := by decide

/-- A copy of 32 bytes that is written, and a force of a node of one granule that is done. -/
def aCopy : Op := { anOp .copy with copy := some { src := 0, dst := 0x40, ctl := 32, bar := 0, batch := 0, done := 1, arrived := 1 } }
def aDesc : TileDesc := { base := 0, scr := false, stride := 4, rows := 4, cols := 4, fmt := .f32 }
def aNode (op : NodeOp) : Node := { op := op, rows := 4, cols := 4, fmt := .f32, pc := 0x104, dropped := false, forced := none }
def aForce : Op :=
  { anOp .tforce with tile := some { entry := 1, dest := none, spill := some 0, ctl := 0, forStore := false, done := 0xFFFF, cache := [], flags := 0, begun := 0xFFFF } }
/-- A thunk table of a descriptor and of a map of it. -/
def thunksBe (g : Group) : Group :=
  { g with thunks := { nodes := [(0, aNode (.desc aDesc)), (1, aNode (.map 0 .relu))], gens := [(0, 1), (1, 1)] } }

theorem test_operations_complete : Memory.wf ready.mem = true ∧
    (flying (anOp .store)).op 7 = some (anOp .store) ∧ (flying (anOp .store)).inFlight 7 = false ∧
    State.countsWrite (anOp .store) = true ∧
    (flying aCopy).inFlight 7 = false ∧ aCopy.copy.map CopyJob.finished = some true ∧ aCopy.suspended = none ∧
    (flying aCopy).engineReleased 7 aCopy = true ∧ (flying aCopy).group 0 = some (Place.group false) ∧ Plain (Place.group false) ∧
    (let s := withOps [(7, aForce)] (readyBut thunksBe)
     s.inFlight 7 = false ∧ ((s.group 0).bind (·.node 1)).map (fun n => (s.demandOver aForce (aForce.tile.getD
       { entry := 0, dest := none, spill := none, ctl := 0, forStore := false, done := 0, cache := [], flags := 0, begun := 0 }) n, n.forced)) =
         some (true, none) ∧ s.engineReleased 7 aForce = true) := by decide +kernel

theorem test_maintenance_completes : ∀ k ∈ [OpKind.clean, .inval, .discard], let s := flying { anOp k with pieces := [openPiece] }
    s.awaitsCommit 0 7 = false ∧ s.partsBusy 0 7 [openPiece] = false ∧
    s.regionHeld openPiece.addr openPiece.size = false := by decide

/-- A request of operation 7 that its slice can serve. -/
def aReq (kind : ReqKind) : Req :=
  { src := .core 0, slice := 128, addr := 0x1001C, size := 4, grain := 0, kind := kind, op := 7, piece := 0, admitted := true }
def asking (o : Op) (kind : ReqKind) : State :=
  let s := flying o
  { s with mem := { s.mem with reqs := [(50, aReq kind)] } }

theorem test_monitor_registers : let s := asking (anOp .monitor) .monitor
    s.op 7 = some (anOp .monitor) ∧ s.servable 50 = some (aReq .monitor) ∧
    (∀ x ∈ s.mem.reqs, x.2.kind = .monitor → x = (50, aReq .monitor)) ∧ s.mem.updates = [] := by decide

theorem test_reply_lands : let o := { anOp .message with dst := some 8, pieces := [aPiece] }
    (flying o).op 7 = some o ∧ (flying o).inFlight 7 = false ∧ aPiece.data = some (wordBytes 0x12345678) ∧
    (flying o).group 0 = some (Place.group false) := by decide

theorem test_slices_serve : ready.servable 50 = none ∧ Memory.wf ready.mem = true ∧
    ∀ k ∈ [ReqKind.read true, .write [1, 2, 3, 4], .atomic .cas .i32 false 5 0 true, .atomic .add .i32 false 5 0 false],
    let q := { openPiece with addr := 0x1001C }
    let o := { anOp .load with pieces := [q] }
    let s := asking o k
    s.servable 50 = some (aReq k) ∧ s.op 7 = some o ∧ o.pieces[0]? = some q ∧ s.deliverable 0x1001C = true ∧
      s.input.values = [] ∧ o.kind = .load ∧ (q.addr, q.size, q.data) = (0x1001C, 4, none) ∧
      q.lanes ≠ [] ∧ s.mem.pending = [] ∧
      0x1001C + 4 ≤ sectorOf 0x1001C + 32 ∧ s.pendingWords (sectorOf 0x1001C) 32 = [] ∧ s.pendingWords 0x1001C 4 = [] ∧
      s.mem.poisoned 0x1001C 4 = false := by decide +kernel

/-- Two operators wait on the word at 0x10000. -/
def waiting (x y : Nat) (version : Nat) : State :=
  let p (v : Nat) (op : Nat) : Pending := .mop 0x10000 0 (aTable.cls 0) (0, version) v none [op] [0] 0
  { operating with mem := { operating.mem with pending := [p x 8, p y 9] } }

theorem test_pending_lists : let d := aTable.cls 0
    Memory.wf (waiting 3 4 5).mem = true ∧ (waiting 3 4 5).mem.poisoned 0x10000 (wordSize d.et) = false ∧
    (waiting 3 4 5).wordList 0x10000 =
      [.mop 0x10000 0 d (0, 5) 3 none [8] [0] 0, .mop 0x10000 0 d (0, 5) 4 none [9] [0] 0] ∧
    (∀ k < 4, related (waiting 3 4 5) (.mop 0x10000 0 d (0, 5) 3 none [8] [0] 0) (.mop 0x10000 0 d (0, 5) 4 none [9] [0] 0) k = true) ∧
    (∀ k < 2, related (waiting 3 4 6) (.mop 0x10000 0 d (0, 6) 3 none [8] [0] 0) (.mop 0x10000 0 d (0, 6) 4 none [9] [0] 0) k = false) ∧
    compose d 3 4 = some 7 ∧ d.inv = 0 ∧ exactInverses d 3 0xFFFFFFFD = true ∧
    (Pending.mop 0x10000 0 d (0, 5) 3 none [8] [0] 0).returns = false := by decide +kernel

/-- An update on its way to core 0, whose L1 holds the sector. -/
def anUpdate : Update :=
  { addr := 0x10004, bytes := [1, 2], grain := 0, ops := [8], cores := [0], stations := [homeStation], poison := false }
def updating (cores : List Nat) : State :=
  let s := ready.setCore 0 { l1 := [{ addr := 0x10000, bytes := List.replicate 32 9, grain := 0, poison := false, since := 3 }],
                             rejected := [], scrways := 8, ways := none, power := .on, shared := [] }
  { s with ids := 100, mem := { s.mem with updates := [(60, { anUpdate with cores := cores })] } }

theorem test_updates : (updating [0]).mem.updates.find 60 = some anUpdate ∧ 0 ∈ anUpdate.cores ∧ 1 ∉ anUpdate.cores ∧
    (∀ p ∈ (updating [0]).mem.updates, ¬ p.1 < 60) ∧ homeStation ∈ anUpdate.stations ∧
    stationReady { anUpdate with cores := [] } homeStation = true ∧
    meets 0x10000 32 anUpdate.addr anUpdate.bytes.length = true ∧ (3 : Nat) ≤ 60 ∧ { anUpdate with poison := true }.poison = true ∧ (∀ p ∈ (updating [0]).slots, p.2.atBarrier = false) ∧
    (let s : State := { ready with mem := { ready.mem with dir := [(4 * 0x10000, { size := 32, cores := [0, 3] })] } }
     s.mem.dir.find (4 * 0x10000) = some { size := 32, cores := [0, 3] } ∧ (s.core 3).l1 = [] ∧ s.fills 3 = []) := by decide +kernel

/-- A load that was rejected, and a request that its slice has not admitted. -/
def rejected : State :=
  let s := flying { anOp .load with pieces := [{ openPiece with sent := false }] }
  s.setCore 0 { l1 := [], rejected := [7], scrways := 8, ways := none, power := .on, shared := [] }

theorem test_replays : let q := { openPiece with sent := false }
    let o := { anOp .load with pieces := [q] }
    (rejected.core 0).rejected = [7] ∧ rejected.op 7 = some o ∧ rejected.group 0 = some (Place.group false) ∧
    servedNow rejected (Place.group false) (o.serve 7 q) = none ∧ rejected.valid (o.serve 7 q) = false ∧ o.bypass = false ∧ rejected.missFree 0 (sectorOf q.addr) true = true ∧
    (let r := { aReq (.read true) with admitted := false }
     let s : State := { ready with mem := { ready.mem with reqs := [(50, r)] } }
     s.mem.reqs.find 50 = some r ∧ ∀ p ∈ s.mem.reqs, p.2.slice = 128 → p = (50, r)) := by decide +kernel

/-! ### Ordering, maintenance and monitors -/

/-- Strand 3 stands elsewhere, in a fence of its own. -/
def fencing : State := readyBut fun g =>
  { g with strands := g.strands.mapIdx fun i t => if i = 3 then { t with pc := 0x108 } else t, fencing := some 3 }

theorem test_fences_issue : Issues ready (cx ready) (Needs.regs []) ∧ NoStep (cx ready) ∧ (cx ready).lanes ≠ [] ∧
    Plain (cx ready).g ∧ (cx ready).g.fencing = none ∧ ready.releaseReady (cx ready).slot .sys = true ∧
    ready.readsFixed (cx ready).slot = true ∧
    (let s := fencing; Issues s (cx s) (Needs.regs []) ∧ (cx s).lanes ≠ [] ∧ Plain (cx s).g ∧ (cx s).g.fencing = some 3 ∧ 3 ∉ (cx s).gang) ∧
    (let s := flying (anOp .store); Issues s (cx s) (Needs.regs []) ∧ (cx s).g.fencing = none ∧ s.releaseReady (cx s).slot .dev = false) ∧
    (Issues exact (cx exact) (Needs.regs []) ∧ NoStep (cx exact) ∧ (cx exact).lanes ≠ [] ∧ Gs.det (cx exact).g.modes.gs = true) := by
  decide +kernel

/-- A read of the group is still to be made: an acquire is not ready. -/
theorem test_fences_wait : let s := flying { anOp .load with pieces := [openPiece], dst := some 8 }
    Issues s (cx s) (Needs.regs []) ∧ (cx s).lanes ≠ [] ∧ Plain (cx s).g ∧ (cx s).g.fencing = none ∧ s.readsFixed (cx s).slot = false ∧
    orderAcquires .acquire = true := by decide +kernel

/-- A range of 64 bytes at 0x1000, and one of 33 bytes. -/
def ranging (len : Word) : State := readyBut fun g => regBe 4 0x1000 (regBe 6 len (few g))

theorem test_ranges_issue : let c := cx (ranging 64)
    Issues (ranging 64) c (Needs.regs [.two 4, .one 6]) ∧ NoStep c ∧ c.lanes ≠ [] ∧ NoTrap c.g (c.nur [.two 4, .one 6]) ∧ Plain c.g ∧
    (c.uniform (.two 4)).toNat % 2 ^ 52 = 0x1000 ∧ (c.uniform (.one 6)).toNat = 64 ∧ accessHeld (ranging 64) c = false ∧
    (discardRuns (ranging 64) c 0 (pageParts 0x1000 64)).2 = none ∧
    rejectedMeets (ranging 64) c ((discardRuns (ranging 64) c 0 (pageParts 0x1000 64)).1.map fun q => (q.addr, q.size)) = false ∧ (ranging 64).mem.pending = [] ∧
    ((cx (ranging 33)).uniform (.one 6)).toNat % 32 ≠ 0 := by decide +kernel

theorem test_table_installs : let s := ranging 3; let c := cx s
    (IssuesUniform s c (Needs.regs [.two 4, .one 6]) [.two 4, .one 6] ∧ c.lanes ≠ [] ∧ Plain c.g ∧ accessHeld s c = false ∧
    s.releaseReady c.slot .dev = true ∧ s.regionHeld 0x11000 512 = false ∧ s.pendingWords 0x11000 512 = [] ∧
    tableFault (s.mem.read 0x11000 512) = none ∧
    16 ≤ ((cx (ranging 16)).uniform (.one 6)).toNat) ∧
    (∃ p, checkOne s c.core (s.rootOf c.g.launch) (readNeeds s 512) 0x1000 0 = .ok p ∧ p.pa = 0x11000) ∧
    (∀ n ws, s.holdable 16 0x11000 n ws = []) ∧ ∀ q ∈ s.mem.ops, q.2.kind ≠ .engineRead :=
  ⟨by decide +kernel, passes_of (by decide +kernel), fun _ _ => rfl, by decide⟩

/-- A table at an address that is no multiple of 512, and one with a bit set in its last byte. -/
theorem test_table_faults : (let s := (ranging 3).modGroup 0 (regBe 4 0x1004); let c := cx s
     IssuesUniform s c (Needs.regs [.two 4, .one 6]) [.two 4, .one 6] ∧ c.lanes ≠ [] ∧ (c.uniform (.two 4)).toNat = 0x1004 ∧
      errorOf (checkOne s c.core (s.rootOf c.g.launch) (readNeeds s 512) 0x1004 0) = some .align ∧ CanTrap s c.g 0x200) ∧
    (let s : State := { ranging 3 with mem := { (ranging 3).mem with bytes := (ranging 3).mem.bytes ++ [(0x111FF, 1)] } }; let c := cx s
     passesAt (checkOne s c.core (s.rootOf c.g.launch) (readNeeds s 512) 0x1000 0) 0x11000 = true ∧ s.pendingWords 0x11000 512 = [] ∧
      s.releaseReady c.slot .dev = true ∧ tableFault (s.mem.read 0x11000 512) = some 511 ∧ CanTrap s c.g 0x200) := by decide +kernel

theorem test_install_reaches : let s : State := { ready with mem := { ready.mem with installs := [(9, (3, aTable, [0, 5]))] } }
    s.mem.installs.find? (fun p => p.2.2.2.contains 5) = some (9, 3, aTable, [0, 5]) ∧ [0, 5].filter (· != 5) ≠ [] ∧
    [5].filter (· != 5) = [] := by decide +kernel

/-- The monitor armed, or triggered. -/
def monitorBe (trig : Bool) (g : Group) : Group := { g with monitor := { sector := some 0x11000, trig := trig } }

theorem test_monitors_issue : let s := ranging 64; let c := cx s
    (c.lanes ≠ [] ∧ IssuesUniform s c (Needs.regs [.two 4]) [.two 4] ∧ Plain c.g ∧
    IssuesUniform s c (Needs.regs [.one 6]) [.one 6] ∧ c.g.monitor.sector = none ∧
    (∀ b, let u := readyBut (monitorBe b)
      IssuesUniform u (cx u) (Needs.regs [.one 6]) [.one 6] ∧ (cx u).g.monitor.sector ≠ none ∧ (cx u).g.monitor.trig = b)) ∧
    ∃ p, checkMonitor s c 0x1000 = .ok p ∧ p.pa = 0x11000 := ⟨by decide +kernel, passes_of (by decide +kernel)⟩

theorem test_monitor_faults : let s := (ranging 64).modGroup 0 (regBe 4 0x1002); let c := cx s
    c.lanes ≠ [] ∧ IssuesUniform s c (Needs.regs [.two 4]) [.two 4] ∧ (c.uniform (.two 4)).toNat = 0x1002 ∧
    errorOf (checkMonitor s c 0x1002) = some .align ∧ CanTrap s c.g 0x200 := by decide +kernel

/-- Strand 1 waits with a deadline that has passed. -/
def overdue : State := readyBut fun g =>
  { monitorBe false g with strands := g.strands.mapIdx fun i t => if i = 1 then { t with block := some (.mwait (some 0)) } else t }

theorem test_deadline : let g := (overdue.group 0).getD (Place.group false)
    overdue.group 0 = some g ∧ (∀ j < g.strands.length, timedOut overdue.time.gts (g.strand j) = if j = 1 then some (Place.body, 15) else none) ∧
    CanTrap overdue { g.wake with monitor := { sector := none, trig := false } } 0x200 := by decide +kernel


/-! ### Matrix products, spores, tiles -/

def mm0Be (x : Word) (g : Group) : Group := { g with modes := { g.modes with mm0 := x } }

/-- MM0 of a 16 by 16 product of f32. -/
def producing : State := readyBut (mm0Be 0x1001)

theorem test_products_issue : Issues producing (cx producing) (Needs.regs []) ∧ NoStep (cx producing) ∧
    (let m := (cx producing).g.modes.mm0
     let f := fragments (cx producing).g.width m 16 48 56
     Mm0.ok m = true ∧ f.ok (cx producing).g.nregs = true ∧ (∀ l < (cx producing).g.width, l ∈ (cx producing).lanes) ∧
     NoTrap (cx producing).g ((cx producing).lanes.map fun l => (l, ((cx producing).g.product m f).foldl (fun (x : Flags) o => x ||| o.2.2.2) 0)) ∧
     producing.opsOf 0 = [] ∧ (fragments 16 m 16 48 50).ok 252 = false ∧ Mm0.ok 0x5801 = false) ∧
    (let s := readyBut fun g => mm0Be 0x1001 (gmBe 0x20000 g)
     Issues s (cx s) (Needs.regs []) ∧ ¬ ∀ l < (cx s).g.width, l ∈ (cx s).lanes) := by decide +kernel

/-- A masked element, one of finite values, and residues with and without poison meet the clauses on values. -/
theorem test_elements : let e (m mm2 : Word) (j k : Nat) (ps : List (Nat × Nat)) : Nat := (Dot.element m 0 mm2 0 j k (ps.map (·.1)) (ps.map (·.2))).1
    (Mm0.tri 0x80001 = true ∧ Mm0.tdg 0x80001 < ((3 : Nat) : Int) - (0 : Nat) ∧ e 0x80001 0 3 5 [] = 5) ∧
    (Mm0.tri 1 = false ∧ (Mm0.aType 1, ElemType.bf16x2) ∈ [(0, .bf16x2), (1, .f16x2), (2, ElemType.f32)] ∧ Mm0.ss 1 = 0 ∧
      FiniteIn .bf16x2 0x3F80 ∧ FiniteIn .bf16x2 0x4000 ∧ FiniteIn .f32 0x3F800000 ∧ e 1 0 0 0x3F800000 [(0x3F80, 0x4000)] = 0x40400000) ∧
    ((Mm0.aType 0x11801, ElemType.rn16) ∈ [(3, ElemType.rn16), (4, .rn8)] ∧ Poison .rn16 0xFFFF ∧ e 0x11801 0 0 7 [(0xFFFF, 0)] = 0x80000000 ∧
      (Holds .rn16 0x7BBC (-3) ∧ Holds .rn16 0x0842 2 ∧ loOf .rn16 ≤ -3 ∧ (2 : Int) ≤ hiOf .rn16) ∧
      (1 - ((-3) * 2 + Elem.value true 32 7) : Int) % 64709152 = 0 ∧ e 0x11801 0 0 7 [(0x7BBC, 0x0842)] = 1 ∧
      Mm0.ct 0x1801 = 0 ∧ e 0x1801 0x3F000000 0 0x3F800000 [(0x7BBC, 0x0842)] = 0xC0000000) := by
  simp only [Holds, Poison]
  decide +kernel

/-- 2^24 + 1 - 2^24 and C = 1 in the four shapes: rounded once, step by step, in pairs, and by a run of four (R141). -/
theorem test_shapes : let ps : List (Nat × Nat) := [(0x4B800000, 0x3F800000), (0x3F800000, 0x3F800000), (0xCB800000, 0x3F800000)]
    let e (m : Word) : Nat := (Dot.element m 0 0 0 0 0x3F800000 (ps.map (·.1)) (ps.map (·.2))).1
    (∀ p ∈ ps, FiniteIn .f32 p.1 ∧ FiniteIn .f32 p.2) ∧ Mm0.tri 0x1001 = false ∧
    [0x1001, 0x1101, 0x1201, 0x1301].map (fun n => Mm0.ss (BitVec.ofNat 32 n)) = [0, 1, 2, 3] ∧ Mm0.aType 0x1301 = 2 ∧
    [0x1001, 0x1101, 0x1201, 0x1301].map (fun n => e (BitVec.ofNat 32 n)) = [0x40000000, 0, 0x3F800000, 0x40000000] := by
  decide +kernel

/-- Spores 0 and 1 of every lane: their first 64 digits are zero, and they have different positions. -/
def seeded : State := readyBut fun g => regBe 251 1 (regBe 250 8 (regBe 247 1 (regBe 1 0x17800000 (regBe 2 3 g))))

theorem test_spores_issue : NoStep (cx seeded) ∧ Issues seeded (cx seeded) { Needs.regs [.one 1, .one 2] with spores := [0] } ∧
    Issues seeded (cx seeded) { Needs.regs [] with spores := [7] } ∧ Issues seeded (cx seeded) { Needs.regs [.one 8] with spores := [0] } ∧
    (∀ l ∈ (cx seeded).lanes, ((cx seeded).g.spore 0 l).ok = true ∧ ((cx seeded).g.spore 7 l).ok = false) ∧
    (cx seeded).g.inSpore 0 8 = false ∧ (cx seeded).g.inSpore 7 8 = false ∧
    Issues seeded (cx seeded) { Needs.regs [.one 8] with spores := [7] } := by decide +kernel

/-- A destination inside an operand spore, spore 7, which is not well formed, and more than 65536 parts. -/
theorem test_spores_trap : let c := cx seeded
    (c.g.inSpore 0 248 = true ∧ Issues seeded c { Needs.regs [.one 248] with spores := [0] } ∧
      Issues seeded c { Needs.regs [.one 248, .one 1] with spores := [0] } ∧ Issues seeded c { Needs.regs [.one 248] with spores := [0, 1] }) ∧
    (c.g.inSpore 0 8 = false ∧ c.g.inSpore 7 8 = false ∧ (∀ l ∈ c.lanes, (c.g.spore 7 l).ok = false ∧ 65536 < (c.g.reg 1 l).toNat) ∧
      Issues seeded c { Needs.regs [.one 8, .one 1] with spores := [0] } ∧ Issues seeded c { Needs.regs [.one 8, .one 1] with spores := [7] } ∧
      Issues seeded c { Needs.regs [.one 8] with spores := [0, 7] }) := by decide +kernel

/-- SPLT of 2^-80 needs more than 64 digits, SPIDX of three parts needs few, and SPCMP meets other digits. -/
theorem test_comparisons_issue : let c := cx seeded
    let d (k : BitVec 3) (l : Nat) : Nat := (c.g.spore k l).digits (seeded.sporeKey c.g (c.g.spore k l).ksel)
    Issues seeded c { Needs.regs [.one 8, .one 1] with spores := [0] } ∧ Issues seeded c { Needs.regs [.one 8] with spores := [0, 1] } ∧
    Issues seeded c { Needs.regs [.one 8, .one 2] with spores := [0] } ∧ c.g.inSpore 1 8 = false ∧
    (∀ l ∈ c.lanes, ((c.g.spore 1 l).ok = true ∧ d 0 l < 2 ^ 256 ∧ 64 < (spltLane (d 0 l) 0x17800000).m) ∧
      (spidxLane (d 0 l) 3).m ≤ 64 ∧ (c.g.reg 2 l).toNat = 3 ∧
      NoTrap c.g [(l, (spltLane (d 0 l) 0x17800000).flags), (l, (spcmpLane false (d 0 l) (d 1 l)).flags)]) := by decide +kernel

theorem test_spore_numbers : FVal.ofBits .f32 false 0x3F000000 = .fin false 8388608 (-24) ∧ (0 : Nat) < 2 ^ 256 ∧ (0 : Nat) < 65536 := by decide

/-- Handles of the nodes of `thunksBe` in v1 and v2, and a quad in v8 to v11. -/
def quadBe (w : List Word) (g : Group) : Group :=
  regBe 8 (w.getD 0 0) (regBe 9 (w.getD 1 0) (regBe 10 (w.getD 2 0) (regBe 11 (w.getD 3 0) g)))
def tiled (w : List Word) : State :=
  readyBut fun g => quadBe w (regBe 1 (handleOf 1 0) (regBe 2 (handleOf 1 1) (thunksBe g)))

/-- A descriptor of 4 by 4 f32 elements with stride 4. -/
def descQuad : List Word := [0x800, 0x20000000, 0x3003, 4]

theorem test_nodes_issue : let s := tiled descQuad; let c := cx s
    c.lanes ≠ [] ∧ IssuesUniform s c (Needs.regs [.one 3, .four 8]) (quadOpnds 8) ∧
    readTileDesc (c.quad 8) = some { base := 0x800, scr := false, stride := 4, rows := 4, cols := 4, fmt := .f32 } ∧
    IssuesUniform s c (Needs.regs [.one 3, .one 1, .one 2]) [.one 1, .one 2] ∧ IssuesUniform s c (Needs.regs [.one 3, .one 1]) [.one 1] ∧
    c.g.thunks.entryOf ((c.uniform (.one 1)).setWidth 32) = some 0 ∧ c.g.thunks.entryOf ((c.uniform (.one 2)).setWidth 32) = some 1 ∧
    c.g.thunks.nodes.find 0 = some (aNode (.desc aDesc)) ∧ c.g.thunks.nodes.find 1 = some (aNode (.map 0 .relu)) ∧
    mulInput 0x1000 (aNode (.desc aDesc)) = true ∧ Mm0.productOk 0x1000 = true ∧
    c.g.thunks.entryOf ((c.uniform (.one 5)).setWidth 32) = none ∧ c.g.thunks.nodes.find 2 = none := by decide +kernel

/-- Register 5 names no node. -/
theorem test_nodes_refuse : let s := tiled descQuad; let c := cx s
    c.lanes ≠ [] ∧ c.g.thunks.entryOf ((c.uniform (.one 5)).setWidth 32) = none ∧
    IssuesUniform s c (Needs.regs [.one 3, .one 5]) [.one 5] ∧ IssuesUniform s c (Needs.regs [.one 3, .one 5, .one 1]) [.one 5, .one 1] ∧
    IssuesUniform s c (Needs.regs [.one 3, .one 1, .one 5]) [.one 1, .one 5] ∧
    IssuesUniform s c (Needs.regs [.one 3, .one 5, .four 8]) (.one 5 :: quadOpnds 8) ∧ IssuesUniform s c (Needs.regs [.one 5]) [.one 5] := by
  decide +kernel

theorem test_views_issue :
    (let s := tiled [1, 2, 0x1001, 0]; let c := cx s
     IssuesUniform s c (Needs.regs [.one 3, .one 1, .four 8]) (.one 1 :: quadOpnds 8) ∧ low12 ((c.quad 8).getD 0 0) = some 1 ∧
      low12 ((c.quad 8).getD 1 0) = some 2 ∧ quadShape ((c.quad 8).getD 2 0) = some (2, 2) ∧ (c.quad 8).getD 3 0 = 0 ∧
      1 + 2 ≤ 4 ∧ 2 + 2 ≤ 4) ∧
    (let c := cx (tiled [0, 0, 0x3003, 0])
     quadShape ((c.quad 8).getD 2 0) = some (4, 4) ∧ (c.quad 8).getD 0 0 = 0 ∧ (c.quad 8).getD 1 0 = 0) ∧
    (let s := readyBut fun g => { g with thunks := { nodes := (List.range 32).map fun e => (e, aNode (.desc aDesc)), gens := [] } }
     IssuesUniform s (cx s) (Needs.regs [.one 3, .four 8]) (quadOpnds 8) ∧ ∀ e < 32, (cx s).g.thunks.nodes.find e ≠ none) := by
  decide +kernel

theorem test_stores_of_tiles_issue : let s := tiled descQuad; let c := cx s
    let spans := [{ scr := false, addr := 0x800, len := 64 : Span }]
    IssuesUniform s c (Needs.regs [.one 1, .four 8, .one 6]) ((.one 1 :: quadOpnds 8) ++ [.one 6]) ∧
    storeScope ((c.uniform (.one 6)).setWidth 32) false = some .grp ∧ accessHeld s c = false ∧ s.readsFixed c.slot = true ∧
    Unaliased s c spans ∧
    IssuesUniform s c (Needs.regs [.one 2]) [.one 2] ∧ (aNode (.map 0 .relu)).forced = none ∧ (c.g.thunks.root 1).1 = 1 ∧
    s.forcing c.slot 1 = false ∧ s.launch c.g.launch = some Place.launch ∧
    scratchBehind s c.slot (sourceRanges c.g.thunks 1) = false ∧
    spillFit Place.launch.desc.spillSize (spillBytes (aNode (.map 0 .relu))) (s.spillUsed c.slot c.g) = some 0 := by decide +kernel

/-- The map of `thunksBe` is forced already, or its force is under way. -/
theorem test_forces_again : let f (g : Group) : Group := { g with thunks := { g.thunks with nodes := [(0, aNode (.desc aDesc)), (1, { aNode (.map 0 .relu) with forced := some 0 })] } }
    (let s := (tiled descQuad).modGroup 0 f; let c := cx s
     IssuesUniform s c (Needs.regs [.one 2]) [.one 2] ∧ c.lanes ≠ [] ∧ c.g.thunks.entryOf ((c.uniform (.one 2)).setWidth 32) = some 1 ∧
      (c.g.thunks.nodes.find 1).map (·.forced) = some (some 0)) ∧
    (let s := withOps [(7, aForce)] (tiled descQuad); let c := cx s
     IssuesUniform s c (Needs.regs [.one 2]) [.one 2] ∧ accessHeld s c = false ∧ (c.g.thunks.root 1).1 = 1 ∧ s.forcing c.slot 1 = true) := by
  decide +kernel

/-- A copy of 32 bytes from 0x1000 to 0x2000, at GRP. -/
def copying (ctl : Word) : State := readyBut fun g => quadBe [0x1000, 0, 0x2000, 0] (regBe 6 ctl g)

theorem test_copies_issue : let s := copying 0x20; let c := cx s
    let os := (Opnd.one 3 :: quadOpnds 8) ++ [.one 6]
    let job (ctl : Word) : CopyJob := { src := 0x1000, dst := 0x2000, ctl := ctl, bar := 0, batch := 0, done := 0, arrived := 0 }
    c.lanes ≠ [] ∧ IssuesUniform s c (Needs.regs [.one 3, .four 8, .one 6]) os ∧
    c.quad 8 = [0x1000, 0, 0x2000, 0] ∧ copyFault (s.scratchBound c.g) (job 0x20) (c.quad 8) = none ∧ scratchHeld s c = false ∧
    Unaliased s c [(job 0x20).span] ∧
    scratchBehind s c.slot [{ scr := false, addr := 0x1000, len := 32 }] = false ∧ s.readsFixed c.slot = true ∧
    copyFault (s.scratchBound c.g) (job 0xE0000020) (c.quad 8) = some 0 ∧
    Issues s c (Needs.regs [.one 3]) ∧ NoStep c ∧ IssuesUniform s c (Needs.regs [.one 3]) [.one 3] := by decide +kernel

/-- Batch 6 is open; v1 names the batches up to 5, of which one holds a copy in flight, and v2 those up to 6. -/
def batched (ops : Sparse Op) : State := withOps ops (readyBut fun g => regBe 1 5 (regBe 2 6 { g with batch := 6 }))
theorem test_batches : let covers (w k : Nat) : Prop := (w + 2 ^ 32 - k % 2 ^ 32) % 2 ^ 32 < 2 ^ 31
    let s := batched [(7, { aCopy with copy := aCopy.copy.map fun j => { j with batch := 5 } })]; let c := cx s
    IssuesUniform s c (Needs.regs [.one 1]) [.one 1] ∧ IssuesUniform s c (Needs.regs [.one 2]) [.one 2] ∧ c.g.batch = 6 ∧
    (c.uniform (.one 1)).toNat = 5 ∧ (c.uniform (.one 2)).toNat = 6 ∧ ¬ covers 5 6 ∧ covers 6 6 ∧ covers 5 5 ∧
    (s.opsOf c.slot).map (fun p => p.2.copy.map (·.batch)) = [some 5] ∧ (batched []).opsOf 0 = [] ∧
    covers 5 4 := by decide +kernel

/-- A copy of batch 4 has completed and is still to be observed. -/
theorem test_batches_observed : let s := (batched []).modGroup 0 fun g =>
      { g with done := [{ flag := none, batch := some 4, rel := none, writes := [(0x11000, 32, 5)] }] }
    IssuesUniform s (cx s) (Needs.regs [.one 1]) [.one 1] ∧ (cx s).lanes ≠ [] ∧ (cx s).g.batch < 4 + 2 ^ 32 ∧ s.opsOf 0 = [] ∧
    (groupAfter (exec (.waitb 1) s)).view.floor 0x1101F = 5 ∧ (groupAfter (exec (.waitb 1) s)).done = [] := by decide +kernel

/-- A fault has suspended the copy. -/
def late : Op := { aCopy with suspended := some { TrapInfo.at Place.body [0] .late [0] with sub := 4, addr := 0x1000, op := some 7 } }

theorem test_late_fault : (flying late).op 7 = some late ∧ (flying late).group 0 = some (Place.group false) ∧ late.aux = 0 ∧
    late.suspended = some { TrapInfo.at Place.body [0] .late [0] with sub := 4, addr := 0x1000, op := some 7 } ∧
    (∀ p ∈ (flying late).opsOf 0, ¬ p.1 < 7) ∧ late.inProgress = false ∧
    (Place.group false).allExited = false ∧ CanTrap (flying late) (Place.group false) 0x200 := by
  decide

/-- A demand is suspended while a granule of it is in progress. -/
theorem test_late_waits : let o := { aForce with suspended := late.suspended }
    (flying o).op 7 = some o ∧ o.aux = 0 ∧ o.inProgress = true ∧
    ((after (exec (.lateFault 7) (flying o))).op 7).map (·.aux) = some 0 := by decide

/-- A group that has exited with a suspended copy; a copy, and a granule of `aDesc`, that meet a page with no entry. -/
theorem test_faults_arise :
    (let s := withOps [(7, late)] (readyBut fun g => { g with strands := g.strands.map fun t => { t with run := .exited, exec := 0 } })
     (s.group 0).map (·.allExited) = some true ∧ s.op 7 = some late ∧ late.aux = 0) ∧
    (let j : CopyJob := { src := 0x7FFF0000, dst := 0x40, ctl := 32, bar := 0, batch := 0, done := 0, arrived := 0 }
     let o := { anOp .copy with copy := some j }; let s := flying o; let g := Place.group false
     s.op 7 = some o ∧ s.group 0 = some g ∧ o.suspended = none ∧ j.done.testBit 0 = false ∧ 0 < j.chunks ∧
      (match engineLocs s o g j.srcScr j.decode .read 0 ((chunkBytes j 0).map (j.src + ·)) with
       | .error e => (e.cause, e.addr) = (Cause.page, 0x7FFF0000)
       | .ok _ => False)) ∧
    (let s := flying aForce
     match tileLocs s aForce (Place.group false) { aDesc with base := 0x7FFF0000 }
         (some ((Place.group false).tileMode (aNode (.desc aDesc)) 0 0)) (Rect.elems { r0 := 0, r1 := 1, c0 := 0, c1 := 2 })
         (pickElems none (Rect.elems { r0 := 0, r1 := 1, c0 := 0, c1 := 2 })) with
     | .error e => (e.cause, e.addr) = (Cause.page, 0x7FFF0000)
     | .ok _ => False) := by
  refine ⟨by decide, ⟨by decide, by decide, by decide, by decide, by decide, ?_⟩, ?_⟩ <;> rfl



/-! ### Barriers and channels -/

/-- A byte-counting barrier at 0x20 of the team's scratch, with EXP 5, ARR 2 and PH 0. -/
def counting (off v : Word) : State :=
  (readyBut fun g => regBe 4 off (regBe 6 v g)).modTeam 0 fun t => { t with scratch := [(0x20, 5), (0x24, 2)] }

theorem test_counting_issues : let s := counting 0x20 3; let c := cx s
    c.lanes ≠ [] ∧ IssuesUniform s c (Needs.regs [.one 4, .one 6]) [.one 4, .one 6] ∧
    s.team c.g.teamKey = some { Place.team with scratch := [(0x20, 5), (0x24, 2)] } ∧ Plain c.g ∧
    (c.uniform (.one 4)).toNat % 16 = 0 ∧ (c.uniform (.one 4)).toNat + 16 ≤ s.scratchBound c.g ∧ accessHeld s c = false ∧
    scratchHeld s c = false ∧ scratchWord [(0x20, 5), (0x24, 2)] 0x28 ≠ (c.uniform (.one 6)).toNat ∧
    scratchWord [(0x20, 5), (0x24, 2)] 0x28 = ((cx (counting 0x20 0)).uniform (.one 6)).toNat ∧
    ((cx (counting 0x28 0)).uniform (.one 4)).toNat % 16 ≠ 0 ∧
    s.scratchBound c.g < ((cx (counting 0x400 0)).uniform (.one 4)).toNat + 16 := by decide +kernel

/-- The barrier is poisoned. -/
theorem test_counting_poison : let s := (counting 0x20 3).modTeam 0 fun t => { t with poison := [0x20] }; let c := cx s
    IssuesUniform s c (Needs.regs [.one 4, .one 6]) [.one 4, .one 6] ∧ c.lanes ≠ [] ∧ (s.team c.g.teamKey).isSome = true ∧
    s.scratchPoison c.g 0x20 16 = true ∧ (counting 0x20 3).scratchPoison (cx (counting 0x20 3)).g 0x20 16 = false ∧
    engineBusy (counting 0x20 3) 0 [{ scr := true, addr := 0x20, len := 16 }] = false := by decide +kernel

/-- A deterministic BCWAIT sees the group's own BCINIT, which is buffered: PH is 1 in scratch and 0 for the group. -/
theorem test_counting_seen : let s := ((counting 0x20 0).modGroup 0 fun g =>
      { gsBe 0x800 g with quantum := 4, det := { g.det with buffer := [.barrier .init 0x20 1] } }).modTeam 0 fun t =>
        { t with scratch := [(0x20, 5), (0x24, 2), (0x28, 1)] }
    let c := cx s
    IssuesUniform s c (Needs.regs [.one 4, .one 6]) [.one 4, .one 6] ∧ c.lanes ≠ [] ∧ Gs.det c.g.modes.gs = true ∧
    scratchWord (scratchView { Place.team with scratch := [(0x20, 5), (0x24, 2), (0x28, 1)] } c.g) 0x28 = 0 ∧
    ((groupAfter (exec (.bcwait 4 6) s)).strand 0).block = some (.bcwait 0x20 0) := by decide +kernel

/-- A launch of two groups, and of clusters of two teams; the mask in v4 and v5. -/
def joining (mask : Word) (f : Group → Group) : State :=
  descBe (fun d => { d with groups := 2, cx := 2 }) (readyBut fun g => regBe 4 mask (f g))

/-- Strand 3 stands elsewhere. -/
def apart (g : Group) : Group := { g with strands := g.strands.mapIdx fun i t => if i = 3 then { t with pc := 0x108 } else t }
/-- Strand 3 waits at another barrier. -/
def elsewhere (g : Group) : Group := { g with strands := g.strands.mapIdx fun i t => if i = 3 then { t with block := some (.bar 9) } else t }

theorem test_team_barriers_issue :
    (let s := joining 3 apart; let c := cx s
     IssuesUniform s c (Needs.unguarded [(.two 4)]) [(.two 4)] ∧ Plain c.g ∧ s.team c.g.teamKey = some Place.team ∧
      s.cluster Place.team.cluster = some Place.cluster ∧ (c.uniform (.two 4)).toNat < 2 ^ 2 ∧ (c.uniform (.two 4)).getLsbD 0 = true ∧
      (s.barrierOf c.g (.bar 2)).isOpen = false ∧ 3 < c.g.strands.length ∧ 3 ∉ c.gang ∧ (c.g.strand 3).exited = false ∧
      (c.g.strand 3).block ≠ some ((.bar 2)) ∧ (c.g.strand 3).waitsAt = none) ∧
    (let s := joining 4 id
     IssuesUniform s (cx s) (Needs.unguarded [(.two 4)]) [(.two 4)] ∧ 2 ^ 2 ≤ ((cx s).uniform (.two 4)).toNat) ∧
    (let s := joining 3 elsewhere
     IssuesUniform s (cx s) (Needs.unguarded [(.two 4)]) [(.two 4)] ∧ 3 ∉ (cx s).gang ∧ ((cx s).g.strand 3).block = some (.bar 9)) := by decide +kernel

theorem test_cluster_barriers_issue :
    (let s := joining 3 apart; let c := cx s
     IssuesUniform s c (Needs.unguarded [(.one 4)]) [(.one 4)] ∧ Plain c.g ∧ s.team c.g.teamKey = some Place.team ∧
      s.cluster Place.team.cluster = some Place.cluster ∧ (c.uniform (.one 4)).toNat < 2 ^ 2 ∧ (c.uniform (.one 4)).getLsbD 0 = true ∧
      (s.barrierOf c.g (.barc 2)).isOpen = false ∧ 3 < c.g.strands.length ∧ 3 ∉ c.gang ∧ (c.g.strand 3).exited = false ∧
      (c.g.strand 3).block ≠ some ((.barc 2)) ∧ (c.g.strand 3).waitsAt = none) ∧
    (let s := joining 4 id
     IssuesUniform s (cx s) (Needs.unguarded [(.one 4)]) [(.one 4)] ∧ 2 ^ 2 ≤ ((cx s).uniform (.one 4)).toNat) ∧
    (let s := joining 3 elsewhere
     IssuesUniform s (cx s) (Needs.unguarded [(.one 4)]) [(.one 4)] ∧ 3 ∉ (cx s).gang ∧ ((cx s).g.strand 3).block = some (.bar 9)) := by decide +kernel

theorem test_barrier_alone : let s := joining 1 id; let c := cx s
    IssuesUniform s c (Needs.unguarded [.two 4]) [.two 4] ∧ c.uniform (.two 4) = 1#64 <<< c.g.ident.grpid ∧ c.g.ident.grpid < 2 ∧
    (s.teamBarrier c.g 2).isOpen = false ∧ (∀ j < c.g.strands.length, j ∈ c.gang) ∧ s.loadsFixed c.slot = true ∧
    c.slot ∈ Place.team.slots := by decide +kernel

/-- In the handler, with a word for BARST in v1. -/
def barst (x : Word) : State := handling.modGroup 0 (regBe 1 x)

theorem test_barst_issues : let s := barst 0x10000; let c := cx s
    IssuesUniform s c (Needs.unguarded [.one 1]) [.one 1] ∧ c.g.tm = true ∧ (c.uniform (.one 1)).getLsbD 16 = true ∧
    (s.teamBarrier c.g 2).isOpen = false := by decide

theorem test_barst_abandons : let s := (barst 0x07000000).modGroup 0 fun g =>
      { g with strands := g.strands.mapIdx fun i t => if i = 3 then { t with block := some (.bar 2) } else t }
    let c := cx s
    IssuesUniform s c (Needs.unguarded [.one 1]) [.one 1] ∧ c.g.tm = true ∧ (c.uniform (.one 1)).getLsbD 16 = false ∧
    (c.g.strand 3).block = some (.bar 2) ∧ Place.team.slots = [0] ∧
    ((groupAfter (exec (.wrsr 1 0x62) s)).strand 3).block = none := by decide +kernel

/-- Team barrier 2 is open with the mask 3, and WRSR gives an ARR that does not reach it, or one that does. -/
theorem test_barst_tests : ∀ arr ∈ [1, 2], let b : Barrier := { phase := 4, arr := 0, isOpen := true, mask := 3, low := 3, arrived := [] }
    let s := (barst (BitVec.ofNat 32 (0x10000 + arr * 2 ^ 17))).modTeam 0 fun t => { t with bars := [(2, b)] }; let c := cx s
    IssuesUniform s c (Needs.unguarded [.one 1]) [.one 1] ∧ c.g.tm = true ∧ s.teamBarrier c.g 2 = b ∧
    (c.uniform (.one 1)).getLsbD 16 = true ∧ ((c.uniform (.one 1)).extractLsb' 17 7).toNat = arr ∧
    (s.team c.g.teamKey).map (·.exited) = some [] := by decide

/-- The running machine with another state of channel 0. -/
def channelled (f : Channel → Channel) : State := ready.modChannel 0 0 f

/-- The launch's channel 0 between two other teams. -/
def foreign : State := descBe (fun d => { d with chans := [(0, { source := 1, dest := 2, slots := 1 })] }) ready

theorem test_channels_issue : let c := cx ready
    Issues ready c (Needs.regs [.one 8]) ∧ NoStep c ∧ c.lanes ≠ [] ∧ (ready.endpoint c.g 1).isNone = true ∧
    (ready.endpoint c.g 0).map (fun e => (e.cluster, e.decl, e.chan)) =
      some (0, { source := 0, dest := 0, slots := 1 }, { free := 1, full := 0, nextSend := 0, nextRecv := 0, written := [], misused := false }) ∧
    c.g.ident.rank = 0 ∧ (∀ i ∈ c.g.liveStrands, i ∈ c.gang) ∧ ready.rankExited 0 0 = false ∧ Plain c.g ∧ heldBut (fun o => o.kind == .receive) ready c = false ∧
    ready.releaseReady c.slot .clu = true ∧ (cx foreign).g.ident.rank = 0 ∧
    (foreign.endpoint (cx foreign).g 0).map (·.decl) = some { source := 1, dest := 2, slots := 1 } ∧
    (∀ e, ready.endpoint c.g 0 = some e → ready.neverFills e.cluster 0 e.decl.source e.chan.nextRecv e.chan = false) ∧
    ((channelled fun x => { x with free := 0 }).endpoint c.g 0).map (·.chan.free) = some 0 := by
  refine ⟨by decide, by decide, by decide, rfl, by decide, by decide, by decide, by decide, by decide, by decide, by decide, by decide,
    by decide, ?_, by decide⟩
  intro e he
  cases he
  decide

/-- A deterministic group whose send waits for the commit: of one free slot it finds none. -/
theorem test_channels_exact : let s := withOps [(7, { anOp .send with channel := some (0, 0) })] (readyBut fun g => { gsBe 0x800 g with quantum := 1024 })
    let c := cx s
    Issues s c (Needs.regs [.one 8]) ∧ c.lanes ≠ [] ∧ (∀ i ∈ c.g.liveStrands, i ∈ c.gang) ∧ Gs.det c.g.modes.gs = true ∧
    (s.endpoint c.g 0).map (fun e => (e.cluster, e.decl.source, e.decl.dest, e.chan.free)) = some (0, c.g.ident.rank, 0, 1) ∧
    ((s.opsOf c.slot).filter fun p => p.2.kind == .send && p.2.aux == 0 && (p.2.channel.getD (0, 0)).1 == 0).length = 1 ∧
    s.rankExited 0 0 = false ∧ ((groupAfter (exec (.chsend 8 0) s)).strand 0).pc = Place.body := by decide +kernel

/-- The launch's channel 0 to, or from, a second team of the cluster that has exited. -/
def deserted (source dest free : Nat) : State :=
  let d : ChannelDecl := { source := source, dest := dest, slots := 1 }
  let s := descBe (fun d' => { d' with chans := [(0, d)], cx := 2 }) (channelled fun x => { x with free := free })
  { s with teams := [(0, Place.team), (1, { Place.team with index := 1, rank := 1, slots := [], exited := [0] })]
           clusters := s.clusters.update 0 fun c => { c with teams := [0, 1] } }

theorem test_channels_trap :
    (let s := deserted 0 1 0; let c := cx s
     Issues s c (Needs.regs [.one 8]) ∧ c.lanes ≠ [] ∧ (∀ i ∈ c.g.liveStrands, i ∈ c.gang) ∧
      (s.endpoint c.g 0).map (fun e => (e.cluster, e.decl.source, e.decl.dest, e.chan.free)) = some (0, c.g.ident.rank, 1, 0) ∧
      s.rankExited 0 1 = true) ∧
    (let s := deserted 1 0 1; let c := cx s
     Issues s c (Needs.regs [.one 8]) ∧ (s.endpoint c.g 0).map (fun e => (e.decl.dest, e.chan.nextRecv)) = some (c.g.ident.rank, 0) ∧
      ((s.endpoint c.g 0).map fun e => s.neverFills e.cluster 0 e.decl.source e.chan.nextRecv e.chan) = some true) := by
  decide +kernel

/-- Where a check of a channel's area passes. -/
def areaAt (r : Except (Cause × Nat) Phys) : Option Nat :=
  match r with
  | .ok p => some p.pa
  | .error _ => none

theorem test_channel_area : (ready.endpoint (cx ready).g 0).bind (fun e => areaAt (ready.channelPhys (cx ready) e 0 0)) = some 0x14000 := by
  decide +kernel

/-- The area of the channel is not mapped. -/
theorem test_channel_faults : let s := descBe (fun d => { d with chbase := 0x7FFF0000 }) ready; let c := cx s
    Issues s c (Needs.regs [.one 8]) ∧ (∀ i ∈ c.g.liveStrands, i ∈ c.gang) ∧ CanTrap s c.g 0x200 ∧
    (s.endpoint c.g 0).map (fun e => (areaAt (s.channelPhys c e 0 e.chan.nextSend), areaAt (s.channelPhys c e 0 e.chan.nextRecv),
      s.neverFills e.cluster 0 e.decl.source e.chan.nextRecv e.chan, e.chan.free)) = some (none, none, false, 1) := by decide +kernel

/-- A send or a receive of slot 0 has its turn, and the receive finds it written. -/
def channelOp0 (kind : OpKind) : Op :=
  { anOp kind with channel := some (0, 0), aux := 1, dst := some 8, data := List.replicate 64 0,
                   pieces := [{ aPiece with addr := 0x14000, vaddr := 0x4000, size := 64, data := none }] }
def carrying (kind : OpKind) : State :=
  withOps [(7, channelOp0 kind)] (channelled fun x => { x with free := 0, full := 1, written := [(0, List.replicate 64 0)] })

theorem test_channel_ops : ∀ k ∈ [OpKind.send, .receive], let s := carrying k; let o := channelOp0 k
    s.op 7 = some o ∧ (s.opEndpoint o).isSome = true ∧ o.aux = 1 ∧ Memory.wf s.mem = true ∧
    (∀ p ∈ s.mem.ops, p.2.kind = .send → 7 ≤ p.1) ∧ s.regionHeld 0x14000 64 = false ∧ s.pendingWords 0x14000 64 = [] ∧
    s.group o.slot = some (Place.group false) ∧ (Place.group false).allExited = false ∧ Plain (Place.group false) ∧ o.dst = some 8 ∧
    (s.opEndpoint o).map (fun e => (o.slotAddr e, e.chan.written.find o.chan.2, e.chan.misused)) =
      some (0x14000, some (List.replicate 64 0), false) ∧
    s.mem.read 0x14000 64 = List.replicate 64 0 ∧ s.mem.poisoned 0x14000 64 = false := by decide +kernel

/-! ### Tasks, messages and rounds -/

/-- A bound queue. -/
def aQueue : Queue :=
  { header := 0x22000, head := 0, tail := 0, ring := 0x21000, rlog := 12, takeSeq := 0, nextSeq := 0, taken := none, last := none,
    faulted := false, appends := [] }

/-- Queue 3 is bound, its number is in v8 and the address of a record in v4. -/
def spawning : State := { readyBut fun g => regBe 4 0x1000 (regBe 8 3 (few g)) with queues := [(3, aQueue)] }

theorem test_spawn_issues : let s := spawning; let c := cx s
    (IssuesUniform s c (Needs.regs [.one 8, .two 4]) [.one 8, .two 4] ∧ c.lanes ≠ [] ∧ (c.uniform (.one 8)).toNat = 3 ∧
    s.queues.find 3 ≠ none ∧ Plain c.g ∧ accessHeld s c = false ∧ s.releaseReady c.slot .dev = true ∧ s.pendingWords 0x11000 64 = [] ∧
    s.regionHeld 0x11000 64 = false ∧ s.ownRequests c.core 0x11000 64 = false ∧ recOk (readRecord (s.mem.read 0x11000 64)) = true ∧ (s.queues.find 0).isNone = true ∧
    Issues s c (Needs.unguarded [.one 8]) ∧ NoStep c ∧ IssuesUniform s c (Needs.regs [.one 8]) [.one 8] ∧ Issues s c (Needs.regs []) ∧
    Issues exact (cx exact) (Needs.regs []) ∧ Gs.det (cx exact).g.modes.gs = true ∧ (cx exact).lanes ≠ []) ∧
    (∃ p, checkOne s c.core (s.rootOf c.g.launch) (readNeeds s 64) 0x1000 0 = .ok p ∧ p.pa = 0x11000) ∧
    rejectedMeets s c [(0x11000, 64)] = false ∧ (∀ n ws, s.holdable 16 0x11000 n ws = []) ∧
    ∀ q ∈ s.mem.ops, q.2.kind ≠ .engineRead :=
  ⟨by decide +kernel, passes_of (by decide +kernel), by decide +kernel, fun _ _ => rfl, by decide⟩

/-- A record with a reserved bit. -/
def spoiled : State := { spawning with mem := { spawning.mem with bytes := spawning.mem.bytes ++ [(0x11027, 1)] } }

theorem test_spoiled_records : let s := spoiled; let c := cx s
    (IssuesUniform s c (Needs.regs [.one 8, .two 4]) [.one 8, .two 4] ∧ c.lanes ≠ [] ∧ Plain c.g ∧ accessHeld s c = false ∧
    rejectedMeets s c [(0x11000, 64)] = false ∧ s.pendingWords 0x11000 64 = [] ∧ s.regionHeld 0x11000 64 = false ∧
    s.ownRequests c.core 0x11000 64 = false ∧ recOk (readRecord (s.mem.read 0x11000 64)) = false ∧ CanTrap s c.g 0x200) ∧
    ReadsAtOnce s := ⟨by decide +kernel, fun _ _ _ => rfl, by decide⟩

/-- A record at an address that is no multiple of 64. -/
theorem test_spawn_faults : (let s := spawning.modGroup 0 (regBe 4 0x1004); let c := cx s
     IssuesUniform s c (Needs.regs [.one 8, .two 4]) [.one 8, .two 4] ∧ c.lanes ≠ [] ∧ (c.uniform (.two 4)).toNat = 0x1004 ∧
      errorOf (checkOne s c.core (s.rootOf c.g.launch) (readNeeds s 64) 0x1004 0) = some .align ∧ CanTrap s c.g 0x200) ∧
    (let s := spoiled; let c := cx s
     passesAt (checkOne s c.core (s.rootOf c.g.launch) (readNeeds s 64) 0x1000 0) 0x11000 = true) := by decide +kernel

/-- The quad of a message to 0x1000, with its control word in v6. -/
def messaging (ctl : Word) : State := readyBut fun g => quadBe [0x1000, 0, 7, 8] (regBe 6 ctl (few g))

theorem test_messages_issue : let s := messaging 0x45; let c := cx s
    (IssuesUniform s c (Needs.regs [.one 3, .four 8, .one 6]) (quadOpnds 8 ++ [.one 6]) ∧ c.lanes ≠ [] ∧ c.quad 8 = [0x1000, 0, 7, 8] ∧
    (((c.uniform (.one 6)).setWidth 32 : Word).extractLsb' 6 2).toNat = 1 ∧ accessHeld s c = false ∧ Plain c.g ∧
    rejectedMeets s c [(0x11000, 512)] = false ∧ s.launch c.g.launch = some Place.launch ∧ ((0xC0 : Word).extractLsb' 6 2).toNat = 3) ∧
    ∃ p, checkTarget s c 0x1000 = .ok p ∧ p.pa = 0x11000 := ⟨by decide +kernel, passes_of (by decide +kernel)⟩

/-- A message of operation 7 at slice 128, whose tinker has an entry for handler 5. -/
def aMessage (image : Bool) : ReqKind := .message 0x10004 5 7 8 9 image
def handled (image : Bool) (t : Tinker) : State :=
  let s := asking { anOp .message with pieces := [openPiece], aux := 1 } (aMessage image)
  { s with mem := { s.mem with tinkers := [(128, t)] } }
def atRest : Tinker := { Tinker.idle with mem := [(20, 0x80)] }
def runningBe (r : Option (Option Word)) (n : Nat) : Tinker :=
  { atRest with running := some 7, region := 0x10000, written := [(0x10004, 1), (0x10005, 2)], retired := n, result := r }

theorem test_handlers_start : ∀ image, (handled image atRest).servable 50 = some (aReq (aMessage image)) ∧ homeSlice 0x10004 = 128 ∧
    ((handled image atRest).tinker 128).running = none ∧
    (((handled image atRest).tinker 128).load (handled image atRest).mem 20 4).getD 0 = 0x80 ∧
    (handled image atRest).pendingWords (regionBase 0x10004) 512 = [] ∧
    ((handled image (runningBe none 3)).tinker 128).running ≠ none := by decide +kernel

theorem test_handlers_end : ∀ k < 3, let r := [some (some (5 : Word)), some none, none].getD k none; let s := handled true (runningBe r 513)
    (s.tinker 128).running = some 7 ∧ s.op 7 = some { anOp .message with pieces := [openPiece], aux := 1 } ∧ Memory.wf s.mem = true ∧
    (s.tinker 128).result = r ∧ 512 < (s.tinker 128).retired ∧
    ∀ p ∈ (s.tinker 128).written, ∀ p' ∈ (s.tinker 128).written, p'.1 = p.1 → p' = p := by decide +kernel

theorem test_image_installs : let s := descBe (fun d => { d with tkimg := 0x1000, tksize := 64 }) ready
    ((s.launch 0).map (fun l => (decide (l.desc.tkimg ≠ 0), l.imaged, l.terminated)) = some (true, false, false) ∧
    (∀ p ∈ s.launches, p.2.imaged = true → p.1 = 0) ∧ s.mem.pending = [] ∧ ReadsAtOnce s) ∧
    (∀ i < 2, 32 * i < 64 ∧ s.deliverable (0x11000 + 32 * i) = true ∧ s.mem.poisoned (0x11000 + 32 * i) 32 = false) ∧
    ∀ i < 2, ∃ p, checkAccess s 614 Place.desc.root (0x1000 + 32 * i) .read (fun _ => false) i = .ok p ∧ p.pa = 0x11000 + 32 * i :=
  ⟨⟨by decide, by decide, by decide, fun _ _ _ => rfl, by decide⟩, by decide, fun i hi => passes_of (by revert i; decide +kernel)⟩

/-- A deterministic group that has retired its quantum, or has ended it with a buffered write. -/
def spent : State := readyBut fun g => { gsBe 0x800 g with quantum := 4, det := { g.det with used := 4 } }
def committing : State :=
  let s := descBe (fun d => { d with det := true }) (readyBut fun g =>
    { gsBe 0x800 g with quantum := 4, det := { g.det with used := 4, ended := true, buffer := [.write 0x10010 0 [1, 2]] } })
  s

theorem test_quantum : let g := (spent.group 0).getD (Place.group false)
    spent.group 0 = some g ∧ Gs.det g.modes.gs = true ∧ g.det.ended = false ∧ g.quantum.toNat ≤ g.det.used ∧
    Plain (Place.group false) ∧ (Place.group false).allExited = false := by decide

/-- A group that has exited, of a task with or without a successor. -/
def exited (counter : Nat) : State := readyBut fun g =>
  { g with strands := g.strands.map fun t => { t with run := .exited, exec := 0 }, ident := { g.ident with successor := counter } }

theorem test_retire : ∀ n ∈ [0, 128], let s := exited n
    (s.group 0).map (fun g => (g.allExited, g.det.buffer, g.ident.successor, Gs.det g.modes.gs)) = some (true, [], n, false) ∧
    s.opsOf 0 = [] ∧ s.successors = [] ∧ s.releaseReady 0 .dev = true := by decide

/-- A deterministic group that has exited leaves only once its exit stands in its team. -/
theorem test_retire_exact : let s := (exited 0).modGroup 0 (gsBe 0x800)
    (s.group 0).map (fun g => (g.allExited, g.det.buffer, Gs.det g.modes.gs)) = some (true, [], true) ∧
    (s.team 0).map (·.exited) = some [] ∧ (after (exec (.groupRetire 0) s)).group 0 ≠ none ∧
    ((s.modTeam 0 fun t => { t with exited := [0] }).team 0).map (·.exited) = some [0] ∧
    (after (exec (.groupRetire 0) (s.modTeam 0 fun t => { t with exited := [0] }))).group 0 = none := by decide +kernel

theorem test_commit : let s := committing; let g := (s.group 0).getD (Place.group false)
    (s.launch 0).map (fun l => (l.desc.det, l.phase, l.terminated, l.placing, l.committed)) = some (true, .run, false, false, []) ∧
    s.inOrder 0 = [(0, g)] ∧ s.group 0 = some g ∧ g.roundOver = true ∧ g.allExited = false ∧ s.opsOf 0 = [] ∧ s.mem.tinkers = [] ∧
    g.det.buffer = [.write 0x10010 0 [1, 2]] ∧ Memory.wf s.mem = true ∧ s.pendingWords 0x10010 2 = [] ∧
    (let u := descBe (fun d => { d with det := true }) exact
     (0, (u.group 0).getD (Place.group false)) ∈ u.slots ∧ ((u.group 0).getD (Place.group false)).roundOver = false) := by decide +kernel

/-- Two groups of a round, the second in the lower slot, write the same bytes. -/
def round2 : State :=
  let g := (committing.group 0).getD (Place.group false)
  { committing with slots := [(0, { g with ident := { g.ident with grpid := 7 } }), (3, { g with det := { g.det with buffer := [.write 0x1000F 0 [3, 4]] } })] }

theorem test_commit_order : let s := round2; let gs := s.slots.reverse
    (s.launch 0).map (fun l => (l.desc.det, l.phase, l.terminated, l.placing, l.committed)) = some (true, .run, false, false, []) ∧
    (s.slots.filter fun p => p.2.launch == 0).length = gs.length ∧ gs.Pairwise (fun p q => p.2.ident.global < q.2.ident.global) ∧
    Sparse.sortedFrom 0 s.slots = true ∧ (∀ p ∈ gs, p.2.roundOver = true ∧ p.2.allExited = false ∧ s.opsOf p.1 = []) ∧
    gs.map (·.2.det.buffer) = [[.write 0x1000F 0 [3, 4]], [.write 0x10010 0 [1, 2]]] ∧ s.mem.tinkers = [] ∧ s.mem.pending = [] ∧
    Memory.wf s.mem = true := by decide +kernel

/-- R292: the groups' writes take effect in ascending global group id. -/
theorem test_commit_result : (after (exec (.detCommit 0) round2)).mem.read 0x1000F 3 = [3, 1, 2] := by decide +kernel

theorem test_commit_perm : (round2.slots.filter fun p => p.2.launch == 0).Perm round2.slots.reverse :=
  (List.reverse_perm _).symm

/-- A successor step of core 0 whose counter holds 2. -/
def succeeding : State :=
  { ready with successors := [(9, { slot := none, launch := 0, core := 0, counter := 0x1000, reached := false })]
               mem := ready.mem.write 0x11000 [2, 0, 0, 0] }

theorem test_successor : let s := succeeding
    (0x1000 % 128 = 0 ∧ s.successors.find 9 = some { slot := none, launch := 0, core := 0, counter := 0x1000, reached := false } ∧ s.regionHeld 0x11000 128 = false ∧ Memory.wf s.mem = true ∧ s.queues = [] ∧
      s.pendingWords 0x11000 4 = [] ∧ s.mem.poisoned 0x11000 4 = false ∧ leNat (s.mem.read 0x11000 4) = 2) ∧
    ∃ p, checkOne s 0 (s.rootOf 0) { atomSpec .add .n32 4 true with reach := true } 0x1000 0 = .ok p ∧ p.pa = 0x11000 :=
  ⟨by decide +kernel, passes_of (by decide +kernel)⟩


/-! ### Command streams, launches and queues -/

/-- Stream 2 is empty, with its ring at 0x30000, where a WAIT with no record stands. -/
def aStream : Stream := { sbase := 0x30000, slog := 12, stail := 0, shead := 0 }
def streaming : State :=
  { ready.setStream 2 aStream with mem := ready.mem.write 0x30000 (BitVec.ofNat 8 opWait :: List.replicate 63 0) }

theorem test_streams_take : let x := streaming.stream 2
    x = aStream ∧ (100 : Word).toNat % 64 ≠ 0 ∧ 2 ^ x.slog.toNat ≤ (4096 : Word).toNat ∧ (64 : Word).toNat % 64 = 0 ∧
    (64 : Word).toNat < 2 ^ x.slog.toNat ∧ streaming.sys.boot = .run ∧ State.reset.sys.boot ≠ .run ∧ x.shead ≠ 64 ∧
    (64 : Word).toNat = (x.shead.toNat + 64) % 2 ^ x.slog.toNat ∧ streaming.cmds = [] ∧ streaming.mem.pending = [] ∧
    streaming.physOk (streamBlock 2) 0x30000 64 = true ∧ cmdMalformed (streaming.mem.read 0x30000 64) = false ∧
    x.shead = x.stail ∧ (let s := ready.setStream 2 { aStream with stail := 64 }; (s.stream 2).shead ≠ (s.stream 2).stail) := by
  decide +kernel

/-- Nothing stands between a command processor and what it reads, and no handler runs where it writes. -/
theorem test_streams_read_at_once : ReadsAtOnce streaming ∧ ∀ a, streaming.recordHeld
    { stream := 2, offset := 0, op := 0, caddr := a, ptr := 0, imm := 0, deps := [], state := .ready, taken := 0 } = false :=
  ⟨⟨fun _ _ _ => rfl, by decide⟩, fun _ => by
    have h : streaming.mem.tinkers = [] := by decide
    simp [State.recordHeld, State.physHeld, State.regionHeld, h]⟩

/-- What is at the head of stream 2: a malformed command, a ring in a hole, two WAITs, and a device in QUARANTINE. -/
theorem test_streams_take_others :
    (Direct streaming 0x30000 64 ∧ cmdMalformed (List.replicate 64 0) = true ∧
      (let s := ready.setStream 2 aStream; s.physOk (streamBlock 2) 0x30000 64 = true ∧ Direct s 0x30000 64 ∧
        s.mem.read 0x30000 64 = List.replicate 64 0 ∧ Memory.wf s.mem = true)) ∧
    (let s := ready.setStream 2 { aStream with sbase := 0x9000000000 }
     s.physOk (streamBlock 2) 0x9000000000 64 = false ∧ Memory.wf s.mem = true) ∧
    (let s : State := { streaming with mem := streaming.mem.write 0x30040 (BitVec.ofNat 8 opWait :: List.replicate 63 0) }
     ∀ i < 2, s.physOk (streamBlock 2) (0x30000 + 64 * i) 64 = true ∧ Direct s (0x30000 + 64 * i) 64 ∧
      (let b := s.mem.read (0x30000 + 64 * i) 64; cmdMalformed b = false ∧ field b 1 1 = 0 ∧ field b 2 1 = 0)) ∧
    ({ ready with sys := { ready.sys with boot := .quarantine } } : State).sys.boot = .quarantine := by decide +kernel

/-- A command of stream 2, whose record is to stand at 0x38000. -/
def aCmd (op : Nat) (state : CmdState) (deps : List Nat) : Cmd :=
  { stream := 2, offset := 0, op := op, caddr := 0x38000, ptr := 0x30000, imm := 8, deps := deps, state := state, taken := 0 }
def commanded (cmds : Sparse Cmd) : State := { ready with ids := 100, cmds := cmds }

theorem test_commands : (commanded [(5, aCmd opWait .waiting [])]).cmds.find 5 = some (aCmd opWait .waiting []) ∧
    (let s := commanded [(4, aCmd opWait .ready []), (5, aCmd opWait .waiting [4])]
     s.cmds.find 5 = some (aCmd opWait .waiting [4]) ∧ (∃ d ∈ [4], s.cmds.find d ≠ none)) ∧
    (∀ op ∈ [opWait, opTlbinv, opCancel, opLaunch, opQbind, opSetways], let s := commanded [(5, aCmd op .ready [])]
      s.cmds.find 5 = some (aCmd op .ready []) ∧ 5 < s.ids ∧ s.mem.pending = [] ∧ Memory.wf s.mem = true ∧
      s.recordHeld (aCmd op .ready []) = false ∧ ∀ p ∈ s.cmds, p.2.stream = 2 → 5 ≤ p.1) ∧
    (commanded [(5, aCmd 0 .waiting [])]).cmds.find 5 = some (aCmd 0 .waiting []) ∧
    (commanded [(5, aCmd 0 .waiting [])]).recordHeld (aCmd 0 .waiting []) = false ∧
    (let s := commanded [(5, aCmd opWait .ready [])]
     { s with mem := { s.mem with tinkers := [(0, { runningBe none 3 with region := 0x38000 })] } }.recordHeld (aCmd opWait .ready []) = true) ∧
    (let s := commanded [(4, aCmd opWait .ready []), (5, aCmd opWait .ready [])]
     ∃ p ∈ s.cmds, p.2.stream = (aCmd opWait .ready []).stream ∧ p.1 < 5) := by decide +kernel

theorem test_records_written : (aCmd opWait .ready []).caddr ≠ 0 ∧ (aCmd opWait .ready []).caddr % 32 = 0 ∧
    ready.physReach (streamBlock 2) 0x38000 32 = true ∧ ready.physReach (streamBlock 2) 0x9000000000 32 = false := by decide

theorem test_cancellation : let o := { anOp .cancelJob with lanes := [3, 5], data := wordBytes 9 }
    (flying o).mem.ops = [(7, o)] ∧ 3 ∈ o.lanes ∧ o.data = wordBytes (BitVec.ofNat 32 9) ∧ (flying o).awaitsCommit o.slot 7 = false ∧
    ((flying o).cancels.get 3 []).length < 64 ∧ cancelName 5 = cancelName 0 + 5 ∧ 0 < cancelName 0 ∧
    (commanded [(5, aCmd opCancel .running [])]).recordHeld (aCmd opCancel .running []) = false ∧ o.lanes.filter (· != 3) ≠ [] ∧ [3].filter (· != 3) = [] := by decide +kernel

/-- A descriptor of a launch of one team that breaks no rule, and a queue header. -/
def descBytes : List Byte :=
  leBytes 8 0x100 ++ leBytes 8 0x200 ++ leBytes 8 0x2000 ++ leBytes 8 0x8000 ++ leBytes 4 0x1000 ++ leBytes 4 1 ++
  [16, 252, 8, 1] ++ leBytes 4 1024 ++ leBytes 2 1 ++ [1, 1, 0, 0, 8, 0] ++ leBytes 4 0 ++ [255, 255, 255, 255] ++
  List.replicate 128 0 ++ leBytes 48 1 ++ List.replicate 272 0
def launching (b : List Byte) : State :=
  { commanded [(5, { aCmd opLaunch .ready [] with ptr := 0x32000 })] with
      mem := { State.reset.mem with bytes := (b.mapIdx fun i x => (0x32000 + i, x)).filter (·.2 ≠ 0) } }

theorem test_launch_is_accepted : descBytes.length = 512 ∧ launchReason ready 0x32000 descBytes = none := by decide +kernel

theorem test_launch_is_read : (launching descBytes).physOk (streamBlock 2) 0x32000 512 = true ∧ Direct (launching descBytes) 0x32000 512 ∧
    (launching descBytes).physOk (streamBlock 2) 0x9000000000 512 = false ∧
    (launching descBytes).physHeld 0x32000 512 = false ∧ (launching descBytes).mem.read 0x32000 512 = descBytes := by decide +kernel

theorem test_launch_reads_at_once (b : List Byte) : ReadsAtOnce (launching b) := ⟨fun _ _ _ => rfl, fun _ h => by cases h⟩

theorem test_launch_is_rejected : (launching []).physOk (streamBlock 2) 0x32000 512 = true ∧
    launchReason (launching []) 0x32000 (List.replicate 512 0) = some 3 := by decide +kernel

def headerBytes : List Byte := leBytes 4 5 ++ leBytes 4 517 ++ leBytes 8 0x21000 ++ [12] ++ List.replicate 47 0
theorem test_queues_bind : let s : State :=
      { commanded [(5, { aCmd opQbind .ready [] with ptr := 0x20000 })] with mem := ready.mem.write 0x20000 headerBytes }
    let b := s.mem.read 0x20000 64
    (aCmd opQbind .ready []).imm.toNat % 256 = 8 ∧ 0x20000 % 64 = 0 ∧ s.physOk (queueBlock 8) 0x20000 64 = true ∧
    Direct s 0x20000 64 ∧ s.physHeld 0x20000 64 = false ∧ s.physHeld (field b 8 8) 4096 = false ∧ s.launches.all (fun p => p.2.desc.nteams != 0 || !p.2.desc.queues.contains 8) = true ∧ field b 16 1 = 12 ∧ field b 8 8 % 4096 = 0 ∧ field b 17 47 = 0 ∧
    field b 0 4 % (2 ^ 12 / 8) = field b 4 4 % (2 ^ 12 / 8) ∧ (0x30020 : Nat) % 64 ≠ 0 ∧
    s.physOk (queueBlock 8) 0x9000000000 64 = false ∧ field (List.replicate 64 0) 16 1 < 12 ∧
    (let l := { Place.launch with desc := { Place.desc with nteams := 0, queues := [8] } }; l.desc.nteams = 0 ∧ 8 ∈ l.desc.queues) := by
  decide +kernel

theorem test_ways_change : let s : State := { commanded [(5, { aCmd opSetways .ready [] with ptr := 0 })] with launches := ready.launches }
    s.launches = [(0, Place.launch)] ∧ Place.launch.ptr = 0 ∧ Place.launch.phase ≠ .ending ∧ Place.launch.terminated = false ∧
    (8 : Dword).toNat % 16 ≤ 14 ∧ Place.launch.desc.scratch ≤ 8 * 32768 ∧ s.occupant 0 = some 0 ∧ 14 < (15 : Dword).toNat % 16 := by
  decide +kernel

theorem test_ways_apply : let s : State := { ready.setCore 1 { l1 := [], rejected := [], scrways := 8, ways := some 3, power := .on, shared := [] } with cmds := [] }
    (s.core 1).ways = some 3 ∧ (∀ p ∈ s.mem.ops, touchesScratch s 1 p.2 = false) ∧ (∀ p ∈ s.teams, p.2.core = 1 → p.2.slots = []) := by
  decide

/-- Core 0 keeps its team in area 0, and gains or loses ways. -/
theorem test_ways_apply_beside : ∀ w ∈ [3, 12], let s : State :=
      { ready.setCore 0 { l1 := [{ addr := 0x10000, bytes := List.replicate 32 0, grain := 0, poison := false, since := 0 }],
                          rejected := [], scrways := 8, ways := some w, power := .on, shared := [] } with cmds := [] }
    (s.core 0).ways = some w ∧ (∀ p ∈ s.mem.ops, touchesScratch s 0 p.2 = false) ∧ (∀ p ∈ s.launches, p.2.desc.det = false) ∧
    ∀ p ∈ s.teams, p.2.core = 0 → p.2.slots ≠ [] →
      (p.2.area + 1) * (((s.occupant 0).bind fun k => (s.launch k).map (·.desc.scratch)).getD 0) ≤ w * 32768 := by decide +kernel

/-- A queue with one record on its way from operation 7. -/
def appending (tail : Nat) : State :=
  { flying (anOp .spawn) with queues := [(3, { aQueue with tail := tail, appends := [{ fields := List.replicate 8 0, op := some 7, task := none }] })] }

theorem test_queue_appends : let s := appending 0
    let q := { aQueue with appends := [{ fields := List.replicate 8 0, op := some 7, task := none }] }
    let units := entryUnits q.nextSeq (entryMask q.last (List.replicate 8 0)) (List.replicate 8 0)
    s.queues.find 3 = some q ∧ s.op 7 = some (anOp .spawn) ∧ Memory.wf s.mem = true ∧ s.mem.pending = [] ∧
    s.cancelledAt (3 / 64) (recJob (List.replicate 8 0)) = false ∧ q.used + units.length < q.size ∧ q.tail < q.size ∧
    q.ring + 8 * q.size ≤ q.header ∧ s.queueHeld q = false ∧
    (let r := { q with tail := 511 }; r.size ≤ r.used + units.length) ∧
    ({ s with cancels := [(0, [(0, 0)])] } : State).cancelledAt (3 / 64) (recJob (List.replicate 8 0)) = true := by decide +kernel

/-- The ring and the header of the queue are apart, a record stands behind the first, and the engine may write there. -/
theorem test_queue_writes : let s := appending 511
    let q := { aQueue with tail := 511, appends := [{ fields := List.replicate 8 0, op := some 7, task := none }, { fields := List.replicate 8 1, op := none, task := none }] }
    q.ring % 8 = 0 ∧ q.header % 64 = 0 ∧ q.ring + 8 * q.size ≤ q.header ∧ (let r := { q with header := 0x20000 }; r.header + 8 ≤ r.ring) ∧
    (∀ i < 2, s.physReach (queueBlock 3) (q.unitAddr (q.tail + i)) 8 = true ∧ Direct s (q.unitAddr (q.tail + i)) 8) ∧
    s.physReach (queueBlock 3) (q.header + 4) 4 = true ∧ Direct s (q.header + 4) 4 := by decide +kernel

/-! ### Placement and the device -/

/-- Launch 0 wants its first team placed on core 0, or tasks from queue 3. -/
def placing : State :=
  { ready with ids := 100, slots := [], teams := [], clusters := []
               launches := [(0, { Place.launch with next := 0, phase := .place, desc := { Place.desc with chans := [] } })] }
def tasking : State :=
  let l := { Place.launch with desc := { Place.desc with nteams := 0, queues := [3], chans := [] } }
  { placing with launches := [(0, l)], queues := [(3, { aQueue with tail := 9 })], mem := ready.mem.write 0x21000 [255, 9] }

theorem test_placement : placing.firstWanting.map (·.1) = some 0 ∧
    (placing.launch 0).bind (fun l => placing.gridHead 0 l) = some (none, [(0, 0)]) ∧
    (placing.launch 0).map (·.desc.nteams) = some 1 := by decide +kernel

/-- Launch 0 wants clusters of two teams, on two eligible cores. -/
def placing2 : State :=
  { placing with launches := [(0, { Place.launch with next := 0, phase := .place, desc := { Place.desc with chans := [], nteams := 2, cx := 2, elig := [0, 1] } })] }

theorem test_placement_of_two : placing2.firstWanting.map (·.1) = some 0 ∧
    (placing2.launch 0).bind (fun l => placing2.gridHead 0 l) = some (none, [(0, 0), (1, 0)]) := by decide +kernel

theorem test_task_start : tasking.firstWanting.map (·.1) = some 0 ∧ (tasking.launch 0).bind (tasking.savedHead 0) = none ∧
    (tasking.launch 0).bind (fun l => tasking.taskCore 0 l) = some (0, 0) ∧
    ((tasking.launch 0).bind fun l => tasking.badHead l).isNone = true ∧
    ((tasking.launch 0).bind fun l => tasking.nextEntry l).map (fun e => (e.1, e.2.2.2)) = some (3, 9) ∧
    tasking.queues.all (fun p => !tasking.queueHeld p.2) = true ∧ tasking.cancelledAt 0 0 = false := by decide +kernel

theorem test_launch_ends : let s : State := { placing with launches := [(0, { Place.launch with next := 1, cmd := 5 })], cmds := [(5, aCmd opLaunch .running [])] }
    (s.launch 0).map (fun l => (s.launchOver 0 l, l.terminated)) = some (true, false) ∧ s.cmds.find 5 = some (aCmd opLaunch .running []) ∧
    s.mem.pending = [] ∧ Memory.wf s.mem = true ∧ s.recordHeld (aCmd opLaunch .running []) = false ∧
    ({ s with launches := s.launches.update 0 fun l => { l with terminated := true } } : State).launchStopped 0 = true := by decide +kernel

theorem test_preempt : ready.coresOf 0 = [] ++ [0] ∧ ready.launch 0 = some Place.launch ∧
    Place.launch.desc.det = false ∧ 0 ∈ ready.clustersOn [0] ∧ ready.cluster 0 = some Place.cluster ∧
    Place.cluster.residence = .resident := by decide +kernel

/-- The cluster drains, or stops while its group is in its handler, or is saved. -/
def residing (r : Residence) (clk : Nat) (s : State) : State :=
  { s with clusters := [(0, { Place.cluster with residence := r })], time := { s.time with clk := clk } }

theorem test_drain_ends : let s := residing (.draining 0) 262144 ready
    let c := { Place.cluster with residence := .draining 0 }
    s.cluster 0 = some c ∧ c.teams = [0] ∧ s.team 0 = some Place.team ∧ s.drainStart c = some 0 ∧ s.drained false c = true ∧
    0 + 2 ^ 18 ≤ s.time.clk ∧ s.drained true c = true := by decide +kernel

/-- A cluster of two teams, each with a group, drains; a group of it has a store in flight at the bound, or none. -/
def pair : State :=
  let s := residing (.draining 0) 262144 ready
  { s with
    clusters := s.clusters.update 0 fun c => { c with teams := [0, 1] }
    teams := [(0, Place.team), (1, { Place.team with index := 1, rank := 1, core := 1, slots := [128] })]
    slots := [(0, Place.group false), (128, { Place.group false with teamKey := 1 })] }

theorem test_pair_drains : (pair.cluster 0).map (fun c => (c.teams, (pair.drainStart c).isSome, pair.drained false c, pair.drained true c)) =
      some ([0, 1], true, true, true) ∧ ([0, 1] : List Nat).Nodup ∧
    ([0, 1].Pairwise fun i j => ∀ x ∈ pair.team i, ∀ y ∈ pair.team j, ∀ k ∈ x.slots, k ∉ y.slots) := by decide +kernel

theorem test_defer_ends : let s := residing (.stopping 1) 65537 handling
    s.group 0 = some (cx handling).g ∧ s.team (cx handling).g.teamKey = some Place.team ∧ Place.team.cluster = 0 ∧
    (cx handling).g.tm = true ∧ (cx handling).g.entered < 1 ∧ 1 + s.sys.defer ≤ s.time.clk := by decide +kernel

theorem test_residence_returns : let c := { Place.cluster with residence := .saved 0, timer := 9 }
    let s : State := { ready with clusters := [(0, c)], teams := [(0, { Place.team with begun := true })], time := { ready.time with clk := 9 } }
    s.launch c.launch = some Place.launch ∧ c.claim = [] ∧ c.timer ≤ s.time.clk ∧ (s.teamsOf c).any (·.begun) = true ∧
    (Place.desc.rectangles.filter fun r => r.all (s.qualifies Place.launch)) = [[0]] ∧
    (Place.desc.rectangles.filter fun r => r.all (s.qualifies { Place.launch with withheld := [0] })) = [] := by decide +kernel

/-- The device in a start-up state, with the result of its check. -/
def booting (b : Boot) (ok : Bool) : State :=
  { State.reset with sys := { State.reset.sys with boot := b }, input := { ok := ok, values := [1, 2] } }

theorem test_start_up : Memory.wf State.reset.mem = true ∧ (∀ b ∈ [Boot.bist, .train, .fetch, .verify, .recover, .fuse, .retain], ∀ ok,
    (booting b ok).sys.boot = b ∧ (booting b ok).input.ok = ok ∧ (booting b ok).streams = [] ∧ Memory.wf (booting b ok).mem = true) ∧
    (booting .bist true).sys.boot ≠ .train := by decide

/-- An image of three bytes behind its signature, and the key it verifies under: that of the example of the SM2 standard;
the signature has been computed outside the model. -/
def signedBytes : List Byte :=
  leBytes 32 0x6bb3ed65f17c057233f706926a88e39882c5f3656afa33b178e1aef8bd604353 ++
  leBytes 32 0xca87b41d63d72ee64b51b294fe2a5f64a4cb55fe016758aa2c2451dc09997723 ++ [0x61, 0x62, 0x63]
def imageKey : Nat × Nat := (0x9f9df311e5421a150dd7d161e4bc5c672179fad1833fc076bb08ff356f35020,
  0xccea490ce26775a52dc6ea718cc1aa600aed05fbf35e084a6632f6072da9ad13)

/-- R320: the image verifies under that key. -/
theorem test_image_verifies : Sm2.accepts imageKey (signedBytes.take 64) (signedBytes.drop 64) = true := by decide +kernel

/-- The device in VERIFY with such an image. -/
theorem test_image_brought : let s : State := { booting .verify true with
      input := { ok := true, values := signedBytes.map BitVec.toNat }
      sys := { (booting .verify true).sys with sexton := { rom := [], sram := [], key := 0, imageKey := imageKey } } }
    s.sys.boot = .verify ∧ s.input.ok = true ∧ s.streams = [] ∧ Memory.wf s.mem = true ∧
    s.input.values.map (BitVec.ofNat 8) = signedBytes ∧ s.sys.sexton.imageKey = imageKey ∧
    Sm2.accepts (booting .verify true).sys.sexton.imageKey [1, 2] [] = false := by decide +kernel

theorem test_host_access : let s := ready
    s.sys.boot = .run ∧ s.input.values = [] ∧ 0x40000 + 64 ≤ hbmSize ∧ s.regionHeld 0x40000 2 = false ∧ s.mem.pending = [] ∧ s.reaches hostBlock 0x40000 2 = true ∧
    s.reaches hostBlock 0x40000 64 = true ∧ s.sys.portsDown.contains (homeSlice 0x40000 % 32) = false ∧
    s.reaches (portBlock 0x40000) 0x40000 4 = true ∧
    (let u : State := { s with sys := { s.sys with regions := [(0, 0x10000000000040004)] }, mem := { s.mem with poison := [0x50000] } }
     u.reaches hostBlock 0x40000 64 = false ∧ u.reaches (portBlock 0x40000) 0x40000 4 = false ∧ u.mem.poisoned 0x50000 4 = true ∧
      u.reaches hostBlock 0x50000 64 = true) ∧
    (∀ r ∈ s.mem.reqs, r.2.src ≠ .peer) ∧ peerAtom 0 = .add ∧ peerSize (.atomic 0 .bf16x2 5 0) = 4 ∧
    s.mem.poisoned 0x40000 4 = false ∧ peerSize (.atomic 0 .i32 5 0) = 4 ∧ (∀ ret, peerSize (.operator 0 .i32 0 5 ret) = 4) ∧ (∀ q ∈ s.mem.ops, q.2.kind ≠ .engineRead) ∧
    peerSize (.write [1, 2]) = 2 ∧ peerSize (.read 2) = 2 := by decide +kernel

/-- The writing block is secure or not, and the world of a block is to change. -/
theorem test_writers : let s (n : Nat) : State := { State.reset with input := { ok := true, values := [n] } }
    (s sextonBlock).secureBlock ((s sextonBlock).input.values.headD 613) = true ∧
    (s hostBlock).secureBlock ((s hostBlock).input.values.headD 613) = false := by decide

theorem test_power : quadrantPowerOk ready 0 .off = false ∧  (∀ p ∈ [PowerState.on, .gate], corePowerOk (booting .run true) 3 p = true) ∧ corePowerOk ready 0 .gate = false ∧
    quadrantPowerOk (booting .run true) 2 (.throt 7) = true ∧ (booting .run true).input.values = 1 :: [2] ∧
    ready.group 0 = some (Place.group false) ∧ 0x40000 < hbmSize := by decide +kernel

theorem test_steps_keep_memory : ∃ t, step (State.reset.withFetchWord 32 0x88000000) = .next t := ⟨_, rfl⟩

/-! ## Worked values of the spec -/

/-- The group that `i` leaves under the modes `gm`, with `a`, `b` and `d` in v1, v2 and v3 of every lane. -/
def ran (gm a b d : Word) (i : Instr) : Group :=
  groupAfter (exec i (readyBut fun g => regBe 1 a (regBe 2 b (regBe 3 d (gmBe gm g)))))

/-- The value of v3 in lane 5, and the flags in GS. -/
def v3Of (gm a b d : Word) (i : Instr) : Word × Word :=
  let g := ran gm a b d i
  (g.reg 3 5, g.modes.gs)

/-- R327. -/
theorem test_abs : v3Of 0x86 0x80FF0105 0 0 (.abs 3 1) = (0x7F010105, 0) := by decide +kernel

/-- R328. -/
theorem test_add : [0x06, 0x86, 0x07, 0x87].map (fun gm => (v3Of gm 0x7F8010FF 0x01FFF002 0 (.add 3 1 2)).1) =
    [0x807F0001, 0x7F800001, 0x807F0001, 0x80FFFFFF] := by decide +kernel

/-- R329: adding -1 to 0 under n32. -/
theorem test_addi : [0x01, 0x81].map (fun gm => (v3Of gm 0 0 0 (.addi 3 0xFFFF)).1) = [0xFFFFFFFF, 0] := by decide +kernel

/-- R412. -/
theorem test_sub : [0x04, 0x84, 0x05, 0x85].map (fun gm => (v3Of gm 0x80000005 0x00010007 0 (.sub 3 1 2)).1) =
    [0x7FFFFFFE, 0x8000FFFE, 0x7FFFFFFE, 0x7FFF0000] := by decide +kernel

/-- R382. -/
theorem test_mul : [0x00, 0x80].map (fun gm => (v3Of gm 0x10000 0x10000 0 (.mul 3 1 2)).1) = [0, 0x7FFFFFFF] := by
  decide +kernel

/-- R382. -/
theorem test_mulhi : v3Of 0 0xFFFFFFFF 2 0 (.mulhi 3 1 2) = (0xFFFFFFFF, 0) ∧
    v3Of 1 0xFFFFFFFF 0xFFFFFFFF 0 (.mulhi 3 1 2) = (0xFFFFFFFE, 0) := by decide +kernel

/-- R382. -/
theorem test_madlo : [0x00, 0x80].map (fun gm => (v3Of gm 4 8 0x7FFFFFF0 (.madlo 3 1 2)).1) = [0x80000010, 0x7FFFFFFF] := by
  decide +kernel

/-- R382. -/
theorem test_min_max : [6, 7].map (fun gm => (v3Of gm 0x80FF0105 0x7F010207 0 (.min 3 1 2)).1) = [0x80FF0105, 0x7F010105] ∧
    [6, 7].map (fun gm => (v3Of gm 0x80FF0105 0x7F010207 0 (.max 3 1 2)).1) = [0x7F010207, 0x80FF0207] := by decide +kernel

/-- R392. -/
theorem test_neg : v3Of 0x86 0x80FF0105 0 0 (.neg 3 1) = (0x7F01FFFB, 0) ∧ v3Of 1 5 0 0 (.neg 3 1) = (0xFFFFFFFB, 0) := by
  decide +kernel

/-- R392. -/
theorem test_not_and_popc : v3Of 8 0x3F800000 0 0 (.not 3 1) = (0xC07FFFFF, 0) ∧
    v3Of 6 0x80FF0105 0 0 (.popc 3 1) = (0x01080102, 0) := by decide +kernel

/-- R402: SHR, SHA and SHL of 32 bits. -/
theorem test_shifts : v3Of 0 0x80000000 31 0 (.shr 3 1 2) = (1, 0) ∧ v3Of 1 0x80000000 32 0 (.sha 3 1 2) = (0xFFFFFFFF, 0) ∧
    v3Of 1 1 33 0 (.shl 3 1 2) = (0, 0) := by decide +kernel

/-- R402: packed counts. -/
theorem test_packed_shifts : v3Of 4 0x80007FFF 0x00040010 0 (.sha 3 1 2) = (0xF8000000, 0) ∧
    v3Of 6 0x81014003 0x07090102 0 (.rol 3 1 2) = (0xC002800C, 0) := by decide +kernel

/-- R339. -/
theorem test_bfx : [(0x01, 0x0C08), (0x00, 0x0C08), (0x00, 0x081C)].map (fun (gm, b) => (v3Of gm 0xDEADBEEF b 0 (.bfx 3 1 2)).1) =
    [0xDBE, 0xFFFFFDBE, 0xFFFFFFFD] := by decide +kernel

/-- R339. -/
theorem test_bfi : [0x0C14, 0x0C18].map (fun b => (v3Of 0 0xABC b 0 (.bfi 3 1 2)).1) = [0xABC00000, 0xBC000000] := by
  decide +kernel

/-- R341, R349. -/
theorem test_brev_and_clz : v3Of 6 0x01020380 0 0 (.brev 3 1) = (0x8040C001, 0) ∧
    v3Of 4 0x00018000 0 0 (.clz 3 1) = (0x000F0000, 0) := by decide +kernel

/-- R350. -/
theorem test_cmp : [0, 1].map (fun gm => (v3Of gm 0xFFFFFFFF 1 7 (.cmpLt 3 1 2)).1) = [1, 0] := by decide +kernel

/-- R358: 2^24 + 1 is inexact. -/
theorem test_fadd : v3Of 8 0x4B800000 0x3F800000 0 (.fadd 3 1 2) = (0x4B800000, 0x10) := by decide +kernel

/-- R366: the product is not rounded before the sum. -/
theorem test_fma : v3Of 8 0x3F800800 0x3F800800 0xBF801000 (.fma 3 1 2) = (0x33800000, 0) := by decide +kernel

/-- R367. -/
theorem test_fmin_fmax : v3Of 8 0 0x80000000 0 (.fmin 3 1 2) = (0x80000000, 0) ∧
    v3Of 8 0x3F800000 0x7F800001 0 (.fmax 3 1 2) = (0x7FC00000, 1) := by decide +kernel

/-- R368: element 0 overflows. -/
theorem test_fmul : v3Of 11 0x3C007BFF 0x3C004000 0 (.fmul 3 1 2) = (0x3C007C00, 0x14) := by decide +kernel

/-- R369: a subnormal result, kept or flushed. -/
theorem test_frcp : v3Of 8 0x7F000000 0 0 (.frcp 3 1) = (0x00400000, 0) ∧ v3Of 0x108 0x7F000000 0 0 (.frcp 3 1) = (0, 0x18) := by
  decide +kernel

/-- R370, R372. -/
theorem test_roots : v3Of 8 0x40800000 0 0 (.frsq 3 1) = (0x3F000000, 0) ∧ v3Of 8 0x41100000 0 0 (.fsqrt 3 1) = (0x40400000, 0) ∧
    v3Of 8 0xBF800000 0 0 (.fsqrt 3 1) = (0x7FC00000, 1) := by decide +kernel

/-- R364, R365, R371. -/
theorem test_functions : v3Of 8 0xC3150000 0 0 (.fex2 3 1) = (1, 0) ∧ v3Of 8 0x41000000 0 0 (.flg2 3 1) = (0x40400000, 0) ∧
    v3Of 8 0x80000000 0 0 (.fsin 3 1) = (0x80000000, 0) := by decide +kernel

/-- R359. -/
theorem test_fclass : v3Of 10 0x7F810001 0 0 (.fclass 3 1) = (0x01000020, 0) := by decide +kernel

/-- R352: to integers and between formats. -/
theorem test_cvt : v3Of 0 0x40200000 0 0 (.cvt 3 1 .f32) = (2, 0x10) ∧ v3Of 0 0x4F32D05E 0 0 (.cvt 3 1 .f32) = (0x7FFFFFFF, 1) ∧
    v3Of 10 0x3F808000 0 0 (.cvt 3 1 .f32) = (0x3F80, 0x10) ∧ v3Of 8 0xFF 0 0 (.cvt 3 1 .rn8) = (0x7FC00000, 0x80) := by
  decide +kernel

/-- R401. -/
theorem test_residue : v3Of 12 0xFFFD03E8 0 0 (.rnenc 3 1) = (0x7BBC2908, 0) ∧ v3Of 12 0x7BBC2908 0 0 (.rndec 3 1) = (0xFFFD03E8, 0) ∧
    v3Of 13 0x64 0 0 (.rnenc 3 1) = (0x40, 0x80) ∧ v3Of 0x8D 0x64 0 0 (.rnenc 3 1) = (0xD1, 0x80) := by decide +kernel

/-- The guard of the examples of R398 and R423: bit 0 of v0 in lanes 0, 1, 3, 4 and 6. -/
def guardedBy (f : Group → Group) (i : Instr) : Group :=
  groupAfter (exec i (readyBut fun g => f (lanesBe 0 1 [0, 1, 3, 4, 6] (gmBe 0x20000 g))))

/-- v3 holds l + 1 in lane l. -/
def countUp (g : Group) : Group := (List.range 16).foldl (fun g l => lanesBe 3 (BitVec.ofNat 32 (l + 1)) [l] g) g

/-- R398. -/
theorem test_reduce_and_scan :
    [(Instr.reduce 3 3 .add), .scan 3 3 false .add, .scan 3 3 true .add].map (fun i =>
      (List.range 8).map fun l => ((guardedBy countUp i).reg 3 l).toNat) =
    [[19, 19, 3, 19, 19, 6, 19, 8], [1, 3, 3, 7, 12, 6, 19, 8], [0, 1, 3, 3, 7, 6, 12, 8]] := by decide +kernel

/-- R423: the predicate holds in lanes 1, 3 and 5. -/
theorem test_vote : let g := guardedBy (lanesBe 2 1 [1, 3, 5]) (.vote 4 2)
    g.reg 4 0 = 0x0000000A ∧ g.reg 5 0 = 0 := by decide +kernel

/-- R375: three strands of a divergent gang. -/
theorem test_getx : let g := groupAfter (exec (.getx 4) (readyBut fun g => { g with strands :=
      [{ g.strand 0 with exec := 0b1010 }, { g.strand 1 with pc := 0x900 }, { g.strand 2 with exec := 0b1111 },
       { g.strand 3 with exec := 0b1101 }] }))
    (g.reg 4 0, g.reg 5 0, g.reg 4 4, g.reg 4 8) = (0x0000DF0A, 0, 0, 0x0000DF0A) := by decide +kernel

/-- R405: at 0x2008 of the example, the strands keep the lanes of 0xF0F5. -/
theorem test_setx : let g := groupAfter (exec (.setx 4) (readyBut (regBe 4 0xF0F5)))
    g.strands.map (fun t => (t.exec, t.stack)) = [(5, [.path (Place.body + 4) 10]), (15, []), (15, []), (15, [])] := by
  decide +kernel

/-- R406: an exclusive-or shuffle swaps neighbours. -/
theorem test_shfl : let g := groupAfter (exec (.shflXor 3 3 2) (readyBut fun g => regBe 2 1 (countUp g)))
    (List.range 4).map (fun l => (g.reg 3 l).toNat) = [2, 1, 4, 3] := by decide +kernel


/-- R321: a signature with the key and the nonce of the SM2 standard's own example. -/
theorem test_sm2 : Sm2.signWith 0x3945208F7B2144B13F36E38AC6D39F95889393692860B51A42FB81EF4DF7C5B8
    0xF0B43E94BA45ACCAACE692ED534382EB17E6AB5A19CE7B31F4486FDFC0D28640
    0x59276E27D506861A16680F3AD9C02DCCEF3CC1FA3CDBE4CE6D54B80DEAC1BC21 =
    some (0xF5A03B0648D2C4630EEAC513E1BB81A15944DA3827D5B74143AC7EACEEE720B3,
     0xB1B6AA29DF212FD8763182BC0D421CA1BB9038FD1F7F42D4840B69C485BBC1AA) := by decide +kernel

end
end

/-!
PROOFS. The statements on the execution model: BRV and the strands that it parts (R39).
-/
namespace Sys2Proof.Machine

open Sys2Proof

/-! ## Branches and strands (R37, R39, R119) -/

/-- The target of a branch is counted in words from its own address (R119). -/
theorem branchTarget_eq_ofInt (p : VAddr) (off : BitVec 16) :
    branchTarget p off = BitVec.ofInt 52 (p.toNat + 4 * off.toInt) := by
  unfold branchTarget
  have hp : BitVec.ofInt 52 (p.toNat : Int) = p := by simp
  rw [BitVec.ofInt_add, BitVec.ofInt_mul, hp]
  rfl

/-- Strands that have each been changed stand in what holds of each of them, and the rest of the group is kept. -/
theorem strands_modStrands {g : Group} {is : List Nat} {f : Nat → Strand → Strand} {rel : Nat → Strand → Strand → Prop}
    (changed : ∀ i ∈ is, rel i (g.strand i) (f i (g.strand i))) (kept : ∀ i, i ∉ is → rel i (g.strand i) (g.strand i)) :
    Strands g (g.modStrands is f) rel where
  each i hi := by
    rw [strand_modStrands g is f i hi]
    by_cases h : i ∈ is
    · rw [if_pos h]; exact changed i h
    · rw [if_neg h]; exact kept i h
  same := List.length_mapIdx
  rest := rfl

/-! ## One strand at a BRV (R39) -/

section
variable {p target : VAddr} {act tk : BitVec 4} {t : Strand}

/-- A strand whose active lanes all take the branch goes to its target. -/
theorem brvStrand_of_all (h0 : tk ≠ 0) (h : tk = act) : brvStrand p target act tk t = t.jump target := by
  have hall : (act != 0 && tk == act) = true := by simpa [← h] using h0
  rw [brvStrand, if_pos hall]

/-- A strand of which no lane takes the branch goes on. -/
theorem brvStrand_of_none (h : tk = 0) : brvStrand p target act tk t = t.jump (p + 4) := by
  have hall : ¬ (act != 0 && tk == act) = true := by
    rw [Bool.and_eq_true, bne_iff_ne, beq_iff_eq, h]
    exact fun ⟨hne, he⟩ => hne he.symm
  rw [brvStrand, if_neg hall, if_pos (beq_iff_eq.mpr h)]

/-- A strand that is parted goes on without the lanes that take the branch, which a PATH keeps. -/
theorem brvStrand_of_some (h0 : tk ≠ 0) (h : tk ≠ act) : brvStrand p target act tk t =
    { t.jump (p + 4) with exec := t.exec &&& ~~~tk, stack := t.stack ++ [.path target tk] } := by
  have hall : ¬ (act != 0 && tk == act) = true := by
    rw [Bool.and_eq_true, beq_iff_eq]
    exact fun e => h e.2
  rw [brvStrand, if_neg hall, if_neg (mt beq_iff_eq.mp h0)]

end

/-! ## The gang at a BRV (R39) -/

/-- The active lanes that take a BRV: those whose predicate is 1. -/
def Ctx.taken (c : Ctx) (p : Reg) : List Nat := c.lanes.filter fun l => (c.g.reg p.toNat l).getLsbD 0

/-- Whether a BRV parts strand `i`: some of its active lanes take it, and some do not. -/
def Ctx.brvParts (c : Ctx) (p : Reg) (i : Nat) : Bool :=
  strandMask i (c.taken p) != 0 && strandMask i (c.taken p) != strandMask i c.lanes

/-- The strands that a BRV would part and whose stacks are full. -/
def Ctx.brvFull (c : Ctx) (p : Reg) : List Nat :=
  c.gang.filter fun i => c.brvParts p i && decide (16 ≤ (c.g.strand i).stack.length)

/-- The group after a BRV that finds room on the stacks. -/
def Ctx.branched (c : Ctx) (p : Reg) (target : VAddr) : Group :=
  c.g.modStrands c.gang fun i t => brvStrand c.pc target (strandMask i c.lanes) (strandMask i (c.taken p)) t

section
variable {s : State} {c : Ctx} {p : Reg} {off : BitVec 16} {i : Nat}

/-- Every active lane of a strand takes the branch where the two masks agree. -/
theorem strandMask_taken_eq_lanes :
    strandMask i (c.taken p) = strandMask i c.lanes ↔ ¬ ∃ l ∈ c.lanes, l / 4 = i ∧ l ∉ c.taken p :=
  strandMask_eq i _ _ fun _ hl => (List.mem_filter.mp hl).1

/-- The model compares masks where R39 speaks of lanes. -/
theorem brvParts_iff : c.brvParts p i = true ↔
    (∃ l ∈ c.taken p, l / 4 = i) ∧ ∃ l ∈ c.lanes, l / 4 = i ∧ l ∉ c.taken p := by
  simp only [Ctx.brvParts, Bool.and_eq_true, bne_iff_ne, ne_eq, strandMask_eq_zero, strandMask_taken_eq_lanes, Classical.not_not]

/-- The strands that make the whole BRV trap with DIVSTK (R39). -/
theorem mem_brvFull : i ∈ c.brvFull p ↔ i ∈ c.gang ∧
    ((∃ l ∈ c.taken p, l / 4 = i) ∧ ∃ l ∈ c.lanes, l / 4 = i ∧ l ∉ c.taken p) ∧ 16 ≤ (c.g.strand i).stack.length := by
  simp only [Ctx.brvFull, List.mem_filter, Bool.and_eq_true, decide_eq_true_eq, brvParts_iff]

/-- What a BRV that issues does: it branches where every strand that it parts has room, and else it traps. -/
theorem exec_brv (h : Issues s c { Needs.ending [.one p] with guard := true }) : exec (.brv p off) s =
    if (c.brvFull p).isEmpty then retire (s.setGroup c.slot (c.branched p (branchTarget c.pc off))) c
    else trapLanes s c .divstk ((c.taken p).filter fun l => (c.brvFull p).contains (l / 4)) := by
  show execBrv p off s = _
  unfold execBrv
  rw [checked_issues _ _ h]
  rfl

/-- What a BRV leaves of each strand of the group. -/
theorem branched_strands (target : VAddr) : Strands c.g (c.branched p target) fun i t u =>
    (i ∉ c.gang → u = t) ∧
    (i ∈ c.gang → (∃ l ∈ c.taken p, l / 4 = i) → ¬ c.brvParts p i → u = t.jump target) ∧
    (i ∈ c.gang → (¬ ∃ l ∈ c.taken p, l / 4 = i) → u = t.jump (c.pc + 4)) ∧
    (i ∈ c.gang → c.brvParts p i → ∃ m, MaskOf i (c.taken p) m ∧
      u = { t.jump (c.pc + 4) with exec := t.exec &&& ~~~m, stack := t.stack ++ [.path target m] }) := by
  refine strands_modStrands (fun i hi => ⟨fun hn => absurd hi hn, fun _ hs hp => ?_, fun _ hn => ?_, fun _ hp => ?_⟩)
    (fun i hi => ⟨fun _ => rfl, fun h => absurd h hi, fun h => absurd h hi, fun h => absurd h hi⟩)
  · have h0 : strandMask i (c.taken p) ≠ 0 := fun h => (strandMask_eq_zero i _).mp h hs
    exact brvStrand_of_all h0 (strandMask_taken_eq_lanes.mpr fun h => hp (brvParts_iff.mpr ⟨hs, h⟩))
  · exact brvStrand_of_none ((strandMask_eq_zero i _).mpr hn)
  · obtain ⟨hs, hn⟩ := brvParts_iff.mp hp
    exact ⟨_, maskOf_strandMask i _, brvStrand_of_some (fun h => (strandMask_eq_zero i _).mp h hs)
      fun h => strandMask_taken_eq_lanes.mp h hn⟩

end

/-- Settles O20: where no strand that is parted has a full stack, by what a BRV leaves of each strand; else the
trap names the lanes that take it in the full strands. -/
theorem brvPartsStrands : Obligations.BrvPartsStrands := by
  unfold Obligations.BrvPartsStrands
  intro s c p off hi target tk parted full
  have htarget : branchTarget c.pc off = target := branchTarget_eq_ofInt c.pc off
  have hfull : ∀ i, i ∈ c.brvFull p ↔ full i := fun _ => mem_brvFull
  rw [exec_brv hi, htarget]
  constructor
  · intro hroom hstep
    have hnone : c.brvFull p = [] := List.eq_nil_iff_forall_not_mem.mpr fun i h => hroom i ((hfull i).mp h)
    rw [hnone, List.isEmpty_nil, if_pos rfl]
    refine ⟨_, retire_leaves (c.branched p target) s c (Or.inl rfl) rfl rfl hstep, ?_⟩
    have h := branched_strands (c := c) (p := p) target
    simp only [brvParts_iff] at h
    exact h
  · rintro ⟨i, h⟩
    have hsome : ¬ (c.brvFull p).isEmpty = true := by
      rw [List.isEmpty_iff]
      exact List.ne_nil_of_mem ((hfull i).mpr h)
    rw [if_neg hsome]
    refine ⟨_, fun l => ?_, raise_trapsWith _ c.g (slot_of_stands hi.1).2.1⟩
    rw [List.mem_filter, List.contains_iff_mem, hfull]
    rfl

end Sys2Proof.Machine

/-!
PROOFS. The statements on numbers and arithmetic: shifts, rotations, counts and reversals of bits (R125, R341, R349,
R392, R402).
-/
namespace Sys2Proof.Machine

open Sys2Proof

/-! ## Instructions that raise no flag (R7) -/

/-- No flag of any lane is a trap (R67). -/
theorem flagTrap_zero (g : Group) (ls : List Nat) : flagTrap g (ls.map fun l => (l, (0 : Flags))) = none := by
  have hno : (ls.map fun l => (l, (0 : Flags))).flatMap (fun o => o.2.causes g.modes.xen) = [] := by
    rw [List.flatMap_eq_nil_iff]
    intro o ho
    obtain ⟨l, -, rfl⟩ := List.mem_map.mp ho
    simp [Flags.causes]
  unfold flagTrap
  rw [hno]
  split <;> rfl

/-- The flags of lanes that raise none. -/
theorem allFlags_zero (ls : List Nat) : allFlags (ls.map fun l => (l, (0 : Flags))) = 0 := by
  induction ls with
  | nil => rfl
  | cons l ls ih => simpa [allFlags] using ih

section
variable {i : Instr} {mk : Word → Form} {dst : Opnd} {srcs : List Opnd} {fn : List Dword → Dword}

/-- A lane-wise instruction that raises no flag writes each active lane the function's value (R7). -/
theorem vector_quiet {s : State} {c : Ctx} (h : Issues s c (Needs.regs (dst :: srcs)))
    (hform : mk c.g.modes.gm = { dst := dst, srcs := srcs, ok := true, fn := fun xs => (fn xs, 0) }) :
    vector mk s = complete s c
      (writeResults c.g dst (c.lanes.map fun l => (l, fn (srcs.map fun o => readOf c.g o l)))) := by
  unfold vector
  rw [checked_issues _ _ (by rw [hform]; exact h), hform]
  simp only [List.map_map, Function.comp_def, Form.eval]
  rw [withFlags_noTrap _ _ (flagTrap_zero c.g c.lanes)]
  have hflags : c.g.raiseFlags (allFlags (c.lanes.map fun l => (l, (0 : Flags)))) = c.g := by
    rw [allFlags_zero, raiseFlags_none]
  exact congrArg (fun g => complete s c (writeResults g dst _)) hflags

/-- A lane-wise instruction stands in what its function's value, as the destination holds it, gives for every lane. -/
theorem laneWise_of_fn {okModes : Word → Prop} {rel : Group → Nat → Dword → Prop} (hi : vectorForm i = some mk)
    (hform : ∀ gm, okModes gm → mk gm = { dst := dst, srcs := srcs, ok := true, fn := fun xs => (fn xs, 0) })
    (hrel : ∀ g l, rel g l (fitted dst.count (fn (srcs.map fun o => readOf g o l)))) :
    LaneWise i dst srcs okModes rel := by
  intro s c hm h hn
  have hc : dst.count = 1 ∨ dst.count = 2 := by
    have := count_dst i mk hi c.g.modes.gm
    rwa [hform _ hm] at this
  have hw := lanesWritten_writeResults c.g dst c.lanes (fun l => fn (srcs.map fun o => readOf c.g o l)) hc
  rw [exec_vector i mk hi, vector_quiet h (hform _ hm)]
  obtain ⟨t, ht, hr, hs⟩ := complete_retires (s := s) (writeResults c.g dst _) hn
  refine ⟨t, _, ht, hr, hs, fun l hl => ?_, hw.kept, hw.rest⟩
  rw [hw.written l hl]
  exact hrel c.g l

end

/-! ## Operands under an element type (R109) -/

theorem byEt_eq {gm : Word} {t : ElemType} (h : Gm.et gm = some t) (r : Reg) : Opnd.byEt gm r = opndOf t r := by
  unfold Opnd.byEt opndOf
  rw [h]

section
variable {i : Instr} {t : ElemType} {d a b : Reg} {rel : Group → Nat → Dword → Prop}

/-- A shift stands in what its function gives of the operand and the register of the count. -/
theorem laneWise_shift {f : ElemType → Dword → Dword → Dword} (hi : vectorForm i = some (shiftForm f d a b))
    (ht : t.isInt = true)
    (hrel : ∀ g l, rel g l (fitted (opndOf t d).count (f t (readOf g (opndOf t a) l) (readOf g (.one b) l)))) :
    LaneWise i (opndOf t d) [opndOf t a, .one b] (fun gm => Gm.et gm = some t) rel :=
  laneWise_of_fn (fn := fun xs => f t (arg xs 0) (arg xs 1)) hi
    (fun gm h => by simp only [shiftForm, etForm, h, byEt_eq h, ht]) hrel

/-- An operation on the elements of one operand that SAT does not change stands in what its function gives. -/
theorem laneWise_unary {f : ElemType → Dword → Dword} (hi : vectorForm i = some (intForm1 (fun t _ => f t) d a))
    (ht : t.isInt = true) (hrel : ∀ g l, rel g l (fitted (opndOf t d).count (f t (readOf g (opndOf t a) l)))) :
    LaneWise i (opndOf t d) [opndOf t a] (fun gm => Gm.et gm = some t) rel :=
  laneWise_of_fn (fn := fun xs => f t (arg xs 0)) hi
    (fun gm h => by simp only [intForm1, etForm, h, byEt_eq h, ht]) hrel

end

/-! ## Bits of elements (R122, R123) -/

theorem bits_pos (t : ElemType) : 0 < t.bits := by cases t <;> decide

theorem count_opndOf (t : ElemType) (r : Reg) : (opndOf t r).count = if t.wide then 2 else 1 := by
  unfold opndOf
  split <;> rfl

/-- The elements fill no more than their operand. -/
theorem bits_mul_count_le (t : ElemType) (r : Reg) : t.bits * t.count ≤ 32 * (opndOf t r).count := by
  rw [count_opndOf]
  cases t <;> decide

/-- A value's bits below the width of its operand are kept. -/
theorem getLsbD_fitted {n j : Nat} (x : Dword) (hj : j < 32 * n) :
    (fitted n x).getLsbD j = x.getLsbD j := by
  unfold fitted
  split
  · next h => simp [show j < 32 by omega, show j < 64 by omega]
  · rfl

/-- An element's bits are the operand's from b·k up. -/
theorem testBit_raw (b k j : Nat) (x : Dword) :
    (Elem.raw b k x).testBit j = (decide (j < b) && x.getLsbD (b * k + j)) := by
  rw [Elem.raw, Nat.testBit_mod_two_pow, Nat.testBit_div_two_pow, Nat.add_comm]
  rfl

/-- Elements joined hold the bits of each. -/
theorem testBit_join (b : Nat) (es : List Nat) (k : Nat) {j : Nat} (hj : j < b) :
    (Elem.join b es).testBit (b * k + j) = (es.getD k 0).testBit j := by
  induction es generalizing k with
  | nil => simp [Elem.join]
  | cons e es ih =>
    have he : e % 2 ^ b < 2 ^ b := Nat.mod_lt _ (Nat.two_pow_pos b)
    rw [Elem.join, Nat.add_comm, Nat.testBit_two_pow_mul_add _ he]
    cases k with
    | zero => simp [hj]
    | succ k =>
      have hk : b * (k + 1) + j = b + (b * k + j) := by rw [Nat.mul_succ]; omega
      rw [hk, if_neg (by omega), Nat.add_sub_cancel_left, ih k]
      rfl

section
variable {t : ElemType} {k j : Nat}

/-- An element's bits lie within its operand. -/
theorem elem_bit_lt (hk : k < t.count) (hj : j < t.bits) : t.bits * k + j < t.bits * t.count :=
  calc t.bits * k + j < t.bits * k + t.bits := by omega
    _ = t.bits * (k + 1) := (Nat.mul_succ _ _).symm
    _ ≤ t.bits * t.count := Nat.mul_le_mul_left _ hk

theorem testBit_raw_elem (hj : j < t.bits) (x : Dword) : (Elem.raw t.bits k x).testBit j = elemBit t k j x := by
  rw [testBit_raw, elemBit, decide_eq_true hj, Bool.true_and]

/-- A destination holds every element of the value written to it. -/
theorem elemBit_fitted (r : Reg) (hk : k < t.count) (hj : j < t.bits) (x : Dword) :
    elemBit t k j (fitted (opndOf t r).count x) = elemBit t k j x :=
  getLsbD_fitted x (Nat.lt_of_lt_of_le (elem_bit_lt hk hj) (bits_mul_count_le t r))

/-- An operand that has been built from its elements holds the bits of each. -/
theorem elemBit_build (f : Nat → Nat) (hk : k < t.count) (hj : j < t.bits) :
    elemBit t k j (Elem.build t f) = (f k).testBit j := by
  have h64 : t.bits * k + j < 64 :=
    Nat.lt_of_lt_of_le (elem_bit_lt hk hj) (by cases t <;> decide)
  rw [elemBit, Elem.build, BitVec.getLsbD_ofNat, decide_eq_true h64, Bool.true_and, testBit_join _ _ _ hj]
  simp [hk]

/-- An element is what it has been built as, modulo 2^b. -/
theorem raw_fitted_build (r : Reg) (f : Nat → Nat) (hk : k < t.count) :
    Elem.raw t.bits k (fitted (opndOf t r).count (Elem.build t f)) = f k % 2 ^ t.bits := by
  refine Nat.eq_of_testBit_eq fun j => ?_
  rw [Nat.testBit_mod_two_pow]
  by_cases hj : j < t.bits
  · rw [testBit_raw_elem hj, elemBit_fitted r hk hj, elemBit_build f hk hj, decide_eq_true hj, Bool.true_and]
  · rw [testBit_raw, decide_eq_false hj, Bool.false_and, Bool.false_and]

end

theorem raw_lt (b k : Nat) (x : Dword) : Elem.raw b k x < 2 ^ b := Nat.mod_lt _ (Nat.two_pow_pos b)

/-! ## Shifts and rotations of one element (R125) -/

section
variable {b x : Nat}

/-- The sign bit says whether the pattern is negative. -/
theorem testBit_sign (hb : 0 < b) (hx : x < 2 ^ b) : x.testBit (b - 1) = true ↔ 2 ^ (b - 1) ≤ x := by
  refine ⟨Nat.ge_two_pow_of_testBit, fun h => Nat.testBit_of_two_pow_le_and_two_pow_add_one_gt h ?_⟩
  rwa [Nat.sub_add_cancel hb]

/-- A negative number is wrapped by adding 2^b. -/
theorem wrap_sub {p q r : Nat} (hr : r + p = 2 ^ b) (hq : q < p) : Elem.wrap b ((q : Int) - p) = r + q := by
  have hb : (2 : Int) ^ b = (r : Int) + p := by exact_mod_cast hr.symm
  rw [Elem.wrap, hb, ← Int.add_emod_right, Int.emod_eq_of_lt (by omega) (by omega)]
  omega

/-- Two's complement divided by a power of two and wrapped: as many ones as places come in at the top. -/
theorem wrap_value_div (hb : 0 < b) (hx : x < 2 ^ b) {m : Nat} (hm : m ≤ b) :
    Elem.wrap b (Elem.value true b x / 2 ^ m) =
      2 ^ (b - m) * (if x.testBit (b - 1) then 2 ^ m - 1 else 0) + x / 2 ^ m := by
  have hp : 2 ^ b = 2 ^ (b - m) * 2 ^ m := by rw [← Nat.pow_add, Nat.sub_add_cancel hm]
  unfold Elem.value
  by_cases hs : x.testBit (b - 1) = true
  · have hlt : x / 2 ^ m < 2 ^ (b - m) := Nat.div_lt_of_lt_mul (by rw [Nat.mul_comm, ← hp]; exact hx)
    have hsum : 2 ^ (b - m) * (2 ^ m - 1) + 2 ^ (b - m) = 2 ^ b := by
      rw [hp, ← Nat.mul_succ, Nat.succ_eq_add_one, Nat.sub_add_cancel Nat.one_le_two_pow]
    have hdiv : ((x : Int) - 2 ^ b) / 2 ^ m = (x / 2 ^ m : Nat) - (2 ^ (b - m) : Nat) := by
      have hp' : (2 : Int) ^ b = 2 ^ (b - m) * 2 ^ m := by exact_mod_cast hp
      rw [hp', Int.sub_mul_ediv_right _ _ (Int.ne_of_gt (Int.pow_pos (by decide)))]
      push_cast
      rfl
    rw [if_pos hs, if_pos (by simpa using (testBit_sign hb hx).mp hs), hdiv, wrap_sub hsum hlt]
  · have hle : x / 2 ^ m < 2 ^ b := Nat.lt_of_le_of_lt (Nat.div_le_self _ _) hx
    rw [if_neg hs, if_neg (by simpa using mt (testBit_sign hb hx).mpr hs), Nat.mul_zero, Nat.zero_add, Elem.wrap]
    exact_mod_cast Nat.mod_eq_of_lt hle

variable {n j : Nat}

/-- A left shift brings zeros in below, and beyond the width nothing is left. -/
theorem testBit_shl (hj : j < b) :
    (if b ≤ n then 0 else x * 2 ^ n).testBit j = (decide (n ≤ j) && x.testBit (j - n)) := by
  split
  · rw [Nat.zero_testBit, decide_eq_false (by omega), Bool.false_and]
  · exact Nat.testBit_mul_two_pow x j n

/-- A right shift brings zeros in at the top, and beyond the width nothing is left. -/
theorem testBit_shr (hx : x < 2 ^ b) :
    (if b ≤ n then 0 else x / 2 ^ n).testBit j = (decide (j + n < b) && x.testBit (j + n)) := by
  split
  · rw [Nat.zero_testBit, decide_eq_false (by omega), Bool.false_and]
  · rw [Nat.testBit_div_two_pow]
    by_cases h : j + n < b
    · rw [decide_eq_true h, Bool.true_and]
    · rw [decide_eq_false h, Bool.false_and]
      exact Nat.testBit_lt_two_pow (Nat.lt_of_lt_of_le hx (Nat.pow_le_pow_right (by decide) (by omega)))

/-- A shift by no more than the width fills with the sign bit. -/
theorem testBit_wrap_value_div (hx : x < 2 ^ b) (hj : j < b) {m : Nat} (hm : m ≤ b) :
    (Elem.wrap b (Elem.value true b x / 2 ^ m)).testBit j =
      if j + m < b then x.testBit (j + m) else x.testBit (b - 1) := by
  have hp : 2 ^ b = 2 ^ m * 2 ^ (b - m) := by rw [← Nat.pow_add, Nat.add_sub_cancel' hm]
  have hlt : x / 2 ^ m < 2 ^ (b - m) := Nat.div_lt_of_lt_mul (hp ▸ hx)
  rw [wrap_value_div (by omega) hx hm, Nat.testBit_two_pow_mul_add _ hlt]
  by_cases h : j + m < b
  · rw [if_pos h, if_pos (by omega), Nat.testBit_div_two_pow]
  · rw [if_neg h, if_neg (by omega)]
    cases x.testBit (b - 1)
    · exact Nat.zero_testBit _
    · exact (Nat.testBit_two_pow_sub_one m _).trans (decide_eq_true (by omega))

/-- A count beyond the width acts as the width: every bit is the sign bit. -/
theorem testBit_sha (hx : x < 2 ^ b) (hj : j < b) :
    (Elem.wrap b (Elem.value true b x / 2 ^ (if b ≤ n then b else n))).testBit j =
      if j + n < b then x.testBit (j + n) else x.testBit (b - 1) := by
  split
  · rw [testBit_wrap_value_div hx hj (Nat.le_refl b), if_neg (by omega), if_neg (by omega)]
  · exact testBit_wrap_value_div hx hj (by omega)

/-- A rotation takes each bit from as many places below, around the width. -/
theorem testBit_rol (hn : n < b) (hx : x < 2 ^ b) (hj : j < b) :
    (x * 2 ^ n % 2 ^ b + x / 2 ^ (b - n)).testBit j = x.testBit ((j + (b - n)) % b) := by
  have hp : 2 ^ b = 2 ^ (b - n) * 2 ^ n := by rw [← Nat.pow_add, Nat.sub_add_cancel (Nat.le_of_lt hn)]
  have hlow : x / 2 ^ (b - n) < 2 ^ n := Nat.div_lt_of_lt_mul (hp ▸ hx)
  rw [hp, Nat.mul_mod_mul_right, Nat.mul_comm, Nat.testBit_two_pow_mul_add _ hlow]
  split
  · rw [Nat.testBit_div_two_pow, Nat.mod_eq_of_lt (by omega)]
  · next h =>
    have hwrap : j + (b - n) = (j - n) + b := by omega
    rw [Nat.testBit_mod_two_pow, hwrap, Nat.add_mod_right, Nat.mod_eq_of_lt (by omega),
      decide_eq_true (by omega), Bool.true_and]

/-! ## Counts and reversals of bits (R341, R349, R392) -/

theorem leadingZeros_le : Elem.leadingZeros b x ≤ b := by
  unfold Elem.leadingZeros
  split <;> omega

/-- Every bit that CLZ counts is zero. -/
theorem testBit_above_leading (hj : j < Elem.leadingZeros b x) : x.testBit (b - 1 - j) = false := by
  unfold Elem.leadingZeros at hj
  by_cases h0 : x = 0
  · rw [h0, Nat.zero_testBit]
  · rw [if_neg h0] at hj
    exact Nat.testBit_lt_two_pow ((Nat.log2_lt h0).mp (by omega))

/-- The bit below those that CLZ counts is set. -/
theorem testBit_leading (hx : x < 2 ^ b) (h : Elem.leadingZeros b x < b) :
    x.testBit (b - 1 - Elem.leadingZeros b x) = true := by
  by_cases h0 : x = 0
  · rw [Elem.leadingZeros, if_pos h0] at h
    omega
  · have hlog : Nat.log2 x < b := (Nat.log2_lt h0).mpr hx
    rw [Elem.leadingZeros, if_neg h0, show b - 1 - (b - 1 - Nat.log2 x) = Nat.log2 x by omega]
    exact Nat.testBit_log2 h0

theorem popCount_eq_filter (b x : Nat) : Elem.popCount b x = ((List.range b).filter fun i => x.testBit i).length := by
  rw [Elem.popCount, Elem.bitList, List.filter_map, List.length_map]
  rfl

theorem popCount_le (b x : Nat) : Elem.popCount b x ≤ b := by
  rw [popCount_eq_filter]
  exact Nat.le_trans (List.length_filter_le _ _) (Nat.le_of_eq List.length_range)

/-- One more bit comes in at the bottom of the reversal. -/
theorem reverseBits_succ (b x : Nat) :
    Elem.reverseBits (b + 1) x = 2 * Elem.reverseBits b x + (x.testBit b).toNat := by
  rw [Elem.reverseBits, Elem.bitList, List.range_succ, List.map_append, List.foldl_append]
  cases h : x.testBit b <;> simp [h, Elem.reverseBits, Elem.bitList]

/-- The reversal holds each bit at the mirrored place. -/
theorem testBit_reverseBits (b x : Nat) {j : Nat} (hj : j < b) :
    (Elem.reverseBits b x).testBit j = x.testBit (b - 1 - j) := by
  induction b generalizing j with
  | zero => omega
  | succ b ih =>
    rw [reverseBits_succ]
    cases j with
    | zero => cases h : x.testBit b <;> simp [h, Nat.testBit_zero]
    | succ j =>
      have hhalf : (2 * Elem.reverseBits b x + (x.testBit b).toNat) / 2 = Elem.reverseBits b x := by
        have := Bool.toNat_lt (x.testBit b)
        omega
      rw [Nat.testBit_add_one, hhalf, ih (by omega), show b + 1 - 1 - (j + 1) = b - 1 - j by omega]

end

/-! ## Elements after a shift or a rotation (R125, R402) -/

/-- The register of the count gives each element of a packed type its own count, and else the whole of it. -/
theorem shiftCount_readOf (t : ElemType) (g : Group) (b : Reg) (l k : Nat) :
    Elem.shiftCount t k (readOf g (.one b) l) =
      if t.count = 1 then (g.reg b.toNat l).toNat else Elem.raw t.bits k (readOf g (.one b) l) := by
  have hread : (readOf g (.one b) l).toNat % 2 ^ 32 = (g.reg b.toNat l).toNat := by
    have hlt := (g.reg b.toNat l).isLt
    simp only [readOf, Opnd.one, Group.read, if_true, BitVec.toNat_setWidth]
    omega
  rw [Elem.shiftCount, hread]

section
variable {t : ElemType} {k j : Nat} (hk : k < t.count) (hj : j < t.bits) (a c : Dword)
include hk hj

theorem elemBit_shl : elemBit t k j (Elem.shl t a c) =
    (decide (Elem.shiftCount t k c ≤ j) && elemBit t k (j - Elem.shiftCount t k c) a) := by
  rw [Elem.shl, elemBit_build _ hk hj, testBit_shl hj, testBit_raw_elem (by omega)]

theorem elemBit_shr : elemBit t k j (Elem.shr t a c) =
    (decide (j + Elem.shiftCount t k c < t.bits) && elemBit t k (j + Elem.shiftCount t k c) a) := by
  rw [Elem.shr, elemBit_build _ hk hj, testBit_shr (raw_lt _ _ _), testBit_raw, ← Bool.and_assoc, Bool.and_self]
  rfl

theorem elemBit_sha : elemBit t k j (Elem.sha t a c) =
    if j + Elem.shiftCount t k c < t.bits then elemBit t k (j + Elem.shiftCount t k c) a
    else elemBit t k (t.bits - 1) a := by
  rw [Elem.sha, elemBit_build _ hk hj, testBit_sha (raw_lt _ _ _) hj]
  split
  · next h => exact testBit_raw_elem h a
  · exact testBit_raw_elem (by omega) a

theorem elemBit_rol : elemBit t k j (Elem.rol t a c) =
    elemBit t k ((j + (t.bits - Elem.shiftCount t k c % t.bits)) % t.bits) a := by
  rw [Elem.rol, elemBit_build _ hk hj,
    testBit_rol (Nat.mod_lt _ (bits_pos t)) (raw_lt _ _ _) hj, testBit_raw_elem (Nat.mod_lt _ (bits_pos t))]

theorem elemBit_brev : elemBit t k j (Elem.brev t a) = elemBit t k (t.bits - 1 - j) a := by
  rw [Elem.brev, elemBit_build _ hk hj, testBit_reverseBits _ _ hj, testBit_raw_elem (by omega)]

end

/-! ## Elements after a count (R349, R392) -/

section
variable {t : ElemType} {k : Nat} (r : Reg) (hk : k < t.count) (a : Dword)
include hk

theorem raw_clz : Elem.raw t.bits k (fitted (opndOf t r).count (Elem.clz t a)) =
    Elem.leadingZeros t.bits (Elem.raw t.bits k a) := by
  rw [Elem.clz, raw_fitted_build r _ hk]
  exact Nat.mod_eq_of_lt (Nat.lt_of_le_of_lt leadingZeros_le Nat.lt_two_pow_self)

theorem raw_popc : Elem.raw t.bits k (fitted (opndOf t r).count (Elem.popc t a)) =
    ((List.range t.bits).filter fun j => elemBit t k j a).length := by
  rw [Elem.popc, raw_fitted_build r _ hk, Nat.mod_eq_of_lt (Nat.lt_of_le_of_lt (popCount_le _ _) Nat.lt_two_pow_self),
    popCount_eq_filter]
  exact congrArg List.length (List.filter_congr fun j hj => testBit_raw_elem (List.mem_range.mp hj) a)

end

/-- Settles O12: each instruction runs its form (`laneWise_shift`, `laneWise_unary`), and the destination holds the
elements that the form's function builds, whose bits stand in the lemmas on one element. -/
theorem shiftsAndBits : Obligations.ShiftsAndBits := by
  unfold Obligations.ShiftsAndBits
  refine ⟨fun t d a b ht => ?_, fun t d a ht => ?_⟩
  · intro bit count rule
    refine ⟨laneWise_shift rfl ht fun g l k hk j hj => ?_, laneWise_shift rfl ht fun g l k hk j hj => ?_,
      laneWise_shift rfl ht fun g l k hk j hj => ?_, laneWise_shift rfl ht fun g l k hk j hj => ?_⟩
    · rw [elemBit_fitted d hk hj, elemBit_shl hk hj, shiftCount_readOf]
    · rw [elemBit_fitted d hk hj, elemBit_shr hk hj, shiftCount_readOf]
    · rw [elemBit_fitted d hk hj, elemBit_sha hk hj, shiftCount_readOf]
    · rw [elemBit_fitted d hk hj, elemBit_rol hk hj, shiftCount_readOf]
  · intro bit rule
    refine ⟨laneWise_unary rfl ht fun g l k hk => ?_, laneWise_unary rfl ht fun g l k hk => raw_popc d hk _,
      laneWise_unary rfl ht fun g l k hk j hj => ?_⟩
    · have hpos := bits_pos t
      have hlt := raw_lt t.bits k (readOf g (opndOf t a) l)
      simp only [raw_clz d hk]
      refine ⟨leadingZeros_le, fun j hj => ?_, fun h => ?_⟩
      · exact (testBit_raw_elem (by omega) _).symm.trans (testBit_above_leading hj)
      · exact (testBit_raw_elem (by omega) _).symm.trans (testBit_leading hlt h)
    · rw [elemBit_fitted d hk hj, elemBit_brev hk hj]

end Sys2Proof.Machine

/-!
PROOFS. The statements on numbers and arithmetic: the integer operations on elements (R122 to R126, R327 to R329,
R382, R412).
-/
namespace Sys2Proof.Machine

open Sys2Proof

/-! ## Numbers of a width, wrapped and read back (R122, R124) -/

section
variable {sg : Bool} {b : Nat}

theorem wrap_lt (b : Nat) (x : Int) : Elem.wrap b x < 2 ^ b := by
  have hp : (0 : Int) < 2 ^ b := Int.pow_pos (by decide)
  have hlt : x % 2 ^ b < 2 ^ b := Int.emod_lt_of_pos x hp
  have h0 : 0 ≤ x % 2 ^ b := Int.emod_nonneg x (Int.ne_of_gt hp)
  exact (Int.toNat_lt h0).mpr (by exact_mod_cast hlt)

theorem fit_lt (sat sg : Bool) (b : Nat) (x : Int) : Elem.fit sat sg b x < 2 ^ b := by
  unfold Elem.fit
  split <;> exact wrap_lt b _

/-- A pattern read as signed or unsigned keeps its residue. -/
theorem value_emod (sg : Bool) (b n : Nat) : Elem.value sg b n % 2 ^ b = (n : Int) % 2 ^ b := by
  unfold Elem.value
  split
  · exact Int.sub_emod_right _ _
  · rfl

/-- A wrapped number read back differs by a multiple of 2^b. -/
theorem value_wrap_sub_emod (sg : Bool) (b : Nat) (x : Int) :
    (Elem.value sg b (Elem.wrap b x) - x) % 2 ^ b = 0 := by
  have h0 : 0 ≤ x % 2 ^ b := Int.emod_nonneg x (Int.ne_of_gt (Int.pow_pos (by decide)))
  refine Int.emod_eq_emod_iff_emod_sub_eq_zero.mp ?_
  rw [value_emod, Elem.wrap, Int.toNat_of_nonneg h0, Int.emod_emod]

/-- Twice the half range. -/
theorem two_pow_eq_double (hb : 0 < b) : (2 : Int) ^ b = 2 * 2 ^ (b - 1) := by
  rw [← Int.pow_succ', Nat.sub_add_cancel hb]

/-- The numbers that an element of a type holds. -/
def InRange (sg : Bool) (b : Nat) (x : Int) : Prop := Elem.lowest sg b ≤ x ∧ x ≤ Elem.highest sg b

theorem inRange_signed {x : Int} : InRange true b x ↔ -(2 ^ (b - 1)) ≤ x ∧ x < 2 ^ (b - 1) := by
  rw [← Int.le_sub_one_iff]
  rfl

theorem inRange_unsigned {x : Int} : InRange false b x ↔ 0 ≤ x ∧ x < 2 ^ b := by
  rw [← Int.le_sub_one_iff]
  rfl

/-- A pattern is read as a number of the range. -/
theorem inRange_value (hb : 0 < b) {n : Nat} (hn : n < 2 ^ b) : InRange sg b (Elem.value sg b n) := by
  have hdouble := two_pow_eq_double hb
  have hn' : (n : Int) < 2 ^ b := by exact_mod_cast hn
  unfold Elem.value
  cases sg with
  | false =>
    rw [Bool.false_and, if_neg Bool.false_ne_true, inRange_unsigned]
    exact ⟨Int.natCast_nonneg n, hn'⟩
  | true =>
    rw [inRange_signed]
    simp only [Bool.true_and, decide_eq_true_eq]
    split
    · next h =>
      have h' : (2 : Int) ^ (b - 1) ≤ n := by exact_mod_cast h
      omega
    · next h =>
      have h' : (n : Int) < 2 ^ (b - 1) := by exact_mod_cast Nat.not_le.mp h
      omega

/-- Two numbers of the range with one residue are one number. -/
theorem eq_of_inRange (hb : 0 < b) {x y : Int} (hx : InRange sg b x) (hy : InRange sg b y)
    (h : (x - y) % 2 ^ b = 0) : x = y := by
  have hdouble := two_pow_eq_double hb
  have hlt : (x - y).natAbs < ((2 : Int) ^ b).natAbs := by
    cases sg with
    | false => rw [inRange_unsigned] at hx hy; omega
    | true => rw [inRange_signed] at hx hy; omega
  exact Int.sub_eq_zero.mp (Int.eq_zero_of_dvd_of_natAbs_lt_natAbs (Int.dvd_of_emod_eq_zero h) hlt)

/-- A number of the range is read back as itself. -/
theorem value_wrap_of_inRange (hb : 0 < b) {x : Int} (hx : InRange sg b x) :
    Elem.value sg b (Elem.wrap b x) = x :=
  eq_of_inRange hb (inRange_value hb (wrap_lt b x)) hx (value_wrap_sub_emod sg b x)

/-- The lesser or the greater of two numbers of the range is one of them. -/
theorem inRange_ite {p : Prop} [Decidable p] {x y : Int} (hx : InRange sg b x) (hy : InRange sg b y) :
    InRange sg b (if p then x else y) := by
  split
  · exact hx
  · exact hy

theorem inRange_clamp (sg : Bool) (b : Nat) (x : Int) :
    InRange sg b (Elem.clamp (Elem.lowest sg b) (Elem.highest sg b) x) := by
  have hle : Elem.lowest sg b ≤ Elem.highest sg b := by
    have h1 : (0 : Int) < 2 ^ (b - 1) := Int.pow_pos (by decide)
    have h2 : (0 : Int) < 2 ^ b := Int.pow_pos (by decide)
    cases sg <;> simp only [Elem.lowest, Elem.highest, if_true, Bool.false_eq_true, if_false] <;> omega
  unfold InRange Elem.clamp
  split
  · omega
  · split <;> omega

/-- Two numbers between -h and h have a product between -h² and h². -/
theorem mul_bounds {h x y : Int} (hx : -h ≤ x ∧ x < h) (hy : -h ≤ y ∧ y < h) : -(h * h) ≤ x * y ∧ x * y ≤ h * h := by
  have hxy : (x * y).natAbs ≤ (h * h).natAbs := by
    rw [Int.natAbs_mul, Int.natAbs_mul]
    exact Nat.mul_le_mul (by omega) (by omega)
  have hsq : 0 ≤ h * h := Int.mul_nonneg (by omega) (by omega)
  omega

/-- The high half of an exact product is a number of the range (R126). -/
theorem inRange_mul_div (hb : 0 < b) {x y : Int} (hx : InRange sg b x) (hy : InRange sg b y) :
    InRange sg b (x * y / 2 ^ b) := by
  have hp : (0 : Int) < 2 ^ b := Int.pow_pos (by decide)
  cases sg with
  | false =>
    rw [inRange_unsigned] at *
    obtain ⟨hx0, hx1⟩ := hx
    obtain ⟨hy0, hy1⟩ := hy
    have hxy : x * y < 2 ^ b * 2 ^ b :=
      Int.lt_of_le_of_lt (Int.mul_le_mul_of_nonneg_left (Int.le_of_lt hy1) hx0) (Int.mul_lt_mul_of_pos_right hx1 hp)
    exact ⟨Int.ediv_nonneg (Int.mul_nonneg hx0 hy0) (Int.le_of_lt hp), Int.ediv_lt_of_lt_mul hp hxy⟩
  | true =>
    rw [inRange_signed] at *
    have hh : (0 : Int) < 2 ^ (b - 1) := Int.pow_pos (by decide)
    rw [two_pow_eq_double hb] at hp ⊢
    obtain ⟨hlo, hhi⟩ := mul_bounds hx hy
    have hsq : (0 : Int) < 2 ^ (b - 1) * 2 ^ (b - 1) := Int.mul_pos hh hh
    have hlow : -(2 ^ (b - 1)) * (2 * 2 ^ (b - 1)) = -2 * (2 ^ (b - 1) * 2 ^ (b - 1) : Int) := by
      rw [Int.mul_left_comm, Int.neg_mul, Int.mul_neg, Int.neg_mul]
    have hhigh : 2 ^ (b - 1) * (2 * 2 ^ (b - 1)) = 2 * (2 ^ (b - 1) * 2 ^ (b - 1) : Int) := Int.mul_left_comm _ _ _
    exact ⟨Int.le_ediv_of_mul_le hp (by omega), Int.ediv_lt_of_lt_mul hp (by omega)⟩

end

/-! ## Elements of a result (R123, R124) -/

section
variable {t : ElemType} {k : Nat} (r : Reg) (hk : k < t.count)

theorem inRange_elemOf (t : ElemType) (k : Nat) (x : Dword) : InRange t.signed t.bits (elemOf t k x) :=
  inRange_value (bits_pos t) (raw_lt _ _ _)

include hk in
/-- An element is what it has been built as, read in the element type. -/
theorem elemOf_fitted_build {f : Nat → Nat} (hf : f k < 2 ^ t.bits) :
    elemOf t k (fitted (opndOf t r).count (Elem.build t f)) = Elem.value t.signed t.bits (f k) := by
  rw [elemOf, raw_fitted_build r f hk, Nat.mod_eq_of_lt hf]

/-- Fit gives what R124 says. -/
theorem fits_value_fit (t : ElemType) (sat : Bool) (x : Int) :
    Fits t sat x (Elem.value t.signed t.bits (Elem.fit sat t.signed t.bits x)) := by
  unfold Fits Elem.fit
  cases sat with
  | true =>
    rw [if_pos rfl, if_pos rfl]
    exact value_wrap_of_inRange (bits_pos t) (inRange_clamp _ _ x)
  | false =>
    rw [if_neg Bool.false_ne_true, if_neg Bool.false_ne_true]
    exact value_wrap_sub_emod _ _ x

variable (sat : Bool) (x y z : Dword)
include hk

/-- An operation on the elements of one operand, fitted. -/
theorem fits_map1 (op : Int → Int) : Fits t sat (op (elemOf t k x)) (elemOf t k (fitted (opndOf t r).count
    (Elem.map1 t (fun u => Elem.fit sat t.signed t.bits (op u)) x))) := by
  rw [Elem.map1, elemOf_fitted_build r hk (fit_lt _ _ _ _)]
  exact fits_value_fit t sat _

/-- An operation on the elements of two operands, fitted. -/
theorem fits_map2 (op : Int → Int → Int) : Fits t sat (op (elemOf t k x) (elemOf t k y))
    (elemOf t k (fitted (opndOf t r).count
      (Elem.map2 t (fun u v => Elem.fit sat t.signed t.bits (op u v)) x y))) := by
  rw [Elem.map2, elemOf_fitted_build r hk (fit_lt _ _ _ _)]
  exact fits_value_fit t sat _

/-- An operation on the elements of three operands, fitted. -/
theorem fits_map3 (op : Int → Int → Int → Int) : Fits t sat (op (elemOf t k x) (elemOf t k y) (elemOf t k z))
    (elemOf t k (fitted (opndOf t r).count
      (Elem.map3 t (fun u v w => Elem.fit sat t.signed t.bits (op u v w)) x y z))) := by
  rw [Elem.map3, elemOf_fitted_build r hk (fit_lt _ _ _ _)]
  exact fits_value_fit t sat _

/-- An operation on the elements of two operands that does not leave the range is exact. -/
theorem elemOf_map2_wrap {op : Int → Int → Int} (hop : ∀ {u v}, InRange t.signed t.bits u → InRange t.signed t.bits v →
    InRange t.signed t.bits (op u v)) :
    elemOf t k (fitted (opndOf t r).count (Elem.map2 t (fun u v => Elem.wrap t.bits (op u v)) x y)) =
      op (elemOf t k x) (elemOf t k y) := by
  rw [Elem.map2, elemOf_fitted_build r hk (wrap_lt _ _)]
  exact value_wrap_of_inRange (bits_pos t) (hop (inRange_elemOf t k x) (inRange_elemOf t k y))

end

/-! ## The integer instructions (R326) -/

section
variable {i : Instr} {t : ElemType} {sat : Bool} {d a b : Reg} {rel : Group → Nat → Dword → Prop}

/-- An integer operation on one operand stands in what its function gives. -/
theorem laneWise_int1 {f : ElemType → Bool → Dword → Dword} (hi : vectorForm i = some (intForm1 f d a))
    (ht : t.isInt = true) (hrel : ∀ g l, rel g l (fitted (opndOf t d).count (f t sat (readOf g (opndOf t a) l)))) :
    LaneWise i (opndOf t d) [opndOf t a] (fun gm => Gm.et gm = some t ∧ Gm.sat gm = sat) rel :=
  laneWise_of_fn (fn := fun xs => f t sat (arg xs 0)) hi
    (fun gm ⟨h, hs⟩ => by simp only [intForm1, etForm, h, hs, byEt_eq h, ht]) hrel

/-- An integer operation on two operands stands in what its function gives. -/
theorem laneWise_int2 {f : ElemType → Bool → Dword → Dword → Dword} (hi : vectorForm i = some (intForm2 f d a b))
    (ht : t.isInt = true) (hrel : ∀ g l, rel g l (fitted (opndOf t d).count
      (f t sat (readOf g (opndOf t a) l) (readOf g (opndOf t b) l)))) :
    LaneWise i (opndOf t d) [opndOf t a, opndOf t b] (fun gm => Gm.et gm = some t ∧ Gm.sat gm = sat) rel :=
  laneWise_of_fn (fn := fun xs => f t sat (arg xs 0) (arg xs 1)) hi
    (fun gm ⟨h, hs⟩ => by simp only [intForm2, etForm, h, hs, byEt_eq h, ht]) hrel

/-- An integer operation on two operands and the old destination stands in what its function gives. -/
theorem laneWise_int3 {f : ElemType → Bool → Dword → Dword → Dword → Dword} (hi : vectorForm i = some (intForm3 f d a b))
    (ht : t.isInt = true) (hrel : ∀ g l, rel g l (fitted (opndOf t d).count
      (f t sat (readOf g (opndOf t d) l) (readOf g (opndOf t a) l) (readOf g (opndOf t b) l)))) :
    LaneWise i (opndOf t d) [opndOf t d, opndOf t a, opndOf t b] (fun gm => Gm.et gm = some t ∧ Gm.sat gm = sat) rel :=
  laneWise_of_fn (fn := fun xs => f t sat (arg xs 0) (arg xs 1) (arg xs 2)) hi
    (fun gm ⟨h, hs⟩ => by simp only [intForm3, etForm, h, hs, byEt_eq h, ht]) hrel

/-- ADDI stands in what its function gives of the old destination (R329). -/
theorem laneWise_addi {imm : BitVec 16} (ht : t.isInt = true)
    (hrel : ∀ g l, rel g l (fitted (opndOf t d).count (Elem.addi t sat imm (readOf g (opndOf t d) l)))) :
    LaneWise (.addi d imm) (opndOf t d) [opndOf t d] (fun gm => Gm.et gm = some t ∧ Gm.sat gm = sat) rel :=
  laneWise_of_fn (fn := fun xs => Elem.addi t sat imm (arg xs 0)) rfl
    (fun gm ⟨h, hs⟩ => by simp only [addiForm, etForm, h, hs, byEt_eq h, ht]) hrel

end

/-- Settles O11: each instruction runs its form (`laneWise_int1` to `laneWise_addi`), whose function fits an exact
operation on the elements (`fits_map1` to `fits_map3`) or keeps to the range (`elemOf_map2_wrap`). -/
theorem integerArithmetic : Obligations.IntegerArithmetic := by
  unfold Obligations.IntegerArithmetic
  refine ⟨fun t sat d a b imm ht => ?_, fun t sat d a b ht => ?_⟩
  · intro e rule
    refine ⟨laneWise_int2 rfl ht fun g l k hk => ?_, laneWise_int2 rfl ht fun g l k hk => ?_,
      laneWise_addi ht fun g l k hk => ?_, laneWise_int1 rfl ht fun g l k hk => ?_,
      laneWise_int1 rfl ht fun g l k hk => ?_⟩
    · exact fits_map2 d hk sat _ _ fun x y => x + y
    · exact fits_map2 d hk sat _ _ fun x y => x - y
    · exact fits_map1 d hk sat _ fun x => x + imm.toInt
    · exact fits_map1 d hk sat _ fun x => if x < 0 then -x else x
    · exact fits_map1 d hk sat _ fun x => -x
  · intro e rule
    refine ⟨laneWise_int2 rfl ht fun g l k hk => ?_, laneWise_int3 rfl ht fun g l k hk => ?_,
      laneWise_int2 rfl ht fun g l k hk => ?_, laneWise_int2 rfl ht fun g l k hk => ?_,
      laneWise_int2 rfl ht fun g l k hk => ?_⟩
    · exact fits_map2 d hk sat _ _ fun x y => x * y
    · exact fits_map3 d hk sat _ _ _ fun z x y => z + x * y
    · exact elemOf_map2_wrap d hk _ _ (op := fun x y => x * y / 2 ^ t.bits) (inRange_mul_div (bits_pos t))
    · exact elemOf_map2_wrap d hk _ _ (op := fun x y => if y < x then y else x) fun hx hy => inRange_ite hy hx
    · exact elemOf_map2_wrap d hk _ _ (op := fun x y => if x < y then y else x) fun hx hy => inRange_ite hy hx

end Sys2Proof.Machine

/-!
PROOFS. The statements on numbers and arithmetic: compares and bit fields (R339, R350).
-/
namespace Sys2Proof.Machine

open Sys2Proof

/-! ## Bit fields (R339) -/

section
variable {w n pos f x y j : Nat}

/-- A field that is read with its sign repeats its highest bit above it, and else zeros. -/
theorem testBit_wrap_value (sg : Bool) (hn : 0 < n) (hw : n ≤ w) (hf : f < 2 ^ n) (hj : j < w) :
    (Elem.wrap w (Elem.value sg n f)).testBit j = if j < n then f.testBit j else sg && f.testBit (n - 1) := by
  have hp : 2 ^ w = 2 ^ n * 2 ^ (w - n) := by rw [← Nat.pow_add, Nat.add_sub_cancel' hw]
  have hsign : decide (2 ^ (n - 1) ≤ f) = f.testBit (n - 1) := by
    rw [Bool.eq_iff_iff, decide_eq_true_eq, testBit_sign hn hf]
  unfold Elem.value
  rw [hsign]
  split
  · next hs =>
    have hsum : 2 ^ n * (2 ^ (w - n) - 1) + 2 ^ n = 2 ^ w := by
      rw [hp, ← Nat.mul_succ, Nat.succ_eq_add_one, Nat.sub_add_cancel Nat.one_le_two_pow]
    have hwrap : Elem.wrap w ((f : Int) - 2 ^ n) = 2 ^ n * (2 ^ (w - n) - 1) + f := by
      exact_mod_cast wrap_sub hsum hf
    rw [hwrap, Nat.testBit_two_pow_mul_add _ hf, hs, Nat.testBit_two_pow_sub_one]
    by_cases hjn : j < n
    · rw [if_pos hjn, if_pos hjn]
    · rw [if_neg hjn, if_neg hjn, decide_eq_true (by omega)]
  · next hs =>
    have hlt : f < 2 ^ w := Nat.lt_of_lt_of_le hf (Nat.pow_le_pow_right (by decide) hw)
    have hwrap : Elem.wrap w (f : Int) = f := by
      unfold Elem.wrap
      exact_mod_cast Nat.mod_eq_of_lt hlt
    rw [hwrap, Bool.eq_false_iff.mpr hs]
    split
    · rfl
    · exact Nat.testBit_lt_two_pow (Nat.lt_of_lt_of_le hf (Nat.pow_le_pow_right (by decide) (by omega)))

/-- A replaced field holds the new low bits, and the bits below and above it are kept. -/
theorem testBit_replaced : (x % 2 ^ pos + 2 ^ pos * (y % 2 ^ n) + 2 ^ (pos + n) * (x / 2 ^ (pos + n))).testBit j =
    if pos ≤ j ∧ j < pos + n then y.testBit (j - pos) else x.testBit j := by
  have hlow : x % 2 ^ pos < 2 ^ pos := Nat.mod_lt _ (Nat.two_pow_pos pos)
  have hmid : 2 ^ pos * (y % 2 ^ n) + x % 2 ^ pos < 2 ^ (pos + n) := by
    rw [Nat.pow_add]
    have hy : y % 2 ^ n < 2 ^ n := Nat.mod_lt _ (Nat.two_pow_pos n)
    calc 2 ^ pos * (y % 2 ^ n) + x % 2 ^ pos < 2 ^ pos * (y % 2 ^ n) + 2 ^ pos := by omega
      _ = 2 ^ pos * (y % 2 ^ n + 1) := (Nat.mul_succ _ _).symm
      _ ≤ 2 ^ pos * 2 ^ n := Nat.mul_le_mul_left _ hy
  rw [Nat.add_comm, Nat.add_comm (x % 2 ^ pos), Nat.testBit_two_pow_mul_add _ hmid, Nat.testBit_two_pow_mul_add _ hlow,
    Nat.testBit_mod_two_pow, Nat.testBit_mod_two_pow, Nat.testBit_div_two_pow]
  by_cases h1 : j < pos
  · rw [if_pos (by omega), if_pos h1, if_neg (by omega), decide_eq_true h1, Bool.true_and]
  · by_cases h2 : j < pos + n
    · rw [if_pos h2, if_neg h1, if_pos (by omega), decide_eq_true (by omega), Bool.true_and]
    · rw [if_neg h2, if_neg (by omega), Nat.sub_add_cancel (by omega)]

end

/-- Bits 7:0 and 15:8 of the specifier. -/
theorem raw_byte_readOf (g : Group) (b : Reg) (l k : Nat) :
    Elem.raw 8 k (readOf g (.one b) l) = ((g.reg b.toNat l).extractLsb' (8 * k) 8).toNat := by
  have hlt := (g.reg b.toNat l).isLt
  simp only [Elem.raw, readOf, Opnd.one, Group.read, if_true, BitVec.toNat_setWidth, BitVec.extractLsb'_toNat,
    Nat.shiftRight_eq_div_pow]
  rw [Nat.mod_eq_of_lt (Nat.lt_trans hlt (by decide))]

section
variable {t : ElemType} {j pos stop : Nat} {spec : Dword} (hpos : Elem.raw 8 0 spec = pos)
  (hstop : Nat.min (pos + Elem.raw 8 1 spec) t.bits = stop) (hj : j < t.bits)

theorem bits_le (t : ElemType) : t.bits ≤ 64 := by cases t <;> decide

theorem testBit_raw_zero (hj : j < t.bits) (x : Dword) : (Elem.raw t.bits 0 x).testBit j = x.getLsbD j := by
  rw [testBit_raw_elem hj, elemBit, Nat.mul_zero, Nat.zero_add]

theorem getLsbD_ofNat_bits (hj : j < t.bits) (m : Nat) : (BitVec.ofNat 64 m).getLsbD j = m.testBit j := by
  rw [BitVec.getLsbD_ofNat, decide_eq_true (Nat.lt_of_lt_of_le hj (bits_le t)), Bool.true_and]

include hstop in
/-- A field has bits where it begins below the width and its length is not 0. -/
theorem field_empty_iff : (decide (Elem.raw 8 1 spec = 0) || decide (t.bits ≤ pos)) = true ↔ ¬ pos < stop := by
  subst hstop
  have hmin : pos < Nat.min (pos + Elem.raw 8 1 spec) t.bits ↔ pos < pos + Elem.raw 8 1 spec ∧ pos < t.bits := Nat.lt_min
  rw [hmin, Bool.or_eq_true, decide_eq_true_eq, decide_eq_true_eq]
  omega

include hpos hstop hj

/-- BFX bit by bit (R339). -/
theorem getLsbD_bfx (a : Dword) : (Elem.bfx t a spec).getLsbD j =
    if pos < stop then (if pos + j < stop then a.getLsbD (pos + j) else t.signed && a.getLsbD (stop - 1)) else false := by
  have hle : stop ≤ t.bits := hstop ▸ Nat.min_le_right _ _
  simp only [Elem.bfx, hpos, hstop, field_empty_iff hstop]
  by_cases h : pos < stop
  · rw [if_neg (Classical.not_not.mpr h), if_pos h, getLsbD_ofNat_bits hj,
      testBit_wrap_value t.signed (by omega) (by omega) (Nat.mod_lt _ (Nat.two_pow_pos _)) hj]
    simp only [Nat.testBit_mod_two_pow, Nat.testBit_div_two_pow]
    by_cases hin : pos + j < stop
    · rw [if_pos (by omega), if_pos hin, decide_eq_true (by omega), Bool.true_and, Nat.add_comm j pos,
        testBit_raw_zero (by omega)]
    · rw [if_neg (by omega), if_neg hin, decide_eq_true (by omega), Bool.true_and,
        show stop - pos - 1 + pos = stop - 1 by omega, testBit_raw_zero (by omega)]
  · rw [if_pos h, if_neg h, BitVec.ofNat_eq_ofNat, BitVec.getLsbD_zero]

/-- BFI bit by bit (R339). -/
theorem getLsbD_bfi (d a : Dword) : (Elem.bfi t d a spec).getLsbD j =
    if pos ≤ j ∧ j < stop then a.getLsbD (j - pos) else d.getLsbD j := by
  simp only [Elem.bfi, hpos, hstop, field_empty_iff hstop]
  by_cases h : pos < stop
  · rw [if_neg (Classical.not_not.mpr h), getLsbD_ofNat_bits hj, testBit_replaced, Nat.add_sub_cancel' (Nat.le_of_lt h),
      testBit_raw_zero (by omega), testBit_raw_zero hj]
  · rw [if_pos h, if_neg (by omega)]

end

/-! ## The instructions of types with one element (R339, R350) -/

/-- One register holds a truth value. -/
theorem fitted_truth (p : Bool) : fitted 1 (if p then 1 else 0) = if p then 1 else 0 := by cases p <;> rfl

section
variable {i : Instr} {t : ElemType} {d a b : Reg} {rel : Group → Nat → Dword → Prop}
  (ht : t.isInt = true) (hc : t.count = 1)
include ht hc

theorem wholeInt_of_count_one : wholeInt t = true := by
  rw [wholeInt, ht, hc]
  rfl

/-- CMP stands in the relation of its condition, as one register holds it (R350). -/
theorem laneWise_cmp {cond : Elem.Cond} {holds : Int → Int → Bool} (hi : vectorForm i = some (cmpForm cond d a b))
    (hcond : ∀ x y, Elem.cmp t cond x y = if holds (elemOf t 0 x) (elemOf t 0 y) then 1 else 0) :
    LaneWise i (.one d) [opndOf t a, opndOf t b] (fun gm => Gm.et gm = some t) fun g l x =>
      x = if holds (elemOf t 0 (readOf g (opndOf t a) l)) (elemOf t 0 (readOf g (opndOf t b) l)) then 1 else 0 := by
  refine laneWise_of_fn (fn := fun xs => Elem.cmp t cond (arg xs 0) (arg xs 1)) hi
    (fun gm h => by simp only [cmpForm, etForm, h, byEt_eq h, wholeInt_of_count_one ht hc]) fun g l => ?_
  exact (congrArg (fitted 1) (hcond _ _)).trans (fitted_truth _)

/-- BFX stands in what its function gives of the operand and the specifier. -/
theorem laneWise_bfx (hrel : ∀ g l, rel g l (fitted (opndOf t d).count
      (Elem.bfx t (readOf g (opndOf t a) l) (readOf g (.one b) l)))) :
    LaneWise (.bfx d a b) (opndOf t d) [opndOf t a, .one b] (fun gm => Gm.et gm = some t) rel :=
  laneWise_of_fn (fn := fun xs => Elem.bfx t (arg xs 0) (arg xs 1)) rfl
    (fun gm h => by simp only [bfxForm, etForm, h, byEt_eq h, wholeInt_of_count_one ht hc]) hrel

/-- BFI stands in what its function gives of the old destination, the operand and the specifier. -/
theorem laneWise_bfi (hrel : ∀ g l, rel g l (fitted (opndOf t d).count
      (Elem.bfi t (readOf g (opndOf t d) l) (readOf g (opndOf t a) l) (readOf g (.one b) l)))) :
    LaneWise (.bfi d a b) (opndOf t d) [opndOf t d, opndOf t a, .one b] (fun gm => Gm.et gm = some t) rel :=
  laneWise_of_fn (fn := fun xs => Elem.bfi t (arg xs 0) (arg xs 1) (arg xs 2)) rfl
    (fun gm h => by simp only [bfiForm, etForm, h, byEt_eq h, wholeInt_of_count_one ht hc]) hrel

end

/-- A destination holds the lowest element's bits of the value written to it. -/
theorem getLsbD_fitted_opndOf {t : ElemType} {j : Nat} (r : Reg) (hj : j < t.bits) (x : Dword) :
    (fitted (opndOf t r).count x).getLsbD j = x.getLsbD j := by
  have hcount : 1 ≤ t.count := by cases t <;> decide
  exact getLsbD_fitted x (Nat.lt_of_lt_of_le hj (Nat.le_trans (Nat.le_mul_of_pos_right _ hcount) (bits_mul_count_le t r)))

/-- Settles O14: CMP computes the relation of its condition (`laneWise_cmp`), and BFX and BFI run their functions, whose
bits stand in `getLsbD_bfx` and `getLsbD_bfi`. -/
theorem comparesAndFields : Obligations.ComparesAndFields := by
  unfold Obligations.ComparesAndFields
  intro t d a b ht hc et v cmp pos stop bit
  have hpos : ∀ g l, Elem.raw 8 0 (readOf g (.one b) l) = pos g l := fun g l => raw_byte_readOf g b l 0
  have hstop : ∀ g l, Nat.min (pos g l + Elem.raw 8 1 (readOf g (.one b) l)) t.bits = stop g l := fun g l =>
    congrArg (fun len => Nat.min (pos g l + len) t.bits) (raw_byte_readOf g b l 1)
  refine ⟨?_, ?_, ?_, ?_, ?_, ?_⟩
  · exact laneWise_cmp (cond := .eq) (holds := fun x y => decide (x = y)) ht hc rfl fun _ _ => rfl
  · exact laneWise_cmp (cond := .ne) (holds := fun x y => decide (x ≠ y)) ht hc rfl fun _ _ => rfl
  · exact laneWise_cmp (cond := .lt) (holds := fun x y => decide (x < y)) ht hc rfl fun _ _ => rfl
  · exact laneWise_cmp (cond := .le) (holds := fun x y => decide (x ≤ y)) ht hc rfl fun _ _ => rfl
  · refine laneWise_bfx ht hc fun g l j hj => ?_
    rw [getLsbD_fitted_opndOf d hj, getLsbD_bfx (hpos g l) (hstop g l) hj]
  · refine laneWise_bfi ht hc fun g l j hj => ?_
    rw [getLsbD_fitted_opndOf d hj, getLsbD_bfi (hpos g l) (hstop g l) hj]

end Sys2Proof.Machine

/-!
PROOFS. The statements on cross-lane instructions: SHFL and BCAST (R44, R58, R338, R406).
-/
namespace Sys2Proof.Machine

open Sys2Proof

/-! ## Source lanes (R44) -/

/-- A source lane gives its register within the gang, and 0 from outside. -/
theorem setWidth_laneValue (c : Ctx) (r m : Nat) :
    (laneValue c r m).setWidth 64 = if m / 4 ∈ c.gang then c.g.read r 1 m else 0 := by
  unfold laneValue
  by_cases h : m / 4 ∈ c.gang
  · rw [if_pos (List.contains_iff_mem.mpr h), if_pos h]
    rfl
  · rw [if_neg (mt List.contains_iff_mem.mp h), if_neg h]
    rfl

/-! ## Words that write the active lanes -/

section
variable {s : State} {c : Ctx}

/-- Completing an execution after flags have been recorded, with a value for each active lane. -/
theorem complete_writes {o : Opnd} (f : Flags) (ls : List Nat) (val : Nat → Dword) (ho : o.count = 1 ∨ o.count = 2)
    (hn : NoStep c) :
    let g := writeResults (c.g.raiseFlags f) o (ls.map fun l => (l, val l))
    Leaves s c (c.past g) (complete (s.setGroup c.slot (c.g.raiseFlags f)) { c with g := c.g.raiseFlags f } g) ∧
    Flagged c f g ∧ Writes c o ls val g := by
  intro g
  have hstep : NoStep { c with g := c.g.raiseFlags f } := by
    rcases hn with h | h
    · exact Or.inl (by rw [ss_raiseFlags]; exact h)
    · exact Or.inr (by rw [tm_raiseFlags]; exact h)
  obtain ⟨hw, hf⟩ := writes_of_lanesWritten (lanesWritten_writeResults (c.g.raiseFlags f) o ls val ho)
  exact ⟨retire_leaves (c.past g) _ _ (Or.inr ⟨_, rfl⟩) rfl rfl hstep, hf, hw⟩

/-! ## SHFL (R406) -/

/-- A SHFL reads every source lane in the group as it was, and completes. -/
theorem shuffle_leaves (src : Nat → Nat → Nat → Nat) {d a b : Reg} (hi : Issues s c (Needs.regs [.one d, .one a, .one b]))
    (hn : NoStep c) : ∃ g, Leaves s c (c.past g) (shuffle src d a b s) ∧ Flagged c 0 g ∧
      Writes c (.one d) c.lanes (fun l =>
        let m := src c.g.width l (c.g.reg b.toNat l).toNat
        if m / 4 ∈ c.gang then c.g.read a.toNat 1 m else 0) g := by
  unfold shuffle
  rw [checked_issues _ _ hi]
  simp only [setWidth_laneValue]
  obtain ⟨hw, hf⟩ := writes_of_lanesWritten_none (lanesWritten_writeResults c.g (.one d) c.lanes _ (Or.inl rfl))
  exact ⟨_, complete_leaves _ hn, hf, hw⟩

/-! ## BCAST (R338) -/

/-- Without an active lane a BCAST only moves on. -/
theorem bcast_noLane {d a b : Reg} (hi : Issues s c (Needs.regs [.one d, .one a, .one b])) (hl : c.lanes = []) :
    execBcast d a b s = completeOnly s c := by
  unfold execBcast onceActive
  rw [checked_issues _ _ hi, hl, List.isEmpty_nil, if_pos rfl]

/-- With an active lane a BCAST reads its source lane from the gang's uniform lane, and traps or writes. -/
theorem bcast_lanes {d a b : Reg} (hi : Issues s c (Needs.regs [.one d, .one a, .one b]))
    (ht : NoTrap c.g (c.nur [.one b])) (hl : c.lanes ≠ []) :
    let g := c.after [.one b]
    let m := (c.uniform (.one b)).toNat
    execBcast d a b s =
      if c.g.width ≤ m then trapLanes (s.setGroup c.slot g) { c with g := g } .illopnd c.lanes
      else complete (s.setGroup c.slot g) { c with g := g } (writeResults g (.one d)
        (c.lanes.map fun l => (l, if m / 4 ∈ c.gang then c.g.read a.toNat 1 m else 0))) := by
  intro g m
  unfold execBcast onceActive
  rw [checked_issues _ _ hi, if_neg (mt List.isEmpty_iff.mp hl), uniform_noTrap _ _ ht]
  simp only [setWidth_laneValue]
  rfl

end

/-- Settles O16: each SHFL is the shuffle of its source lane (`shuffle_leaves`); BCAST moves on, traps or writes by
`bcast_noLane` and `bcast_lanes`. -/
theorem shufflesReadSourceLanes : Obligations.ShufflesReadSourceLanes := by
  unfold Obligations.ShufflesReadSourceLanes
  refine ⟨fun s c d a b hi hn => ?_, fun s c d a b ⟨hi, hn, ht⟩ => ⟨fun hl => ?_, fun hl hm => ?_, fun hl hm => ?_⟩⟩
  · intro rule
    refine ⟨?_, ?_, ?_, ?_⟩
    · exact shuffle_leaves (fun w _ t => t % w) hi hn
    · exact shuffle_leaves (fun w l t => l ^^^ (t % w)) hi hn
    · exact shuffle_leaves (fun _ l t => if t ≤ l then l - t else l) hi hn
    · exact shuffle_leaves (fun w l t => if l + t < w then l + t else l) hi hn
  · show Leaves s c _ (execBcast d a b s)
    rw [bcast_noLane hi hl]
    exact completeOnly_leaves c.g (slot_of_stands hi.1).2.1 hn
  · show ∃ g, Leaves s c (c.past g) (execBcast d a b s) ∧ _
    rw [bcast_lanes hi ht hl, if_neg (Nat.not_le.mpr hm)]
    exact ⟨_, complete_writes _ c.lanes _ (Or.inl rfl) hn⟩
  · show TrapsWith s c _ _ (execBcast d a b s)
    rw [bcast_lanes hi ht hl, if_pos hm]
    exact raise_trapsWith_set _ _

end Sys2Proof.Machine

/-!
PROOFS. The statements on cross-lane instructions: VOTE, GETX and ELECT (R355, R375, R423).
-/
namespace Sys2Proof.Machine

open Sys2Proof

/-! ## Lane masks (R56) -/

/-- Setting the bits of some lanes in a mask leaves its other bits. -/
theorem getLsbD_foldl_setLane (ls : List Nat) (m : BitVec 64) {l : Nat} (hl : l < 64) :
    (ls.foldl (fun m k => m ||| (1#64 <<< k)) m).getLsbD l = (m.getLsbD l || decide (l ∈ ls)) := by
  induction ls generalizing m with
  | nil => simp
  | cons k ls ih =>
    have hbit : (1#64 <<< k).getLsbD l = decide (l = k) := by
      rw [← BitVec.twoPow_eq, BitVec.getLsbD_twoPow, ← Bool.decide_and, decide_eq_decide]
      omega
    simp only [List.foldl_cons, ih, BitVec.getLsbD_or, hbit, Bool.or_assoc, List.mem_cons, Bool.decide_or]

theorem getLsbD_laneMask (ls : List Nat) {l : Nat} (hl : l < 64) : (laneMask ls).getLsbD l = decide (l ∈ ls) := by
  simp [laneMask, getLsbD_foldl_setLane ls _ hl]

/-! ## The order of lanes (R5, R37) -/

/-- The lanes of a gang of ascending strands ascend. -/
theorem pairwise_execLanes (g : Group) {is : List Nat} (h : is.Pairwise (· < ·)) : (g.execLanes is).Pairwise (· < ·) := by
  refine List.pairwise_flatMap.mpr ⟨fun i _ => ?_, h.imp fun {i j} hij x hx y hy => ?_⟩
  · exact List.pairwise_map.mpr ((List.pairwise_lt_range.filter _).imp fun hjk => Nat.add_lt_add_left hjk _)
  · obtain ⟨a, ha, rfl⟩ := List.mem_map.mp hx
    obtain ⟨b, -, rfl⟩ := List.mem_map.mp hy
    have ha4 : a < 4 := List.mem_range.mp (List.mem_filter.mp ha).1
    omega

/-- A list that ascends begins with its least member. -/
theorem eq_headD_iff_least {ls : List Nat} (h : ls.Pairwise (· < ·)) {l : Nat} (hl : l ∈ ls) :
    l = ls.headD 0 ↔ ∀ k ∈ ls, l ≤ k := by
  obtain ⟨a, as, rfl⟩ := List.exists_cons_of_ne_nil (List.ne_nil_of_mem hl)
  have hleast : ∀ k ∈ a :: as, a ≤ k := List.forall_mem_cons.mpr
    ⟨Nat.le_refl a, fun k hk => Nat.le_of_lt (List.rel_of_pairwise_cons h hk)⟩
  constructor
  · rintro rfl
    exact hleast
  · intro hle
    exact Nat.le_antisymm (hle a List.mem_cons_self) (hleast l hl)

section
variable {s : State} {c : Ctx}

/-- The gang that stands ready is the one at its PC. -/
theorem gang_of_stands (h : Stands s c) : c.gang = c.g.gang c.pc := by
  obtain ⟨hi, -⟩ := h
  obtain ⟨g, -, rfl⟩ := Option.map_eq_some_iff.mp hi
  rfl

/-- The active lanes of the execution that stands ready ascend. -/
theorem pairwise_lanes (h : Stands s c) : c.lanes.Pairwise (· < ·) := by
  have hgang : c.gang.Pairwise (· < ·) := by
    rw [gang_of_stands h]
    exact List.pairwise_lt_range.filter _
  exact (pairwise_execLanes c.g hgang).filter _

/-! ## Masks of a gang (R375, R423) -/

/-- Completing an execution with a lane mask written as a scalar twin writes (R57). -/
theorem complete_laneMask (d : Reg) (ls : List Nat) (hn : NoStep c) :
    let m := laneMask ls
    let g := c.g.writeLanes d.toNat 2 m (Group.gangLanes c.gang)
    Leaves s c (c.past g) (complete s c g) ∧ Flagged c 0 g ∧ (∀ l < 64, m.getLsbD l = decide (l ∈ ls)) ∧
    Writes c (.two d) (Group.gangLanes c.gang) (fun _ => m) g := by
  intro m g
  obtain ⟨hw, hf⟩ := writes_of_lanesWritten_none
    (lanesWritten_writeLanes c.g d.toNat 2 m (Group.gangLanes c.gang) (Or.inr rfl))
  exact ⟨complete_leaves g hn, hf, fun l hl => getLsbD_laneMask ls hl, hw⟩

/-- A VOTE that issues collects the active lanes whose predicate is 1 (R423). -/
theorem exec_vote {d a : Reg} (hi : Issues s c (Needs.regs [.two d, .one a])) : exec (.vote d a) s =
    complete s c (c.g.writeLanes d.toNat 2 (laneMask (c.lanes.filter fun l => (c.g.reg a.toNat l).getLsbD 0))
      (Group.gangLanes c.gang)) := by
  show execVote d a s = _
  unfold execVote
  rw [checked_issues _ _ hi]

/-- A GETX that issues collects the lanes in exec (R375). -/
theorem exec_getx {d : Reg} (hi : Issues s c (Needs.unguarded [.two d])) : exec (.getx d) s =
    complete s c (c.g.writeLanes d.toNat 2 (laneMask (c.g.execLanes c.gang)) (Group.gangLanes c.gang)) := by
  show execGetx d s = _
  unfold execGetx
  rw [checked_issues _ _ hi]

/-! ## ELECT (R355) -/

/-- An ELECT that issues marks the least of its active lanes (R355). -/
theorem exec_elect {d : Reg} (hi : Issues s c (Needs.regs [.one d])) : exec (.elect d) s =
    complete s c (writeResults c.g (.one d) (c.lanes.map fun l => (l, if ∀ k ∈ c.lanes, l ≤ k then 1 else 0))) := by
  have hfirst : (c.lanes.map fun l => (l, if l = c.lanes.headD 0 then (1 : Dword) else 0)) =
      c.lanes.map fun l => (l, if ∀ k ∈ c.lanes, l ≤ k then 1 else 0) :=
    List.map_congr_left fun l hl => by simp only [eq_headD_iff_least (pairwise_lanes hi.1) hl]
  show execElect d s = _
  unfold execElect
  rw [checked_issues _ _ hi]
  simp only [hfirst]

end

/-- Settles O17: VOTE and GETX write the mask of their lanes (`complete_laneMask`); the lane that ELECT marks is the
least active one, for the lanes of a gang ascend (`exec_elect`). -/
theorem laneMasks : Obligations.LaneMasks := by
  unfold Obligations.LaneMasks
  intro s c d a hn
  refine ⟨fun hi => ?_, fun hi => ?_, fun hi => ?_⟩
  · rw [exec_vote hi]
    have h := complete_laneMask (s := s) d (c.lanes.filter fun l => (c.g.reg a.toNat l).getLsbD 0) hn
    simp only [List.mem_filter] at h
    exact ⟨_, _, h⟩
  · rw [exec_getx hi]
    exact ⟨_, _, complete_laneMask d _ hn⟩
  · rw [exec_elect hi]
    obtain ⟨hw, hf⟩ := writes_of_lanesWritten_none (lanesWritten_writeResults c.g (.one d) c.lanes
      (fun l => if ∀ k ∈ c.lanes, l ≤ k then 1 else 0) (Or.inl rfl))
    exact ⟨_, complete_leaves _ hn, hf, hw⟩

end Sys2Proof.Machine
